-- ==== Sys2Proof/Word.lean ====
section
/-! DEFINITION. The word types of the machine: 32-bit words and addresses (spec 92 D1), bytes, halfwords. -/

namespace Sys2Proof

/-- A 32-bit register value or virtual address (R8, R26, decision D1; log 9). -/
abbrev Word := BitVec 32

/-- One byte of memory, of program text or of a cache line (R26). -/
abbrev Byte := BitVec 8

/-- One 16-bit halfword of the program text (R27). -/
abbrev Half := BitVec 16

end Sys2Proof
end

