-- ==== Sys2Proof/Config.lean ====
section
/-! DEFINITION. The configuration record `Cfg` of R4 as plain data, the block of R21 that its
functions speak of, the environment's kinds of draw, and the free values (constants with no body). -/

namespace Sys2Proof

/-- The four caches of R20, R49: primary instruction, primary data or unified primary, tertiary,
secondary, in the order of their codes 0b00 to 0b11. -/
inductive CacheName where
  | i | d | t | s
  deriving DecidableEq, Repr, Inhabited

/-- One value for each of the four caches. -/
structure PerCache (α : Type) where
  i : α
  d : α
  t : α
  s : α
  deriving DecidableEq, Repr

def PerCache.get {α : Type} (p : PerCache α) : CacheName → α
  | .i => p.i
  | .d => p.d
  | .t => p.t
  | .s => p.s

def PerCache.set {α : Type} (p : PerCache α) (c : CacheName) (v : α) : PerCache α :=
  match c with
  | .i => { p with i := v }
  | .d => { p with d := v }
  | .t => { p with t := v }
  | .s => { p with s := v }

def PerCache.all {α : Type} (v : α) : PerCache α := ⟨v, v, v, v⟩

/-- A cache block (R21): `dirty` is meaningful only when `valid`, `ptag` is the physical address of
the line divided by the way size, `data` holds the line's bytes in address order. -/
structure Block where
  valid : Bool
  dirty : Bool
  lock : Bool
  ptag : Nat
  data : List Byte
  deriving DecidableEq, Repr, Inhabited

/-- A block that is invalid, clean and unlocked, with tag 0 and `n` zero bytes: what a block reads as
that nothing has written. DESIGN CHOICE, unsafe: R105 leaves every block unspecified (log 5). -/
def Block.blank (n : Nat) : Block :=
  { valid := false, dirty := false, lock := false, ptag := 0, data := List.replicate n 0 }

/-- A run of addresses. -/
structure AddrRange where
  base : Nat
  size : Nat
  deriving DecidableEq, Repr

def AddrRange.contains (r : AddrRange) (a : Nat) : Bool :=
  decide (r.base ≤ a) && decide (a < r.base + r.size)

/-- The protections of a page that R31 says do not matter to CACHE. -/
structure Protection where
  writeProtected : Bool
  executeInhibit : Bool
  readInhibit : Bool
  deriving DecidableEq, Repr

/-- What a region of the virtual address space translates to (R30, R81, R82). -/
inductive Target where
  /-- An unmapped segment such as kseg0: the TLB is not used. -/
  | unmapped (phys : Nat) (uncached coherent : Bool)
  /-- A page with a TLB entry marked valid. -/
  | page (phys : Nat) (uncached coherent : Bool) (prot : Protection)
  /-- A page with a TLB entry marked not valid (R82). -/
  | invalid
  deriving DecidableEq, Repr

/-- One entry of the translation `Translate` of R30, in force in kernel mode, outside it, or both. An
address that no entry covers has no TLB entry. DESIGN CHOICE of form, log 11: any function of the
mode and the 32-bit address is such a list. -/
structure Region where
  base : Nat
  size : Nat
  inKernel : Bool
  inUser : Bool
  target : Target
  deriving DecidableEq, Repr

/-- The virtual addresses of a region. -/
def Region.range (r : Region) : AddrRange := ⟨r.base, r.size⟩

def Region.contains (r : Region) (a : Nat) : Bool := r.range.contains a

def Region.covers (r : Region) (kernel : Bool) (a : Nat) : Bool :=
  (if kernel then r.inKernel else r.inUser) && r.contains a

def Region.isUnmapped (r : Region) : Bool :=
  match r.target with
  | .unmapped _ _ _ => true
  | .page _ _ _ _ => false
  | .invalid => false

/-- The physical base of a region, none for an entry marked not valid. -/
def Region.phys? (r : Region) : Option Nat :=
  match r.target with
  | .unmapped p _ _ => some p
  | .page p _ _ _ => some p
  | .invalid => none

/-- One segment of `FetchPhys` (R64): virtual addresses from `base` on are fetched from physical
addresses from `phys` on. -/
structure FetchSeg where
  base : Nat
  size : Nat
  phys : Nat
  deriving DecidableEq, Repr

/-- How a tag lies in TagHi and TagLo (R16, R24). -/
inductive TagLayout where
  /-- Bit positions of the valid, dirty and lock bits and of the tag's bits (lowest first) in the
  64-bit number TagHi, TagLo; all other bits are written as 0 and ignored. -/
  | bits (valid dirty lock : Nat) (ptag : List Nat)
  /-- Any other arrangement that keeps the law of R24: the free pair `Config.tagCodec`. -/
  | other
  deriving DecidableEq, Repr

/-- Granularity and alignment of the data Index Load Tag reads (R17, R68). -/
inductive DataLayout where
  /-- The aligned four bytes around the byte index in DataLo, 0 in DataHi. -/
  | word
  /-- The aligned eight bytes around the byte index, low half in DataLo, high half in DataHi. -/
  | doubleword
  /-- Any other arrangement: the free function `Config.dataRead`. -/
  | other
  deriving DecidableEq, Repr

/-- How an index address selects a block (R23, decision D9). -/
inductive IndexLayout where
  /-- Byte index, then set, then way in the bits above. -/
  | standard
  /-- Any other arrangement: the free function `Config.indexDecode`. -/
  | other
  deriving DecidableEq, Repr

/-- What Fill does when the line is already present (R73, decision D14). -/
inductive FillOnHit where
  | refill | noChange
  deriving DecidableEq, Repr

/-- The configuration of one cache. Line bytes, sets and ways are powers of two (R4, D34), so the
exponents are what is written down. -/
structure CacheCfg where
  impl : Bool
  writeBack : Bool
  lineBits : Nat
  setBits : Nat
  wayBits : Nat
  indexUsesPhysical : Bool
  indexLayout : IndexLayout
  tagLayout : TagLayout
  dataLayout : DataLayout
  /-- The implementation-dependent operation on this cache requires an address, which must then be
  cacheable (R32, R70). -/
  implTakesAddress : Bool
  deriving DecidableEq, Repr

/-- The configuration record of R4. It is constant along a run; `State` carries it because `exec` has
no other argument (log 1). -/
structure Cfg where
  paBits : Nat
  bigEndian : Bool
  unifiedPrimary : Bool
  caches : PerCache CacheCfg
  /-- The ops, beyond the Required ones of R60, that this implementation provides. -/
  optionalOps : List Nat
  hasDataRegs : Bool
  tagRegsPerCache : Bool
  regions : List Region
  /-- The portion of the kernel address space of R83. -/
  kernelSpace : List AddrRange
  adELOnKernelAddr : Bool
  fetchMap : List FetchSeg
  watchOnCache : Bool
  outerOpsInnerFirst : Bool
  fillOnHit : FillOnHit
  fetchLockExtraLines : Bool
  /-- Read by nothing that has an effect: with one processor a broadcast reaches no other cache (R42). -/
  globalizeHitOps : Bool
  /-- Read by nothing: with one processor there is no external invalidate (R98). -/
  lockedLineDisplacedByExternal : Bool
  deriving DecidableEq, Repr

/-- The cache configuration of REFCFG for an implemented cache (D32): 32-byte lines, 128 sets, 2 ways,
`TagLo[31:12] = ptag`, `TagLo[7] = valid`, `TagLo[6] = dirty`, `TagLo[5] = lock`, DataLo an aligned word. -/
def refCacheCfg (impl writeBack : Bool) : CacheCfg :=
  { impl := impl, writeBack := writeBack, lineBits := 5, setBits := 7, wayBits := 1,
    indexUsesPhysical := false, indexLayout := .standard,
    tagLayout := .bits 7 6 5
      [12, 13, 14, 15, 16, 17, 18, 19, 20, 21, 22, 23, 24, 25, 26, 27, 28, 29, 30, 31],
    dataLayout := .word, implTakesAddress := false }

/-- kseg0 and kseg1 of REFCFG's `Translate` (D32, R33); every other address has no TLB entry. -/
def refRegions : List Region :=
  [{ base := 0x80000000, size := 0x20000000, inKernel := true, inUser := true,
     target := .unmapped 0 false false },
   { base := 0xA0000000, size := 0x20000000, inKernel := true, inUser := true,
     target := .unmapped 0 true false }]

/-- The reference configuration REFCFG (spec 92 D32): ops 0, 1, 4, 5, 8, 9, 16, 17, 20, 21, 25, 28, 29
on caches I and D. `FetchPhys` is the same segment mapping as `Translate`. -/
def refCfg : Cfg :=
  { paBits := 32, bigEndian := false, unifiedPrimary := false,
    caches := ⟨refCacheCfg true false, refCacheCfg true true, refCacheCfg false false,
      refCacheCfg false false⟩,
    optionalOps := [4, 5, 17, 20, 25, 28, 29],
    hasDataRegs := true, tagRegsPerCache := true,
    regions := refRegions,
    kernelSpace := [⟨0x80000000, 0x80000000⟩], adELOnKernelAddr := true,
    fetchMap := [⟨0x80000000, 0x20000000, 0⟩, ⟨0xA0000000, 0x20000000, 0⟩],
    watchOnCache := false, outerOpsInnerFirst := false, fillOnHit := .noChange,
    fetchLockExtraLines := false, globalizeHitOps := false,
    lockedLineDisplacedByExternal := false }

/-- Who moves next where both the processor and the drain may (R36). -/
inductive Agent where
  | processor | drain
  deriving DecidableEq, Repr, Inhabited

/-- The draw of a line transfer (R35, R37). -/
inductive TransferEvent where
  | ok | cacheError | busError
  deriving DecidableEq, Repr, Inhabited

/-- One write that an implementation-dependent operation makes (R70; log 25). -/
inductive ImplWrite where
  /-- A block of a cache; data shorter or longer than a line is padded or cut. -/
  | block (c : CacheName) (set way : Nat) (b : Block)
  | tag (c : CacheName) (lo hi : Word)
  | data (c : CacheName) (lo hi : Word)
  /-- The addresses that meet the Watch registers' match conditions (R18). -/
  | watch (ranges : List AddrRange)
  /-- Queue a writeback of the line that holds a physical address from a cache to its next level; data
  shorter or longer than a line is padded or cut. -/
  | writeback (c : CacheName) (addr : Nat) (data : List Byte)
  deriving DecidableEq, Repr, Inhabited

/-- How an implementation-dependent operation ends when it does not complete (R61 line 8, R70): with Cache
Error or Bus Error, with an exception of the implementation's own, with what R63 and R24 leave UNDEFINED or
R64 UNPREDICTABLE, or with an UNDEFINED or UNPREDICTABLE outcome of its own. -/
inductive ImplStop where
  | cacheError
  | busError
  | implementation (code : Nat)
  | allWaysLocked (c : CacheName) (set : Nat)
  | duplicateTag (c : CacheName) (set : Nat)
  | ownLine (c : CacheName)
  | undefined (code : Nat)
  | unpredictable (code : Nat)
  deriving DecidableEq, Repr, Inhabited

/-- What an implementation-dependent operation does: its writes in order, then the stop, if it stops
(R70; log 25). -/
structure ImplResult where
  writes : List ImplWrite
  stop : Option ImplStop
  deriving DecidableEq, Repr, Inhabited

/-- How many tags-with-state one tag value stands for: valid, lock and, in a write-back cache, dirty. -/
def statesPerTag (writeBack : Bool) : Nat := if writeBack then 8 else 4

/-- TagPack and TagUnpack of a cache whose tags are below `limit`, with the law of R24: unpacking what
packing gives returns the block's fields. A write-through cache has no dirty block (R4). The premise says
that the 64 bits of TagHi, TagLo can tell all tags and states apart, without which no pair has the law. -/
structure TagCodec (limit : Nat) (writeBack : Bool) where
  pack : Block → Word × Word
  unpack : Word → Word → Bool × Bool × Bool × Nat
  law : limit * statesPerTag writeBack ≤ 2 ^ 64 → ∀ b : Block, b.ptag < limit →
    (b.dirty = true → writeBack = true) →
    unpack (pack b).1 (pack b).2 = (b.valid, b.dirty, b.lock, b.ptag)

/-- The number with valid in bit 0, lock in bit 1, dirty in bit 2 of a write-back cache, the tag above. -/
def plainTagNumber (writeBack : Bool) (b : Block) : Nat :=
  b.valid.toNat + 2 * b.lock.toNat + (if writeBack then 4 * b.dirty.toNat else 0)
    + statesPerTag writeBack * b.ptag

/-- One pair with the law of R24: the plain number, low half in TagLo. -/
def TagCodec.plain (limit : Nat) (writeBack : Bool) : TagCodec limit writeBack where
  pack b := (BitVec.ofNat 32 (plainTagNumber writeBack b),
    BitVec.ofNat 32 (plainTagNumber writeBack b / 2 ^ 32))
  unpack lo hi :=
    let n := hi.toNat * 2 ^ 32 + lo.toNat
    (decide (n % 2 = 1), writeBack && decide (n / 4 % 2 = 1), decide (n / 2 % 2 = 1),
      n / statesPerTag writeBack)
  law hl b hb hw := by
    have hv := b.valid.toNat_le
    have hd := b.dirty.toNat_le
    have hk := b.lock.toNat_le
    have bit (x : Bool) (m : Nat) (h : m = x.toNat) : decide (m = 1) = x := by
      subst h; cases x <;> rfl
    cases writeBack
    · have hc : b.dirty = false := by cases h : b.dirty <;> simp_all
      have hn : BitVec.toNat (BitVec.ofNat 32 (plainTagNumber false b / 2 ^ 32)) * 2 ^ 32
          + BitVec.toNat (BitVec.ofNat 32 (plainTagNumber false b)) = plainTagNumber false b := by
        simp [statesPerTag] at hl
        simp [BitVec.toNat_ofNat, plainTagNumber, statesPerTag]
        omega
      simp only [hn, Bool.false_and]
      rw [bit b.valid _ (by simp [plainTagNumber, statesPerTag]; omega),
        bit b.lock _ (by simp [plainTagNumber, statesPerTag]; omega),
        show plainTagNumber false b / statesPerTag false = b.ptag by
          simp [plainTagNumber, statesPerTag]; omega, hc]
    · have hn : BitVec.toNat (BitVec.ofNat 32 (plainTagNumber true b / 2 ^ 32)) * 2 ^ 32
          + BitVec.toNat (BitVec.ofNat 32 (plainTagNumber true b)) = plainTagNumber true b := by
        simp [statesPerTag] at hl
        simp [BitVec.toNat_ofNat, plainTagNumber, statesPerTag]
        omega
      simp only [hn]
      rw [bit b.valid _ (by simp [plainTagNumber, statesPerTag]; omega),
        bit b.dirty _ (by simp [plainTagNumber, statesPerTag]; omega),
        bit b.lock _ (by simp [plainTagNumber, statesPerTag]; omega),
        show plainTagNumber true b / statesPerTag true = b.ptag by
          simp [plainTagNumber, statesPerTag]; omega, Bool.true_and]

/-- Free value (R24; log 21): TagPack and TagUnpack of a write-back or write-through cache with layout
`other` and tags below the limit. `none` stands for `TagCodec.plain`, itself one of them. -/
opaque Config.tagCodec : CacheName → (limit : Nat) → (writeBack : Bool) → Option (TagCodec limit writeBack)

/-- Free value (R17; log 21): DataLo and DataHi read at a byte index with layout `other`. -/
opaque Config.dataRead : CacheName → Block → Nat → Word × Word

/-- Free value (R23; log 21): set, way and byte index of an index address with layout `other`. -/
opaque Config.indexDecode : CacheName → Nat → Nat × Nat × Nat

/-- Free value (R36; log 16): how often the processor moves before the drain does, once the listed draws
are used up. -/
opaque Config.freeWait : Nat → Nat

/-- Free value (R35, R37; log 16): how a line transfer ends, once the listed draws are used up. -/
opaque Config.freeEvent : Nat → TransferEvent

/-- Free value (R63; log 16): which unlocked way a fill takes, once the listed draws are used up. -/
opaque Config.freeWay : Nat → Nat

/-- Free value (R63, R78; log 16): the further lines a Fetch and Lock touches, once the listed draws
are used up. -/
opaque Config.freeLines : Nat → List Nat

end Sys2Proof
end

