-- ==== Sys2Proof/Machine/State.lean ====
section
/-! DEFINITION. The machine's state (10_state.md), the parameters of the step relation it carries, its
value at reset, and the reasons a step can stop. -/

namespace Sys2Proof.Machine

/-- The Coprocessor 0 items the source names (R14 to R18). -/
structure Cp0 where
  /-- Access to Coprocessor 0 is enabled (R14). -/
  cp0Usable : Bool
  /-- The mode that may touch the kernel address space (R15). -/
  kernelMode : Bool
  /-- TagLo of each cache (R16). -/
  tagLo : PerCache Word
  /-- TagHi of each cache (R16). -/
  tagHi : PerCache Word
  /-- DataLo of each cache, in use when `hasDataRegs` (R17). -/
  dataLo : PerCache Word
  /-- DataHi of each cache, in use when `hasDataRegs` (R17). -/
  dataHi : PerCache Word
  /-- The addresses that meet the Watch registers' match conditions (R18; log 30). -/
  watch : List AddrRange
  deriving DecidableEq, Repr

/-- Where a writeback goes (R20, R25): an outer cache, or memory. -/
inductive Level where
  | cache (c : CacheName)
  | mem
  deriving DecidableEq, Repr

/-- One pending writeback (R25). -/
structure Writeback where
  level : Level
  addr : Nat
  data : List Byte
  deriving DecidableEq, Repr

/-- The environment's draws (R6): the next ones, oldest first, and how many free values have stood in
for draws once a list was used up (log 16). -/
structure Draws where
  /-- How often the processor moves before the drain does, while WBQ is not empty (R36). -/
  schedule : List Nat
  events : List TransferEvent
  ways : List Nat
  lines : List (List Nat)
  /-- What the next implementation-dependent operations do (R70; log 25). -/
  impl : List ImplResult
  used : Nat
  deriving DecidableEq, Repr

/-- The whole state of the machine: the record at the head of 10_state.md, then the parameters of the
step relation (`cfg`, `text`, `syncMarks`), which no step changes, then the environment's draws (log 1). -/
structure State where
  /-- The general registers (R8). -/
  regs : Vector Word 32
  /-- The virtual address of the instruction's first halfword (R11). -/
  pc : Word
  cp0 : Cp0
  /-- The blocks of each cache by block number, in canonical form (R21). -/
  caches : PerCache (List (Nat × Block))
  /-- The pending writebacks, oldest first (R25). -/
  wbq : List Writeback
  /-- Physical memory in canonical form (R26). -/
  mem : List Host.Cell
  /-- The configuration (R4). -/
  cfg : Cfg
  /-- The bytes of the program text by virtual address (R27, R28; log 7). -/
  text : List Host.Cell
  /-- The addresses before which the listing has a SyncEvent mark (R38, R116). -/
  syncMarks : List Word
  draws : Draws
  deriving DecidableEq, Repr

/-- The state after reset. WBQ is empty and x[0] is 0 (R105); `pc`, `cp0Usable` and `kernelMode` are the
MIPS32 family's (PRESUMED, log 4); every other register is 0 (DESIGN CHOICE, log 3); no block and no
byte of memory is listed (DESIGN CHOICE, logs 5, 6); the configuration is REFCFG (DESIGN CHOICE,
log 2); there is no program text until a launch gives one (log 7). -/
def State.reset : State :=
  { regs := Vector.replicate 32 0, pc := 0xBFC00000,
    cp0 := { cp0Usable := true, kernelMode := true, tagLo := .all 0, tagHi := .all 0,
             dataLo := .all 0, dataHi := .all 0, watch := [] },
    caches := .all [], wbq := [], mem := [], cfg := refCfg, text := [], syncMarks := [],
    draws := { schedule := [], events := [], ways := [], lines := [], impl := [], used := 0 } }

/-- The symbolic exception cause codes the source names (R81 to R83, R87). -/
inductive CauseCode where
  | tlbl | tlbs | adel
  deriving DecidableEq, Repr

/-- The exceptions the source names, those CACHE never raises among them (R80 to R88), with the value
each records. -/
inductive Exception where
  /-- R80; `cop` is the coprocessor number. -/
  | coprocessorUnusable (cop : Nat)
  /-- R86. -/
  | watch (vAddr : Word)
  /-- R83. -/
  | addressError (code : CauseCode) (vAddr : Word)
  /-- R81. -/
  | tlbRefill (code : CauseCode) (vAddr : Word)
  /-- R82. -/
  | tlbInvalid (code : CauseCode) (vAddr : Word)
  /-- Never raised by CACHE (R87). -/
  | tlbModified (vAddr : Word)
  /-- Never raised by CACHE (R87). -/
  | executeInhibit (vAddr : Word)
  /-- Never raised by CACHE (R87). -/
  | readInhibit (vAddr : Word)
  /-- R84. -/
  | cacheError
  /-- R85. -/
  | busError
  /-- An exception of the implementation's own, which only an operation of code 0b011 raises (R70; log 25). -/
  | implementation (code : Nat)
  deriving DecidableEq, Repr

/-- Why the machine stops in a step, with the state reported there (R92, R93, R94; logs 13, 14). -/
inductive Fault where
  /-- `Trap(E, info)` of R93, raised by `Machine.raise`: the hardware takes the exception, and the source
  does not say what it does next. Safe. -/
  | trap (e : Exception) (reported : State)
  /-- `Fault(Undefined OpNotImplemented)`, raised by line 2 of R61. Safe. -/
  | undefinedOpNotImplemented (op : BitVec 5) (reported : State)
  /-- `Fault(Undefined UncacheableAddress)`, raised by line 6 of R61. Safe. -/
  | undefinedUncacheableAddress (reported : State)
  /-- `Fault(Undefined AllWaysLocked)`, raised by a fill of a set with no unlocked way (R63), and by an
  operation of code 0b011 that says so (R70). Safe. -/
  | undefinedAllWaysLocked (c : CacheName) (set : Nat) (reported : State)
  /-- `Fault(Undefined DuplicateTag)`, raised by a lookup that two valid blocks answer (R24), and by an
  operation of code 0b011 that says so (R70). Safe. -/
  | undefinedDuplicateTag (c : CacheName) (set : Nat) (reported : State)
  /-- `Fault(Unpredictable OwnLine)`, raised by the four invalidating kinds of operation (R64), and by an
  operation of code 0b011 that says so (R70). Safe. -/
  | unpredictableOwnLine (c : CacheName) (reported : State)
  /-- An UNDEFINED outcome of the implementation's own, raised by an operation of code 0b011 alone (R61 line
  8, R70; log 25). Safe. -/
  | undefinedByImplementation (code : Nat) (reported : State)
  /-- An UNPREDICTABLE outcome of the implementation's own, raised by an operation of code 0b011 alone (R61
  line 8, R70; log 25). Safe. -/
  | unpredictableByImplementation (code : Nat) (reported : State)
  /-- A line transfer at a physical address outside the PABITS-bit space, which R26 says does not exist,
  raised by a delivery to memory or a fill from it. Safe (log 20). -/
  | outsidePhysicalSpace (addr : Nat) (reported : State)
  deriving DecidableEq, Repr

/-- Why a step has no meaning. -/
inductive Refusal where
  /-- An instruction whose meaning is not written; raised by `exec`'s arms alone. Safe. -/
  | notModelled (mnemonic : String)
  /-- `Refused(NotCache W)` of R52, raised by `step`: the source gives the word no meaning. Safe. -/
  | notCache (w : Word)
  /-- An odd pc (R11, D4), raised by `step`. Safe (log 34). -/
  | oddPc (pc : Word)
  /-- `Refused(NoProgramText)` of R27, raised by `step`. Safe. -/
  | noProgramText (addr : Word)
  /-- `Refused(BadConfig)` of R4, D34, raised by `step`. Safe (log 31). -/
  | badConfig
  deriving DecidableEq, Repr

end Sys2Proof.Machine

namespace Sys2Proof

/-- Free value (R70; logs 16, 25): `ImplOp(c)(st, vAddr, pAddr, uncached)`, what an implementation-dependent
operation on a cache does in a state, once the listed draws are used up. -/
opaque Config.implOp : CacheName → Machine.State → Word → Nat → Bool → ImplResult

end Sys2Proof
end

