-- ==== Sys2Proof/Machine/Sparse.lean ====
section
/-! DEFINITION. Sparse data by key in one canonical form: keys strictly rising, no entry equal to what an
unlisted key reads as. Memory and the cache arrays are held this way. -/

namespace Sys2Proof.Machine

/-- The value listed at a key. -/
def sparseFind {α : Type} : List (Nat × α) → Nat → Option α
  | [], _ => none
  | e :: rest, k => if e.1 = k then some e.2 else sparseFind rest k

/-- Put an entry in its place, replacing one with the same key. -/
def sparseInsert {α : Type} (k : Nat) (v : α) : List (Nat × α) → List (Nat × α)
  | [] => [(k, v)]
  | e :: rest =>
    if k < e.1 then (k, v) :: e :: rest
    else if k = e.1 then (k, v) :: rest
    else e :: sparseInsert k v rest

/-- Remove the entry at a key. -/
def sparseErase {α : Type} (k : Nat) : List (Nat × α) → List (Nat × α)
  | [] => []
  | e :: rest => if e.1 = k then rest else e :: sparseErase k rest

/-- Read a key; `d` is what an unlisted key reads as. -/
def sparseGet {α : Type} (d : α) (m : List (Nat × α)) (k : Nat) : α := (sparseFind m k).getD d

/-- Write a key: writing `d` removes the entry. -/
def sparsePut {α : Type} [DecidableEq α] (d : α) (m : List (Nat × α)) (k : Nat) (v : α) :
    List (Nat × α) :=
  if v = d then sparseErase k m else sparseInsert k v m

/-- The canonical form. -/
abbrev SparseCanonical {α : Type} (d : α) (m : List (Nat × α)) : Prop :=
  (m.map Prod.fst).Pairwise (· < ·) ∧ ∀ e ∈ m, e.2 ≠ d

end Sys2Proof.Machine
end

