-- ==== Sys2Proof/Machine/Geometry.lean ====
section
/-! DEFINITION. What the configuration alone decides: cache geometry (R22), the hierarchy (R20), which
operations exist (R60), and when a configuration is well-formed (R4, D34). -/

namespace Sys2Proof.Machine

/-- The cache named by `op[1:0]` (R49). -/
def cacheOfOp (op : BitVec 5) : CacheName :=
  match op.toNat % 4 with
  | 0 => .i
  | 1 => .d
  | 2 => .t
  | _ => .s

/-- `op[4:2]` (R48). -/
def operationCode (op : BitVec 5) : Nat := op.toNat / 4

def lineBytes (cfg : Cfg) (c : CacheName) : Nat := 2 ^ (cfg.caches.get c).lineBits

def setCount (cfg : Cfg) (c : CacheName) : Nat := 2 ^ (cfg.caches.get c).setBits

def wayCount (cfg : Cfg) (c : CacheName) : Nat := 2 ^ (cfg.caches.get c).wayBits

/-- `WaySize(c) = LB * NS` (R22). -/
def waySize (cfg : Cfg) (c : CacheName) : Nat := lineBytes cfg c * setCount cfg c

/-- `SetIdx(c, a)` (R22). -/
def setIdx (cfg : Cfg) (c : CacheName) (a : Nat) : Nat := a / lineBytes cfg c % setCount cfg c

/-- `WayIdx(c, a)` (R22). -/
def wayIdx (cfg : Cfg) (c : CacheName) (a : Nat) : Nat := a / waySize cfg c % wayCount cfg c

/-- `ByteIdx(c, a)` (R22). -/
def byteIdx (cfg : Cfg) (c : CacheName) (a : Nat) : Nat := a % lineBytes cfg c

/-- `PTagOf(c, p)` (R22). -/
def ptagOf (cfg : Cfg) (c : CacheName) (p : Nat) : Nat := p / waySize cfg c

/-- `LineOf(c, p)` (R22). -/
def lineOf (cfg : Cfg) (c : CacheName) (p : Nat) : Nat := p - p % lineBytes cfg c

/-- `LineAddr(c, s, b)`: the memory address specified by the cache tag (R22). -/
def lineAddr (cfg : Cfg) (c : CacheName) (set : Nat) (b : Block) : Nat :=
  b.ptag * waySize cfg c + set * lineBytes cfg c

/-- The set and way an index address selects, and its byte index (R23). -/
def indexDecode (cfg : Cfg) (c : CacheName) (ia : Nat) : Nat × Nat × Nat :=
  match (cfg.caches.get c).indexLayout with
  | .standard => (setIdx cfg c ia, wayIdx cfg c ia, byteIdx cfg c ia)
  | .other =>
    let r := Config.indexDecode c ia
    (r.1 % setCount cfg c, r.2.1 % wayCount cfg c, r.2.2 % lineBytes cfg c)

/-- `Cfg.Impl(c)`, less the code I of a unified primary cache, which then names no cache (R20, D27). -/
def present (cfg : Cfg) (c : CacheName) : Bool :=
  (cfg.caches.get c).impl && !(cfg.unifiedPrimary && decide (c = .i))

/-- `WriteBack(c)`; never for the instruction cache (R4, D8), for which `cfgOk` refuses it too. -/
def writeBack (cfg : Cfg) (c : CacheName) : Bool :=
  (cfg.caches.get c).writeBack && !decide (c = .i)

/-- The caches outside `c`, nearest first (R20): S is outside I and D, T outside S. -/
def outside (c : CacheName) : List CacheName :=
  match c with
  | .i => [.s, .t]
  | .d => [.s, .t]
  | .s => [.t]
  | .t => []

/-- The caches inside `c`, innermost first (R20). -/
def inside (c : CacheName) : List CacheName :=
  match c with
  | .i => []
  | .d => []
  | .s => [.i, .d]
  | .t => [.i, .d, .s]

/-- The outer caches of `c` that exist, nearest first. -/
def outerCaches (cfg : Cfg) (c : CacheName) : List CacheName := (outside c).filter (present cfg)

/-- The inner caches of `c` that exist, innermost first. -/
def innerCaches (cfg : Cfg) (c : CacheName) : List CacheName := (inside c).filter (present cfg)

/-- `NextLevel(c)` (R20). -/
def nextLevel (cfg : Cfg) (c : CacheName) : Level :=
  match outerCaches cfg c with
  | [] => .mem
  | l :: _ => .cache l

/-- The table has a row for the operation and the cache (R53, R79). -/
def opHasRow (op : BitVec 5) : Bool := !([24, 30, 31].contains op.toNat)

/-- The operations R60 lists as Required for their cache. -/
def opRequired (op : BitVec 5) : Bool :=
  [0, 8, 16, 1, 9, 21, 2, 10, 22, 3, 11, 23].contains op.toNat

/-- `Cfg.OpImplemented(op)` (R60): the Required operations of a cache that exists, and those of the
others with a row that the implementation provides (log 27). -/
def opImplemented (cfg : Cfg) (op : BitVec 5) : Bool :=
  opHasRow op && present cfg (cacheOfOp op) && (opRequired op || cfg.optionalOps.contains op.toNat)

/-- Tags are below `2^PABITS div WaySize(c)` (R24). -/
def ptagLimit (cfg : Cfg) (c : CacheName) : Nat := 2 ^ cfg.paBits / waySize cfg c

/-- The bit positions of a tag layout that a cache uses: a write-through cache uses no dirty bit (R4). -/
def usedPositions (cfg : Cfg) (c : CacheName) (v d l : Nat) (ps : List Nat) : List Nat :=
  if writeBack cfg c then v :: d :: l :: ps else v :: l :: ps

/-- A tag layout can give back every tag (the law of R24): the bit positions in use distinct, below 64, and
enough of them; in any other layout no more tags and states than the 64 bits of TagHi, TagLo tell apart. -/
def tagLayoutOk (cfg : Cfg) (c : CacheName) : Bool :=
  match (cfg.caches.get c).tagLayout with
  | .bits v d l ps =>
    decide ((usedPositions cfg c v d l ps).Nodup)
      && (usedPositions cfg c v d l ps).all (fun p => decide (p < 64))
      && decide (cfg.paBits ≤ ps.length + (cfg.caches.get c).lineBits + (cfg.caches.get c).setBits)
  | .other => decide (ptagLimit cfg c * statesPerTag (writeBack cfg c) ≤ 2 ^ 64)

/-- The conditions of R4 and D34 on one cache: size at most 2^29, tags that can be given back (R24), and
no outer cache with a shorter line (R36). -/
def cacheOk (cfg : Cfg) (c : CacheName) : Bool :=
  !present cfg c ||
    (decide ((cfg.caches.get c).lineBits + (cfg.caches.get c).setBits
        + (cfg.caches.get c).wayBits ≤ 29)
      && tagLayoutOk cfg c
      && (outerCaches cfg c).all fun o =>
        decide ((cfg.caches.get c).lineBits ≤ (cfg.caches.get o).lineBits))

/-- What is left of the interval from `iv.1` up to `iv.2` outside a run of addresses. -/
def cutOut (r : AddrRange) (iv : Nat × Nat) : List (Nat × Nat) :=
  [(iv.1, min iv.2 r.base), (max iv.1 (r.base + r.size), iv.2)].filter fun p => decide (p.1 < p.2)

/-- What of the interval is in a run of addresses. -/
def within (r : AddrRange) (iv : Nat × Nat) : List (Nat × Nat) :=
  [(max iv.1 r.base, min iv.2 (r.base + r.size))].filter fun p => decide (p.1 < p.2)

/-- What is left of some intervals outside all of some runs of addresses. -/
def uncovered : List AddrRange → List (Nat × Nat) → List (Nat × Nat)
  | [], ivs => ivs
  | r :: rs, ivs => uncovered rs (ivs.flatMap (cutOut r))

/-- The intervals that each of some regions translates, where the first that holds an address does. -/
def pieces : List Region → List (Nat × Nat) → List (Region × (Nat × Nat))
  | [], _ => []
  | r :: rs, ivs =>
    (ivs.flatMap (within r.range)).map (fun iv => (r, iv)) ++ pieces rs (ivs.flatMap (cutOut r.range))

/-- The regions in force in a mode. -/
def regionsIn (cfg : Cfg) (kernel : Bool) : List Region :=
  cfg.regions.filter fun r => if kernel then r.inKernel else r.inUser

/-- The virtual addresses that are translated by the regions of a mode: of kernel mode any, of the other
all but the kernel addresses (R30 item 4; log 11). -/
def addressesIn (cfg : Cfg) (kernel : Bool) : List (Nat × Nat) :=
  if kernel then [(0, 2 ^ 32)] else uncovered cfg.kernelSpace [(0, 2 ^ 32)]

/-- Every translation that the model performs by the regions of a mode, as intervals of virtual addresses,
each with its region (R4, R30). -/
def translations (cfg : Cfg) (kernel : Bool) : List (Region × (Nat × Nat)) :=
  pieces (regionsIn cfg kernel) (addressesIn cfg kernel)

/-- The `n` virtual addresses from `v` on have the set indices of the `n` physical ones from `p` on (R4):
there is one set only, the two runs differ by a multiple of the way size, or each lies within one line. -/
def keepsSets (cfg : Cfg) (c : CacheName) (v p n : Nat) : Bool :=
  decide (setCount cfg c = 1) || decide (p % waySize cfg c = v % waySize cfg c) ||
    (decide (setIdx cfg c v = setIdx cfg c p) && decide (v % lineBytes cfg c + n ≤ lineBytes cfg c)
      && decide (p % lineBytes cfg c + n ≤ lineBytes cfg c))

/-- An interval translates to physical addresses that exist (R30), with the same set index in every cache
that is indexed by the virtual address (R4, D34). -/
def translationOk (cfg : Cfg) (t : Region × (Nat × Nat)) : Bool :=
  match t.1.phys? with
  | none => true
  | some p =>
    decide (p + (t.2.2 - t.1.base) ≤ 2 ^ cfg.paBits) &&
      [CacheName.i, .d, .t, .s].all fun c =>
        !present cfg c || (cfg.caches.get c).indexUsesPhysical
          || keepsSets cfg c t.2.1 (p + (t.2.1 - t.1.base)) (t.2.2 - t.2.1)

/-- `0x80000000 | i` is an unmapped address (R30 item 3, R111): of kseg0, 0x80000000 to 0x9FFFFFFF, all that
is translated by the regions of a mode is translated, by unmapped ones (log 31). -/
def kseg0Ok (cfg : Cfg) (kernel : Bool) : Bool :=
  (translations cfg kernel).all (fun t =>
    decide (t.2.2 ≤ 0x80000000) || decide (0xA0000000 ≤ t.2.1) || t.1.isUnmapped) &&
  (uncovered ((regionsIn cfg kernel).map Region.range)
    ((addressesIn cfg kernel).flatMap (within ⟨0x80000000, 0x20000000⟩))).isEmpty

/-- The translations in force in a mode are those of a well-formed configuration (R4, R30). -/
def translationsOk (cfg : Cfg) (kernel : Bool) : Bool :=
  (translations cfg kernel).all (translationOk cfg) && kseg0Ok cfg kernel

/-- A well-formed configuration (R4, D34): PABITS at least 1, `WriteBack(I)` false, every cache and the
translations of both modes as above. -/
def cfgOk (cfg : Cfg) : Bool :=
  decide (1 ≤ cfg.paBits) && !(cfg.caches.get .i).writeBack
    && [CacheName.i, .d, .t, .s].all (cacheOk cfg)
    && translationsOk cfg true && translationsOk cfg false

/-- `FetchPhys(a)` (R64): the physical address a virtual address is fetched from; one that no segment
lists is fetched from the same physical address (log 12). -/
def fetchPhys (cfg : Cfg) (a : Word) : Nat :=
  match cfg.fetchMap.find? fun g => decide (g.base ≤ a.toNat) && decide (a.toNat < g.base + g.size) with
  | some g => g.phys + (a.toNat - g.base)
  | none => a.toNat

end Sys2Proof.Machine
end

