-- ==== Sys2Proof/Machine/Ops.lean ====
section
/-! DEFINITION. The named operations over the state: updates of one field, general registers, physical
memory, cache blocks, the tag and data registers, the writeback queue, the environment's draws, and
taking an exception. -/

namespace Sys2Proof.Machine

def withRegs (s : State) (r : Vector Word 32) : State := { s with regs := r }

def withPc (s : State) (pc : Word) : State := { s with pc := pc }

def withCp0 (s : State) (p : Cp0) : State := { s with cp0 := p }

def withCaches (s : State) (cs : PerCache (List (Nat × Block))) : State := { s with caches := cs }

def withWbq (s : State) (q : List Writeback) : State := { s with wbq := q }

def withMem (s : State) (m : List Host.Cell) : State := { s with mem := m }

def withDraws (s : State) (d : Draws) : State := { s with draws := d }

/-- Taking an exception (R93): the step ends with `Trap(E, info)` and the state it is reported with; the
source describes no entry, so nothing is saved and no handler runs (log 13). -/
def raise {α : Type} (e : Exception) (s : State) : Except Fault α := .error (.trap e s)

/-- Read a general register (R8): x[0] reads as zero. PRESUMED (K2), log 9. -/
def readReg (s : State) (r : Fin 32) : Word := if r = 0 then 0 else s.regs[r]

/-- Write a general register (R6, R8): x[0] ignores writes. No operation of CACHE uses it (R10). -/
def writeReg (s : State) (r : Fin 32) (v : Word) : State :=
  if r = 0 then s else withRegs s (s.regs.set r v)

/-- What a byte of memory reads as that nothing has written. DESIGN CHOICE, unsafe (log 6). -/
def unlistedByte : Byte := 0

abbrev Memory.wf (m : List Host.Cell) : Prop := SparseCanonical unlistedByte m

/-- One byte of physical memory (R26). -/
def memByte (s : State) (p : Nat) : Byte := sparseGet unlistedByte s.mem p

/-- `MemRead(p, n)` (R6): `n` bytes in increasing address order. -/
def memRead (s : State) (p n : Nat) : List Byte := (List.range n).map fun k => memByte s (p + k)

/-- The memory after writing bytes from an address on. -/
def putBytes (m : List Host.Cell) (p : Nat) : List Byte → List Host.Cell
  | [] => m
  | b :: rest => putBytes (sparsePut unlistedByte m p b) (p + 1) rest

/-- `MemWrite(p, n, v)` (R6). -/
def memWrite (s : State) (p : Nat) (v : List Byte) : State := withMem s (putBytes s.mem p v)

/-- The `n` addresses from `p` on exist in the PABITS-bit physical space (R26). -/
def inPhysicalSpace (cfg : Cfg) (p n : Nat) : Bool := decide (p + n ≤ 2 ^ cfg.paBits)

/-- The number of a block within its cache. -/
def blockKey (cfg : Cfg) (c : CacheName) (set way : Nat) : Nat := set * wayCount cfg c + way

/-- `Cache[c][set][way]` (R21). -/
def block (s : State) (c : CacheName) (set way : Nat) : Block :=
  sparseGet (Block.blank (lineBytes s.cfg c)) (s.caches.get c) (blockKey s.cfg c set way)

/-- `Cache[c][set][way] <- b` (R21). -/
def setBlock (s : State) (c : CacheName) (set way : Nat) (b : Block) : State :=
  withCaches s (s.caches.set c
    (sparsePut (Block.blank (lineBytes s.cfg c)) (s.caches.get c) (blockKey s.cfg c set way) b))

/-- Which cache's tag and data registers a cache uses: its own, or one pair for all (R16). -/
def tagHome (cfg : Cfg) (c : CacheName) : CacheName := if cfg.tagRegsPerCache then c else .i

def tagLo (s : State) (c : CacheName) : Word := s.cp0.tagLo.get (tagHome s.cfg c)

def tagHi (s : State) (c : CacheName) : Word := s.cp0.tagHi.get (tagHome s.cfg c)

def dataLo (s : State) (c : CacheName) : Word := s.cp0.dataLo.get (tagHome s.cfg c)

def dataHi (s : State) (c : CacheName) : Word := s.cp0.dataHi.get (tagHome s.cfg c)

/-- Write TagLo[c] and TagHi[c] (R16). -/
def setTag (s : State) (c : CacheName) (v : Word × Word) : State :=
  withCp0 s { s.cp0 with tagLo := s.cp0.tagLo.set (tagHome s.cfg c) v.1,
                         tagHi := s.cp0.tagHi.set (tagHome s.cfg c) v.2 }

/-- Write DataLo[c] and DataHi[c]; they exist only when `hasDataRegs` (R17). -/
def setData (s : State) (c : CacheName) (v : Word × Word) : State :=
  if s.cfg.hasDataRegs then
    withCp0 s { s.cp0 with dataLo := s.cp0.dataLo.set (tagHome s.cfg c) v.1,
                           dataHi := s.cp0.dataHi.set (tagHome s.cfg c) v.2 }
  else s

/-- `WBQ <- WBQ ++ [entry]` (R25, R35). -/
def enqueue (s : State) (e : Writeback) : State := withWbq s (s.wbq ++ [e])

/-- The next outcome of a line transfer: a listed draw, else a free value (R35, R37; log 16). -/
def nextEvent (s : State) : TransferEvent :=
  match s.draws.events with
  | e :: _ => e
  | [] => Config.freeEvent s.draws.used

/-- The state after a transfer's draw. -/
def afterEvent (s : State) : State :=
  match s.draws.events with
  | _ :: rest => withDraws s { s.draws with events := rest }
  | [] => withDraws s { s.draws with used := s.draws.used + 1 }

/-- The next way number drawn: a listed draw, else a free value (R63; log 16). -/
def nextWay (s : State) : Nat :=
  match s.draws.ways with
  | n :: _ => n
  | [] => Config.freeWay s.draws.used

/-- The state after a way's draw. -/
def afterWay (s : State) : State :=
  match s.draws.ways with
  | _ :: rest => withDraws s { s.draws with ways := rest }
  | [] => withDraws s { s.draws with used := s.draws.used + 1 }

/-- The further lines of a Fetch and Lock: a listed draw, else a free value (R63, R78; log 24). -/
def nextLines (s : State) : List Nat :=
  match s.draws.lines with
  | l :: _ => l
  | [] => Config.freeLines s.draws.used

/-- The state after a draw of further lines. -/
def afterLines (s : State) : State :=
  match s.draws.lines with
  | _ :: rest => withDraws s { s.draws with lines := rest }
  | [] => withDraws s { s.draws with used := s.draws.used + 1 }

/-- What an implementation-dependent operation does: a listed draw, else the free value (R70; log 25). -/
def nextImpl (s : State) (c : CacheName) (v : Word) (p : Nat) (u : Bool) : ImplResult :=
  match s.draws.impl with
  | r :: _ => r
  | [] => Config.implOp c s v p u

/-- The state after a draw of an implementation-dependent operation. -/
def afterImpl (s : State) : State :=
  match s.draws.impl with
  | _ :: rest => withDraws s { s.draws with impl := rest }
  | [] => withDraws s { s.draws with used := s.draws.used + 1 }

/-- How often the processor still moves before the drain does: a listed draw, else a free value. Every
such number is finite, which is the weak fairness of R36 (log 17). -/
def drainWait (s : State) : Nat :=
  match s.draws.schedule with
  | n :: _ => n
  | [] => Config.freeWait s.draws.used

/-- The schedule with its head, a draw if need be, replaced. -/
def withWait (s : State) (next : List Nat) : State :=
  match s.draws.schedule with
  | _ :: rest => withDraws s { s.draws with schedule := next ++ rest }
  | [] => withDraws s { s.draws with schedule := next, used := s.draws.used + 1 }

/-- The schedule after a move of the drain: its wait is over. -/
def afterDrainTurn (s : State) : State := withWait s []

/-- The schedule after a move of the processor while the drain waits: one move less. -/
def afterProcessorTurn (s : State) : State := withWait s [drainWait s - 1]

end Sys2Proof.Machine
end

