-- ==== Sys2Proof/Machine/Flags.lean ====
section
/-! DEFINITION. CACHE reads and writes no flag or condition code (R13). What this file computes is the
state of a cache block: its valid, dirty and lock bits, and how they and the tag lie in TagHi, TagLo. -/

namespace Sys2Proof.Machine

/-- A block set to invalid (R62): valid, dirty and lock cleared, tag and data kept. That they are kept
is a DESIGN CHOICE (D12), unsafe (log 23). -/
def invalidBlock (b : Block) : Block := { b with valid := false, dirty := false, lock := false }

/-- A block after its writeback: valid and lock kept, dirty cleared (R76). -/
def cleanBlock (b : Block) : Block := { b with dirty := false }

/-- A block with its lock set (R78). -/
def lockedBlock (b : Block) : Block := { b with lock := true }

/-- `Invalidate(c, s, w)` (R62). -/
def invalidate (s : State) (c : CacheName) (set way : Nat) : State :=
  setBlock s c set way (invalidBlock (block s c set way))

/-- Bit `j` of `v` goes to position `ps[j]`. -/
def scatterBits : List Nat → Nat → Nat
  | [], _ => 0
  | p :: ps, v => v % 2 * 2 ^ p + scatterBits ps (v / 2)

/-- Bit `j` of the result is the bit at position `ps[j]`. -/
def gatherBits : List Nat → Nat → Nat
  | [], _ => 0
  | p :: ps, v => v / 2 ^ p % 2 + 2 * gatherBits ps v

def bitOf (b : Bool) (p : Nat) : Nat := if b then 2 ^ p else 0

/-- `TagPack` and `TagUnpack` of a cache with layout `other` (R24; log 21). -/
def tagCodec (cfg : Cfg) (c : CacheName) : TagCodec (ptagLimit cfg c) (writeBack cfg c) :=
  (Config.tagCodec c (ptagLimit cfg c) (writeBack cfg c)).getD (.plain _ _)

/-- `TagPack(c, b)` (R24): TagLo and TagHi for a block. A write-through cache has no dirty bit (R4). -/
def tagPack (cfg : Cfg) (c : CacheName) (b : Block) : Word × Word :=
  match (cfg.caches.get c).tagLayout with
  | .bits v d l ps =>
    let n := bitOf b.valid v + bitOf (b.dirty && writeBack cfg c) d + bitOf b.lock l + scatterBits ps b.ptag
    (BitVec.ofNat 32 n, BitVec.ofNat 32 (n / 2 ^ 32))
  | .other => (tagCodec cfg c).pack b

/-- The fields as the layout alone gives them. -/
def tagFields (cfg : Cfg) (c : CacheName) (lo hi : Word) : Bool × Bool × Bool × Nat :=
  match (cfg.caches.get c).tagLayout with
  | .bits v d l ps =>
    let n := hi.toNat * 2 ^ 32 + lo.toNat
    (n.testBit v, n.testBit d, n.testBit l, gatherBits ps n)
  | .other => (tagCodec cfg c).unpack lo hi

/-- `TagUnpack(c, lo, hi)` (R24): valid, dirty, lock and tag, the tag whatever the layout gives. Never
dirty for a write-through cache (R4; log 22). -/
def tagUnpack (cfg : Cfg) (c : CacheName) (lo hi : Word) : Bool × Bool × Bool × Nat :=
  let f := tagFields cfg c lo hi
  (f.1, f.2.1 && writeBack cfg c, f.2.2.1, f.2.2.2)

/-- A block with its tag written, its data unchanged (R69). -/
def taggedBlock (b : Block) (f : Bool × Bool × Bool × Nat) : Block :=
  { b with valid := f.1, dirty := f.2.1, lock := f.2.2.1, ptag := f.2.2.2 }

/-- The `n` bytes of a line from an offset on. -/
def lineSlice (data : List Byte) (off n : Nat) : List Byte :=
  (List.range n).map fun k => data.getD (off + k) 0

/-- A line with bytes laid over it from an offset on. -/
def lineSplice (data : List Byte) (off : Nat) (bytes : List Byte) : List Byte :=
  (List.range data.length).map fun k =>
    if off ≤ k ∧ k < off + bytes.length then bytes.getD (k - off) 0 else data.getD k 0

/-- The number that bytes in address order stand for, lowest byte first. -/
def littleNat : List Byte → Nat
  | [] => 0
  | b :: rest => b.toNat + 256 * littleNat rest

/-- The number that bytes in address order stand for in the configured byte order (R28). -/
def numberOfBytes (bigEndian : Bool) (bytes : List Byte) : Nat :=
  littleNat (if bigEndian then bytes.reverse else bytes)

/-- `DataRead(c, b, i)` (R17): DataLo and DataHi. -/
def dataRead (cfg : Cfg) (c : CacheName) (b : Block) (i : Nat) : Word × Word :=
  match (cfg.caches.get c).dataLayout with
  | .word => (BitVec.ofNat 32 (numberOfBytes cfg.bigEndian (lineSlice b.data (i - i % 4) 4)), 0)
  | .doubleword =>
    let n := numberOfBytes cfg.bigEndian (lineSlice b.data (i - i % 8) 8)
    (BitVec.ofNat 32 n, BitVec.ofNat 32 (n / 2 ^ 32))
  | .other => Config.dataRead c b i

end Sys2Proof.Machine
end

