-- ==== Sys2Proof/Machine/Operands.lean ====
section
/-! DEFINITION. The operand of CACHE: base register, effective address (R9, R47), translation (R30), the
checks of R61 lines 1 to 7, and the hit lookup (R24). -/

namespace Sys2Proof.Machine

/-- `XLat` (R9): the base register a 3-bit `rx` selects. PRESUMED (K1, D2), unsafe: the source uses the
table and does not print it (log 8). -/
def xlat (rx : BitVec 3) : Fin 32 :=
  match rx.toNat with
  | 0 => 16
  | 1 => 17
  | 2 => 2
  | 3 => 3
  | 4 => 4
  | 5 => 5
  | 6 => 6
  | _ => 7

/-- `vAddr = x[XLat[rx]] + sext_32(imm9)`, modulo 2^32 (R47, R61 line 3, D7). -/
def effectiveAddress (s : State) (imm : BitVec 9) (rx : BitVec 3) : Word :=
  readReg s (xlat rx) + imm.signExtend 32

/-- `WatchMatch(vAddr)` (R18). -/
def watchMatch (s : State) (v : Word) : Bool := s.cp0.watch.any fun r => r.contains v.toNat

/-- What `Translate` answers (R30). -/
inductive Translation where
  | ok (pAddr : Nat) (uncached coherent : Bool)
  | addressError
  | tlbRefill
  | tlbInvalid
  deriving DecidableEq, Repr

/-- `v` is in the portion of the kernel address space that the current mode may not touch, and the
implementation raises Address Error for it (R30 item 4, R83). -/
def kernelAddressRefused (s : State) (v : Word) : Bool :=
  s.cfg.adELOnKernelAddr && !s.cp0.kernelMode && s.cfg.kernelSpace.any fun r => r.contains v.toNat

/-- The access is translated as one of kernel mode: in kernel mode, and for a kernel address outside it,
for which the translation proceeds as if the access were allowed (R30 item 4, D31). -/
def translatesAsKernel (s : State) (v : Word) : Bool :=
  s.cp0.kernelMode || s.cfg.kernelSpace.any fun r => r.contains v.toNat

/-- `Translate(st, vAddr, DataRead)` (R30): the first region in force that holds the address; none is a
TLB refill. A page's protections do not matter (R31). It writes nothing. -/
def translate (s : State) (v : Word) : Translation :=
  if kernelAddressRefused s v then .addressError
  else
    match s.cfg.regions.find? fun r => r.covers (translatesAsKernel s v) v.toNat with
    | none => .tlbRefill
    | some r =>
      match r.target with
      | .unmapped p u h => .ok (p + (v.toNat - r.base)) u h
      | .page p u h _ => .ok (p + (v.toNat - r.base)) u h
      | .invalid => .tlbInvalid

/-- What R61 lines 3 to 7 compute for the operation: the cache, the addresses, the index address. -/
structure Access where
  cache : CacheName
  vAddr : Word
  pAddr : Nat
  ia : Nat
  uncached : Bool
  coherent : Bool
  deriving DecidableEq, Repr

/-- The address that indexes a cache (R23, R61 line 7). -/
def indexAddress (cfg : Cfg) (c : CacheName) (v : Word) (p : Nat) : Nat :=
  if (cfg.caches.get c).indexUsesPhysical then p else v.toNat

/-- The operation requires an address (R32): codes 0b100 to 0b111, and code 0b011 where the
implementation's operation takes one; that check is ImplOp's own, and comes before anything else it does. -/
def requiresAddress (cfg : Cfg) (op : BitVec 5) : Bool :=
  decide (4 ≤ operationCode op) ||
    (decide (operationCode op = 3) && (cfg.caches.get (cacheOfOp op)).implTakesAddress)

/-- Lines 1 to 7 of R61 in their order (D15, R91; log 15). Nothing is written. -/
def cacheAccess (op : BitVec 5) (imm : BitVec 9) (rx : BitVec 3) (s : State) :
    Except Fault Access :=
  if !s.cp0.cp0Usable then raise (.coprocessorUnusable 0) s
  else if !opImplemented s.cfg op then .error (.undefinedOpNotImplemented op s)
  else
    let v := effectiveAddress s imm rx
    if s.cfg.watchOnCache && watchMatch s v then raise (.watch v) s
    else
      match translate s v with
      | .addressError => raise (.addressError .adel v) s
      | .tlbRefill => raise (.tlbRefill .tlbl v) s
      | .tlbInvalid => raise (.tlbInvalid .tlbl v) s
      | .ok p u h =>
        if requiresAddress s.cfg op && u then .error (.undefinedUncacheableAddress s)
        else .ok { cache := cacheOfOp op, vAddr := v, pAddr := p,
                   ia := indexAddress s.cfg (cacheOfOp op) v p, uncached := u, coherent := h }

/-- The ways of the set that `ia` selects whose valid block has the tag of `p` (R24). -/
def hitWays (s : State) (c : CacheName) (ia p : Nat) : List Nat :=
  (List.range (wayCount s.cfg c)).filter fun w =>
    (block s c (setIdx s.cfg c ia) w).valid
      && decide ((block s c (setIdx s.cfg c ia) w).ptag = ptagOf s.cfg c p)

/-- The way that holds `p`, if any; two are a fault (R24, D35). -/
def findHit (s : State) (c : CacheName) (ia p : Nat) : Except Fault (Option Nat) :=
  match hitWays s c ia p with
  | [] => .ok none
  | [w] => .ok (some w)
  | _ => .error (.undefinedDuplicateTag c (setIdx s.cfg c ia) s)

end Sys2Proof.Machine
end

