-- ==== Sys2Proof/Machine/Transfer.lean ====
section
/-! DEFINITION. Line transfers and what the operations of 40_cache.md share: writeback (R35), the drain
(R36), the line a fill reads (R37), the own-line check (R64), filling a block (R63), the Hit operations
on one cache, and the inner-first policy (R41). -/

namespace Sys2Proof.Machine

/-- The draw of a line transfer (R35, R37, R84, R85): go on, or take the exception. -/
def transfer (s : State) : Except Fault State :=
  match nextEvent s with
  | .ok => .ok (afterEvent s)
  | .cacheError => raise .cacheError (afterEvent s)
  | .busError => raise .busError (afterEvent s)

/-- The entry that a writeback of a block appends to WBQ (R35). -/
def writebackEntry (s : State) (c : CacheName) (set way : Nat) : Writeback :=
  { level := nextLevel s.cfg c, addr := lineAddr s.cfg c set (block s c set way),
    data := (block s c set way).data }

/-- `WriteBackBlock(c, s, w)` (R35): the block itself is not changed. -/
def writeBackBlock (s : State) (c : CacheName) (set way : Nat) : Except Fault State :=
  match transfer s with
  | .error f => .error f
  | .ok s1 => .ok (enqueue s1 (writebackEntry s c set way))

/-- `WriteBack(c)` and the block is valid and dirty (R66, R74, R76). -/
def needsWriteback (s : State) (c : CacheName) (set way : Nat) : Bool :=
  writeBack s.cfg c && (block s c set way).valid && (block s c set way).dirty

/-- The writeback of a block that needs one; of any other block, nothing. -/
def writeBackIfDirty (s : State) (c : CacheName) (set way : Nat) : Except Fault State :=
  if needsWriteback s c set way then writeBackBlock s c set way else .ok s

/-- A line read from memory (R37); outside the physical space there is none (log 20). -/
def memoryLine (s : State) (a n : Nat) : Except Fault (List Byte) :=
  if inPhysicalSpace s.cfg a n then .ok (memRead s a n) else .error (.outsidePhysicalSpace a s)

/-- The loop of R37: the first of the caches that holds the line gives it, else memory. WBQ is not
looked at. -/
def lineFrom (s : State) (a n : Nat) : List CacheName → Except Fault (List Byte)
  | [] => memoryLine s a n
  | l :: ls =>
    match findHit s l a a with
    | .error f => .error f
    | .ok (some w) =>
      .ok (lineSlice (block s l (setIdx s.cfg l a) w).data (a - lineOf s.cfg l a) n)
    | .ok none => lineFrom s a n ls

/-- `ReadLine(c, p)` (R37), with the state after its draw. -/
def readLine (s : State) (c : CacheName) (p : Nat) : Except Fault (List Byte × State) :=
  match transfer s with
  | .error f => .error f
  | .ok s1 =>
    match lineFrom s1 (lineOf s.cfg c p) (lineBytes s.cfg c) (outerCaches s.cfg c) with
    | .error f => .error f
    | .ok d => .ok (d, s1)

/-- A physical address lies in the line that a block holds. -/
def inLineOf (cfg : Cfg) (c : CacheName) (set : Nat) (b : Block) (a : Nat) : Bool :=
  decide (lineAddr cfg c set b ≤ a) && decide (a < lineAddr cfg c set b + lineBytes cfg c)

/-- The block holds one of the two halfwords of the instruction at pc (R64). -/
def holdsOwnLine (s : State) (c : CacheName) (set way : Nat) : Bool :=
  (block s c set way).valid &&
    (inLineOf s.cfg c set (block s c set way) (fetchPhys s.cfg s.pc)
      || inLineOf s.cfg c set (block s c set way) (fetchPhys s.cfg (s.pc + 2)))

/-- `OwnLineCheck(c, s, w)` (R64). -/
def ownLineCheck (s : State) (c : CacheName) (set way : Nat) : Except Fault State :=
  if holdsOwnLine s c set way then .error (.unpredictableOwnLine c s) else .ok s

/-- The ways of a set that are not locked (R63). -/
def unlockedWays (s : State) (c : CacheName) (set : Nat) : List Nat :=
  (List.range (wayCount s.cfg c)).filter fun w => !(block s c set w).lock

/-- `draw w in U` (R63): any unlocked way, by the way number drawn. -/
def victimWay (s : State) (c : CacheName) (set : Nat) : Nat :=
  (unlockedWays s c set).getD (nextWay s % (unlockedWays s c set).length) 0

/-- The block a fill leaves (R63). -/
def filledBlock (cfg : Cfg) (c : CacheName) (p : Nat) (lk : Bool) (data : List Byte) : Block :=
  { valid := true, dirty := false, lock := lk, ptag := ptagOf cfg c p, data := data }

/-- `FillBlock(c, ia, pAddr, lk)` (R63): victim, its writeback if dirty, the line, the new block. -/
def fillBlock (s : State) (c : CacheName) (ia p : Nat) (lk : Bool) : Except Fault State :=
  if (unlockedWays s c (setIdx s.cfg c ia)).isEmpty then
    .error (.undefinedAllWaysLocked c (setIdx s.cfg c ia) s)
  else
    match writeBackIfDirty (afterWay s) c (setIdx s.cfg c ia) (victimWay s c (setIdx s.cfg c ia)) with
    | .error f => .error f
    | .ok s1 =>
      match readLine s1 c p with
      | .error f => .error f
      | .ok (d, s2) =>
        .ok (setBlock s2 c (setIdx s.cfg c ia) (victimWay s c (setIdx s.cfg c ia))
          (filledBlock s.cfg c p lk d))

/-- Hit Invalidate on one cache (R71): no writeback, even of a dirty block. -/
def hitInvalidateAt (s : State) (c : CacheName) (ia p : Nat) : Except Fault State :=
  match findHit s c ia p with
  | .error f => .error f
  | .ok none => .ok s
  | .ok (some w) =>
    match ownLineCheck s c (setIdx s.cfg c ia) w with
    | .error f => .error f
    | .ok s1 => .ok (invalidate s1 c (setIdx s.cfg c ia) w)

/-- Invalidate a block after its own-line check and, if it is dirty, its writeback (R66, R74). -/
def flushBlock (s : State) (c : CacheName) (set way : Nat) : Except Fault State :=
  match ownLineCheck s c set way with
  | .error f => .error f
  | .ok s1 =>
    match writeBackIfDirty s1 c set way with
    | .error f => .error f
    | .ok s2 => .ok (invalidate s2 c set way)

/-- Hit Writeback Invalidate on one cache (R74). -/
def hitWritebackInvalidateAt (s : State) (c : CacheName) (ia p : Nat) : Except Fault State :=
  match findHit s c ia p with
  | .error f => .error f
  | .ok none => .ok s
  | .ok (some w) => flushBlock s c (setIdx s.cfg c ia) w

/-- Write a dirty block back and leave it valid, locked or not, and clean (R76). -/
def cleanAt (s : State) (c : CacheName) (set way : Nat) : Except Fault State :=
  if needsWriteback s c set way then
    match writeBackBlock s c set way with
    | .error f => .error f
    | .ok s1 => .ok (setBlock s1 c set way (cleanBlock (block s1 c set way)))
  else .ok s

/-- Hit Writeback on one cache (R76). -/
def hitWritebackAt (s : State) (c : CacheName) (ia p : Nat) : Except Fault State :=
  match findHit s c ia p with
  | .error f => .error f
  | .ok none => .ok s
  | .ok (some w) => cleanAt s c (setIdx s.cfg c ia) w

/-- Fetch and Lock of one line (R78). -/
def fetchLockAt (s : State) (c : CacheName) (ia p : Nat) : Except Fault State :=
  match findHit s c ia p with
  | .error f => .error f
  | .ok none => fillBlock s c ia p true
  | .ok (some w) =>
    .ok (setBlock s c (setIdx s.cfg c ia) w (lockedBlock (block s c (setIdx s.cfg c ia) w)))

/-- Deliver one writeback to the level it is for (R36). A line that two blocks of the level hold is a
fault, as for every lookup (R24; log 19). Bytes past the end of the line that hits are dropped: a DESIGN
CHOICE (log 32) that no whole line of a well-formed configuration meets (R34, R36). -/
def deliver (s : State) (e : Writeback) : Except Fault State :=
  match e.level with
  | .mem =>
    if inPhysicalSpace s.cfg e.addr e.data.length then .ok (memWrite s e.addr e.data)
    else .error (.outsidePhysicalSpace e.addr s)
  | .cache l =>
    match findHit s l e.addr e.addr with
    | .error f => .error f
    | .ok none => .ok (enqueue s { e with level := nextLevel s.cfg l })
    | .ok (some w) =>
      let b := block s l (setIdx s.cfg l e.addr) w
      let b1 := { b with data := lineSplice b.data (e.addr - lineOf s.cfg l e.addr) e.data }
      if writeBack s.cfg l then .ok (setBlock s l (setIdx s.cfg l e.addr) w { b1 with dirty := true })
      else
        .ok (enqueue (setBlock s l (setIdx s.cfg l e.addr) w b1)
          { e with level := nextLevel s.cfg l })

/-- The drain step (R36): take the head of WBQ off and deliver it. -/
def drainOne (s : State) : Except Fault State :=
  match s.wbq with
  | [] => .ok s
  | e :: rest => deliver (withWbq s rest) e

/-- The writeback is for `c` or a cache inside it, and for a line in the `n` bytes from `a` on. -/
def pendingFor (c : CacheName) (a n : Nat) (e : Writeback) : Bool :=
  (match e.level with
    | .mem => false
    | .cache l => decide (l = c) || (inside c).contains l)
    && decide (a ≤ e.addr) && decide (e.addr < a + n)

/-- How many deliveries a writeback can still need: one per level from its own to memory. -/
def levelsLeft : Level → Nat
  | .cache .i => 4
  | .cache .d => 4
  | .cache .s => 3
  | .cache .t => 2
  | .mem => 1

/-- Drain until no writeback of the range is pending for `c` or a cache inside it. -/
def settle (c : CacheName) (a n : Nat) : Nat → State → Except Fault State
  | 0, s => .ok s
  | fuel + 1, s =>
    if s.wbq.any (pendingFor c a n) then
      match drainOne s with
      | .error f => .error f
      | .ok s1 => settle c a n fuel s1
    else .ok s

/-- Enough drain steps to deliver everything pending. -/
def settleFuel (q : List Writeback) : Nat := (q.map fun e => levelsLeft e.level).sum

/-- The kinds of operation that R41 does on the inner caches first. -/
inductive FlushKind where
  | writebackInvalidate | invalidate | writeback
  deriving DecidableEq, Repr

/-- The Hit operation R41 does on an inner cache; on the instruction cache always Hit Invalidate. -/
def innerHit (kind : FlushKind) (c : CacheName) (s : State) (a : Nat) : Except Fault State :=
  if c = .i then hitInvalidateAt s c a a
  else
    match kind with
    | .writebackInvalidate => hitWritebackInvalidateAt s c a a
    | .invalidate => hitInvalidateAt s c a a
    | .writeback => hitWritebackAt s c a a

/-- The line addresses of an inner cache in the line of an outer cache at `a` (R41). -/
def innerLines (cfg : Cfg) (ci c : CacheName) (a : Nat) : List Nat :=
  (List.range (lineBytes cfg c / lineBytes cfg ci)).map fun k => a + k * lineBytes cfg ci

/-- The Hit operations on a list of lines of one inner cache. -/
def innerHits (kind : FlushKind) (ci : CacheName) : List Nat → State → Except Fault State
  | [], s => .ok s
  | a :: rest, s =>
    match innerHit kind ci s a with
    | .error f => .error f
    | .ok s1 => innerHits kind ci rest s1

/-- Deliver what the inner operations queued, if they queued anything: no writeback of the `n` bytes from
`a` on stays pending for the cache or one inside it. -/
def deliverQueued (queued : Bool) (c : CacheName) (a n : Nat) (s : State) : Except Fault State :=
  if queued then settle c a n (settleFuel s.wbq) s else .ok s

/-- The Hit operations on every inner cache of a list, innermost first, for the outer cache's line of `n`
bytes at `a`. What they queue is delivered before the next cache outward is operated on, and at the end
before `c` itself; `queued` says whether they have queued anything yet. -/
def innerCachesHit (kind : FlushKind) (c : CacheName) (a n : Nat) :
    List CacheName → Bool → State → Except Fault State
  | [], queued, s => deliverQueued queued c a n s
  | ci :: rest, queued, s =>
    match deliverQueued queued ci a n s with
    | .error f => .error f
    | .ok s1 =>
      match innerHits kind ci (innerLines s.cfg ci c a) s1 with
      | .error f => .error f
      | .ok s2 => innerCachesHit kind c a n rest (queued || decide (s2.wbq.length ≠ s1.wbq.length)) s2

/-- `InnerFirst(c, a, kind)` when `OuterOpsInnerFirst` (R41): the matching Hit operation on every inner
cache, each level's writebacks delivered before the next level is operated on. DESIGN CHOICE (D26),
log 18. -/
def innerFirst (s : State) (c : CacheName) (a : Nat) (kind : FlushKind) : Except Fault State :=
  if s.cfg.outerOpsInnerFirst then
    innerCachesHit kind c a (lineBytes s.cfg c) (innerCaches s.cfg c) false s
  else .ok s

/-- `Globalize` (R42): with one processor a broadcast reaches no other cache (log 28). -/
def globalize (s : State) (_coherent : Bool) : State := s

/-- The step of R61 around the body of an operation: lines 1 to 7, the body, pc + 4. -/
def cacheInstr (op : BitVec 5) (imm : BitVec 9) (rx : BitVec 3)
    (body : Access → State → Except Fault State) (s : State) : Host.Outcome State Fault Refusal :=
  match cacheAccess op imm rx s with
  | .error f => .fault f
  | .ok acc =>
    match body acc s with
    | .error f => .fault f
    | .ok s1 => .next (withPc s1 (s1.pc + 4))

end Sys2Proof.Machine
end

