-- ==== Sys2Proof/Machine/Index.lean ====
section
/-! DEFINITION. The Index operations (R65 to R69): Index Invalidate, Index Writeback Invalidate, Index
Load Tag, Index Store Tag. `ia` selects the block whether or not its tag matches (R23). -/

namespace Sys2Proof.Machine

/-- The set and way that the index address selects (R23). -/
def indexedSet (s : State) (c : CacheName) (ia : Nat) : Nat := (indexDecode s.cfg c ia).1

def indexedWay (s : State) (c : CacheName) (ia : Nat) : Nat := (indexDecode s.cfg c ia).2.1

def indexedByte (s : State) (c : CacheName) (ia : Nat) : Nat := (indexDecode s.cfg c ia).2.2

/-- The block that the index address selects (R23). -/
def indexedBlock (s : State) (c : CacheName) (ia : Nat) : Block :=
  block s c (indexedSet s c ia) (indexedWay s c ia)

/-- Index Invalidate (R65). -/
def indexInvalidate (c : CacheName) (acc : Access) (s : State) : Except Fault State :=
  match ownLineCheck s c (indexedSet s c acc.ia) (indexedWay s c acc.ia) with
  | .error f => .error f
  | .ok s1 => .ok (invalidate s1 c (indexedSet s c acc.ia) (indexedWay s c acc.ia))

/-- The inner caches first, for a valid block of an outer cache (R67). -/
def indexInnerFirst (c : CacheName) (acc : Access) (s : State) : Except Fault State :=
  if (indexedBlock s c acc.ia).valid then
    innerFirst s c (lineAddr s.cfg c (indexedSet s c acc.ia) (indexedBlock s c acc.ia))
      .writebackInvalidate
  else .ok s

/-- Index Writeback Invalidate / Index Invalidate, cache D (R66). -/
def indexWritebackInvalidate (c : CacheName) (acc : Access) (s : State) : Except Fault State :=
  flushBlock s c (indexedSet s c acc.ia) (indexedWay s c acc.ia)

/-- Index Writeback Invalidate / Index Invalidate, caches T and S (R67). -/
def indexWritebackInvalidateOuter (c : CacheName) (acc : Access) (s : State) :
    Except Fault State :=
  match indexInnerFirst c acc s with
  | .error f => .error f
  | .ok s1 => indexWritebackInvalidate c acc s1

/-- Index Load Tag (R68): the tag registers, and the data registers if there are any. -/
def indexLoadTag (c : CacheName) (acc : Access) (s : State) : Except Fault State :=
  .ok (setData (setTag s c (tagPack s.cfg c (indexedBlock s c acc.ia))) c
    (dataRead s.cfg c (indexedBlock s c acc.ia) (indexedByte s c acc.ia)))

/-- Index Store Tag (R69): the tag only; no writeback of what the block held. -/
def indexStoreTag (c : CacheName) (acc : Access) (s : State) : Except Fault State :=
  .ok (setBlock s c (indexedSet s c acc.ia) (indexedWay s c acc.ia)
    (taggedBlock (indexedBlock s c acc.ia) (tagUnpack s.cfg c (tagLo s c) (tagHi s c))))

/-- CACHE.0, Index Invalidate, cache I (R65). -/
def execIndexInvalidateI (imm : BitVec 9) (rx : BitVec 3) (s : State) : Host.Outcome State Fault Refusal :=
  cacheInstr 0 imm rx (indexInvalidate .i) s

/-- CACHE.1, Index Writeback Invalidate / Index Invalidate, cache D (R66). -/
def execIndexWritebackInvalidateD (imm : BitVec 9) (rx : BitVec 3) (s : State) : Host.Outcome State Fault Refusal :=
  cacheInstr 1 imm rx (indexWritebackInvalidate .d) s

/-- CACHE.2, Index Writeback Invalidate / Index Invalidate, cache T (R67). -/
def execIndexWritebackInvalidateT (imm : BitVec 9) (rx : BitVec 3) (s : State) : Host.Outcome State Fault Refusal :=
  cacheInstr 2 imm rx (indexWritebackInvalidateOuter .t) s

/-- CACHE.3, Index Writeback Invalidate / Index Invalidate, cache S (R67). -/
def execIndexWritebackInvalidateS (imm : BitVec 9) (rx : BitVec 3) (s : State) : Host.Outcome State Fault Refusal :=
  cacheInstr 3 imm rx (indexWritebackInvalidateOuter .s) s

/-- CACHE.4, Index Load Tag, cache I (R68). -/
def execIndexLoadTagI (imm : BitVec 9) (rx : BitVec 3) (s : State) : Host.Outcome State Fault Refusal :=
  cacheInstr 4 imm rx (indexLoadTag .i) s

/-- CACHE.5, Index Load Tag, cache D (R68). -/
def execIndexLoadTagD (imm : BitVec 9) (rx : BitVec 3) (s : State) : Host.Outcome State Fault Refusal :=
  cacheInstr 5 imm rx (indexLoadTag .d) s

/-- CACHE.6, Index Load Tag, cache T (R68). -/
def execIndexLoadTagT (imm : BitVec 9) (rx : BitVec 3) (s : State) : Host.Outcome State Fault Refusal :=
  cacheInstr 6 imm rx (indexLoadTag .t) s

/-- CACHE.7, Index Load Tag, cache S (R68). -/
def execIndexLoadTagS (imm : BitVec 9) (rx : BitVec 3) (s : State) : Host.Outcome State Fault Refusal :=
  cacheInstr 7 imm rx (indexLoadTag .s) s

/-- CACHE.8, Index Store Tag, cache I (R69). -/
def execIndexStoreTagI (imm : BitVec 9) (rx : BitVec 3) (s : State) : Host.Outcome State Fault Refusal :=
  cacheInstr 8 imm rx (indexStoreTag .i) s

/-- CACHE.9, Index Store Tag, cache D (R69). -/
def execIndexStoreTagD (imm : BitVec 9) (rx : BitVec 3) (s : State) : Host.Outcome State Fault Refusal :=
  cacheInstr 9 imm rx (indexStoreTag .d) s

/-- CACHE.10, Index Store Tag, cache T (R69). -/
def execIndexStoreTagT (imm : BitVec 9) (rx : BitVec 3) (s : State) : Host.Outcome State Fault Refusal :=
  cacheInstr 10 imm rx (indexStoreTag .t) s

/-- CACHE.11, Index Store Tag, cache S (R69). -/
def execIndexStoreTagS (imm : BitVec 9) (rx : BitVec 3) (s : State) : Host.Outcome State Fault Refusal :=
  cacheInstr 11 imm rx (indexStoreTag .s) s

end Sys2Proof.Machine
end

