-- ==== Sys2Proof/Machine/Address.lean ====
section
/-! DEFINITION. The Address operations (R71 to R78): Hit Invalidate, Fill, Hit Writeback Invalidate, Hit
Writeback, Fetch and Lock. They act on the line that holds `pAddr`. -/

namespace Sys2Proof.Machine

/-- `Globalize` after a Hit operation (R42). -/
def thenGlobalize (acc : Access) (r : Except Fault State) : Except Fault State :=
  match r with
  | .error f => .error f
  | .ok s => .ok (globalize s acc.coherent)

/-- Hit Invalidate, caches I and D (R71). -/
def hitInvalidate (c : CacheName) (acc : Access) (s : State) : Except Fault State :=
  thenGlobalize acc (hitInvalidateAt s c acc.ia acc.pAddr)

/-- Hit Invalidate, caches T and S (R72). -/
def hitInvalidateOuter (c : CacheName) (acc : Access) (s : State) : Except Fault State :=
  match innerFirst s c (lineOf s.cfg c acc.pAddr) .invalidate with
  | .error f => .error f
  | .ok s1 => hitInvalidate c acc s1

/-- Fill, cache I (R73). -/
def fill (c : CacheName) (acc : Access) (s : State) : Except Fault State :=
  match findHit s c acc.ia acc.pAddr with
  | .error f => .error f
  | .ok none => fillBlock s c acc.ia acc.pAddr false
  | .ok (some w) =>
    match s.cfg.fillOnHit with
    | .noChange => .ok s
    | .refill =>
      match readLine s c acc.pAddr with
      | .error f => .error f
      | .ok (d, s1) =>
        .ok (setBlock s1 c (setIdx s.cfg c acc.ia) w
          { block s c (setIdx s.cfg c acc.ia) w with data := d })

/-- Hit Writeback Invalidate / Hit Invalidate, cache D (R74). -/
def hitWritebackInvalidate (c : CacheName) (acc : Access) (s : State) : Except Fault State :=
  thenGlobalize acc (hitWritebackInvalidateAt s c acc.ia acc.pAddr)

/-- Hit Writeback Invalidate / Hit Invalidate, caches T and S (R75). -/
def hitWritebackInvalidateOuter (c : CacheName) (acc : Access) (s : State) :
    Except Fault State :=
  match innerFirst s c (lineOf s.cfg c acc.pAddr) .writebackInvalidate with
  | .error f => .error f
  | .ok s1 => hitWritebackInvalidate c acc s1

/-- Hit Writeback, cache D (R76). -/
def hitWriteback (c : CacheName) (acc : Access) (s : State) : Except Fault State :=
  thenGlobalize acc (hitWritebackAt s c acc.ia acc.pAddr)

/-- Hit Writeback, caches T and S (R77). -/
def hitWritebackOuter (c : CacheName) (acc : Access) (s : State) : Except Fault State :=
  match innerFirst s c (lineOf s.cfg c acc.pAddr) .writeback with
  | .error f => .error f
  | .ok s1 => hitWriteback c acc s1

/-- Fetch and Lock of a list of lines, by their physical addresses. -/
def fetchLockLines (c : CacheName) : List Nat → State → Except Fault State
  | [], s => .ok s
  | a :: rest, s =>
    match fetchLockAt s c a a with
    | .error f => .error f
    | .ok s1 => fetchLockLines c rest s1

/-- Fetch and Lock, caches I and D (R78): the referenced line, then the further lines an implementation
with `FetchLockExtraLines` touches, a draw (R63; log 24). -/
def fetchLock (c : CacheName) (acc : Access) (s : State) : Except Fault State :=
  match fetchLockAt s c acc.ia acc.pAddr with
  | .error f => .error f
  | .ok s1 =>
    if s1.cfg.fetchLockExtraLines then fetchLockLines c (nextLines s1) (afterLines s1) else .ok s1

/-- CACHE.16, Hit Invalidate, cache I (R71). -/
def execHitInvalidateI (imm : BitVec 9) (rx : BitVec 3) (s : State) : Host.Outcome State Fault Refusal :=
  cacheInstr 16 imm rx (hitInvalidate .i) s

/-- CACHE.17, Hit Invalidate, cache D (R71). -/
def execHitInvalidateD (imm : BitVec 9) (rx : BitVec 3) (s : State) : Host.Outcome State Fault Refusal :=
  cacheInstr 17 imm rx (hitInvalidate .d) s

/-- CACHE.18, Hit Invalidate, cache T (R72). -/
def execHitInvalidateT (imm : BitVec 9) (rx : BitVec 3) (s : State) : Host.Outcome State Fault Refusal :=
  cacheInstr 18 imm rx (hitInvalidateOuter .t) s

/-- CACHE.19, Hit Invalidate, cache S (R72). -/
def execHitInvalidateS (imm : BitVec 9) (rx : BitVec 3) (s : State) : Host.Outcome State Fault Refusal :=
  cacheInstr 19 imm rx (hitInvalidateOuter .s) s

/-- CACHE.20, Fill, cache I (R73). -/
def execFillI (imm : BitVec 9) (rx : BitVec 3) (s : State) : Host.Outcome State Fault Refusal :=
  cacheInstr 20 imm rx (fill .i) s

/-- CACHE.21, Hit Writeback Invalidate / Hit Invalidate, cache D (R74). -/
def execHitWritebackInvalidateD (imm : BitVec 9) (rx : BitVec 3) (s : State) : Host.Outcome State Fault Refusal :=
  cacheInstr 21 imm rx (hitWritebackInvalidate .d) s

/-- CACHE.22, Hit Writeback Invalidate / Hit Invalidate, cache T (R75). -/
def execHitWritebackInvalidateT (imm : BitVec 9) (rx : BitVec 3) (s : State) : Host.Outcome State Fault Refusal :=
  cacheInstr 22 imm rx (hitWritebackInvalidateOuter .t) s

/-- CACHE.23, Hit Writeback Invalidate / Hit Invalidate, cache S (R75). -/
def execHitWritebackInvalidateS (imm : BitVec 9) (rx : BitVec 3) (s : State) : Host.Outcome State Fault Refusal :=
  cacheInstr 23 imm rx (hitWritebackInvalidateOuter .s) s

/-- CACHE.25, Hit Writeback, cache D (R76). -/
def execHitWritebackD (imm : BitVec 9) (rx : BitVec 3) (s : State) : Host.Outcome State Fault Refusal :=
  cacheInstr 25 imm rx (hitWriteback .d) s

/-- CACHE.26, Hit Writeback, cache T (R77). -/
def execHitWritebackT (imm : BitVec 9) (rx : BitVec 3) (s : State) : Host.Outcome State Fault Refusal :=
  cacheInstr 26 imm rx (hitWritebackOuter .t) s

/-- CACHE.27, Hit Writeback, cache S (R77). -/
def execHitWritebackS (imm : BitVec 9) (rx : BitVec 3) (s : State) : Host.Outcome State Fault Refusal :=
  cacheInstr 27 imm rx (hitWritebackOuter .s) s

/-- CACHE.28, Fetch and Lock, cache I (R78). -/
def execFetchLockI (imm : BitVec 9) (rx : BitVec 3) (s : State) : Host.Outcome State Fault Refusal :=
  cacheInstr 28 imm rx (fetchLock .i) s

/-- CACHE.29, Fetch and Lock, cache D (R78). -/
def execFetchLockD (imm : BitVec 9) (rx : BitVec 3) (s : State) : Host.Outcome State Fault Refusal :=
  cacheInstr 29 imm rx (fetchLock .d) s

end Sys2Proof.Machine
end

