-- ==== Sys2Proof/Machine/ImplDependent.lean ====
section
/-! DEFINITION. Operation code 0b011, left to the implementation (R70), and the three combinations the
table has no row for (R79). -/

namespace Sys2Proof.Machine

/-- One write of an implementation-dependent operation (R70; log 25): a block keeps the normal form of
its cache (a line's bytes, never dirty in a write-through cache), and a writeback is a whole line of its
cache at the line's address, as every transfer is (R25, R34). R70 leaves the operation open; that it
queues nothing but whole lines, and that an address or data of another form is read as the line that holds
the address, is a DESIGN CHOICE (log 25). -/
def implWrite (s : State) (w : ImplWrite) : State :=
  match w with
  | .block c set way b =>
    setBlock s c (set % setCount s.cfg c) (way % wayCount s.cfg c)
      { b with dirty := b.dirty && writeBack s.cfg c,
               data := lineSlice b.data 0 (lineBytes s.cfg c) }
  | .tag c lo hi => setTag s c (lo, hi)
  | .data c lo hi => setData s c (lo, hi)
  | .watch rs => withCp0 s { s.cp0 with watch := rs }
  | .writeback c a d =>
    enqueue s { level := nextLevel s.cfg c, addr := lineOf s.cfg c a,
                data := lineSlice d 0 (lineBytes s.cfg c) }

/-- The writes in their order. -/
def implWrites (s : State) (ws : List ImplWrite) : State := ws.foldl implWrite s

/-- The end of an implementation-dependent operation: it completes, or stops as it says. -/
def implEnd (s : State) : Option ImplStop → Except Fault State
  | none => .ok s
  | some .cacheError => raise .cacheError s
  | some .busError => raise .busError s
  | some (.implementation n) => raise (.implementation n) s
  | some (.allWaysLocked c set) => .error (.undefinedAllWaysLocked c set s)
  | some (.duplicateTag c set) => .error (.undefinedDuplicateTag c set s)
  | some (.ownLine c) => .error (.unpredictableOwnLine c s)
  | some (.undefined n) => .error (.undefinedByImplementation n s)
  | some (.unpredictable n) => .error (.unpredictableByImplementation n s)

/-- `Cfg.ImplOp(c)(st, vAddr, pAddr, uncached)` (R70): the writes that the implementation makes in this
state, in order, then its end (log 25). -/
def implOp (c : CacheName) (acc : Access) (s : State) : Except Fault State :=
  implEnd (implWrites (afterImpl s) (nextImpl s c acc.vAddr acc.pAddr acc.uncached).writes)
    (nextImpl s c acc.vAddr acc.pAddr acc.uncached).stop

/-- The body of an operation that no configuration implements (R60, R79): R61 line 2 has stopped before
it on every path. -/
def noRow (op : BitVec 5) (_acc : Access) (s : State) : Except Fault State :=
  .error (.undefinedOpNotImplemented op s)

/-- CACHE.12, Implementation Dependent, cache I (R70). -/
def execImplDependentI (imm : BitVec 9) (rx : BitVec 3) (s : State) : Host.Outcome State Fault Refusal :=
  cacheInstr 12 imm rx (implOp .i) s

/-- CACHE.13, Implementation Dependent, cache D (R70). -/
def execImplDependentD (imm : BitVec 9) (rx : BitVec 3) (s : State) : Host.Outcome State Fault Refusal :=
  cacheInstr 13 imm rx (implOp .d) s

/-- CACHE.14, Implementation Dependent, cache T (R70). -/
def execImplDependentT (imm : BitVec 9) (rx : BitVec 3) (s : State) : Host.Outcome State Fault Refusal :=
  cacheInstr 14 imm rx (implOp .t) s

/-- CACHE.15, Implementation Dependent, cache S (R70). -/
def execImplDependentS (imm : BitVec 9) (rx : BitVec 3) (s : State) : Host.Outcome State Fault Refusal :=
  cacheInstr 15 imm rx (implOp .s) s

/-- CACHE.24, operation 0b110 on cache I: no row in the source's table (R79). -/
def execNoRowWritebackI (imm : BitVec 9) (rx : BitVec 3) (s : State) : Host.Outcome State Fault Refusal :=
  cacheInstr 24 imm rx (noRow 24) s

/-- CACHE.30, operation 0b111 on cache T: no row in the source's table (R79). -/
def execNoRowFetchLockT (imm : BitVec 9) (rx : BitVec 3) (s : State) : Host.Outcome State Fault Refusal :=
  cacheInstr 30 imm rx (noRow 30) s

/-- CACHE.31, operation 0b111 on cache S: no row in the source's table (R79). -/
def execNoRowFetchLockS (imm : BitVec 9) (rx : BitVec 3) (s : State) : Host.Outcome State Fault Refusal :=
  cacheInstr 31 imm rx (noRow 31) s

end Sys2Proof.Machine
end

