-- ==== Sys2Proof/Machine/General.lean ====
section
/-! DEFINITION. The row CACHE of the opcode table: the instruction with its op as an operand (R61). -/

namespace Sys2Proof.Machine

/-- CACHE op, immediate(rx) (R61): the operation that the op value names (R65 to R79). -/
def execCache (op : BitVec 5) (imm : BitVec 9) (rx : BitVec 3) (s : State) :
    Host.Outcome State Fault Refusal :=
  match op.toNat with
  | 0 => execIndexInvalidateI imm rx s
  | 1 => execIndexWritebackInvalidateD imm rx s
  | 2 => execIndexWritebackInvalidateT imm rx s
  | 3 => execIndexWritebackInvalidateS imm rx s
  | 4 => execIndexLoadTagI imm rx s
  | 5 => execIndexLoadTagD imm rx s
  | 6 => execIndexLoadTagT imm rx s
  | 7 => execIndexLoadTagS imm rx s
  | 8 => execIndexStoreTagI imm rx s
  | 9 => execIndexStoreTagD imm rx s
  | 10 => execIndexStoreTagT imm rx s
  | 11 => execIndexStoreTagS imm rx s
  | 12 => execImplDependentI imm rx s
  | 13 => execImplDependentD imm rx s
  | 14 => execImplDependentT imm rx s
  | 15 => execImplDependentS imm rx s
  | 16 => execHitInvalidateI imm rx s
  | 17 => execHitInvalidateD imm rx s
  | 18 => execHitInvalidateT imm rx s
  | 19 => execHitInvalidateS imm rx s
  | 20 => execFillI imm rx s
  | 21 => execHitWritebackInvalidateD imm rx s
  | 22 => execHitWritebackInvalidateT imm rx s
  | 23 => execHitWritebackInvalidateS imm rx s
  | 24 => execNoRowWritebackI imm rx s
  | 25 => execHitWritebackD imm rx s
  | 26 => execHitWritebackT imm rx s
  | 27 => execHitWritebackS imm rx s
  | 28 => execFetchLockI imm rx s
  | 29 => execFetchLockD imm rx s
  | 30 => execNoRowFetchLockT imm rx s
  | _ => execNoRowFetchLockS imm rx s

end Sys2Proof.Machine
end

