-- ==== Sys2Proof/Syntax.lean ====
section
/-! DEFINITION. The instructions: one constructor per row of spec/opcode_table.json, with the operands
of `CACHE op, immediate(rx)` (R46, R47, R55). -/

namespace Sys2Proof

/-- The rows of the opcode table. Operands: the 9-bit immediate (R47) and the 3-bit base register
selector (R9). `cache` is the row CACHE itself, with the op field as an operand; the 32 variant rows
name the same words with the op fixed (R51, R59; log 26). -/
inductive Instr where
  /-- CACHE op, immediate(rx): the row of R61. -/
  | cache (op : BitVec 5) (imm : BitVec 9) (rx : BitVec 3)
  /-- CACHE.0: Index Invalidate, cache I (R65). -/
  | indexInvalidateI (imm : BitVec 9) (rx : BitVec 3)
  /-- CACHE.1: Index Writeback Invalidate / Index Invalidate, cache D (R66). -/
  | indexWritebackInvalidateD (imm : BitVec 9) (rx : BitVec 3)
  /-- CACHE.2: Index Writeback Invalidate / Index Invalidate, cache T (R67). -/
  | indexWritebackInvalidateT (imm : BitVec 9) (rx : BitVec 3)
  /-- CACHE.3: Index Writeback Invalidate / Index Invalidate, cache S (R67). -/
  | indexWritebackInvalidateS (imm : BitVec 9) (rx : BitVec 3)
  /-- CACHE.4: Index Load Tag, cache I (R68). -/
  | indexLoadTagI (imm : BitVec 9) (rx : BitVec 3)
  /-- CACHE.5: Index Load Tag, cache D (R68). -/
  | indexLoadTagD (imm : BitVec 9) (rx : BitVec 3)
  /-- CACHE.6: Index Load Tag, cache T (R68). -/
  | indexLoadTagT (imm : BitVec 9) (rx : BitVec 3)
  /-- CACHE.7: Index Load Tag, cache S (R68). -/
  | indexLoadTagS (imm : BitVec 9) (rx : BitVec 3)
  /-- CACHE.8: Index Store Tag, cache I (R69). -/
  | indexStoreTagI (imm : BitVec 9) (rx : BitVec 3)
  /-- CACHE.9: Index Store Tag, cache D (R69). -/
  | indexStoreTagD (imm : BitVec 9) (rx : BitVec 3)
  /-- CACHE.10: Index Store Tag, cache T (R69). -/
  | indexStoreTagT (imm : BitVec 9) (rx : BitVec 3)
  /-- CACHE.11: Index Store Tag, cache S (R69). -/
  | indexStoreTagS (imm : BitVec 9) (rx : BitVec 3)
  /-- CACHE.12: Implementation Dependent, cache I (R70). -/
  | implDependentI (imm : BitVec 9) (rx : BitVec 3)
  /-- CACHE.13: Implementation Dependent, cache D (R70). -/
  | implDependentD (imm : BitVec 9) (rx : BitVec 3)
  /-- CACHE.14: Implementation Dependent, cache T (R70). -/
  | implDependentT (imm : BitVec 9) (rx : BitVec 3)
  /-- CACHE.15: Implementation Dependent, cache S (R70). -/
  | implDependentS (imm : BitVec 9) (rx : BitVec 3)
  /-- CACHE.16: Hit Invalidate, cache I (R71). -/
  | hitInvalidateI (imm : BitVec 9) (rx : BitVec 3)
  /-- CACHE.17: Hit Invalidate, cache D (R71). -/
  | hitInvalidateD (imm : BitVec 9) (rx : BitVec 3)
  /-- CACHE.18: Hit Invalidate, cache T (R72). -/
  | hitInvalidateT (imm : BitVec 9) (rx : BitVec 3)
  /-- CACHE.19: Hit Invalidate, cache S (R72). -/
  | hitInvalidateS (imm : BitVec 9) (rx : BitVec 3)
  /-- CACHE.20: Fill, cache I (R73). -/
  | fillI (imm : BitVec 9) (rx : BitVec 3)
  /-- CACHE.21: Hit Writeback Invalidate / Hit Invalidate, cache D (R74). -/
  | hitWritebackInvalidateD (imm : BitVec 9) (rx : BitVec 3)
  /-- CACHE.22: Hit Writeback Invalidate / Hit Invalidate, cache T (R75). -/
  | hitWritebackInvalidateT (imm : BitVec 9) (rx : BitVec 3)
  /-- CACHE.23: Hit Writeback Invalidate / Hit Invalidate, cache S (R75). -/
  | hitWritebackInvalidateS (imm : BitVec 9) (rx : BitVec 3)
  /-- CACHE.24: operation 0b110 on cache I: no row in the source's table (R79). -/
  | noRowWritebackI (imm : BitVec 9) (rx : BitVec 3)
  /-- CACHE.25: Hit Writeback, cache D (R76). -/
  | hitWritebackD (imm : BitVec 9) (rx : BitVec 3)
  /-- CACHE.26: Hit Writeback, cache T (R77). -/
  | hitWritebackT (imm : BitVec 9) (rx : BitVec 3)
  /-- CACHE.27: Hit Writeback, cache S (R77). -/
  | hitWritebackS (imm : BitVec 9) (rx : BitVec 3)
  /-- CACHE.28: Fetch and Lock, cache I (R78). -/
  | fetchLockI (imm : BitVec 9) (rx : BitVec 3)
  /-- CACHE.29: Fetch and Lock, cache D (R78). -/
  | fetchLockD (imm : BitVec 9) (rx : BitVec 3)
  /-- CACHE.30: operation 0b111 on cache T: no row in the source's table (R79). -/
  | noRowFetchLockT (imm : BitVec 9) (rx : BitVec 3)
  /-- CACHE.31: operation 0b111 on cache S: no row in the source's table (R79). -/
  | noRowFetchLockS (imm : BitVec 9) (rx : BitVec 3)
  deriving DecidableEq, Repr

/-- The op field of an instruction (R48). -/
def Instr.op : Instr → BitVec 5
  | .cache op _ _ => op
  | .indexInvalidateI _ _ => 0
  | .indexWritebackInvalidateD _ _ => 1
  | .indexWritebackInvalidateT _ _ => 2
  | .indexWritebackInvalidateS _ _ => 3
  | .indexLoadTagI _ _ => 4
  | .indexLoadTagD _ _ => 5
  | .indexLoadTagT _ _ => 6
  | .indexLoadTagS _ _ => 7
  | .indexStoreTagI _ _ => 8
  | .indexStoreTagD _ _ => 9
  | .indexStoreTagT _ _ => 10
  | .indexStoreTagS _ _ => 11
  | .implDependentI _ _ => 12
  | .implDependentD _ _ => 13
  | .implDependentT _ _ => 14
  | .implDependentS _ _ => 15
  | .hitInvalidateI _ _ => 16
  | .hitInvalidateD _ _ => 17
  | .hitInvalidateT _ _ => 18
  | .hitInvalidateS _ _ => 19
  | .fillI _ _ => 20
  | .hitWritebackInvalidateD _ _ => 21
  | .hitWritebackInvalidateT _ _ => 22
  | .hitWritebackInvalidateS _ _ => 23
  | .noRowWritebackI _ _ => 24
  | .hitWritebackD _ _ => 25
  | .hitWritebackT _ _ => 26
  | .hitWritebackS _ _ => 27
  | .fetchLockI _ _ => 28
  | .fetchLockD _ _ => 29
  | .noRowFetchLockT _ _ => 30
  | .noRowFetchLockS _ _ => 31

/-- The immediate field of an instruction (R47). -/
def Instr.imm : Instr → BitVec 9
  | .cache _ imm _ => imm
  | .indexInvalidateI imm _ => imm
  | .indexWritebackInvalidateD imm _ => imm
  | .indexWritebackInvalidateT imm _ => imm
  | .indexWritebackInvalidateS imm _ => imm
  | .indexLoadTagI imm _ => imm
  | .indexLoadTagD imm _ => imm
  | .indexLoadTagT imm _ => imm
  | .indexLoadTagS imm _ => imm
  | .indexStoreTagI imm _ => imm
  | .indexStoreTagD imm _ => imm
  | .indexStoreTagT imm _ => imm
  | .indexStoreTagS imm _ => imm
  | .implDependentI imm _ => imm
  | .implDependentD imm _ => imm
  | .implDependentT imm _ => imm
  | .implDependentS imm _ => imm
  | .hitInvalidateI imm _ => imm
  | .hitInvalidateD imm _ => imm
  | .hitInvalidateT imm _ => imm
  | .hitInvalidateS imm _ => imm
  | .fillI imm _ => imm
  | .hitWritebackInvalidateD imm _ => imm
  | .hitWritebackInvalidateT imm _ => imm
  | .hitWritebackInvalidateS imm _ => imm
  | .noRowWritebackI imm _ => imm
  | .hitWritebackD imm _ => imm
  | .hitWritebackT imm _ => imm
  | .hitWritebackS imm _ => imm
  | .fetchLockI imm _ => imm
  | .fetchLockD imm _ => imm
  | .noRowFetchLockT imm _ => imm
  | .noRowFetchLockS imm _ => imm

/-- The base register selector of an instruction (R9). -/
def Instr.rx : Instr → BitVec 3
  | .cache _ _ rx => rx
  | .indexInvalidateI _ rx => rx
  | .indexWritebackInvalidateD _ rx => rx
  | .indexWritebackInvalidateT _ rx => rx
  | .indexWritebackInvalidateS _ rx => rx
  | .indexLoadTagI _ rx => rx
  | .indexLoadTagD _ rx => rx
  | .indexLoadTagT _ rx => rx
  | .indexLoadTagS _ rx => rx
  | .indexStoreTagI _ rx => rx
  | .indexStoreTagD _ rx => rx
  | .indexStoreTagT _ rx => rx
  | .indexStoreTagS _ rx => rx
  | .implDependentI _ rx => rx
  | .implDependentD _ rx => rx
  | .implDependentT _ rx => rx
  | .implDependentS _ rx => rx
  | .hitInvalidateI _ rx => rx
  | .hitInvalidateD _ rx => rx
  | .hitInvalidateT _ rx => rx
  | .hitInvalidateS _ rx => rx
  | .fillI _ rx => rx
  | .hitWritebackInvalidateD _ rx => rx
  | .hitWritebackInvalidateT _ rx => rx
  | .hitWritebackInvalidateS _ rx => rx
  | .noRowWritebackI _ rx => rx
  | .hitWritebackD _ rx => rx
  | .hitWritebackT _ rx => rx
  | .hitWritebackS _ rx => rx
  | .fetchLockI _ rx => rx
  | .fetchLockD _ rx => rx
  | .noRowFetchLockT _ rx => rx
  | .noRowFetchLockS _ rx => rx

end Sys2Proof
end

