-- ==== Sys2Proof/Machine/Dispatch.lean ====
section
/-! DEFINITION. What each instruction does: one arm per constructor. -/

namespace Sys2Proof.Machine

def exec (i : Instr) (s : State) : Host.Outcome State Fault Refusal :=
  match i with
  | .cache op imm rx => Sys2Proof.Machine.execCache op imm rx s
  | .indexInvalidateI imm rx => Sys2Proof.Machine.execIndexInvalidateI imm rx s
  | .indexWritebackInvalidateD imm rx => Sys2Proof.Machine.execIndexWritebackInvalidateD imm rx s
  | .indexWritebackInvalidateT imm rx => Sys2Proof.Machine.execIndexWritebackInvalidateT imm rx s
  | .indexWritebackInvalidateS imm rx => Sys2Proof.Machine.execIndexWritebackInvalidateS imm rx s
  | .indexLoadTagI imm rx => Sys2Proof.Machine.execIndexLoadTagI imm rx s
  | .indexLoadTagD imm rx => Sys2Proof.Machine.execIndexLoadTagD imm rx s
  | .indexLoadTagT imm rx => Sys2Proof.Machine.execIndexLoadTagT imm rx s
  | .indexLoadTagS imm rx => Sys2Proof.Machine.execIndexLoadTagS imm rx s
  | .indexStoreTagI imm rx => Sys2Proof.Machine.execIndexStoreTagI imm rx s
  | .indexStoreTagD imm rx => Sys2Proof.Machine.execIndexStoreTagD imm rx s
  | .indexStoreTagT imm rx => Sys2Proof.Machine.execIndexStoreTagT imm rx s
  | .indexStoreTagS imm rx => Sys2Proof.Machine.execIndexStoreTagS imm rx s
  | .implDependentI imm rx => Sys2Proof.Machine.execImplDependentI imm rx s
  | .implDependentD imm rx => Sys2Proof.Machine.execImplDependentD imm rx s
  | .implDependentT imm rx => Sys2Proof.Machine.execImplDependentT imm rx s
  | .implDependentS imm rx => Sys2Proof.Machine.execImplDependentS imm rx s
  | .hitInvalidateI imm rx => Sys2Proof.Machine.execHitInvalidateI imm rx s
  | .hitInvalidateD imm rx => Sys2Proof.Machine.execHitInvalidateD imm rx s
  | .hitInvalidateT imm rx => Sys2Proof.Machine.execHitInvalidateT imm rx s
  | .hitInvalidateS imm rx => Sys2Proof.Machine.execHitInvalidateS imm rx s
  | .fillI imm rx => Sys2Proof.Machine.execFillI imm rx s
  | .hitWritebackInvalidateD imm rx => Sys2Proof.Machine.execHitWritebackInvalidateD imm rx s
  | .hitWritebackInvalidateT imm rx => Sys2Proof.Machine.execHitWritebackInvalidateT imm rx s
  | .hitWritebackInvalidateS imm rx => Sys2Proof.Machine.execHitWritebackInvalidateS imm rx s
  | .noRowWritebackI imm rx => Sys2Proof.Machine.execNoRowWritebackI imm rx s
  | .hitWritebackD imm rx => Sys2Proof.Machine.execHitWritebackD imm rx s
  | .hitWritebackT imm rx => Sys2Proof.Machine.execHitWritebackT imm rx s
  | .hitWritebackS imm rx => Sys2Proof.Machine.execHitWritebackS imm rx s
  | .fetchLockI imm rx => Sys2Proof.Machine.execFetchLockI imm rx s
  | .fetchLockD imm rx => Sys2Proof.Machine.execFetchLockD imm rx s
  | .noRowFetchLockT imm rx => Sys2Proof.Machine.execNoRowFetchLockT imm rx s
  | .noRowFetchLockS imm rx => Sys2Proof.Machine.execNoRowFetchLockS imm rx s

end Sys2Proof.Machine
end

