-- ==== Sys2Proof/WellFormed.lean ====
section
/-! DEFINITION. Well-formed instructions: the 32 variant rows, each with every operand. The row CACHE
itself is a second name of the variants' words, so the decoder never answers it (R51; log 26). -/

namespace Sys2Proof

/-- Well-formed: not the general row CACHE, whose words the variant rows name (R51). -/
def Instr.wellFormed : Instr → Bool
  | .cache _ _ _ => false
  | .indexInvalidateI _ _ => true
  | .indexWritebackInvalidateD _ _ => true
  | .indexWritebackInvalidateT _ _ => true
  | .indexWritebackInvalidateS _ _ => true
  | .indexLoadTagI _ _ => true
  | .indexLoadTagD _ _ => true
  | .indexLoadTagT _ _ => true
  | .indexLoadTagS _ _ => true
  | .indexStoreTagI _ _ => true
  | .indexStoreTagD _ _ => true
  | .indexStoreTagT _ _ => true
  | .indexStoreTagS _ _ => true
  | .implDependentI _ _ => true
  | .implDependentD _ _ => true
  | .implDependentT _ _ => true
  | .implDependentS _ _ => true
  | .hitInvalidateI _ _ => true
  | .hitInvalidateD _ _ => true
  | .hitInvalidateT _ _ => true
  | .hitInvalidateS _ _ => true
  | .fillI _ _ => true
  | .hitWritebackInvalidateD _ _ => true
  | .hitWritebackInvalidateT _ _ => true
  | .hitWritebackInvalidateS _ _ => true
  | .noRowWritebackI _ _ => true
  | .hitWritebackD _ _ => true
  | .hitWritebackT _ _ => true
  | .hitWritebackS _ _ => true
  | .fetchLockI _ _ => true
  | .fetchLockD _ _ => true
  | .noRowFetchLockT _ _ => true
  | .noRowFetchLockS _ _ => true

end Sys2Proof
end

