-- ==== Sys2Proof/Decode.lean ====
section
/-! DEFINITION. Decoding and encoding of the format EXT-CACHE (R45 to R51, R58), the byte layout of an
instruction, and the assembler's operands (R55). The decoder answers the 32 variant rows (R51; log 26). -/

namespace Sys2Proof

/-- Bits `lo + width - 1` down to `lo` of the instruction word (R5). -/
def wordField (w : Word) (lo width : Nat) : BitVec width := w.extractLsb' lo width

/-- The fixed bits of the format: EXTEND 11110, 00, major opcode 11010, sel 5 (R46, R51). -/
def fixedMask : Word := 0xFE00F8E0

def fixedMatch : Word := 0xF000D0A0

/-- `op = W[20:16]` (R48). -/
def opField (w : Word) : BitVec 5 := wordField w 16 5

/-- `imm9 = W[24:21] ++ W[4:0]` (R47). -/
def immField (w : Word) : BitVec 9 := wordField w 21 4 ++ wordField w 0 5

/-- `rx = W[10:8]` (R46). -/
def rxField (w : Word) : BitVec 3 := wordField w 8 3

/-- The variant row that an op value names (R51: 32 op-variants, one per `op` value). -/
def instrOfOp (op : BitVec 5) (imm : BitVec 9) (rx : BitVec 3) : Instr :=
  match op.toNat with
  | 0 => .indexInvalidateI imm rx
  | 1 => .indexWritebackInvalidateD imm rx
  | 2 => .indexWritebackInvalidateT imm rx
  | 3 => .indexWritebackInvalidateS imm rx
  | 4 => .indexLoadTagI imm rx
  | 5 => .indexLoadTagD imm rx
  | 6 => .indexLoadTagT imm rx
  | 7 => .indexLoadTagS imm rx
  | 8 => .indexStoreTagI imm rx
  | 9 => .indexStoreTagD imm rx
  | 10 => .indexStoreTagT imm rx
  | 11 => .indexStoreTagS imm rx
  | 12 => .implDependentI imm rx
  | 13 => .implDependentD imm rx
  | 14 => .implDependentT imm rx
  | 15 => .implDependentS imm rx
  | 16 => .hitInvalidateI imm rx
  | 17 => .hitInvalidateD imm rx
  | 18 => .hitInvalidateT imm rx
  | 19 => .hitInvalidateS imm rx
  | 20 => .fillI imm rx
  | 21 => .hitWritebackInvalidateD imm rx
  | 22 => .hitWritebackInvalidateT imm rx
  | 23 => .hitWritebackInvalidateS imm rx
  | 24 => .noRowWritebackI imm rx
  | 25 => .hitWritebackD imm rx
  | 26 => .hitWritebackT imm rx
  | 27 => .hitWritebackS imm rx
  | 28 => .fetchLockI imm rx
  | 29 => .fetchLockD imm rx
  | 30 => .noRowFetchLockT imm rx
  | _ => .noRowFetchLockS imm rx

/-- The variant an instruction stands for: itself, but for the row CACHE. -/
def canonicalInstr (i : Instr) : Instr := instrOfOp i.op i.imm i.rx

/-- The instruction a 32-bit word is, none where the word is not CACHE (R51, R52). -/
def decodeWord (w : Word) : Option Instr :=
  if w &&& fixedMask = fixedMatch then some (instrOfOp (opField w) (immField w) (rxField w))
  else none

/-- Why bytes are not an instruction. -/
inductive DecodeError where
  /-- Fewer than the four bytes of the one format (R45, R54). -/
  | truncated
  /-- The word does not match R51 (R52). -/
  | notCache (w : Word)
  deriving DecidableEq, Repr

/-- The halfword of two bytes in address order (R28, R58). -/
def halfOfBytes (bigEndian : Bool) (b0 b1 : Byte) : Half :=
  if bigEndian then b0 ++ b1 else b1 ++ b0

/-- The bytes of a halfword in address order (R28, R58). -/
def bytesOfHalf (bigEndian : Bool) (h : Half) : List Byte :=
  if bigEndian then [h.extractLsb' 8 8, h.extractLsb' 0 8]
  else [h.extractLsb' 0 8, h.extractLsb' 8 8]

/-- The four bytes of a word in address order: the halfword with the EXTEND field first (R27, R58).
PRESUMED (K3, D5), unsafe: the source gives only the 32-bit layout (log 10). -/
def bytesOfWord (bigEndian : Bool) (w : Word) : List Byte :=
  bytesOfHalf bigEndian (w.extractLsb' 16 16) ++ bytesOfHalf bigEndian (w.extractLsb' 0 16)

/-- The word of four bytes in address order (R27, R58). -/
def wordOfBytes (bigEndian : Bool) (b0 b1 b2 b3 : Byte) : Word :=
  halfOfBytes bigEndian b0 b1 ++ halfOfBytes bigEndian b2 b3

/-- The first instruction of a byte string and the bytes after it. Total: bytes that are no CACHE
instruction are rejected by name (R52, R54). -/
def decode (bigEndian : Bool) : List Byte → Except DecodeError (Instr × List Byte)
  | b0 :: b1 :: b2 :: b3 :: rest =>
    let w := wordOfBytes bigEndian b0 b1 b2 b3
    match decodeWord w with
    | some i => .ok (i, rest)
    | none => .error (.notCache w)
  | _ => .error .truncated

/-- The word with the given operands (R46, R51):
EXTEND, 00, Imm[8:5], op, 11010, rx, sel = 5, Imm[4:0]. -/
def encodeFields (op : BitVec 5) (imm : BitVec 9) (rx : BitVec 3) : Word :=
  0b11110#5 ++ 0b00#2 ++ imm.extractLsb' 5 4 ++ op ++ 0b11010#5 ++ rx ++ 0b101#3
    ++ imm.extractLsb' 0 5

/-- The word of an instruction (R51). -/
def encodeWord (i : Instr) : Word := encodeFields i.op i.imm i.rx

/-- The bytes of an instruction in address order (R58). -/
def encode (bigEndian : Bool) (i : Instr) : List Byte := bytesOfWord bigEndian (encodeWord i)

/-- `rx` for a base register, none for one that no CACHE instruction can name (R9, R55). -/
def rxOf (reg : Nat) : Option (BitVec 3) :=
  match reg with
  | 16 => some 0
  | 17 => some 1
  | 2 => some 2
  | 3 => some 3
  | 4 => some 4
  | 5 => some 5
  | 6 => some 6
  | 7 => some 7
  | _ => none

/-- `CACHE op, offset(reg)` as the assembler writes it (R55): an op outside 0..31, an offset outside
-256..255 or a register outside the eight cannot be encoded. What the assembler does with such operands is
not in the source (R55, N21); that it answers no instruction is a DESIGN CHOICE (log 37). -/
def assemble (op : Nat) (offset : Int) (reg : Nat) : Option Instr :=
  match rxOf reg with
  | none => none
  | some rx =>
    if op < 32 ∧ -256 ≤ offset ∧ offset ≤ 255 then
      some (instrOfOp (BitVec.ofNat 5 op) (BitVec.ofInt 9 offset) rx)
    else none

/-- What the decoder reads from the table's word `w` of `nbits` bits (bit 0 is the least significant
bit of the 32-bit word `W` of R46; bits above `nbits` are 0), laid out in little-endian halfwords. -/
def decodeTableWord (nbits w : Nat) : Option Instr :=
  match decode false (bytesOfWord false (BitVec.ofNat 32 (w % 2 ^ nbits))) with
  | .ok (i, _) => some i
  | .error _ => none

end Sys2Proof
end

