-- ==== Sys2Proof/Machine/Fetch.lean ====
section
/-! DEFINITION. What a step does around an instruction: fetching it from the program text (R27), choosing
who moves (R36, R38), and how a launch places a program (R116). -/

namespace Sys2Proof.Machine

/-- One byte of the program text (R27, R28). -/
def textByte (s : State) (a : Word) : Except Refusal Byte :=
  match sparseFind s.text a.toNat with
  | some b => .ok b
  | none => .error (.noProgramText a)

/-- The bytes of the program text from an address on, modulo 2^32 (R12, R27). -/
def textBytes (s : State) : Word → Nat → Except Refusal (List Byte)
  | _, 0 => .ok []
  | a, n + 1 =>
    match textByte s a with
    | .error r => .error r
    | .ok b =>
      match textBytes s (a + 1) n with
      | .error r => .error r
      | .ok bs => .ok (b :: bs)

/-- The instruction at pc (R27, R54): two halfwords at pc and pc + 2, decoded by R51. An odd pc is
refused (R11, D4). -/
def fetch (s : State) : Except Refusal Instr :=
  if s.pc.toNat % 2 = 1 then .error (.oddPc s.pc)
  else
    match textBytes s s.pc 4 with
    | .error r => .error r
    | .ok bs =>
      match decode s.cfg.bigEndian bs with
      | .ok (i, _) => .ok i
      | .error (.notCache w) => .error (.notCache w)
      | .error .truncated => .error (.noProgramText s.pc)

/-- `SyncEvent` is enabled only when WBQ is empty, and changes nothing (R38). -/
def syncEvent (s : State) : Option State := if s.wbq.isEmpty then some s else none

/-- The listing has a SyncEvent mark before the instruction at pc (R38, R116). -/
def atSync (s : State) : Bool := s.syncMarks.contains s.pc

/-- Who moves (R36, R38): with nothing to drain, the processor; at a mark that is not enabled, the
drain; otherwise the drain once its wait is over, and until then the processor. DESIGN CHOICE, log 36: the
end of a run's text, `base + 4n` of R116, is no exception, so with WBQ not empty and no mark there the
processor may still move, and its fetch is then refused. -/
def chooseAgent (s : State) : Agent × State :=
  if s.wbq.isEmpty then (.processor, s)
  else if atSync s then (.drain, s)
  else if drainWait s = 0 then (.drain, afterDrainTurn s)
  else (.processor, afterProcessorTurn s)

/-- The program text with bytes placed from a virtual address on, modulo 2^32. -/
def placeBytes (text : List Host.Cell) (a : Word) : List Byte → List Host.Cell
  | [] => text
  | b :: rest => placeBytes (sparseInsert a.toNat b text) (a + 1) rest

/-- The state with the word of an instruction placed in the program text (R58). -/
def placeWord (s : State) (a : Word) (w : Word) : State :=
  { s with text := placeBytes s.text a (bytesOfWord s.cfg.bigEndian w) }

/-- The state with a list of words placed from an address on, one every four bytes (R116). -/
def placeWords (s : State) (a : Word) : List Word → State
  | [] => s
  | w :: rest => placeWords (placeWord s a w) (a + 4) rest

/-- A launch (R116): the words of a program at `base`, `base + 4`, ..., SyncEvent marks before the
instructions numbered in `marks`, and `pc = base`. -/
def launch (s : State) (base : Word) (program : List Word) (marks : List Nat) : State :=
  { placeWords { s with text := [] } base program with
    pc := base, syncMarks := marks.map fun k => base + BitVec.ofNat 32 (4 * k) }

/-- The schedule that makes the processor move next, if there is a choice: the drain waits one move
longer. -/
def processorNext (s : State) : State :=
  if s.wbq.isEmpty then s else withWait s [drainWait s + 1]

end Sys2Proof.Machine
end

