-- ==== Sys2Proof/Machine/Step.lean ====
section
/-! DEFINITION. One step of the machine: of the drain or of the processor (R7, R36, R61). -/

namespace Sys2Proof.Machine

/-- A move of the processor: fetch, decode, execute (R27, R61). -/
def processorStep (s : State) : Host.Outcome State Fault Refusal :=
  match fetch s with
  | .error r => .refused r
  | .ok i => exec i s

/-- A move of the drain (R36). -/
def drainStep (s : State) : Host.Outcome State Fault Refusal :=
  match drainOne s with
  | .error f => .fault f
  | .ok s1 => .next s1

/-- One step (R7): refused where the configuration is not well-formed (R4, D34), else a move of
whichever agent is next. -/
def step (s : State) : Host.Outcome State Fault Refusal :=
  if cfgOk s.cfg then
    match chooseAgent s with
    | (.processor, s1) => processorStep s1
    | (.drain, s1) => drainStep s1
  else .refused .badConfig

/-- `s` with the table's word `w` of `nbits` bits as the next instruction: in the program text at pc, with
no SyncEvent mark there, and the processor to move (log 7). -/
def State.withFetchWord (s : State) (nbits w : Nat) : State :=
  processorNext
    { placeWord s s.pc (BitVec.ofNat 32 (w % 2 ^ nbits)) with
      syncMarks := s.syncMarks.filter fun a => decide (a ≠ s.pc) }

end Sys2Proof.Machine
end

