-- ==== Sys2Proof/Safety.lean ====
section
/-! DEFINITION. The terms that claims use: when an instruction executes (R61), premises on the start state
(R84, R105), the coherent view (R44), the end of a run (R116), and the state a fault is reported with. -/

namespace Sys2Proof.Machine

/-- Lines 1 to 6 of R61 let the operation execute: Coprocessor 0 is usable, the operation is
implemented, no watch fires, the address translates to `p`, and an address that the operation requires
is cacheable. -/
abbrev Executes (op : BitVec 5) (imm : BitVec 9) (rx : BitVec 3) (s : State) (p : Nat)
    (uncached coherent : Bool) : Prop :=
  s.cp0.cp0Usable = true ∧ opImplemented s.cfg op = true ∧
    (s.cfg.watchOnCache && watchMatch s (effectiveAddress s imm rx)) = false ∧
    translate s (effectiveAddress s imm rx) = .ok p uncached coherent ∧
    (requiresAddress s.cfg op = true → uncached = false)

/-- The index address of the instruction on a cache (R23, R61 line 7). -/
def instrIndex (c : CacheName) (imm : BitVec 9) (rx : BitVec 3) (s : State) (p : Nat) : Nat :=
  indexAddress s.cfg c (effectiveAddress s imm rx) p

/-- The state a fault is reported with (R92). -/
def Fault.reported : Fault → State
  | .trap _ s => s
  | .undefinedOpNotImplemented _ s => s
  | .undefinedUncacheableAddress s => s
  | .undefinedAllWaysLocked _ _ s => s
  | .undefinedDuplicateTag _ _ s => s
  | .unpredictableOwnLine _ s => s
  | .undefinedByImplementation _ s => s
  | .unpredictableByImplementation _ s => s
  | .outsidePhysicalSpace _ s => s

/-- The premise `NoCacheOrBusError` for the next `n` line transfers (R84, D23). -/
abbrev NoCacheOrBusError (s : State) (n : Nat) : Prop :=
  n ≤ s.draws.events.length ∧ ∀ e ∈ s.draws.events.take n, e = TransferEvent.ok

/-- The premise `CachesInitialised` (R105): every block of every cache that exists is invalid, clean and
unlocked. -/
def CachesInitialised (s : State) : Prop :=
  ∀ c set way, present s.cfg c = true → set < setCount s.cfg c → way < wayCount s.cfg c →
    (block s c set way).valid = false ∧ (block s c set way).dirty = false ∧
      (block s c set way).lock = false

/-- The byte at `p` in the first cache of a list that holds it. R44 says 'the block that hits' and not
which of two; DESIGN CHOICE, log 35: that of the lowest-numbered way. -/
def cachedByte (s : State) (p : Nat) : List CacheName → Option Byte
  | [] => none
  | c :: rest =>
    match hitWays s c p p with
    | [] => cachedByte s p rest
    | w :: _ => some ((block s c (setIdx s.cfg c p) w).data.getD (p - lineOf s.cfg c p) 0)

/-- `View(p)` (R44): the byte a cached data access would see. WBQ is not consulted. -/
def view (s : State) (p : Nat) : Byte :=
  (cachedByte s p ([.d, .s, .t].filter (present s.cfg))).getD (memByte s p)

/-- The successful end of a run of `n` instructions from `base` (R116). -/
abbrev RunEnded (base : Word) (n : Nat) (s : State) : Prop :=
  s.pc = base + BitVec.ofNat 32 (4 * n) ∧ s.wbq = []

/-- A run of `k` steps that meets no trap, fault or refusal (R94, R116). -/
def SafeRun (k : Nat) (s : State) : Prop := ∃ t, Sys2Proof.core.run k s = .next t

/-- The index address of block `k` of a cache that R106 steps through, in kseg0. -/
def bootIndex (cfg : Cfg) (c : CacheName) (k : Nat) : Word :=
  0x80000000 ||| BitVec.ofNat 32 (k * lineBytes cfg c)

/-- Every cache array is in canonical form, and every block has a line's bytes and is dirty only in a
write-back cache (R4, R21). -/
def CachesWellFormed (s : State) : Prop :=
  ∀ c : CacheName,
    SparseCanonical (Block.blank (lineBytes s.cfg c)) (s.caches.get c) ∧
      ∀ set way, set < setCount s.cfg c → way < wayCount s.cfg c →
        (block s c set way).data.length = lineBytes s.cfg c ∧
          ((block s c set way).dirty = true → writeBack s.cfg c = true)

/-- The machine's invariant: memory and caches well-formed, the configuration well-formed, pc even. -/
def Inv (s : State) : Prop :=
  Memory.wf s.mem ∧ CachesWellFormed s ∧ cfgOk s.cfg = true ∧ s.pc.toNat % 2 = 0

/-- The operation is for cache S or T. -/
def outerOp (op : BitVec 5) : Bool := decide (cacheOfOp op = .s) || decide (cacheOfOp op = .t)

/-- The kind of Hit operation that R41 does on the inner caches, by operation code (R67, R72, R75, R77). -/
def outerKind (op : BitVec 5) : FlushKind :=
  match operationCode op with
  | 4 => .invalidate
  | 6 => .writeback
  | _ => .writebackInvalidate

/-- The state in which an operation looks at its own cache: for the operations on T and S that R41 names,
after the inner caches (R67, R72, R75, R77); for all others the state it starts in. -/
def afterInner (op : BitVec 5) (s : State) (ia p : Nat) : Except Fault State :=
  let c := cacheOfOp op
  if outerOp op && [4, 5, 6].contains (operationCode op) then
    innerFirst s c (lineOf s.cfg c p) (outerKind op)
  else if outerOp op && decide (operationCode op = 0) && (indexedBlock s c ia).valid then
    innerFirst s c (lineAddr s.cfg c (indexedSet s c ia) (indexedBlock s c ia)) .writebackInvalidate
  else .ok s

/-- An operation on an outer cache that R41 makes operate on the inner caches first. -/
def actsInnerFirst (cfg : Cfg) (op : BitVec 5) : Bool :=
  cfg.outerOpsInnerFirst && outerOp op && [0, 4, 5, 6].contains (operationCode op)

end Sys2Proof.Machine
end

