-- ==== Sys2Proof/Certificates/Slice0/Obligations.lean ====
section
/-! DEFINITION. The statements for the provers, in the order of the spec's files. -/

open Sys2Proof Sys2Proof.Machine

/-! ### Encoding (30_encoding.md) -/

/-- Words written out from the encoding figure of R46 and the formula of R51, and what they stand for;
the words of R52's neighbouring encodings stand for nothing. That other words are refused is the spec's
decision D22. -/
def Obligations.DecodesWordsOfTheFigure : Prop :=
  decodeWord 0xF009D4A0 = some (.indexStoreTagD 0 4) ∧
  decodeWord 0xF1FFD7BF = some (.noRowFetchLockS 0x1FF 7) ∧
  decodeWord 0xF100D0A0 = some (.indexInvalidateI 0x100 0) ∧
  decodeWord 0xF0F5D1BF = some (.hitWritebackInvalidateD 0xFF 1) ∧
  decodeWord 0xF014D5B0 = some (.fillI 0x10 5) ∧
  decodeWord 0xF00CD4A0 = some (.implDependentI 0 4) ∧
  decodeWord 0xF009D400 = none ∧ decodeWord 0xF209D4A0 = none ∧ decodeWord 0xD4A0F009 = none

/-- Decoding the bytes of any instruction, in either byte order and with any bytes after them, gives the
instruction: itself, or for the row CACHE the variant with the same words (R51; log 26). The order of the
bytes is PRESUMED (log 10); that the decoder answers the variants is a DESIGN CHOICE (log 26). -/
def Obligations.DecodeOfEncodeIsTheInstruction : Prop :=
  ∀ (be : Bool) (i : Instr) (rest : List Byte),
    decode be (encode be i ++ rest) = .ok (canonicalInstr i, rest) ∧
      (i.wellFormed = true → canonicalInstr i = i)

/-- Bytes that decode to an instruction are its encoding: no bit of them is free (R51, R53). The order of
the bytes is PRESUMED (log 10). -/
def Obligations.EncodeOfDecodeIsTheBytes : Prop :=
  ∀ (be : Bool) (i : Instr) (bytes rest : List Byte),
    decode be bytes = .ok (i, rest) → bytes = encode be i ++ rest ∧ i.wellFormed = true

/-- R46: a word is CACHE exactly when its fixed fields have the values of the table, and its fields and its
two halfwords are then those of the instruction. -/
def Obligations.FieldsOfTheFormat : Prop :=
  ∀ w : Word,
    ((decodeWord w).isSome = true ↔ w.extractLsb' 27 5 = 0b11110#5 ∧ w.extractLsb' 25 2 = 0b00#2 ∧
      w.extractLsb' 11 5 = 0b11010#5 ∧ w.extractLsb' 5 3 = 0b101#3) ∧
    ∀ i, decodeWord w = some i →
      i.imm.extractLsb' 5 4 = w.extractLsb' 21 4 ∧ i.imm.extractLsb' 0 5 = w.extractLsb' 0 5 ∧
      (i.imm.toInt < 0 ↔ w.getLsbD 24 = true) ∧
      i.op = w.extractLsb' 16 5 ∧ i.op.extractLsb' 2 3 = w.extractLsb' 18 3 ∧
      i.op.extractLsb' 0 2 = w.extractLsb' 16 2 ∧ i.rx = w.extractLsb' 8 3 ∧
      w.extractLsb' 16 16 = 0b11110#5 ++ 0b00#2 ++ i.imm.extractLsb' 5 4 ++ i.op ∧
      w.extractLsb' 0 16 = 0b11010#5 ++ i.rx ++ 0b101#3 ++ i.imm.extractLsb' 0 5

/-- R48, R49: the op of a word is `W[20:16]`, four times the operation code `W[20:18]` plus the cache code
`W[17:16]`, whose four values name I, D, T and S; and it is the number, 0 to 31, of the assembler's op
operand. -/
def Obligations.OperationFieldNamesOperationAndCache : Prop :=
  (∀ (w : Word) (i : Instr), decodeWord w = some i →
    i.op = w.extractLsb' 16 5 ∧ operationCode i.op = (w.extractLsb' 18 3).toNat ∧
    i.op.toNat = 4 * (w.extractLsb' 18 3).toNat + (w.extractLsb' 16 2).toNat ∧
    (cacheOfOp i.op = .i ↔ w.extractLsb' 16 2 = 0b00#2) ∧
    (cacheOfOp i.op = .d ↔ w.extractLsb' 16 2 = 0b01#2) ∧
    (cacheOfOp i.op = .t ↔ w.extractLsb' 16 2 = 0b10#2) ∧
    (cacheOfOp i.op = .s ↔ w.extractLsb' 16 2 = 0b11#2)) ∧
  ∀ (op : Nat) (offset : Int) (reg : Nat) (i : Instr), assemble op offset reg = some i →
    op ≤ 31 ∧ i.op.toNat = op

/-- R51: the mask and match of CACHE, the word of given operands, and the mask and match of each op. -/
def Obligations.MaskAndMatchOfCache : Prop :=
  (∀ w : Word, (decodeWord w).isSome = true ↔ w &&& 0xFE00F8E0 = 0xF000D0A0) ∧
  (∀ (op : BitVec 5) (imm : BitVec 9) (rx : BitVec 3),
    encodeFields op imm rx =
      0xF000D0A0 ||| ((imm.extractLsb' 5 4).setWidth 32 <<< 21) ||| (op.setWidth 32 <<< 16)
        ||| (rx.setWidth 32 <<< 8) ||| (imm.extractLsb' 0 5).setWidth 32) ∧
  (∀ (w : Word) (op : BitVec 5),
    (∃ i, decodeWord w = some i ∧ i.op = op) ↔
      w &&& 0xFE1FF8E0 = 0xF000D0A0 ||| (op.setWidth 32 <<< 16))

/-- R47: `imm9 = W[24:21] ++ W[4:0]`, sign-extended, -256 to 255, added to the base register that
`W[10:8]` selects. That the addition wraps modulo 2^32 is the spec's decision D7, that registers have 32
bits its decision D1, PRESUMED (log 9). -/
def Obligations.ImmediateIsSignExtendedAndAdded : Prop :=
  ∀ (w : Word) (i : Instr) (s : State), decodeWord w = some i →
    i.imm = w.extractLsb' 21 4 ++ w.extractLsb' 0 5 ∧
    -256 ≤ i.imm.toInt ∧ i.imm.toInt ≤ 255 ∧
    effectiveAddress s i.imm i.rx
      = readReg s (xlat (w.extractLsb' 8 3)) + BitVec.ofInt 32 i.imm.toInt

/-- The assembler's operands (R55): what cannot be encoded gives no instruction, everything else is
encoded with its own op and offset, and its base register. R55 says which operands cannot be encoded and
leaves open what the assembler does with them: that it gives nothing is the model's choice (log 37). The
table XLat is PRESUMED (log 8). -/
def Obligations.AssemblerOperands : Prop :=
  ∀ (op : Nat) (offset : Int) (reg : Nat),
    ((assemble op offset reg).isSome = true ↔
      op < 32 ∧ -256 ≤ offset ∧ offset ≤ 255 ∧ reg ∈ [16, 17, 2, 3, 4, 5, 6, 7]) ∧
    ∀ i, assemble op offset reg = some i →
      i.op.toNat = op ∧ i.imm.toInt = offset ∧ (xlat i.rx).val = reg

/-! ### The step: fetch, agents, reset -/

/-- When it is the processor's move and the four bytes at an even pc decode to an instruction, the step
is that instruction's (R27, R36, R54, R61). With WBQ empty it runs in the state itself, otherwise, while
the drain waits, in the state with that wait one shorter. The fetch is the spec's decision D5, the
schedule the model's form (logs 16, 17). -/
def Obligations.StepRunsTheDecodedInstruction : Prop :=
  ∀ (s : State) (b0 b1 b2 b3 : Byte) (i : Instr) (rest : List Byte),
    cfgOk s.cfg = true → s.pc.toNat % 2 = 0 →
    textByte s s.pc = .ok b0 → textByte s (s.pc + 1) = .ok b1 →
    textByte s (s.pc + 2) = .ok b2 → textByte s (s.pc + 3) = .ok b3 →
    decode s.cfg.bigEndian [b0, b1, b2, b3] = .ok (i, rest) →
    (s.wbq = [] → step s = exec i s) ∧
    (s.wbq ≠ [] → atSync s = false → drainWait s ≠ 0 → step s = exec i (afterProcessorTurn s))

/-- What the step refuses (R4, R11, R27, R52): a configuration that is not well-formed; and where it is the
processor's move, with WBQ empty or while the drain waits, an odd pc, the first missing byte of the four of
program text, and a word that is not CACHE. These refusals are the spec's decisions D4, D5, D22 and D34
(logs 7, 31, 34). -/
def Obligations.StepRefusals : Prop :=
  ∀ s : State,
    (cfgOk s.cfg = false → step s = .refused .badConfig) ∧
    (cfgOk s.cfg = true → s.wbq = [] ∨ (atSync s = false ∧ drainWait s ≠ 0) →
      (s.pc.toNat % 2 = 1 → step s = .refused (.oddPc s.pc)) ∧
      (∀ k < 4, s.pc.toNat % 2 = 0 →
        (∀ j < k, (sparseFind s.text (s.pc + BitVec.ofNat 32 j).toNat).isSome = true) →
        sparseFind s.text (s.pc + BitVec.ofNat 32 k).toNat = none →
        step s = .refused (.noProgramText (s.pc + BitVec.ofNat 32 k))) ∧
      (∀ b0 b1 b2 b3, s.pc.toNat % 2 = 0 →
        textByte s s.pc = .ok b0 → textByte s (s.pc + 1) = .ok b1 →
        textByte s (s.pc + 2) = .ok b2 → textByte s (s.pc + 3) = .ok b3 →
        decodeWord (wordOfBytes s.cfg.bigEndian b0 b1 b2 b3) = none →
        step s = .refused (.notCache (wordOfBytes s.cfg.bigEndian b0 b1 b2 b3))))

/-- SyncEvent (R38): it is enabled only when WBQ is empty and changes nothing; at a mark the processor
does not move while a writeback is pending, the drain does. Elsewhere the drain may move between any two
instructions while WBQ is not empty (R36): it does once its wait is over. Weak fairness (R36, R115): the
wait bounds how many steps a run can take before the drain moves or WBQ is empty. SyncEvent and the drain
are the spec's decision D11, the fairness its decision D36; marks and the schedule's form are the model's
(logs 16, 17). -/
def Obligations.SyncEventWaitsForTheDrain : Prop :=
  (∀ s t : State, syncEvent s = some t ↔ s.wbq = [] ∧ t = s) ∧
  (∀ s : State, cfgOk s.cfg = true → s.wbq ≠ [] → atSync s = true → step s = drainStep s) ∧
  (∀ s : State, cfgOk s.cfg = true → s.wbq ≠ [] → atSync s = false → drainWait s = 0 →
    step s = drainStep (afterDrainTurn s)) ∧
  (∀ run : Nat → State, (run 0).wbq ≠ [] →
    (∀ n < drainWait (run 0), step (run n) = .next (run (n + 1))) →
    ∃ m ≤ drainWait (run 0), (run m).wbq = [] ∨ (chooseAgent (run m)).1 = .drain)

/-- After reset WBQ is empty and x[0] is 0 (R105). The other clauses are the model's choices: pc and mode
PRESUMED (log 4), every other register 0 (log 3), invalid blocks (log 5). The empty WBQ is the spec's
decision D24; every value but it and x[0] is the model's (logs 3, 4, 5). -/
def Obligations.StateAfterReset : Prop :=
  State.reset.wbq = [] ∧ readReg State.reset 0 = 0 ∧
  State.reset.pc = 0xBFC00000 ∧ State.reset.cp0.cp0Usable = true ∧
  State.reset.cp0.kernelMode = true ∧ (∀ r, readReg State.reset r = 0) ∧
  (∀ c, tagLo State.reset c = 0 ∧ tagHi State.reset c = 0 ∧ dataLo State.reset c = 0 ∧
    dataHi State.reset c = 0) ∧
  CachesInitialised State.reset

/-! ### Registers (10_state.md) -/

/-- General registers: x[0] reads as zero and ignores writes; every other register reads what was last
written to it and is left alone by writes to others. That x[0] is hard-wired is the spec's decision D3,
PRESUMED (log 9). -/
def Obligations.GeneralRegisters : Prop :=
  ∀ (s : State) (r q : Fin 32) (v : Word),
    readReg s 0 = 0 ∧ writeReg s 0 v = s ∧
    (r ≠ 0 → readReg (writeReg s r v) r = v) ∧
    (q ≠ r → readReg (writeReg s r v) q = readReg s q)

/-- Every instruction that completes writes no general register and sets pc to pc + 4 modulo 2^32 (R10,
R12), and leaves the configuration, the program text and its marks as they are. One that stops reports a
state with pc and those unchanged (R12, R92), and none is refused. The wrap of pc is the spec's decision
D4 (log 34), the reported state its decision D17 (log 13). -/
def Obligations.RegistersKeptAndPcAdvances : Prop :=
  ∀ (i : Instr) (s : State),
    (∀ t, exec i s = .next t →
      t.regs = s.regs ∧ t.pc = s.pc + 4 ∧ t.cfg = s.cfg ∧ t.text = s.text ∧
        t.syncMarks = s.syncMarks) ∧
    (∀ f, exec i s = .fault f →
      f.reported.pc = s.pc ∧ f.reported.regs = s.regs ∧ f.reported.cfg = s.cfg) ∧
    ∀ r, exec i s ≠ .refused r

/-- Coprocessor 0 state: no instruction changes `Cp0Usable` or `KernelMode` (R14, R15), none but the
implementation-dependent operations the Watch registers (R18), and none but Index Load Tag and the
implementation-dependent operations any of it (R16, R17). That nothing writes the two mode bits is the spec's
decision D20. That an operation of code 0b011 keeps them, and that it may write the Watch registers and TagLo
to DataHi, is the model's form (log 25): R17 names Index Load Tag alone as writing DataLo and DataHi, R18
says of nothing that it writes the Watch registers, R70 leaves the operation to the implementation. -/
def Obligations.Cp0WrittenByLoadTagOnly : Prop :=
  ∀ (i : Instr) (s t : State), exec i s = .next t →
    (t.cp0.cp0Usable = s.cp0.cp0Usable ∧ t.cp0.kernelMode = s.cp0.kernelMode) ∧
    (operationCode i.op ≠ 3 → t.cp0.watch = s.cp0.watch) ∧
    (operationCode i.op ≠ 1 → operationCode i.op ≠ 3 → t.cp0 = s.cp0)

/-- The law of R24 in every well-formed configuration, whatever its tag layout: unpacking what packing
gives returns the block's fields, for every tag below `2^PABITS div WaySize` and every block that may be
dirty. The law is the spec's decision D10; the layouts are the model's form (logs 21, 22). -/
def Obligations.TagPackThenUnpack : Prop :=
  ∀ (cfg : Cfg) (c : CacheName) (b : Block), cfgOk cfg = true → present cfg c = true →
    b.ptag < ptagLimit cfg c →
    (b.dirty = true → writeBack cfg c = true) →
    tagUnpack cfg c (tagPack cfg c b).1 (tagPack cfg c b).2 = (b.valid, b.dirty, b.lock, b.ptag)

/-- Lookup (R24): a way is found exactly when it alone holds a valid block with the address's tag, none
when no way does, and two are a fault. The lookup and the fault are the spec's decision D35 (log 14). -/
def Obligations.LookupFindsTheOneMatchingWay : Prop :=
  ∀ (s : State) (c : CacheName) (ia p : Nat),
    let hits (w : Nat) : Prop := w < wayCount s.cfg c ∧
      (block s c (setIdx s.cfg c ia) w).valid = true ∧
      (block s c (setIdx s.cfg c ia) w).ptag = p / waySize s.cfg c
    (∀ w, findHit s c ia p = .ok (some w) ↔ hits w ∧ ∀ w', hits w' → w' = w) ∧
    (findHit s c ia p = .ok none ↔ ∀ w, ¬hits w) ∧
    ((∃ w w', hits w ∧ hits w' ∧ w ≠ w') ↔
      findHit s c ia p = .error (.undefinedDuplicateTag c (setIdx s.cfg c ia) s))

/-- A write to a block is read back, and leaves every other block of every cache alone. The block record
is the spec's decision D8. -/
def Obligations.BlockReadAfterWrite : Prop :=
  ∀ (s : State) (c c' : CacheName) (set way set' way' : Nat) (b : Block),
    CachesWellFormed s → way < wayCount s.cfg c → way' < wayCount s.cfg c' →
    block (setBlock s c set way b) c' set' way'
      = if c' = c ∧ set' = set ∧ way' = way then b else block s c' set' way'

/-! ### Memory and translation (20_memory.md) -/

/-- The constraints of R30 on translation under a well-formed configuration: a physical address exists;
0x80000000 | i with i < 2^29 never misses the TLB; Address Error only for kernel addresses outside kernel
mode, and only where the implementation raises it; a cache indexed by the virtual address has the same set
for both addresses (R4). That a kernel address outside kernel mode translates as in kernel mode where the
implementation does not raise Address Error is the model's reading of 'the translation proceeds as if the
access were allowed' (R30 item 4; log 11, DEDUCED). Translate as a list of regions and the bounds of kseg0
are the model's (logs 11, 31); when Address Error is answered is the spec's decision D31, the condition on
the set index its decision D34. -/
def Obligations.TranslationConstraints : Prop :=
  ∀ (s : State) (v : Word), cfgOk s.cfg = true →
    (∀ p u h, translate s v = .ok p u h → p < 2 ^ s.cfg.paBits) ∧
    (0x80000000 ≤ v.toNat → v.toNat < 0xA0000000 →
      translate s v ≠ .tlbRefill ∧ translate s v ≠ .tlbInvalid) ∧
    (translate s v = .addressError ↔
      s.cfg.adELOnKernelAddr = true ∧ s.cp0.kernelMode = false ∧
        ∃ r ∈ s.cfg.kernelSpace, r.base ≤ v.toNat ∧ v.toNat < r.base + r.size) ∧
    (s.cfg.adELOnKernelAddr = false →
      (∃ r ∈ s.cfg.kernelSpace, r.base ≤ v.toNat ∧ v.toNat < r.base + r.size) →
      translate s v = translate (withCp0 s { s.cp0 with kernelMode := true }) v) ∧
    (∀ (c : CacheName) (p : Nat) (u h : Bool), present s.cfg c = true →
      (s.cfg.caches.get c).indexUsesPhysical = false → translate s v = .ok p u h →
      setIdx s.cfg c v.toNat = setIdx s.cfg c p)

/-- A page's protections do not matter to CACHE (R31): changing them changes no translation. Pages as
entries of a list are the model's form (log 11). -/
def Obligations.ProtectionsDoNotMatter : Prop :=
  ∀ (s : State) (v : Word) (f : Protection → Protection),
    let protect (r : Region) : Region :=
      match r.target with
      | .page p u h x => { r with target := .page p u h (f x) }
      | .unmapped _ _ _ => r
      | .invalid => r
    translate { s with cfg := { s.cfg with regions := s.cfg.regions.map protect } } v
      = translate s v

/-- Any byte address of a line selects the line (R29): the lookup is the same for every address of the
line, aligned or not. The geometry is the spec's decision D8. -/
def Obligations.AnyByteOfALineSelectsIt : Prop :=
  ∀ (s : State) (c : CacheName) (ia p : Nat),
    findHit s c ia p = findHit s c (lineOf s.cfg c ia) (lineOf s.cfg c p) ∧
    lineOf s.cfg c p % lineBytes s.cfg c = 0 ∧ lineOf s.cfg c p ≤ p ∧
    p < lineOf s.cfg c p + lineBytes s.cfg c

/-- `WriteBackBlock` (R35): with an ok draw it appends the line at the address of the tag to WBQ, and
changes nothing else but the draws; with an error it takes the exception, WBQ unchanged. WBQ is the
spec's decision D11, the draw its decision D23 (log 16). -/
def Obligations.WritebackQueuesTheLine : Prop :=
  ∀ (s : State) (c : CacheName) (set way : Nat),
    (nextEvent s = .ok → ∃ t, writeBackBlock s c set way = .ok t ∧
      t.wbq = s.wbq ++ [⟨nextLevel s.cfg c,
        (block s c set way).ptag * waySize s.cfg c + set * lineBytes s.cfg c,
        (block s c set way).data⟩] ∧
      t.regs = s.regs ∧ t.pc = s.pc ∧ t.cp0 = s.cp0 ∧ t.caches = s.caches ∧ t.mem = s.mem ∧
      t.cfg = s.cfg) ∧
    (nextEvent s = .cacheError → ∃ t, writeBackBlock s c set way = .error (.trap .cacheError t) ∧
      t.wbq = s.wbq ∧ t.caches = s.caches ∧ t.mem = s.mem) ∧
    (nextEvent s = .busError → ∃ t, writeBackBlock s c set way = .error (.trap .busError t) ∧
      t.wbq = s.wbq ∧ t.caches = s.caches ∧ t.mem = s.mem)

/-- The drain step (R36). To memory: the head of WBQ is taken off, its bytes are written at its address,
every other byte of memory and everything else is as before. To an outer cache: on a hit the bytes are laid
over the block's data, which becomes dirty in a write-back cache and is passed on by a write-through one;
on a miss the entry is passed on to the next level and no block is allocated; memory is unchanged. A move
of the drain answers that state, or stops with that fault. The drain is the spec's decision D11 (log 32).
Its two faults are DEDUCED, the entry being taken off and nothing else changed: for an entry beyond the
physical space (log 20), and for a line that two blocks of the outer cache hold (log 19). -/
def Obligations.DrainDelivers : Prop :=
  (∀ (s : State) (a : Nat) (d : List Byte) (rest : List Writeback), Memory.wf s.mem →
    s.wbq = { level := .mem, addr := a, data := d } :: rest →
    a + d.length ≤ 2 ^ s.cfg.paBits →
    ∃ t, drainOne s = .ok t ∧ t.wbq = rest ∧
      (∀ k, k < d.length → memByte t (a + k) = d.getD k 0) ∧
      (∀ b, b < a ∨ a + d.length ≤ b → memByte t b = memByte s b) ∧
      t.regs = s.regs ∧ t.pc = s.pc ∧ t.cp0 = s.cp0 ∧ t.caches = s.caches ∧ t.cfg = s.cfg) ∧
  (∀ (s : State) (a : Nat) (d : List Byte) (rest : List Writeback),
    s.wbq = { level := .mem, addr := a, data := d } :: rest → 2 ^ s.cfg.paBits < a + d.length →
    drainOne s = .error (.outsidePhysicalSpace a (withWbq s rest))) ∧
  (∀ s : State, (∀ t, drainOne s = .ok t → drainStep s = .next t) ∧
    ∀ f, drainOne s = .error f → drainStep s = .fault f) ∧
  ∀ (s : State) (l : CacheName) (a : Nat) (d : List Byte) (rest : List Writeback),
    s.wbq = { level := .cache l, addr := a, data := d } :: rest →
    (2 ≤ (hitWays s l a a).length →
      drainOne s = .error (.undefinedDuplicateTag l (setIdx s.cfg l a) (withWbq s rest))) ∧
    (∀ w, findHit (withWbq s rest) l a a = .ok (some w) → writeBack s.cfg l = true →
      drainOne s = .ok (setBlock (withWbq s rest) l (setIdx s.cfg l a) w
        { block s l (setIdx s.cfg l a) w with
          data := lineSplice (block s l (setIdx s.cfg l a) w).data (a - lineOf s.cfg l a) d,
          dirty := true })) ∧
    (∀ w, findHit (withWbq s rest) l a a = .ok (some w) → writeBack s.cfg l = false →
      ∃ t, drainOne s = .ok t ∧
        t.wbq = rest ++ [{ level := nextLevel s.cfg l, addr := a, data := d }] ∧
        t.caches = (setBlock s l (setIdx s.cfg l a) w
          { block s l (setIdx s.cfg l a) w with
            data := lineSplice (block s l (setIdx s.cfg l a) w).data (a - lineOf s.cfg l a) d }).caches ∧
        t.mem = s.mem) ∧
    (findHit (withWbq s rest) l a a = .ok none →
      drainOne s
        = .ok (withWbq s (rest ++ [{ level := nextLevel s.cfg l, addr := a, data := d }])))

/-- `ReadLine` (R37): with an ok draw, the bytes of the line from the first outer cache that holds it,
else from memory; nothing but the draws changes. It does not look at WBQ (R39 item 4): whatever is
pending, the line read is the same. The order, the absence of allocation and that WBQ is not looked at are
the spec's decision D11 (log 32). Two stops are DEDUCED: the first outer cache that holds the line holds it
twice (log 19), or no outer cache holds it and it is not in the physical space (log 20). -/
def Obligations.ReadLineOrder : Prop :=
  (∀ (s : State) (c : CacheName) (p : Nat), nextEvent s = .ok →
    (∀ (before after : List CacheName) (l : CacheName) (w : Nat),
      outerCaches s.cfg c = before ++ l :: after →
      (∀ l' ∈ before, findHit (afterEvent s) l' (lineOf s.cfg c p) (lineOf s.cfg c p) = .ok none) →
      findHit (afterEvent s) l (lineOf s.cfg c p) (lineOf s.cfg c p) = .ok (some w) →
      readLine s c p = .ok (lineSlice (block s l (setIdx s.cfg l (lineOf s.cfg c p)) w).data
        (lineOf s.cfg c p - lineOf s.cfg l (lineOf s.cfg c p)) (lineBytes s.cfg c), afterEvent s)) ∧
    (∀ (before after : List CacheName) (l : CacheName),
      outerCaches s.cfg c = before ++ l :: after →
      (∀ l' ∈ before, hitWays s l' (lineOf s.cfg c p) (lineOf s.cfg c p) = []) →
      2 ≤ (hitWays s l (lineOf s.cfg c p) (lineOf s.cfg c p)).length →
      readLine s c p = .error (.undefinedDuplicateTag l (setIdx s.cfg l (lineOf s.cfg c p)) (afterEvent s))) ∧
    ((∀ l ∈ outerCaches s.cfg c, hitWays s l (lineOf s.cfg c p) (lineOf s.cfg c p) = []) →
      2 ^ s.cfg.paBits < lineOf s.cfg c p + lineBytes s.cfg c →
      readLine s c p = .error (.outsidePhysicalSpace (lineOf s.cfg c p) (afterEvent s))) ∧
    ((∀ l ∈ outerCaches s.cfg c,
        findHit (afterEvent s) l (lineOf s.cfg c p) (lineOf s.cfg c p) = .ok none) →
      lineOf s.cfg c p + lineBytes s.cfg c ≤ 2 ^ s.cfg.paBits →
      readLine s c p
        = .ok (memRead s (lineOf s.cfg c p) (lineBytes s.cfg c), afterEvent s))) ∧
  ∀ (s t : State) (c : CacheName) (p : Nat) (q : List Writeback) (d : List Byte),
    readLine s c p = .ok (d, t) → readLine (withWbq s q) c p = .ok (d, withWbq t q)

/-- The inner-first policy (R41) on an outer cache `c` and its line of bytes from `a` on. Without the policy
nothing happens. With it every line `b` of an inner cache that lies in the outer line is operated on: it is
held no longer in the instruction cache or where the kind invalidates; where the kind is Hit Writeback the
other inner caches still hold it, and clean if no writeback of the range was pending before. Hit Invalidate
queues nothing and changes the inner caches only. What the other kinds queue is delivered before the outer
block is examined: after `settle` no writeback of the range is pending for the cache or one inside it, and
none is after the inner caches have been operated on, if none was before. The data of a dirty inner block,
where nothing was pending and no other inner cache has a block of the line to write back, is by then in the
outer block, or on its way outward where the outer cache misses or is write-through. The policy's meaning is
the spec's decision D26; what is delivered, and in which order, is a DESIGN CHOICE (log 18), queueing D11. -/
def Obligations.SettleDeliversTheRange : Prop :=
  ∀ (c : CacheName) (a n : Nat) (kind : FlushKind) (s t : State),
    (settle c a n (settleFuel s.wbq) s = .ok t → t.wbq.any (pendingFor c a n) = false) ∧
    (s.wbq.any (pendingFor c a (lineBytes s.cfg c)) = false → innerFirst s c a kind = .ok t →
      t.wbq.any (pendingFor c a (lineBytes s.cfg c)) = false) ∧
    (s.cfg.outerOpsInnerFirst = false → innerFirst s c a kind = .ok s) ∧
    (innerFirst s c a .invalidate = .ok t →
      t.wbq = s.wbq ∧ t.mem = s.mem ∧ t.draws = s.draws ∧
        ∀ c' ∉ innerCaches s.cfg c, t.caches.get c' = s.caches.get c') ∧
    (Inv s → s.cfg.outerOpsInnerFirst = true → present s.cfg c = true → a % lineBytes s.cfg c = 0 →
      innerFirst s c a kind = .ok t →
      let inLine (ci : CacheName) (b : Nat) : Prop := ci ∈ innerCaches s.cfg c ∧
        b % lineBytes s.cfg ci = 0 ∧ a ≤ b ∧ b < a + lineBytes s.cfg c
      (∀ ci b, inLine ci b → ci = .i ∨ kind ≠ .writeback → hitWays t ci b b = []) ∧
      (∀ ci b, inLine ci b → ci ≠ .i → kind = .writeback →
        hitWays t ci b b = hitWays s ci b b ∧
        (s.wbq.any (pendingFor c a (lineBytes s.cfg c)) = false →
          ∀ w ∈ hitWays t ci b b, (block t ci (setIdx s.cfg ci b) w).dirty = false)) ∧
      (∀ ci b w, inLine ci b → nextLevel s.cfg ci = .cache c → kind ≠ .invalidate → s.wbq = [] →
        hitWays s ci b b = [w] → needsWriteback s ci (setIdx s.cfg ci b) w = true →
        (∀ cj b' w', inLine cj b' → w' ∈ hitWays s cj b' b' →
          needsWriteback s cj (setIdx s.cfg cj b') w' = true → cj = ci) →
        (∀ v ∈ hitWays s c b b,
          (writeBack s.cfg c = true → (block t c (setIdx s.cfg c b) v).dirty = true) ∧
          ∀ k < lineBytes s.cfg ci, (block t c (setIdx s.cfg c b) v).data.getD (b - a + k) 0
            = (block s ci (setIdx s.cfg ci b) w).data.getD k 0) ∧
        (hitWays s c b b = [] ∨ writeBack s.cfg c = false →
          { level := nextLevel s.cfg c, addr := b, data := (block s ci (setIdx s.cfg ci b) w).data }
            ∈ t.wbq)))

/-! ### What every operation checks first (40_cache.md R60, R61; 60_exceptions.md) -/

/-- R60: the Required operations of a cache that exists are implemented; no operation of an absent cache
is, nor op 24, 30 or 31. An operation that is not implemented is UNDEFINED once Coprocessor 0 is usable,
before any address is looked at (R61 line 2, R94). That this stop comes before Watch and translation is
the order of checks, the spec's decision D15 (log 15, DESIGN CHOICE). That the optional ones are a list is
the model's form (log 27); the stop for UNDEFINED is the spec's decision D16 (log 14); absent caches and
ops 24, 30, 31 are the spec's inference. -/
def Obligations.RequiredOperationsExist : Prop :=
  ∀ (cfg : Cfg) (op : BitVec 5),
    (present cfg (cacheOfOp op) = false → opImplemented cfg op = false) ∧
    (op = 24 ∨ op = 30 ∨ op = 31 → opImplemented cfg op = false) ∧
    (present cfg .i = true → op = 0 ∨ op = 8 ∨ op = 16 → opImplemented cfg op = true) ∧
    (present cfg .d = true → op = 1 ∨ op = 9 ∨ op = 21 → opImplemented cfg op = true) ∧
    (present cfg .t = true → op = 2 ∨ op = 10 ∨ op = 22 → opImplemented cfg op = true) ∧
    (present cfg .s = true → op = 3 ∨ op = 11 ∨ op = 23 → opImplemented cfg op = true) ∧
    (∀ (i : Instr) (s : State), s.cfg = cfg → i.op = op → s.cp0.cp0Usable = true →
      opImplemented cfg op = false → exec i s = .fault (.undefinedOpNotImplemented op s))

/-- Coprocessor Unusable (R80): every instruction, exactly when access is not enabled, before anything
else, with the state unchanged. That the number recorded is 0 is the spec's inference; the order is its
decision D15 (log 15). -/
def Obligations.CoprocessorUnusableExactly : Prop :=
  ∀ (i : Instr) (s t : State) (cop : Nat),
    exec i s = .fault (.trap (.coprocessorUnusable cop) t) ↔
      s.cp0.cp0Usable = false ∧ cop = 0 ∧ t = s

/-- R79: ops 24, 30 and 31 stop in every state, with the trap when Coprocessor 0 is not usable and with
UNDEFINED when it is. This is the spec's inference from R60 and the Restrictions; the stop is its
decision D16 (log 14). -/
def Obligations.NoRowOperationsStop : Prop :=
  ∀ (i : Instr) (imm : BitVec 9) (rx : BitVec 3) (s : State),
    i ∈ [.noRowWritebackI imm rx, .noRowFetchLockT imm rx, .noRowFetchLockS imm rx] →
    exec i s = if s.cp0.cp0Usable then .fault (.undefinedOpNotImplemented i.op s)
      else .fault (.trap (.coprocessorUnusable 0) s)

/-- Watch (R86): exactly where the implementation watches CACHE and the address meets the match
conditions, recording the effective address; lines 1 and 2 of R61 come first. The order is the spec's
decision D15 (log 15), the form of the match condition the model's (log 30), the address recorded general
knowledge in the spec (R88). -/
def Obligations.WatchExactly : Prop :=
  ∀ (i : Instr) (s t : State) (v : Word),
    exec i s = .fault (.trap (.watch v) t) ↔
      s.cp0.cp0Usable = true ∧ opImplemented s.cfg i.op = true ∧ s.cfg.watchOnCache = true ∧
        watchMatch s (effectiveAddress s i.imm i.rx) = true ∧
        v = effectiveAddress s i.imm i.rx ∧ t = s

/-- TLB Refill (R81) and TLB Invalid (R82): on any operation, exactly where the translation finds no
entry, or one marked not valid, with code TLBL and the effective address recorded; a refill never for an
unmapped kseg0 address of a well-formed configuration. The order is the spec's decision D15 (log 15), the
address recorded general knowledge in the spec (R88), the bounds of kseg0 the model's (log 31). -/
def Obligations.TlbTrapsExactly : Prop :=
  (∀ (i : Instr) (s t : State) (code : CauseCode) (v : Word),
    exec i s = .fault (.trap (.tlbRefill code v) t) ↔
      s.cp0.cp0Usable = true ∧ opImplemented s.cfg i.op = true ∧
        (s.cfg.watchOnCache && watchMatch s (effectiveAddress s i.imm i.rx)) = false ∧
        translate s (effectiveAddress s i.imm i.rx) = .tlbRefill ∧
        code = .tlbl ∧ v = effectiveAddress s i.imm i.rx ∧ t = s) ∧
  (∀ (i : Instr) (s t : State) (code : CauseCode) (v : Word),
    exec i s = .fault (.trap (.tlbInvalid code v) t) ↔
      s.cp0.cp0Usable = true ∧ opImplemented s.cfg i.op = true ∧
        (s.cfg.watchOnCache && watchMatch s (effectiveAddress s i.imm i.rx)) = false ∧
        translate s (effectiveAddress s i.imm i.rx) = .tlbInvalid ∧
        code = .tlbl ∧ v = effectiveAddress s i.imm i.rx ∧ t = s) ∧
  (∀ (i : Instr) (s t : State) (code : CauseCode) (v : Word), cfgOk s.cfg = true →
    0x80000000 ≤ (effectiveAddress s i.imm i.rx).toNat →
    (effectiveAddress s i.imm i.rx).toNat < 0xA0000000 →
    exec i s ≠ .fault (.trap (.tlbRefill code v) t))

/-- Address Error (R83): exactly where the address is in the kernel address space that the mode may not
touch and the implementation raises it, with code AdEL and the effective address recorded; so never for
alignment. The order is the spec's decision D15 (log 15), the condition its decision D31, the address
recorded general knowledge in the spec (R88). -/
def Obligations.AddressErrorExactly : Prop :=
  ∀ (i : Instr) (s t : State) (code : CauseCode) (v : Word),
    exec i s = .fault (.trap (.addressError code v) t) ↔
      s.cp0.cp0Usable = true ∧ opImplemented s.cfg i.op = true ∧
        (s.cfg.watchOnCache && watchMatch s (effectiveAddress s i.imm i.rx)) = false ∧
        (s.cfg.adELOnKernelAddr = true ∧ s.cp0.kernelMode = false ∧
          ∃ r ∈ s.cfg.kernelSpace, r.base ≤ (effectiveAddress s i.imm i.rx).toNat ∧
            (effectiveAddress s i.imm i.rx).toNat < r.base + r.size) ∧
        code = .adel ∧ v = effectiveAddress s i.imm i.rx ∧ t = s

/-- R87: no instruction raises TLB Modified, Execute-Inhibit or Read-Inhibit, a TLB exception with code
TLBS, or an Address Error with a code other than AdEL; none raises an Address Error but for an address
of the kernel space outside kernel mode (R83, R30 item 4), so none for alignment. The condition for an
Address Error is the spec's decision D31, the kernel space as a list the model's form (log 11), the address
recorded general knowledge in the spec (R88). -/
def Obligations.NeverRaises : Prop :=
  ∀ (i : Instr) (s t : State) (v : Word) (code : CauseCode),
    exec i s ≠ .fault (.trap (.tlbModified v) t) ∧
    exec i s ≠ .fault (.trap (.executeInhibit v) t) ∧
    exec i s ≠ .fault (.trap (.readInhibit v) t) ∧
    exec i s ≠ .fault (.trap (.tlbRefill .tlbs v) t) ∧
    exec i s ≠ .fault (.trap (.tlbInvalid .tlbs v) t) ∧
    (code ≠ .adel → exec i s ≠ .fault (.trap (.addressError code v) t)) ∧
    (exec i s = .fault (.trap (.addressError code v) t) → s.cp0.kernelMode = false ∧
      ∃ r ∈ s.cfg.kernelSpace, r.base ≤ v.toNat ∧ v.toNat < r.base + r.size)

/-- R32: an Address operation on an uncacheable address is UNDEFINED, and so is one of code 0b011 whose
ImplOp requires an address (R70); an Index operation is not. That ImplOp says so by a field of the
configuration is the model's form (log 25). The stop for UNDEFINED is the spec's decision D16 (log 14), the order its
decision D15 (log 15). -/
def Obligations.UncacheableAddressExactly : Prop :=
  ∀ (i : Instr) (s t : State),
    exec i s = .fault (.undefinedUncacheableAddress t) ↔
      s.cp0.cp0Usable = true ∧ opImplemented s.cfg i.op = true ∧
        (s.cfg.watchOnCache && watchMatch s (effectiveAddress s i.imm i.rx)) = false ∧
        (∃ p h, translate s (effectiveAddress s i.imm i.rx) = .ok p true h) ∧
        (4 ≤ operationCode i.op ∨ operationCode i.op = 3 ∧
          (s.cfg.caches.get (cacheOfOp i.op)).implTakesAddress = true) ∧ t = s

/-- Operations that move no line never raise Cache Error or Bus Error (R84, R85): Index Invalidate I,
Index Load Tag, Index Store Tag and Hit Invalidate. For ops 0 and 16 to 19 this is
the spec's inference. -/
def Obligations.NoTransferNoTransferError : Prop :=
  ∀ (i : Instr) (s t : State), i.op = 0 ∨ (4 ≤ i.op.toNat ∧ i.op.toNat ≤ 11) ∨
      (16 ≤ i.op.toNat ∧ i.op.toNat ≤ 19) →
    exec i s ≠ .fault (.trap .cacheError t) ∧ exec i s ≠ .fault (.trap .busError t)

/-- The row CACHE and the variant with the same words are the same instruction (R51). That the two rows
are the same words is the spec's inference (log 26). -/
def Obligations.CacheRowIsItsVariant : Prop :=
  ∀ (op : BitVec 5) (imm : BitVec 9) (rx : BitVec 3) (s : State),
    exec (.cache op imm rx) s = exec (canonicalInstr (.cache op imm rx)) s

/-! ### Index operations (R65 to R69) -/

/-- Index Invalidate I (R65): the indexed block becomes invalid, clean and unlocked, whatever it was, and
nothing else changes but pc; if it holds the instruction's own line the outcome is UNPREDICTABLE (R64).
That tag and data are kept is the spec's decision D12 (log 23), the index decode D9, the stop D16 (log
14). -/
def Obligations.IndexInvalidateIResult : Prop :=
  ∀ (imm : BitVec 9) (rx : BitVec 3) (s : State) (p : Nat) (u h : Bool),
    Executes 0 imm rx s p u h →
    let set := indexedSet s .i (instrIndex .i imm rx s p)
    let way := indexedWay s .i (instrIndex .i imm rx s p)
    (holdsOwnLine s .i set way = false →
      exec (.indexInvalidateI imm rx) s
        = .next (withPc (setBlock s .i set way
            { block s .i set way with valid := false, dirty := false, lock := false })
          (s.pc + 4))) ∧
    (holdsOwnLine s .i set way = true →
      exec (.indexInvalidateI imm rx) s = .fault (.unpredictableOwnLine .i s))

/-- Index Writeback Invalidate D (R66): a valid and dirty block of a write-back cache is queued for the
address of its tag and then invalidated; any other block is only invalidated; if it holds the instruction's
own line the outcome is UNPREDICTABLE (R64). Queueing is the spec's decision D11, kept tag and data D12
(log 23), the index decode D9, the stop D16 (log 14); that an invalid block's lock is cleared too is the
spec's inference. -/
def Obligations.IndexWritebackInvalidateDResult : Prop :=
  ∀ (imm : BitVec 9) (rx : BitVec 3) (s : State) (p : Nat) (u h : Bool),
    Executes 1 imm rx s p u h →
    let set := indexedSet s .d (instrIndex .d imm rx s p)
    let way := indexedWay s .d (instrIndex .d imm rx s p)
    let b := block s .d set way
    let b' := { b with valid := false, dirty := false, lock := false }
    (holdsOwnLine s .d set way = true →
      exec (.indexWritebackInvalidateD imm rx) s = .fault (.unpredictableOwnLine .d s)) ∧
    (holdsOwnLine s .d set way = false →
      (writeBack s.cfg .d = true ∧ b.valid = true ∧ b.dirty = true → nextEvent s = .ok →
        exec (.indexWritebackInvalidateD imm rx) s
          = .next (withPc (setBlock (enqueue (afterEvent s)
              { level := nextLevel s.cfg .d, addr := lineAddr s.cfg .d set b, data := b.data })
              .d set way b') (s.pc + 4))) ∧
      (¬(writeBack s.cfg .d = true ∧ b.valid = true ∧ b.dirty = true) →
        exec (.indexWritebackInvalidateD imm rx) s
          = .next (withPc (setBlock s .d set way b') (s.pc + 4))))

/-- Index Writeback Invalidate T, S (R67): as on D, after the inner caches where the implementation
operates on them first; `s1` is the state after that. The instruction's own line is UNPREDICTABLE (R64).
The inner-first step is the spec's decision D26 as read in log 18; queueing is D11, kept tag and data D12
(log 23), the index decode D9, the stop D16 (log 14). -/
def Obligations.IndexWritebackInvalidateOuterResult : Prop :=
  ∀ (c : CacheName) (i : Instr) (imm : BitVec 9) (rx : BitVec 3) (s s1 : State) (p : Nat)
    (u h : Bool),
    (c, i) ∈ [(CacheName.t, Instr.indexWritebackInvalidateT imm rx),
      (CacheName.s, Instr.indexWritebackInvalidateS imm rx)] →
    Executes i.op imm rx s p u h →
    let set := indexedSet s c (instrIndex c imm rx s p)
    let way := indexedWay s c (instrIndex c imm rx s p)
    (if (block s c set way).valid then
        innerFirst s c (lineAddr s.cfg c set (block s c set way)) .writebackInvalidate
      else .ok s) = .ok s1 →
    let b := block s1 c set way
    let b' := { b with valid := false, dirty := false, lock := false }
    (holdsOwnLine s1 c set way = true → exec i s = .fault (.unpredictableOwnLine c s1)) ∧
    (holdsOwnLine s1 c set way = false →
      (writeBack s.cfg c = true ∧ b.valid = true ∧ b.dirty = true → nextEvent s1 = .ok →
        exec i s = .next (withPc (setBlock (enqueue (afterEvent s1)
            { level := nextLevel s.cfg c, addr := lineAddr s.cfg c set b, data := b.data })
            c set way b') (s.pc + 4))) ∧
      (¬(writeBack s.cfg c = true ∧ b.valid = true ∧ b.dirty = true) →
        exec i s = .next (withPc (setBlock s1 c set way b') (s.pc + 4))))

/-- Index Load Tag (R68): it completes, the tag registers hold the tag of the indexed block, the data
registers, if there are any, the data at the byte index; caches, WBQ, memory, the general registers
and, with a pair per cache, the other caches' registers are unchanged. Which block and byte the index names
is the spec's decision D9 (log 21), the pair per cache, TagPack and DataRead its decision D10 (log 21), pc
+ 4 its decision D4 (log 34). -/
def Obligations.IndexLoadTagResult : Prop :=
  ∀ (c : CacheName) (i : Instr) (imm : BitVec 9) (rx : BitVec 3) (s : State) (p : Nat) (u h : Bool),
    (c, i) ∈ [(CacheName.i, Instr.indexLoadTagI imm rx), (CacheName.d, Instr.indexLoadTagD imm rx),
      (CacheName.t, Instr.indexLoadTagT imm rx), (CacheName.s, Instr.indexLoadTagS imm rx)] →
    Executes i.op imm rx s p u h →
    let ia := instrIndex c imm rx s p
    let b := block s c (indexedSet s c ia) (indexedWay s c ia)
    ∃ t, exec i s = .next t ∧
      (tagLo t c, tagHi t c) = tagPack s.cfg c b ∧
      (s.cfg.hasDataRegs = true →
        (dataLo t c, dataHi t c) = dataRead s.cfg c b (indexedByte s c ia)) ∧
      (s.cfg.hasDataRegs = false → t.cp0.dataLo = s.cp0.dataLo ∧ t.cp0.dataHi = s.cp0.dataHi) ∧
      (s.cfg.tagRegsPerCache = true → ∀ c', c' ≠ c → tagLo t c' = tagLo s c' ∧
        tagHi t c' = tagHi s c' ∧ dataLo t c' = dataLo s c' ∧ dataHi t c' = dataHi s c') ∧
      t.cp0.cp0Usable = s.cp0.cp0Usable ∧ t.cp0.kernelMode = s.cp0.kernelMode ∧
      t.cp0.watch = s.cp0.watch ∧ t.caches = s.caches ∧ t.wbq = s.wbq ∧ t.mem = s.mem ∧
      t.regs = s.regs ∧ t.pc = s.pc + 4

/-- Index Store Tag (R69), for the variants and for the row CACHE itself: it completes, the indexed block
has the fields that TagLo and TagHi stand for and its old data, and nothing else changes but pc: no
writeback of what the block held. That nothing is written back is the spec's inference; that dirty is
cleared for a write-through cache is log 22. Which block an index selects (R22, R23): the index address is
the effective or the physical address, as the implementation has it, and in the standard layout set, way and
byte are its bits; so the indices that software steps through (R65, R106), and every address with the same
low 29 bits (their physical addresses, R23), select each set and way exactly once. The index decode is the
spec's decision D9, its layouts the model's form (log 21), the exactly once the spec's inference. -/
def Obligations.IndexStoreTagResult : Prop :=
  (∀ (cfg : Cfg) (c : CacheName), (cfg.caches.get c).indexLayout = .standard →
    (∀ ia, indexDecode cfg c ia = (ia / lineBytes cfg c % setCount cfg c,
      ia / (lineBytes cfg c * setCount cfg c) % wayCount cfg c, ia % lineBytes cfg c)) ∧
    (cfgOk cfg = true → present cfg c = true →
      (∀ k < setCount cfg c * wayCount cfg c, ∀ ia, ia % 2 ^ 29 = (bootIndex cfg c k).toNat % 2 ^ 29 →
        indexDecode cfg c ia = (k % setCount cfg c, k / setCount cfg c, 0)) ∧
      ∀ set < setCount cfg c, ∀ way < wayCount cfg c,
        ∃ k < setCount cfg c * wayCount cfg c, ∀ k' < setCount cfg c * wayCount cfg c,
          ((indexDecode cfg c (bootIndex cfg c k').toNat).1 = set ∧
            (indexDecode cfg c (bootIndex cfg c k').toNat).2.1 = way) ↔ k' = k)) ∧
  ∀ (c : CacheName) (i : Instr) (imm : BitVec 9) (rx : BitVec 3) (s : State) (p : Nat) (u h : Bool),
    (c, i) ∈ [(CacheName.i, Instr.indexStoreTagI imm rx), (CacheName.d, Instr.indexStoreTagD imm rx),
      (CacheName.t, Instr.indexStoreTagT imm rx), (CacheName.s, Instr.indexStoreTagS imm rx),
      (CacheName.i, Instr.cache 8 imm rx), (CacheName.d, Instr.cache 9 imm rx),
      (CacheName.t, Instr.cache 10 imm rx), (CacheName.s, Instr.cache 11 imm rx)] →
    Executes i.op imm rx s p u h →
    let ia := instrIndex c imm rx s p
    let b := block s c (indexedSet s c ia) (indexedWay s c ia)
    let f := tagUnpack s.cfg c (tagLo s c) (tagHi s c)
    ia = (if (s.cfg.caches.get c).indexUsesPhysical then p else (effectiveAddress s imm rx).toNat) ∧
    exec i s = .next (withPc (setBlock s c (indexedSet s c ia) (indexedWay s c ia)
      { valid := f.1, dirty := f.2.1, lock := f.2.2.1, ptag := f.2.2.2, data := b.data })
      (s.pc + 4))

/-! ### Operation code 0b011 (R70) -/

/-- Implementation Dependent (R70): where the implementation does not have it the outcome is UNDEFINED;
where it does, it makes the writes that ImplOp gives in this state and completes with pc + 4, or stops as
ImplOp says; general registers, memory, the configuration and the mode are unchanged either way. What
ImplOp gives is a draw, in the end a free value (log 25), and what it may write or stop with the model's
form (log 25); the default is the spec's decision D28. -/
def Obligations.ImplDependentCompletes : Prop :=
  ∀ (i : Instr) (imm : BitVec 9) (rx : BitVec 3) (s : State),
    i ∈ [Instr.implDependentI imm rx, Instr.implDependentD imm rx, Instr.implDependentT imm rx,
      Instr.implDependentS imm rx] →
    (s.cp0.cp0Usable = true → i.op.toNat ∉ s.cfg.optionalOps →
      exec i s = .fault (.undefinedOpNotImplemented i.op s)) ∧
    (∀ p u h, Executes i.op imm rx s p u h →
      let c := cacheOfOp i.op
      let r := nextImpl s c (effectiveAddress s imm rx) p u
      let t := implWrites (afterImpl s) r.writes
      (r.stop = none → exec i s = .next (withPc t (s.pc + 4))) ∧
      (r.stop = some .cacheError → exec i s = .fault (.trap .cacheError t)) ∧
      (r.stop = some .busError → exec i s = .fault (.trap .busError t)) ∧
      (∀ n, r.stop = some (.implementation n) → exec i s = .fault (.trap (.implementation n) t)) ∧
      (∀ c' n, r.stop = some (.allWaysLocked c' n) →
        exec i s = .fault (.undefinedAllWaysLocked c' n t)) ∧
      (∀ c' n, r.stop = some (.duplicateTag c' n) →
        exec i s = .fault (.undefinedDuplicateTag c' n t)) ∧
      (∀ c', r.stop = some (.ownLine c') → exec i s = .fault (.unpredictableOwnLine c' t)) ∧
      (∀ n, r.stop = some (.undefined n) → exec i s = .fault (.undefinedByImplementation n t)) ∧
      (∀ n, r.stop = some (.unpredictable n) →
        exec i s = .fault (.unpredictableByImplementation n t)) ∧
      t.regs = s.regs ∧ t.mem = s.mem ∧ t.cfg = s.cfg ∧ t.cp0.cp0Usable = s.cp0.cp0Usable ∧
      t.cp0.kernelMode = s.cp0.kernelMode)

/-! ### Address operations (R71 to R78) -/

/-- Hit Invalidate I, D (R71): on a miss nothing changes but pc; on a hit the block is invalidated and
unlocked, dirty or not, without a writeback; its own line is UNPREDICTABLE. Kept tag and data are the
spec's decision D12 (log 23), the stop D16 (log 14); that a dirty block is lost is the spec's inference.
-/
def Obligations.HitInvalidateResult : Prop :=
  ∀ (c : CacheName) (i : Instr) (imm : BitVec 9) (rx : BitVec 3) (s : State) (p : Nat) (u h : Bool),
    (c, i) ∈ [(CacheName.i, Instr.hitInvalidateI imm rx), (CacheName.d, Instr.hitInvalidateD imm rx)] →
    Executes i.op imm rx s p u h →
    let ia := instrIndex c imm rx s p
    let set := setIdx s.cfg c ia
    (hitWays s c ia p = [] → exec i s = .next (withPc s (s.pc + 4))) ∧
    (∀ w, hitWays s c ia p = [w] → holdsOwnLine s c set w = false →
      exec i s = .next (withPc (setBlock s c set w
        { block s c set w with valid := false, dirty := false, lock := false }) (s.pc + 4))) ∧
    (∀ w, hitWays s c ia p = [w] → holdsOwnLine s c set w = true →
      exec i s = .fault (.unpredictableOwnLine c s))

/-- Hit Invalidate T, S (R72): as on I and D, after the inner caches where the implementation operates on
them first; `s1` is the state after that. The instruction's own line is UNPREDICTABLE (R64). The
inner-first step is the spec's decision D26 as read in log 18; kept tag and data D12 (log 23), the stop D16
(log 14). -/
def Obligations.HitInvalidateOuterResult : Prop :=
  ∀ (c : CacheName) (i : Instr) (imm : BitVec 9) (rx : BitVec 3) (s s1 : State) (p : Nat) (u h : Bool),
    (c, i) ∈ [(CacheName.t, Instr.hitInvalidateT imm rx), (CacheName.s, Instr.hitInvalidateS imm rx)] →
    Executes i.op imm rx s p u h →
    innerFirst s c (lineOf s.cfg c p) .invalidate = .ok s1 →
    let ia := instrIndex c imm rx s p
    let set := setIdx s.cfg c ia
    (hitWays s1 c ia p = [] → exec i s = .next (withPc s1 (s.pc + 4))) ∧
    (∀ w, hitWays s1 c ia p = [w] → holdsOwnLine s1 c set w = false →
      exec i s = .next (withPc (setBlock s1 c set w
        { block s1 c set w with valid := false, dirty := false, lock := false }) (s.pc + 4))) ∧
    (∀ w, hitWays s1 c ia p = [w] → holdsOwnLine s1 c set w = true →
      exec i s = .fault (.unpredictableOwnLine c s1))

/-- Fill I (R73): on a hit nothing changes but pc, or with `Refill` the data is read again; on a miss the
drawn unlocked way becomes a valid, clean, unlocked block with the address's tag and the line read; with
no unlocked way the miss is UNDEFINED (R63). The policy on a hit is the spec's decision D14, the free
draw among unlocked ways D13 (log 16). -/
def Obligations.FillResult : Prop :=
  ∀ (imm : BitVec 9) (rx : BitVec 3) (s : State) (p : Nat) (u h : Bool),
    Executes 20 imm rx s p u h →
    let ia := instrIndex .i imm rx s p
    let set := setIdx s.cfg .i ia
    (∀ w, hitWays s .i ia p = [w] → s.cfg.fillOnHit = .noChange →
      exec (.fillI imm rx) s = .next (withPc s (s.pc + 4))) ∧
    (∀ w d s1, hitWays s .i ia p = [w] → s.cfg.fillOnHit = .refill →
      readLine s .i p = .ok (d, s1) →
      exec (.fillI imm rx) s
        = .next (withPc (setBlock s1 .i set w { block s .i set w with data := d }) (s.pc + 4))) ∧
    (∀ d s1, hitWays s .i ia p = [] → unlockedWays s .i set ≠ [] →
      readLine (afterWay s) .i p = .ok (d, s1) →
      victimWay s .i set ∈ unlockedWays s .i set ∧
      exec (.fillI imm rx) s
        = .next (withPc (setBlock s1 .i set (victimWay s .i set)
            { valid := true, dirty := false, lock := false, ptag := p / waySize s.cfg .i, data := d })
          (s.pc + 4))) ∧
    (hitWays s .i ia p = [] → unlockedWays s .i set = [] →
      exec (.fillI imm rx) s = .fault (.undefinedAllWaysLocked .i set s))

/-- Hit Writeback Invalidate D (R74): on a miss nothing changes but pc; a dirty block of a write-back
cache is queued and then invalidated; any other block that hits is only invalidated; the instruction's own
line is UNPREDICTABLE (R64). Queueing is the spec's decision D11, kept tag and data D12 (log 23), the stop
D16 (log 14). -/
def Obligations.HitWritebackInvalidateDResult : Prop :=
  ∀ (imm : BitVec 9) (rx : BitVec 3) (s : State) (p : Nat) (u h : Bool),
    Executes 21 imm rx s p u h →
    let ia := instrIndex .d imm rx s p
    let set := setIdx s.cfg .d ia
    (hitWays s .d ia p = [] →
      exec (.hitWritebackInvalidateD imm rx) s = .next (withPc s (s.pc + 4))) ∧
    (∀ w, hitWays s .d ia p = [w] → holdsOwnLine s .d set w = false →
      let b := block s .d set w
      let b' := { b with valid := false, dirty := false, lock := false }
      (writeBack s.cfg .d = true ∧ b.dirty = true → nextEvent s = .ok →
        exec (.hitWritebackInvalidateD imm rx) s
          = .next (withPc (setBlock (enqueue (afterEvent s)
              { level := nextLevel s.cfg .d, addr := lineAddr s.cfg .d set b, data := b.data })
              .d set w b') (s.pc + 4))) ∧
      (¬(writeBack s.cfg .d = true ∧ b.dirty = true) →
        exec (.hitWritebackInvalidateD imm rx) s
          = .next (withPc (setBlock s .d set w b') (s.pc + 4)))) ∧
    (∀ w, hitWays s .d ia p = [w] → holdsOwnLine s .d set w = true →
      exec (.hitWritebackInvalidateD imm rx) s = .fault (.unpredictableOwnLine .d s))

/-- Hit Writeback Invalidate T, S (R75): as on D, after the inner caches where the implementation
operates on them first; `s1` is the state after that. The instruction's own line is UNPREDICTABLE (R64).
The inner-first step is the spec's decision D26 as read in log 18; queueing is D11, kept tag and data D12
(log 23), the stop D16 (log 14). -/
def Obligations.HitWritebackInvalidateOuterResult : Prop :=
  ∀ (c : CacheName) (i : Instr) (imm : BitVec 9) (rx : BitVec 3) (s s1 : State) (p : Nat) (u h : Bool),
    (c, i) ∈ [(CacheName.t, Instr.hitWritebackInvalidateT imm rx),
      (CacheName.s, Instr.hitWritebackInvalidateS imm rx)] →
    Executes i.op imm rx s p u h →
    innerFirst s c (lineOf s.cfg c p) .writebackInvalidate = .ok s1 →
    let ia := instrIndex c imm rx s p
    let set := setIdx s.cfg c ia
    (hitWays s1 c ia p = [] → exec i s = .next (withPc s1 (s.pc + 4))) ∧
    (∀ w, hitWays s1 c ia p = [w] → holdsOwnLine s1 c set w = false →
      let b := block s1 c set w
      let b' := { b with valid := false, dirty := false, lock := false }
      (writeBack s.cfg c = true ∧ b.dirty = true → nextEvent s1 = .ok →
        exec i s = .next (withPc (setBlock (enqueue (afterEvent s1)
            { level := nextLevel s.cfg c, addr := lineAddr s.cfg c set b, data := b.data })
            c set w b') (s.pc + 4))) ∧
      (¬(writeBack s.cfg c = true ∧ b.dirty = true) →
        exec i s = .next (withPc (setBlock s1 c set w b') (s.pc + 4)))) ∧
    (∀ w, hitWays s1 c ia p = [w] → holdsOwnLine s1 c set w = true →
      exec i s = .fault (.unpredictableOwnLine c s1))

/-- Hit Writeback D (R76): a dirty block that hits is queued and stays valid and locked or not, but
clean; on a miss, a clean hit or a write-through cache nothing changes but pc. Queueing is the spec's
decision D11; that a write-through cache needs no case of its own is the spec's inference. -/
def Obligations.HitWritebackDResult : Prop :=
  ∀ (imm : BitVec 9) (rx : BitVec 3) (s : State) (p : Nat) (u h : Bool),
    Executes 25 imm rx s p u h →
    let ia := instrIndex .d imm rx s p
    let set := setIdx s.cfg .d ia
    (hitWays s .d ia p = [] → exec (.hitWritebackD imm rx) s = .next (withPc s (s.pc + 4))) ∧
    (∀ w, hitWays s .d ia p = [w] →
      let b := block s .d set w
      (writeBack s.cfg .d = true ∧ b.dirty = true → nextEvent s = .ok →
        exec (.hitWritebackD imm rx) s
          = .next (withPc (setBlock (enqueue (afterEvent s)
              { level := nextLevel s.cfg .d, addr := lineAddr s.cfg .d set b, data := b.data })
              .d set w { b with dirty := false }) (s.pc + 4))) ∧
      (¬(writeBack s.cfg .d = true ∧ b.dirty = true) →
        exec (.hitWritebackD imm rx) s = .next (withPc s (s.pc + 4))))

/-- Hit Writeback T, S (R77): as on D, after the inner caches where the implementation operates on them
first; `s1` is the state after that. The inner-first step is the spec's decision D26 as read in log 18;
queueing is D11. -/
def Obligations.HitWritebackOuterResult : Prop :=
  ∀ (c : CacheName) (i : Instr) (imm : BitVec 9) (rx : BitVec 3) (s s1 : State) (p : Nat) (u h : Bool),
    (c, i) ∈ [(CacheName.t, Instr.hitWritebackT imm rx), (CacheName.s, Instr.hitWritebackS imm rx)] →
    Executes i.op imm rx s p u h →
    innerFirst s c (lineOf s.cfg c p) .writeback = .ok s1 →
    let ia := instrIndex c imm rx s p
    let set := setIdx s.cfg c ia
    (hitWays s1 c ia p = [] → exec i s = .next (withPc s1 (s.pc + 4))) ∧
    (∀ w, hitWays s1 c ia p = [w] →
      let b := block s1 c set w
      (writeBack s.cfg c = true ∧ b.dirty = true → nextEvent s1 = .ok →
        exec i s = .next (withPc (setBlock (enqueue (afterEvent s1)
            { level := nextLevel s.cfg c, addr := lineAddr s.cfg c set b, data := b.data })
            c set w { b with dirty := false }) (s.pc + 4))) ∧
      (¬(writeBack s.cfg c = true ∧ b.dirty = true) →
        exec i s = .next (withPc s1 (s.pc + 4))))

/-- Fetch and Lock I, D (R78). One line only: on a hit only the lock changes; on a miss the drawn
unlocked way is written back if it is dirty, and becomes a valid, locked, clean block with the address's
tag and the line read; with no unlocked way the miss is UNDEFINED (R63). Where the implementation touches
further lines, the referenced line (`s1`), then each line drawn, in order, looked up by its physical address.
The victim's draw and that a locked way is never taken are the spec's decision D13 (log 16). Which further
lines is a free draw; that the referenced line comes first, the order of the others and the lookup by the
physical address are the model's choice (log 24, DESIGN CHOICE): R78 gives none of them. -/
def Obligations.FetchLockResult : Prop :=
  ∀ (c : CacheName) (i : Instr) (imm : BitVec 9) (rx : BitVec 3) (s : State) (p : Nat) (u h : Bool),
    (c, i) ∈ [(CacheName.i, Instr.fetchLockI imm rx), (CacheName.d, Instr.fetchLockD imm rx)] →
    Executes i.op imm rx s p u h →
    let ia := instrIndex c imm rx s p
    let set := setIdx s.cfg c ia
    let way := victimWay s c set
    (s.cfg.fetchLockExtraLines = false →
      (∀ w, hitWays s c ia p = [w] →
        exec i s = .next (withPc (setBlock s c set w { block s c set w with lock := true })
          (s.pc + 4))) ∧
      (∀ d s1 s2, hitWays s c ia p = [] → unlockedWays s c set ≠ [] →
        (if writeBack s.cfg c ∧ (block s c set way).valid ∧ (block s c set way).dirty then
            writeBackBlock (afterWay s) c set way else .ok (afterWay s)) = .ok s1 →
        readLine s1 c p = .ok (d, s2) →
        way ∈ unlockedWays s c set ∧
        exec i s = .next (withPc (setBlock s2 c set way
          { valid := true, dirty := false, lock := true, ptag := p / waySize s.cfg c, data := d })
          (s.pc + 4)))) ∧
    (hitWays s c ia p = [] → unlockedWays s c set = [] →
      exec i s = .fault (.undefinedAllWaysLocked c set s)) ∧
    (∀ s1 s2, s.cfg.fetchLockExtraLines = true → fetchLockAt s c ia p = .ok s1 →
      (nextLines s1).foldlM (fun t a => fetchLockAt t c a a) (afterLines s1) = .ok s2 →
      exec i s = .next (withPc s2 (s.pc + 4)))

/-- Two valid blocks with one tag in the set (R24): every Hit operation, Fill and Fetch and Lock that looks
the address up is UNDEFINED; on T and S the set is looked at after the inner caches where the
implementation operates on them first (`s1`). The fault is the spec's decision D35 (log 14), the
inner-first step its decision D26 as read in log 18. -/
def Obligations.DuplicateTagIsUndefined : Prop :=
  ∀ (i : Instr) (s s1 : State) (p : Nat) (u h : Bool),
    i.op.toNat ∈ [16, 17, 18, 19, 20, 21, 22, 23, 25, 26, 27, 28, 29] →
    Executes i.op i.imm i.rx s p u h →
    let c := cacheOfOp i.op
    let ia := instrIndex c i.imm i.rx s p
    afterInner i.op s ia p = .ok s1 → 2 ≤ (hitWays s1 c ia p).length →
    exec i s = .fault (.undefinedDuplicateTag c (setIdx s.cfg c ia) s1)

/-- A failing line transfer (R35, R37, R84, R85) takes the exception drawn, and the step that failed leaves
caches, WBQ and memory as they were. First: the writeback of the block that Index Writeback Invalidate, Hit
Writeback Invalidate or Hit Writeback works on, on D, T or S (`s1` is the state after the inner caches).
Second: that of the victim of a Fetch and Lock. Third: the read of the line by Fill and Fetch and Lock on a
miss, where the victim's writeback stays queued (`s1`; VB4). Fourth: the read of the line by a Fill that
refills on a hit. Fifth, of any instruction and whatever the transfer (the writeback of an inner cache under
the inner-first policy and the transfers of a Fetch and Lock's further lines among them): an instruction
that, the draws `oks` and then an ok draw being listed, makes the transfer after `oks`, takes the exception
where that draw fails instead, and draws no more. Which of the two a failing transfer raises is the spec's
decision D23 (log 16), the reported state D17 (log 13), the inner-first step D26 as read in log 18, the
further lines and their order log 24. -/
def Obligations.FailingTransferTraps : Prop :=
  (∀ (i : Instr) (s : State) (oks rest : List TransferEvent) (e : TransferEvent) (x : Exception),
    (e, x) ∈ [(TransferEvent.cacheError, Exception.cacheError), (.busError, .busError)] →
    let withEvents (d : TransferEvent) : State :=
      withDraws s { s.draws with events := oks ++ d :: rest }
    ∀ t, exec i (withEvents .ok) = .next t ∨ (∃ f, exec i (withEvents .ok) = .fault f ∧ f.reported = t) →
      t.draws.events.length ≤ rest.length →
      ∃ t', exec i (withEvents e) = .fault (.trap x t') ∧ t'.draws.events = rest) ∧
  ∀ (i : Instr) (s s1 : State) (p : Nat) (u h : Bool) (e : TransferEvent) (x : Exception),
    (e, x) ∈ [(TransferEvent.cacheError, Exception.cacheError), (.busError, .busError)] →
    Executes i.op i.imm i.rx s p u h →
    let c := cacheOfOp i.op
    let ia := instrIndex c i.imm i.rx s p
    let victim := victimWay s c (setIdx s.cfg c ia)
    let dirtyVictim := writeBack s.cfg c && (block s c (setIdx s.cfg c ia) victim).valid
      && (block s c (setIdx s.cfg c ia) victim).dirty
    (∀ set way,
      (i.op.toNat ∈ [1, 2, 3] ∧ set = indexedSet s c ia ∧ way = indexedWay s c ia ∨
        i.op.toNat ∈ [21, 22, 23, 25, 26, 27] ∧ set = setIdx s.cfg c ia ∧
          hitWays s1 c ia p = [way]) →
      afterInner i.op s ia p = .ok s1 →
      (operationCode i.op = 6 ∨ holdsOwnLine s1 c set way = false) →
      writeBack s.cfg c = true → (block s1 c set way).valid = true →
      (block s1 c set way).dirty = true → nextEvent s1 = e →
      ∃ t, exec i s = .fault (.trap x t) ∧ t.wbq = s1.wbq ∧ t.caches = s1.caches ∧ t.mem = s1.mem) ∧
    (i.op.toNat ∈ [28, 29] → hitWays s c ia p = [] → unlockedWays s c (setIdx s.cfg c ia) ≠ [] →
      dirtyVictim = true → nextEvent (afterWay s) = e →
      ∃ t, exec i s = .fault (.trap x t) ∧ t.wbq = s.wbq ∧ t.caches = s.caches ∧ t.mem = s.mem) ∧
    (i.op.toNat ∈ [20, 28, 29] → hitWays s c ia p = [] → unlockedWays s c (setIdx s.cfg c ia) ≠ [] →
      (if dirtyVictim then writeBackBlock (afterWay s) c (setIdx s.cfg c ia) victim
        else .ok (afterWay s)) = .ok s1 → nextEvent s1 = e →
      ∃ t, exec i s = .fault (.trap x t) ∧ t.wbq = s1.wbq ∧ t.caches = s.caches ∧ t.mem = s.mem) ∧
    (∀ w, i.op = 20 → hitWays s c ia p = [w] → s.cfg.fillOnHit = .refill → nextEvent s = e →
      ∃ t, exec i s = .fault (.trap x t) ∧ t.wbq = s.wbq ∧ t.caches = s.caches ∧ t.mem = s.mem)

/-! ### Frames -/

/-- Memory is written by the drain alone (R26, R36): an instruction that does not operate on inner caches
first leaves every byte of memory unchanged. That only the drain writes memory is the spec's decision
D11. -/
def Obligations.MemoryUnchangedByInstructions : Prop :=
  ∀ (i : Instr) (s t : State), actsInnerFirst s.cfg i.op = false → exec i s = .next t →
    ∀ a, memByte t a = memByte s a

/-- Memory under the inner-first policy (R41; its drain is DESIGN CHOICE, log 18): an operation on T or S
leaves unchanged every byte outside the lines that were pending before it and the outer line it is for,
in any state of the invariant. The line's address is what the operation computes: from the tag of the
indexed block (R67), or from the physical address (R72, R75, R77). That pending writebacks are delivered
inside the instruction is the spec's decision D26 as read in log 18. -/
def Obligations.InnerFirstStoresWithinTheLine : Prop :=
  ∀ (i : Instr) (s t : State) (p : Nat) (u h : Bool), Inv s → actsInnerFirst s.cfg i.op = true →
    Executes i.op i.imm i.rx s p u h → exec i s = .next t →
    let c := cacheOfOp i.op
    let ia := instrIndex c i.imm i.rx s p
    let line := if operationCode i.op = 0 then
        lineAddr s.cfg c (indexedSet s c ia) (block s c (indexedSet s c ia) (indexedWay s c ia))
      else lineOf s.cfg c p
    ∀ a, (∀ e ∈ s.wbq, a < e.addr ∨ e.addr + e.data.length ≤ a) →
      (a < line ∨ line + lineBytes s.cfg c ≤ a) → memByte t a = memByte s a

/-- Blocks: an operation with a row, that does not operate on inner caches first and touches one line
only, leaves unchanged every block of the other caches and of the other sets of its own cache. The set it
works on is the spec's decision D9 for Index operations and D35 for the others. -/
def Obligations.OtherBlocksUnchanged : Prop :=
  ∀ (i : Instr) (s t : State) (p : Nat) (u h : Bool), actsInnerFirst s.cfg i.op = false →
    operationCode i.op ≠ 3 → s.cfg.fetchLockExtraLines = false →
    Executes i.op i.imm i.rx s p u h → exec i s = .next t →
    let c := cacheOfOp i.op
    let ia := instrIndex c i.imm i.rx s p
    let set := if operationCode i.op ≤ 2 then indexedSet s c ia else setIdx s.cfg c ia
    ∀ c' set' way', way' < wayCount s.cfg c' → (c' ≠ c ∨ set' ≠ set) →
      block t c' set' way' = block s c' set' way'

/-- A locked block stays as it is when a fill takes a way of its set (R63): Fill and Fetch and Lock of
one line change no locked block but by setting the lock of the block that hits. That a locked way is
never the victim is the spec's decision D13. -/
def Obligations.FillsNeverDisplaceALockedBlock : Prop :=
  ∀ (i : Instr) (s t : State) (p : Nat) (u h : Bool) (set way : Nat),
    i.op.toNat ∈ [20, 28, 29] → s.cfg.fetchLockExtraLines = false → s.cfg.fillOnHit = .noChange →
    CachesWellFormed s → Executes i.op i.imm i.rx s p u h → exec i s = .next t →
    way < wayCount s.cfg (cacheOfOp i.op) → (block s (cacheOfOp i.op) set way).lock = true →
    block t (cacheOfOp i.op) set way = block s (cacheOfOp i.op) set way

/-- WBQ is first-in first-out (R39 item 2): an instruction that does not operate on inner caches first
only appends to it, and one without a writeback of its own (R40) leaves it as it is. That WBQ is first-in
first-out is the spec's decision D11. R70 leaves ops 12 to 15 to the implementation: that they only append,
and take no pending writeback off, is the model's choice (log 25, DESIGN CHOICE). -/
def Obligations.WritebacksOnlyAppended : Prop :=
  ∀ (i : Instr) (s t : State), actsInnerFirst s.cfg i.op = false → exec i s = .next t →
    (∃ q, t.wbq = s.wbq ++ q) ∧
    (i.op.toNat ∈ [0, 4, 5, 6, 7, 8, 9, 10, 11, 16, 17, 18, 19, 20] → t.wbq = s.wbq)

/-- The own-line fault (R64) is raised only by the four kinds of operation the sentence names: Index
Store Tag, Index Load Tag, Fill, Hit Writeback D and Fetch and Lock never raise it, nor do Hit Writeback T, S
where they do not operate on the inner caches first (where they do, the Hit Invalidate on cache I that is a
part of them may), nor the implementation-dependent operations unless ImplOp ends so. Which operations make
the check is the spec's decision D15 (log 33), that the inner ones do too the model's reading (log 18), the
ends of ImplOp the model's form (log 25). -/
def Obligations.OwnLineOnlyByInvalidates : Prop :=
  ∀ (i : Instr) (s t : State) (c : CacheName),
    (4 ≤ i.op.toNat ∧ i.op.toNat ≤ 11) ∨ i.op.toNat ∈ [20, 25, 28, 29] ∨
      (i.op.toNat ∈ [26, 27] ∧ actsInnerFirst s.cfg i.op = false) ∨
      (12 ≤ i.op.toNat ∧ i.op.toNat ≤ 15 ∧ ∀ p u, (nextImpl s (cacheOfOp i.op)
        (effectiveAddress s i.imm i.rx) p u).stop ≠ some (.ownLine c)) →
    exec i s ≠ .fault (.unpredictableOwnLine c t)

/-! ### Invariants of every step -/

/-- Every step keeps the whole invariant: memory, caches, a well-formed configuration and an even pc. The
canonical form is the model's; an even pc is the spec's decision D4 (log 34), the conditions on a
configuration its decision D34 (log 31). -/
def Obligations.StepKeepsTheInvariant : Prop :=
  ∀ s t : State, Inv s → step s = .next t → Inv t

/-- Reset has the invariant. The values at reset are the model's (logs 2, 4, 5, 6). -/
def Obligations.ResetHasTheInvariant : Prop := Inv State.reset

/-- No step changes the general registers, the configuration, the program text or its marks (R10, R27).
That these parameters stand in State is the model's (log 1); that the text is immutable is the spec's
decision D5. -/
def Obligations.StepKeepsRegistersAndParameters : Prop :=
  ∀ s t : State, step s = .next t →
    t.regs = s.regs ∧ t.cfg = s.cfg ∧ t.text = s.text ∧ t.syncMarks = s.syncMarks
end

