-- ==== Sys2Proof/Laws/Sparse.lean ====
section
/-! SUPPORT. Sparse data: a read after a write, and that a write keeps the canonical form. -/

namespace Sys2Proof.Machine

variable {α : Type}

/-- The keys of a list of entries rise. -/
abbrev KeysRise (m : List (Nat × α)) : Prop := (m.map Prod.fst).Pairwise (· < ·)

theorem sparseFind_of_lt {m : List (Nat × α)} {k : Nat} (h : ∀ e ∈ m, k < e.1) :
    sparseFind m k = none := by
  induction m with
  | nil => rfl
  | cons e m ih =>
    have hk := h e List.mem_cons_self
    simp only [sparseFind]
    rw [if_neg (by omega)]
    exact ih fun e' he' => h e' (List.mem_cons_of_mem _ he')

theorem keysRise_cons {e : Nat × α} {m : List (Nat × α)} (h : KeysRise (e :: m)) :
    KeysRise m ∧ ∀ e' ∈ m, e.1 < e'.1 := by
  simp only [KeysRise, List.map_cons, List.pairwise_cons] at h
  exact ⟨h.2, fun e' he' => h.1 e'.1 (List.mem_map_of_mem he')⟩

@[simp] theorem sparseFind_insert_same (m : List (Nat × α)) (k : Nat) (v : α) :
    sparseFind (sparseInsert k v m) k = some v := by
  induction m with
  | nil => simp [sparseInsert, sparseFind]
  | cons e m ih =>
    simp only [sparseInsert]
    split
    · simp [sparseFind]
    · split
      · simp [sparseFind]
      · next h => rw [sparseFind, if_neg (by omega), ih]

theorem sparseFind_insert_other (m : List (Nat × α)) {k k' : Nat} (v : α) (h : k' ≠ k) :
    sparseFind (sparseInsert k v m) k' = sparseFind m k' := by
  induction m with
  | nil => simp [sparseInsert, sparseFind, h.symm]
  | cons e m ih =>
    simp only [sparseInsert]
    split
    · simp [sparseFind, h.symm]
    · split
      · next heq => subst heq; simp [sparseFind, h.symm]
      · simp only [sparseFind, ih]

theorem sparseFind_erase_same {m : List (Nat × α)} (hm : KeysRise m) (k : Nat) :
    sparseFind (sparseErase k m) k = none := by
  induction m with
  | nil => rfl
  | cons e m ih =>
    obtain ⟨hm', hlt⟩ := keysRise_cons hm
    simp only [sparseErase]
    split
    · next he => exact sparseFind_of_lt (he ▸ hlt)
    · next he => rw [sparseFind, if_neg he]; exact ih hm'

theorem sparseFind_erase_other (m : List (Nat × α)) {k k' : Nat} (h : k' ≠ k) :
    sparseFind (sparseErase k m) k' = sparseFind m k' := by
  induction m with
  | nil => rfl
  | cons e m ih =>
    simp only [sparseErase]
    split
    · next he => rw [sparseFind, if_neg (by omega)]
    · simp only [sparseFind, ih]

theorem mem_sparseInsert {m : List (Nat × α)} {k : Nat} {v : α} {e : Nat × α}
    (h : e ∈ sparseInsert k v m) : e = (k, v) ∨ e ∈ m := by
  induction m with
  | nil => simpa [sparseInsert] using h
  | cons e' m ih =>
    simp only [sparseInsert] at h
    split at h
    · simpa using h
    · split at h
      · rcases List.mem_cons.1 h with h | h
        · exact .inl h
        · exact .inr (List.mem_cons_of_mem _ h)
      · rcases List.mem_cons.1 h with h | h
        · exact .inr (h ▸ List.mem_cons_self)
        · exact (ih h).imp_right (List.mem_cons_of_mem _)

theorem mem_sparseErase {m : List (Nat × α)} {k : Nat} {e : Nat × α} (h : e ∈ sparseErase k m) :
    e ∈ m := by
  induction m with
  | nil => simp [sparseErase] at h
  | cons e' m ih =>
    simp only [sparseErase] at h
    split at h
    · exact List.mem_cons_of_mem _ h
    · rcases List.mem_cons.1 h with h | h
      · exact h ▸ List.mem_cons_self
      · exact List.mem_cons_of_mem _ (ih h)

theorem keysRise_of {e : Nat × α} {m : List (Nat × α)} (hm : KeysRise m)
    (h : ∀ e' ∈ m, e.1 < e'.1) : KeysRise (e :: m) := by
  simp only [KeysRise, List.map_cons, List.pairwise_cons]
  refine ⟨fun a ha => ?_, hm⟩
  obtain ⟨e', he', rfl⟩ := List.mem_map.1 ha
  exact h e' he'

theorem keysRise_insert {m : List (Nat × α)} (hm : KeysRise m) (k : Nat) (v : α) :
    KeysRise (sparseInsert k v m) := by
  induction m with
  | nil => simp [sparseInsert, KeysRise]
  | cons e m ih =>
    obtain ⟨hm', hlt⟩ := keysRise_cons hm
    simp only [sparseInsert]
    split
    · next hk =>
      refine keysRise_of hm fun e' he' => ?_
      rcases List.mem_cons.1 he' with rfl | he'
      · exact hk
      · exact hk.trans (hlt e' he')
    · split
      · next hk => exact keysRise_of hm' fun e' he' => hk ▸ hlt e' he'
      · refine keysRise_of (ih hm') fun e' he' => ?_
        rcases mem_sparseInsert he' with rfl | he'
        · show e.1 < k; omega
        · exact hlt e' he'

theorem keysRise_erase {m : List (Nat × α)} (hm : KeysRise m) (k : Nat) :
    KeysRise (sparseErase k m) := by
  induction m with
  | nil => exact hm
  | cons e m ih =>
    obtain ⟨hm', hlt⟩ := keysRise_cons hm
    simp only [sparseErase]
    split
    · exact hm'
    · exact keysRise_of (ih hm') fun e' he' => hlt e' (mem_sparseErase he')

/-- Every value that canonical data lists is read at its key. -/
theorem sparseGet_of_mem {d : α} {m : List (Nat × α)} (hm : KeysRise m) {e : Nat × α}
    (he : e ∈ m) : sparseGet d m e.1 = e.2 := by
  induction m with
  | nil => simp at he
  | cons e' m ih =>
    obtain ⟨hm', hlt⟩ := keysRise_cons hm
    rcases List.mem_cons.1 he with rfl | he
    · simp [sparseGet, sparseFind]
    · have := hlt e he
      have := ih hm' he
      simp only [sparseGet, sparseFind] at this ⊢
      rw [if_neg (by omega)]; exact this

/-- What canonical or other data gives is listed, or what an unlisted key reads as. -/
theorem sparseGet_cases (d : α) (m : List (Nat × α)) (k : Nat) :
    sparseGet d m k = d ∨ (k, sparseGet d m k) ∈ m := by
  induction m with
  | nil => exact .inl rfl
  | cons e m ih =>
    by_cases h : e.1 = k
    · refine .inr ?_
      have : sparseGet d (e :: m) k = e.2 := by simp [sparseGet, sparseFind, h]
      rw [this, ← h]; exact List.mem_cons_self
    · have : sparseGet d (e :: m) k = sparseGet d m k := by simp [sparseGet, sparseFind, h]
      rw [this]
      exact ih.imp_right (List.mem_cons_of_mem _)

variable [DecidableEq α]

/-- A write keeps the canonical form. -/
theorem sparseCanonical_put {d : α} {m : List (Nat × α)} (h : SparseCanonical d m) (k : Nat)
    (v : α) : SparseCanonical d (sparsePut d m k v) := by
  unfold sparsePut
  split
  · exact ⟨keysRise_erase h.1 k, fun e he => h.2 e (mem_sparseErase he)⟩
  · next hv =>
    refine ⟨keysRise_insert h.1 k v, fun e he => ?_⟩
    rcases mem_sparseInsert he with rfl | he
    · exact hv
    · exact h.2 e he

/-- A read of the key written gives the value written. -/
theorem sparseGet_put_same {d : α} {m : List (Nat × α)} (hm : KeysRise m) (k : Nat) (v : α) :
    sparseGet d (sparsePut d m k v) k = v := by
  unfold sparsePut sparseGet
  split
  · next hv => rw [sparseFind_erase_same hm, hv]; rfl
  · simp

/-- A write leaves every other key alone. -/
theorem sparseGet_put_other {d : α} (m : List (Nat × α)) {k k' : Nat} (v : α) (h : k' ≠ k) :
    sparseGet d (sparsePut d m k v) k' = sparseGet d m k' := by
  unfold sparsePut sparseGet
  split
  · rw [sparseFind_erase_other m h]
  · rw [sparseFind_insert_other m v h]

end Sys2Proof.Machine
end

