-- ==== Sys2Proof/Laws/State.lean ====
section
/-! SUPPORT. One lemma per field per update of the state, and how PerCache reads after a write. -/

namespace Sys2Proof.Machine

@[simp] theorem withRegs_regs (s : State) (r : Vector Word 32) : (withRegs s r).regs = r := rfl
@[simp] theorem withRegs_pc (s : State) (r : Vector Word 32) : (withRegs s r).pc = s.pc := rfl
@[simp] theorem withRegs_cp0 (s : State) (r : Vector Word 32) : (withRegs s r).cp0 = s.cp0 := rfl
@[simp] theorem withRegs_caches (s : State) (r : Vector Word 32) : (withRegs s r).caches = s.caches := rfl
@[simp] theorem withRegs_wbq (s : State) (r : Vector Word 32) : (withRegs s r).wbq = s.wbq := rfl
@[simp] theorem withRegs_mem (s : State) (r : Vector Word 32) : (withRegs s r).mem = s.mem := rfl
@[simp] theorem withRegs_cfg (s : State) (r : Vector Word 32) : (withRegs s r).cfg = s.cfg := rfl
@[simp] theorem withRegs_text (s : State) (r : Vector Word 32) : (withRegs s r).text = s.text := rfl
@[simp] theorem withRegs_syncMarks (s : State) (r : Vector Word 32) : (withRegs s r).syncMarks = s.syncMarks := rfl
@[simp] theorem withRegs_draws (s : State) (r : Vector Word 32) : (withRegs s r).draws = s.draws := rfl

@[simp] theorem withPc_regs (s : State) (v : Word) : (withPc s v).regs = s.regs := rfl
@[simp] theorem withPc_pc (s : State) (v : Word) : (withPc s v).pc = v := rfl
@[simp] theorem withPc_cp0 (s : State) (v : Word) : (withPc s v).cp0 = s.cp0 := rfl
@[simp] theorem withPc_caches (s : State) (v : Word) : (withPc s v).caches = s.caches := rfl
@[simp] theorem withPc_wbq (s : State) (v : Word) : (withPc s v).wbq = s.wbq := rfl
@[simp] theorem withPc_mem (s : State) (v : Word) : (withPc s v).mem = s.mem := rfl
@[simp] theorem withPc_cfg (s : State) (v : Word) : (withPc s v).cfg = s.cfg := rfl
@[simp] theorem withPc_text (s : State) (v : Word) : (withPc s v).text = s.text := rfl
@[simp] theorem withPc_syncMarks (s : State) (v : Word) : (withPc s v).syncMarks = s.syncMarks := rfl
@[simp] theorem withPc_draws (s : State) (v : Word) : (withPc s v).draws = s.draws := rfl

@[simp] theorem withCp0_regs (s : State) (p : Cp0) : (withCp0 s p).regs = s.regs := rfl
@[simp] theorem withCp0_pc (s : State) (p : Cp0) : (withCp0 s p).pc = s.pc := rfl
@[simp] theorem withCp0_cp0 (s : State) (p : Cp0) : (withCp0 s p).cp0 = p := rfl
@[simp] theorem withCp0_caches (s : State) (p : Cp0) : (withCp0 s p).caches = s.caches := rfl
@[simp] theorem withCp0_wbq (s : State) (p : Cp0) : (withCp0 s p).wbq = s.wbq := rfl
@[simp] theorem withCp0_mem (s : State) (p : Cp0) : (withCp0 s p).mem = s.mem := rfl
@[simp] theorem withCp0_cfg (s : State) (p : Cp0) : (withCp0 s p).cfg = s.cfg := rfl
@[simp] theorem withCp0_text (s : State) (p : Cp0) : (withCp0 s p).text = s.text := rfl
@[simp] theorem withCp0_syncMarks (s : State) (p : Cp0) : (withCp0 s p).syncMarks = s.syncMarks := rfl
@[simp] theorem withCp0_draws (s : State) (p : Cp0) : (withCp0 s p).draws = s.draws := rfl

@[simp] theorem withCaches_regs (s : State) (cs : PerCache (List (Nat × Block))) : (withCaches s cs).regs = s.regs := rfl
@[simp] theorem withCaches_pc (s : State) (cs : PerCache (List (Nat × Block))) : (withCaches s cs).pc = s.pc := rfl
@[simp] theorem withCaches_cp0 (s : State) (cs : PerCache (List (Nat × Block))) : (withCaches s cs).cp0 = s.cp0 := rfl
@[simp] theorem withCaches_caches (s : State) (cs : PerCache (List (Nat × Block))) : (withCaches s cs).caches = cs := rfl
@[simp] theorem withCaches_wbq (s : State) (cs : PerCache (List (Nat × Block))) : (withCaches s cs).wbq = s.wbq := rfl
@[simp] theorem withCaches_mem (s : State) (cs : PerCache (List (Nat × Block))) : (withCaches s cs).mem = s.mem := rfl
@[simp] theorem withCaches_cfg (s : State) (cs : PerCache (List (Nat × Block))) : (withCaches s cs).cfg = s.cfg := rfl
@[simp] theorem withCaches_text (s : State) (cs : PerCache (List (Nat × Block))) : (withCaches s cs).text = s.text := rfl
@[simp] theorem withCaches_syncMarks (s : State) (cs : PerCache (List (Nat × Block))) : (withCaches s cs).syncMarks = s.syncMarks := rfl
@[simp] theorem withCaches_draws (s : State) (cs : PerCache (List (Nat × Block))) : (withCaches s cs).draws = s.draws := rfl

@[simp] theorem withWbq_regs (s : State) (q : List Writeback) : (withWbq s q).regs = s.regs := rfl
@[simp] theorem withWbq_pc (s : State) (q : List Writeback) : (withWbq s q).pc = s.pc := rfl
@[simp] theorem withWbq_cp0 (s : State) (q : List Writeback) : (withWbq s q).cp0 = s.cp0 := rfl
@[simp] theorem withWbq_caches (s : State) (q : List Writeback) : (withWbq s q).caches = s.caches := rfl
@[simp] theorem withWbq_wbq (s : State) (q : List Writeback) : (withWbq s q).wbq = q := rfl
@[simp] theorem withWbq_mem (s : State) (q : List Writeback) : (withWbq s q).mem = s.mem := rfl
@[simp] theorem withWbq_cfg (s : State) (q : List Writeback) : (withWbq s q).cfg = s.cfg := rfl
@[simp] theorem withWbq_text (s : State) (q : List Writeback) : (withWbq s q).text = s.text := rfl
@[simp] theorem withWbq_syncMarks (s : State) (q : List Writeback) : (withWbq s q).syncMarks = s.syncMarks := rfl
@[simp] theorem withWbq_draws (s : State) (q : List Writeback) : (withWbq s q).draws = s.draws := rfl

@[simp] theorem withMem_regs (s : State) (m : List Host.Cell) : (withMem s m).regs = s.regs := rfl
@[simp] theorem withMem_pc (s : State) (m : List Host.Cell) : (withMem s m).pc = s.pc := rfl
@[simp] theorem withMem_cp0 (s : State) (m : List Host.Cell) : (withMem s m).cp0 = s.cp0 := rfl
@[simp] theorem withMem_caches (s : State) (m : List Host.Cell) : (withMem s m).caches = s.caches := rfl
@[simp] theorem withMem_wbq (s : State) (m : List Host.Cell) : (withMem s m).wbq = s.wbq := rfl
@[simp] theorem withMem_mem (s : State) (m : List Host.Cell) : (withMem s m).mem = m := rfl
@[simp] theorem withMem_cfg (s : State) (m : List Host.Cell) : (withMem s m).cfg = s.cfg := rfl
@[simp] theorem withMem_text (s : State) (m : List Host.Cell) : (withMem s m).text = s.text := rfl
@[simp] theorem withMem_syncMarks (s : State) (m : List Host.Cell) : (withMem s m).syncMarks = s.syncMarks := rfl
@[simp] theorem withMem_draws (s : State) (m : List Host.Cell) : (withMem s m).draws = s.draws := rfl

@[simp] theorem withDraws_regs (s : State) (d : Draws) : (withDraws s d).regs = s.regs := rfl
@[simp] theorem withDraws_pc (s : State) (d : Draws) : (withDraws s d).pc = s.pc := rfl
@[simp] theorem withDraws_cp0 (s : State) (d : Draws) : (withDraws s d).cp0 = s.cp0 := rfl
@[simp] theorem withDraws_caches (s : State) (d : Draws) : (withDraws s d).caches = s.caches := rfl
@[simp] theorem withDraws_wbq (s : State) (d : Draws) : (withDraws s d).wbq = s.wbq := rfl
@[simp] theorem withDraws_mem (s : State) (d : Draws) : (withDraws s d).mem = s.mem := rfl
@[simp] theorem withDraws_cfg (s : State) (d : Draws) : (withDraws s d).cfg = s.cfg := rfl
@[simp] theorem withDraws_text (s : State) (d : Draws) : (withDraws s d).text = s.text := rfl
@[simp] theorem withDraws_syncMarks (s : State) (d : Draws) : (withDraws s d).syncMarks = s.syncMarks := rfl
@[simp] theorem withDraws_draws (s : State) (d : Draws) : (withDraws s d).draws = d := rfl

end Sys2Proof.Machine

namespace Sys2Proof

@[simp] theorem PerCache.get_set_same {α : Type} (p : PerCache α) (c : CacheName) (v : α) :
    (p.set c v).get c = v := by cases c <;> rfl

theorem PerCache.get_set_other {α : Type} (p : PerCache α) {c c' : CacheName} (v : α)
    (h : c' ≠ c) : (p.set c v).get c' = p.get c' := by cases c <;> cases c' <;> first | rfl | exact absurd rfl h

@[simp] theorem PerCache.get_all {α : Type} (v : α) (c : CacheName) : (PerCache.all v).get c = v := by
  cases c <;> rfl

end Sys2Proof
end

