-- ==== Sys2Proof/Laws/Ops.lean ====
section
/-! SUPPORT. What each shared operation over memory, blocks, tag registers and draws does and leaves
alone. -/

namespace Sys2Proof.Machine

/-! ### Memory -/

theorem sparseGet_putBytes_outside (m : List Host.Cell) (p : Nat) (v : List Byte) {a : Nat}
    (h : a < p ∨ p + v.length ≤ a) :
    sparseGet unlistedByte (putBytes m p v) a = sparseGet unlistedByte m a := by
  induction v generalizing m p with
  | nil => rfl
  | cons b v ih =>
    simp only [List.length_cons] at h
    rw [putBytes, ih _ _ (by omega), sparseGet_put_other _ _ (by omega)]

theorem sparseCanonical_putBytes {m : List Host.Cell} (h : Memory.wf m) (p : Nat)
    (v : List Byte) : Memory.wf (putBytes m p v) := by
  induction v generalizing m p with
  | nil => exact h
  | cons b v ih => exact ih (sparseCanonical_put h p b) (p + 1)

theorem sparseGet_putBytes_inside {m : List Host.Cell} (h : Memory.wf m) (p : Nat)
    (v : List Byte) {k : Nat} (hk : k < v.length) :
    sparseGet unlistedByte (putBytes m p v) (p + k) = v.getD k 0 := by
  induction v generalizing m p k with
  | nil => simp at hk
  | cons b v ih =>
    rw [putBytes]
    cases k with
    | zero =>
      rw [sparseGet_putBytes_outside _ _ _ (by omega), Nat.add_zero, sparseGet_put_same h.1]
      rfl
    | succ k =>
      have := ih (sparseCanonical_put h p b) (p + 1) (k := k) (by simpa using hk)
      rw [show p + (k + 1) = p + 1 + k by omega, this]
      rfl

/-- A write to memory keeps the canonical form. -/
theorem memWrite_wf {s : State} (h : Memory.wf s.mem) (p : Nat) (v : List Byte) :
    Memory.wf (memWrite s p v).mem := sparseCanonical_putBytes h p v

/-- A write to memory leaves every byte outside the bytes written alone. -/
theorem memByte_memWrite_outside (s : State) (p : Nat) (v : List Byte) {a : Nat}
    (h : a < p ∨ p + v.length ≤ a) : memByte (memWrite s p v) a = memByte s a :=
  sparseGet_putBytes_outside s.mem p v h

/-- A byte written is read back. -/
theorem memByte_memWrite_inside {s : State} (h : Memory.wf s.mem) (p : Nat) (v : List Byte)
    {k : Nat} (hk : k < v.length) : memByte (memWrite s p v) (p + k) = v.getD k 0 :=
  sparseGet_putBytes_inside h p v hk

theorem reset_mem_wf : Memory.wf State.reset.mem := by decide

theorem memByte_congr {s t : State} (h : t.mem = s.mem) (a : Nat) : memByte t a = memByte s a := by
  simp [memByte, h]

theorem memRead_congr {s t : State} (h : t.mem = s.mem) (a n : Nat) : memRead t a n = memRead s a n := by
  simp [memRead, memByte, h]

@[simp] theorem memRead_length (s : State) (a n : Nat) : (memRead s a n).length = n := by
  simp [memRead]

/-! ### Cache blocks -/

theorem blockKey_inj {cfg : Cfg} {c : CacheName} {s1 w1 s2 w2 : Nat} (h1 : w1 < wayCount cfg c)
    (h2 : w2 < wayCount cfg c) (h : blockKey cfg c s1 w1 = blockKey cfg c s2 w2) :
    s1 = s2 ∧ w1 = w2 := by
  have hp : 0 < wayCount cfg c := by omega
  unfold blockKey at h
  have hd : (s1 * wayCount cfg c + w1) / wayCount cfg c = (s2 * wayCount cfg c + w2) / wayCount cfg c := by
    rw [h]
  rw [Nat.add_comm, Nat.add_mul_div_right _ _ hp, Nat.div_eq_of_lt h1, Nat.add_comm (s2 * _),
    Nat.add_mul_div_right _ _ hp, Nat.div_eq_of_lt h2] at hd
  have : s1 = s2 := by omega
  subst this
  exact ⟨rfl, by omega⟩

theorem block_congr {s t : State} (hc : t.cfg = s.cfg) (h : t.caches = s.caches) (c : CacheName)
    (set way : Nat) : block t c set way = block s c set way := by
  simp [block, h, hc]

/-- The block written is read back. -/
theorem block_setBlock_same {s : State} {c : CacheName} (hm : KeysRise (s.caches.get c))
    (set way : Nat) (b : Block) : block (setBlock s c set way b) c set way = b := by
  simp only [block, setBlock, withCaches_caches, withCaches_cfg, PerCache.get_set_same]
  exact sparseGet_put_same hm _ _

/-- Every other block of the cache is left alone. -/
theorem block_setBlock_other (s : State) {c : CacheName} {set way set' way' : Nat} (b : Block)
    (hw : way < wayCount s.cfg c) (hw' : way' < wayCount s.cfg c)
    (h : ¬(set' = set ∧ way' = way)) :
    block (setBlock s c set way b) c set' way' = block s c set' way' := by
  simp only [block, setBlock, withCaches_caches, withCaches_cfg, PerCache.get_set_same]
  exact sparseGet_put_other _ _ fun hk => h (blockKey_inj hw' hw hk)

/-- Every block of another cache is left alone. -/
theorem block_setBlock_cache (s : State) {c c' : CacheName} (set way set' way' : Nat) (b : Block)
    (h : c' ≠ c) : block (setBlock s c set way b) c' set' way' = block s c' set' way' := by
  simp [block, setBlock, PerCache.get_set_other _ _ h]

@[simp] theorem setBlock_regs (s : State) (c : CacheName) (set way : Nat) (b : Block) :
    (setBlock s c set way b).regs = s.regs := rfl
@[simp] theorem setBlock_pc (s : State) (c : CacheName) (set way : Nat) (b : Block) :
    (setBlock s c set way b).pc = s.pc := rfl
@[simp] theorem setBlock_cp0 (s : State) (c : CacheName) (set way : Nat) (b : Block) :
    (setBlock s c set way b).cp0 = s.cp0 := rfl
@[simp] theorem setBlock_wbq (s : State) (c : CacheName) (set way : Nat) (b : Block) :
    (setBlock s c set way b).wbq = s.wbq := rfl
@[simp] theorem setBlock_mem (s : State) (c : CacheName) (set way : Nat) (b : Block) :
    (setBlock s c set way b).mem = s.mem := rfl
@[simp] theorem setBlock_cfg (s : State) (c : CacheName) (set way : Nat) (b : Block) :
    (setBlock s c set way b).cfg = s.cfg := rfl
@[simp] theorem setBlock_text (s : State) (c : CacheName) (set way : Nat) (b : Block) :
    (setBlock s c set way b).text = s.text := rfl
@[simp] theorem setBlock_syncMarks (s : State) (c : CacheName) (set way : Nat) (b : Block) :
    (setBlock s c set way b).syncMarks = s.syncMarks := rfl
@[simp] theorem setBlock_draws (s : State) (c : CacheName) (set way : Nat) (b : Block) :
    (setBlock s c set way b).draws = s.draws := rfl

@[simp] theorem lineSlice_length (d : List Byte) (off n : Nat) : (lineSlice d off n).length = n := by
  simp [lineSlice]

@[simp] theorem lineSplice_length (d : List Byte) (off : Nat) (v : List Byte) :
    (lineSplice d off v).length = d.length := by
  simp [lineSplice]

/-! ### Tag and data registers -/

/-- What Index Load Tag writes is what the registers of the cache then read. -/
@[simp] theorem tagLo_setTag (s : State) (c : CacheName) (v : Word × Word) :
    tagLo (setTag s c v) c = v.1 := by simp [tagLo, setTag]

@[simp] theorem tagHi_setTag (s : State) (c : CacheName) (v : Word × Word) :
    tagHi (setTag s c v) c = v.2 := by simp [tagHi, setTag]

/-- With a pair per cache, the registers of the other caches are left alone (R16). -/
theorem tagLo_setTag_other (s : State) {c c' : CacheName} (v : Word × Word)
    (hp : s.cfg.tagRegsPerCache = true) (h : c' ≠ c) : tagLo (setTag s c v) c' = tagLo s c' := by
  simp [tagLo, setTag, tagHome, hp, PerCache.get_set_other _ _ h]

theorem setData_eq_withCp0 (s : State) (c : CacheName) (v : Word × Word) :
    ∃ p, setData s c v = withCp0 s p := by
  unfold setData
  split
  · exact ⟨_, rfl⟩
  · exact ⟨s.cp0, rfl⟩

@[simp] theorem setData_cfg (s : State) (c : CacheName) (v : Word × Word) :
    (setData s c v).cfg = s.cfg := by obtain ⟨p, h⟩ := setData_eq_withCp0 s c v; simp [h]

/-! ### Draws -/

theorem afterEvent_eq (s : State) : ∃ d, afterEvent s = withDraws s d := by
  unfold afterEvent; split <;> exact ⟨_, rfl⟩

theorem afterWay_eq (s : State) : ∃ d, afterWay s = withDraws s d := by
  unfold afterWay; split <;> exact ⟨_, rfl⟩

theorem afterLines_eq (s : State) : ∃ d, afterLines s = withDraws s d := by
  unfold afterLines; split <;> exact ⟨_, rfl⟩

theorem afterImpl_eq (s : State) : ∃ d, afterImpl s = withDraws s d := by
  unfold afterImpl; split <;> exact ⟨_, rfl⟩

theorem withWait_eq (s : State) (next : List Nat) : ∃ d, withWait s next = withDraws s d := by
  unfold withWait; split <;> exact ⟨_, rfl⟩

@[simp] theorem afterEvent_schedule (s : State) :
    (afterEvent s).draws.schedule = s.draws.schedule := by unfold afterEvent; split <;> rfl

@[simp] theorem afterWay_schedule (s : State) :
    (afterWay s).draws.schedule = s.draws.schedule := by unfold afterWay; split <;> rfl

@[simp] theorem afterLines_schedule (s : State) :
    (afterLines s).draws.schedule = s.draws.schedule := by unfold afterLines; split <;> rfl

@[simp] theorem afterImpl_schedule (s : State) :
    (afterImpl s).draws.schedule = s.draws.schedule := by unfold afterImpl; split <;> rfl

/-- The draw of a transfer takes at most the head of its list. -/
theorem afterEvent_events (s : State) : (afterEvent s).draws.events <:+ s.draws.events := by
  unfold afterEvent
  split
  · next h => rw [h]; exact List.suffix_cons _ _
  · exact List.suffix_rfl

@[simp] theorem afterWay_events (s : State) :
    (afterWay s).draws.events = s.draws.events := by unfold afterWay; split <;> rfl

@[simp] theorem afterLines_events (s : State) :
    (afterLines s).draws.events = s.draws.events := by unfold afterLines; split <;> rfl

@[simp] theorem afterImpl_events (s : State) :
    (afterImpl s).draws.events = s.draws.events := by unfold afterImpl; split <;> rfl

/-- A schedule whose head is listed says how long the drain waits. -/
theorem drainWait_of_cons {s : State} {n : Nat} {rest : List Nat} (h : s.draws.schedule = n :: rest) :
    drainWait s = n := by simp [drainWait, h]

/-- A move of the processor while the drain waits makes the wait one shorter (R36). -/
theorem drainWait_afterProcessorTurn (s : State) :
    ∃ rest, (afterProcessorTurn s).draws.schedule = (drainWait s - 1) :: rest := by
  unfold afterProcessorTurn withWait
  split <;> exact ⟨_, rfl⟩

end Sys2Proof.Machine
end

