-- ==== Sys2Proof/Laws/Moves.lean ====
section
/-! SUPPORT. What a step can do, said once: every outcome of the shared operations, of `exec` and of `step`
is reached by a chain of the moves below. An invariant is then proved move by move. -/

namespace Sys2Proof.Machine

/-- A block that may be written: a place that exists, a line's bytes or as many as before, and dirty
only in a write-back cache or where it was dirty before. -/
structure BlockFits (s : State) (c : CacheName) (set way : Nat) (b : Block) : Prop where
  set_lt : set < setCount s.cfg c
  way_lt : way < wayCount s.cfg c
  size : b.data.length = lineBytes s.cfg c ∨ b.data.length = (block s c set way).data.length
  dirty : b.dirty = true → writeBack s.cfg c = true ∨ (block s c set way).dirty = true

/-- One change that an operation makes to the state. -/
inductive Move : State → State → Prop
  | draws (s : State) (d : Draws) (h : d.schedule = s.draws.schedule)
      (h' : d.events <:+ s.draws.events) : Move s (withDraws s d)
  | enqueue (s : State) (e : Writeback) : Move s (enqueue s e)
  | dequeue (s : State) (e : Writeback) (rest : List Writeback) (h : s.wbq = e :: rest) :
      Move s (withWbq s rest)
  | memory (s : State) (p : Nat) (v : List Byte)
      (h : inPhysicalSpace s.cfg p v.length = true) : Move s (memWrite s p v)
  | block (s : State) (c : CacheName) (set way : Nat) (b : Block)
      (h : BlockFits s c set way b) : Move s (setBlock s c set way b)
  | tag (s : State) (c : CacheName) (v : Word × Word) : Move s (setTag s c v)
  | data (s : State) (c : CacheName) (v : Word × Word) : Move s (setData s c v)
  | watch (s : State) (rs : List AddrRange) : Move s (withCp0 s { s.cp0 with watch := rs })

/-- A chain of moves. -/
abbrev Moves : State → State → Prop := Relation.ReflTransGen Move

theorem Move.moves {s t : State} (h : Move s t) : Moves s t := Relation.ReflTransGen.single h

/-- An outcome reached from `s`: a state, or a fault's reported state. -/
def Reached (s : State) : Except Fault State → Prop
  | .ok t => Moves s t
  | .error f => Moves s f.reported

theorem Reached.trans {s t : State} {r : Except Fault State} (h : Moves s t) (h' : Reached t r) :
    Reached s r := by
  cases r with
  | ok u => exact Relation.ReflTransGen.trans h h'
  | error f => exact Relation.ReflTransGen.trans h h'

theorem moves_refl (s : State) : Moves s s := .refl

/-- An invariant that every move keeps is kept by a chain of moves. -/
theorem Moves.keeps {P : State → Prop} (hP : ∀ s t, Move s t → P s → P t) {s t : State}
    (h : Moves s t) (hs : P s) : P t := by
  induction h with
  | refl => exact hs
  | tail _ hm ih => exact hP _ _ hm ih

/-! ### What no move changes -/

theorem Move.regs {s t : State} (h : Move s t) : t.regs = s.regs := by
  cases h <;> first | rfl | (obtain ⟨p, hp⟩ := setData_eq_withCp0 s ‹_› ‹_›; rw [hp]; rfl)

theorem Move.pc {s t : State} (h : Move s t) : t.pc = s.pc := by
  cases h <;> first | rfl | (obtain ⟨p, hp⟩ := setData_eq_withCp0 s ‹_› ‹_›; rw [hp]; rfl)

theorem Move.cfg {s t : State} (h : Move s t) : t.cfg = s.cfg := by
  cases h <;> first | rfl | (obtain ⟨p, hp⟩ := setData_eq_withCp0 s ‹_› ‹_›; rw [hp]; rfl)

theorem Move.text {s t : State} (h : Move s t) : t.text = s.text := by
  cases h <;> first | rfl | (obtain ⟨p, hp⟩ := setData_eq_withCp0 s ‹_› ‹_›; rw [hp]; rfl)

theorem Move.syncMarks {s t : State} (h : Move s t) : t.syncMarks = s.syncMarks := by
  cases h <;> first | rfl | (obtain ⟨p, hp⟩ := setData_eq_withCp0 s ‹_› ‹_›; rw [hp]; rfl)

theorem Move.schedule {s t : State} (h : Move s t) : t.draws.schedule = s.draws.schedule := by
  cases h <;> first
    | rfl
    | assumption
    | (obtain ⟨p, hp⟩ := setData_eq_withCp0 s ‹_› ‹_›; rw [hp]; rfl)

/-- The listed draws of transfers are only taken off. -/
theorem Move.events {s t : State} (h : Move s t) : t.draws.events <:+ s.draws.events := by
  cases h <;> first
    | exact List.suffix_rfl
    | assumption
    | (obtain ⟨p, hp⟩ := setData_eq_withCp0 s ‹_› ‹_›; rw [hp]; exact List.suffix_rfl)

theorem Moves.regs {s t : State} (h : Moves s t) : t.regs = s.regs :=
  h.keeps (P := fun u => u.regs = s.regs) (fun _ _ hm hs => hm.regs.trans hs) rfl

theorem Moves.pc {s t : State} (h : Moves s t) : t.pc = s.pc :=
  h.keeps (P := fun u => u.pc = s.pc) (fun _ _ hm hs => hm.pc.trans hs) rfl

theorem Moves.cfg {s t : State} (h : Moves s t) : t.cfg = s.cfg :=
  h.keeps (P := fun u => u.cfg = s.cfg) (fun _ _ hm hs => hm.cfg.trans hs) rfl

theorem Moves.text {s t : State} (h : Moves s t) : t.text = s.text :=
  h.keeps (P := fun u => u.text = s.text) (fun _ _ hm hs => hm.text.trans hs) rfl

theorem Moves.syncMarks {s t : State} (h : Moves s t) : t.syncMarks = s.syncMarks :=
  h.keeps (P := fun u => u.syncMarks = s.syncMarks) (fun _ _ hm hs => hm.syncMarks.trans hs) rfl

/-- No operation touches the drain's schedule; only the choice of who moves does (R36). -/
theorem Moves.schedule {s t : State} (h : Moves s t) : t.draws.schedule = s.draws.schedule :=
  h.keeps (P := fun u => u.draws.schedule = s.draws.schedule) (fun _ _ hm hs => hm.schedule.trans hs) rfl

theorem Moves.events {s t : State} (h : Moves s t) : t.draws.events <:+ s.draws.events :=
  h.keeps (P := fun u => u.draws.events <:+ s.draws.events) (fun _ _ hm hs => hm.events.trans hs)
    List.suffix_rfl

/-! ### The shared operations -/

theorem moves_withDraws {s t : State} (h : ∃ d, t = withDraws s d)
    (hs : t.draws.schedule = s.draws.schedule) (he : t.draws.events <:+ s.draws.events) : Moves s t := by
  obtain ⟨d, rfl⟩ := h; exact (Move.draws s d hs he).moves

theorem afterEvent_moves (s : State) : Moves s (afterEvent s) :=
  moves_withDraws (afterEvent_eq s) (afterEvent_schedule s) (afterEvent_events s)

theorem afterWay_moves (s : State) : Moves s (afterWay s) :=
  moves_withDraws (afterWay_eq s) (afterWay_schedule s) (by simp)

theorem transfer_reached (s : State) : Reached s (transfer s) := by
  unfold transfer
  split <;> exact afterEvent_moves s

theorem transfer_ok {s t : State} (h : transfer s = .ok t) : t = afterEvent s := by
  unfold transfer at h
  split at h
  · exact (Except.ok.inj h).symm
  · cases h
  · cases h

theorem mem_hitWays {s : State} {c : CacheName} {ia p w : Nat} (h : w ∈ hitWays s c ia p) :
    w < wayCount s.cfg c ∧ (block s c (setIdx s.cfg c ia) w).valid = true ∧
      (block s c (setIdx s.cfg c ia) w).ptag = ptagOf s.cfg c p := by
  simpa [hitWays] using h

/-- What a lookup that finds a way says (R24). -/
theorem findHit_some {s : State} {c : CacheName} {ia p w : Nat} (h : findHit s c ia p = .ok (some w)) :
    hitWays s c ia p = [w] := by
  unfold findHit at h
  split at h
  · cases h
  · next w' hw => cases h; exact hw
  · cases h

theorem findHit_none {s : State} {c : CacheName} {ia p : Nat} (h : findHit s c ia p = .ok none) :
    hitWays s c ia p = [] := by
  unfold findHit at h
  split at h
  · next hw => exact hw
  · cases h
  · cases h

theorem findHit_error {s : State} {c : CacheName} {ia p : Nat} {f : Fault}
    (h : findHit s c ia p = .error f) : f = .undefinedDuplicateTag c (setIdx s.cfg c ia) s := by
  unfold findHit at h
  split at h <;> cases h
  rfl

theorem findHit_way_lt {s : State} {c : CacheName} {ia p w : Nat}
    (h : findHit s c ia p = .ok (some w)) : w < wayCount s.cfg c :=
  (mem_hitWays (by rw [findHit_some h]; exact List.mem_singleton_self w)).1

theorem setCount_pos (cfg : Cfg) (c : CacheName) : 0 < setCount cfg c := Nat.two_pow_pos _

theorem wayCount_pos (cfg : Cfg) (c : CacheName) : 0 < wayCount cfg c := Nat.two_pow_pos _

theorem lineBytes_pos (cfg : Cfg) (c : CacheName) : 0 < lineBytes cfg c := Nat.two_pow_pos _

theorem setIdx_lt (cfg : Cfg) (c : CacheName) (a : Nat) : setIdx cfg c a < setCount cfg c :=
  Nat.mod_lt _ (setCount_pos cfg c)

theorem indexDecode_lt (cfg : Cfg) (c : CacheName) (ia : Nat) :
    (indexDecode cfg c ia).1 < setCount cfg c ∧ (indexDecode cfg c ia).2.1 < wayCount cfg c ∧
      (indexDecode cfg c ia).2.2 < lineBytes cfg c := by
  unfold indexDecode
  split
  · exact ⟨Nat.mod_lt _ (setCount_pos cfg c), Nat.mod_lt _ (wayCount_pos cfg c),
      Nat.mod_lt _ (lineBytes_pos cfg c)⟩
  · exact ⟨Nat.mod_lt _ (setCount_pos cfg c), Nat.mod_lt _ (wayCount_pos cfg c),
      Nat.mod_lt _ (lineBytes_pos cfg c)⟩

theorem ownLineCheck_ok {s t : State} {c : CacheName} {set way : Nat}
    (h : ownLineCheck s c set way = .ok t) : t = s := by
  unfold ownLineCheck at h
  split at h
  · cases h
  · exact (Except.ok.inj h).symm

theorem ownLineCheck_error {s : State} {c : CacheName} {set way : Nat} {f : Fault}
    (h : ownLineCheck s c set way = .error f) : f = .unpredictableOwnLine c s := by
  unfold ownLineCheck at h
  split at h
  · exact (Except.error.inj h).symm
  · cases h

theorem invalidate_move (s : State) (c : CacheName) {set way : Nat} (hs : set < setCount s.cfg c)
    (hw : way < wayCount s.cfg c) : Move s (invalidate s c set way) :=
  .block s c set way (invalidBlock (block s c set way))
    ⟨hs, hw, .inr rfl, fun h => by cases h⟩

theorem writeBackBlock_reached (s : State) (c : CacheName) (set way : Nat) :
    Reached s (writeBackBlock s c set way) := by
  have h := transfer_reached s
  unfold writeBackBlock
  split
  · next f hf => rw [hf] at h; exact h
  · next s1 hs => rw [hs] at h; exact Relation.ReflTransGen.tail h (.enqueue _ _)

/-- A writeback that succeeds changes draws and WBQ only (R35). -/
theorem writeBackBlock_ok {s t : State} {c : CacheName} {set way : Nat}
    (h : writeBackBlock s c set way = .ok t) :
    t = enqueue (afterEvent s) (writebackEntry s c set way) := by
  unfold writeBackBlock at h
  split at h
  · cases h
  · next s1 hs => rw [transfer_ok hs] at h; exact (Except.ok.inj h).symm

theorem writeBackIfDirty_reached (s : State) (c : CacheName) (set way : Nat) :
    Reached s (writeBackIfDirty s c set way) := by
  unfold writeBackIfDirty
  split
  · exact writeBackBlock_reached s c set way
  · exact moves_refl s

theorem memoryLine_error {s : State} {a n : Nat} {f : Fault} (h : memoryLine s a n = .error f) :
    f.reported = s := by
  unfold memoryLine at h
  split at h <;> cases h
  rfl

theorem memoryLine_length {s : State} {a n : Nat} {d : List Byte} (h : memoryLine s a n = .ok d) :
    d.length = n := by
  unfold memoryLine at h
  split at h <;> cases h
  simp

theorem lineFrom_error {s : State} {a n : Nat} {ls : List CacheName} {f : Fault}
    (h : lineFrom s a n ls = .error f) : f.reported = s := by
  induction ls with
  | nil => exact memoryLine_error h
  | cons l ls ih =>
    simp only [lineFrom] at h
    split at h
    · next f' hf => cases h; rw [findHit_error hf]; rfl
    · cases h
    · exact ih h

theorem lineFrom_length {s : State} {a n : Nat} {ls : List CacheName} {d : List Byte}
    (h : lineFrom s a n ls = .ok d) : d.length = n := by
  induction ls with
  | nil => exact memoryLine_length h
  | cons l ls ih =>
    simp only [lineFrom] at h
    split at h
    · cases h
    · cases h; simp
    · exact ih h

/-- A line read has a line's bytes, and only a draw is used (R37). -/
theorem readLine_ok {s t : State} {c : CacheName} {p : Nat} {d : List Byte}
    (h : readLine s c p = .ok (d, t)) : t = afterEvent s ∧ d.length = lineBytes s.cfg c := by
  unfold readLine at h
  split at h
  · cases h
  · next s1 hs =>
    split at h
    · cases h
    · next d' hd =>
      cases h
      exact ⟨transfer_ok hs, lineFrom_length hd⟩

theorem readLine_error {s : State} {c : CacheName} {p : Nat} {f : Fault}
    (h : readLine s c p = .error f) : Moves s f.reported := by
  have ht := transfer_reached s
  unfold readLine at h
  split at h
  · next f' hf => cases h; rw [hf] at ht; exact ht
  · next s1 hs =>
    rw [hs] at ht
    split at h
    · next f' hf => cases h; rw [lineFrom_error hf]; exact ht
    · cases h

theorem mem_unlockedWays {s : State} {c : CacheName} {set w : Nat} (h : w ∈ unlockedWays s c set) :
    w < wayCount s.cfg c ∧ (block s c set w).lock = false := by
  simpa [unlockedWays] using h

/-- The victim is one of the unlocked ways (R63). -/
theorem victimWay_mem {s : State} {c : CacheName} {set : Nat}
    (h : (unlockedWays s c set).isEmpty = false) :
    victimWay s c set ∈ unlockedWays s c set := by
  have hl : 0 < (unlockedWays s c set).length := by
    cases hu : unlockedWays s c set with
    | nil => simp [hu] at h
    | cons a l => simp
  have hlt := Nat.mod_lt (nextWay s) hl
  unfold victimWay
  rw [List.getD_eq_getElem _ _ hlt]
  exact List.getElem_mem hlt

theorem fillBlock_reached (s : State) (c : CacheName) (ia p : Nat) (lk : Bool) :
    Reached s (fillBlock s c ia p lk) := by
  unfold fillBlock
  split
  · exact moves_refl s
  · next hu =>
    have hv := (mem_unlockedWays (victimWay_mem (by simpa using hu))).1
    have h0 := afterWay_moves s
    have h1 := Reached.trans h0 (writeBackIfDirty_reached (afterWay s) c (setIdx s.cfg c ia)
      (victimWay s c (setIdx s.cfg c ia)))
    split
    · next f hf => rw [hf] at h1; exact h1
    · next s1 hs1 =>
      rw [hs1] at h1
      split
      · next f hf => exact Relation.ReflTransGen.trans h1 (readLine_error hf)
      · next d s2 hd =>
        obtain ⟨rfl, hlen⟩ := readLine_ok hd
        have h2 : Moves s (afterEvent s1) :=
          Relation.ReflTransGen.trans h1 (afterEvent_moves s1)
        refine Relation.ReflTransGen.tail h2 (.block _ _ _ _ _ ⟨?_, ?_, .inl ?_, ?_⟩)
        · rw [h2.cfg]; exact setIdx_lt _ _ _
        · rw [h2.cfg]; exact hv
        · rw [h2.cfg, filledBlock, hlen, Moves.cfg h1]
        · simp [filledBlock]

theorem hitInvalidateAt_reached (s : State) (c : CacheName) (ia p : Nat) :
    Reached s (hitInvalidateAt s c ia p) := by
  unfold hitInvalidateAt
  split
  · next f hf => rw [findHit_error hf]; exact moves_refl s
  · exact moves_refl s
  · next w hw =>
    split
    · next f hf => rw [ownLineCheck_error hf]; exact moves_refl s
    · next s1 hs =>
      rw [ownLineCheck_ok hs]
      exact (invalidate_move s c (setIdx_lt _ _ _) (findHit_way_lt hw)).moves

theorem flushBlock_reached (s : State) (c : CacheName) {set way : Nat} (hs : set < setCount s.cfg c)
    (hw : way < wayCount s.cfg c) : Reached s (flushBlock s c set way) := by
  unfold flushBlock
  split
  · next f hf => rw [ownLineCheck_error hf]; exact moves_refl s
  · next s1 hs1 =>
    rw [ownLineCheck_ok hs1]
    have h := writeBackIfDirty_reached s c set way
    split
    · next f hf => rw [hf] at h; exact h
    · next s2 hs2 =>
      rw [hs2] at h
      refine Relation.ReflTransGen.tail h (invalidate_move s2 c ?_ ?_) <;> rw [Moves.cfg h] <;> assumption

theorem hitWritebackInvalidateAt_reached (s : State) (c : CacheName) (ia p : Nat) :
    Reached s (hitWritebackInvalidateAt s c ia p) := by
  unfold hitWritebackInvalidateAt
  split
  · next f hf => rw [findHit_error hf]; exact moves_refl s
  · exact moves_refl s
  · next w hw => exact flushBlock_reached s c (setIdx_lt _ _ _) (findHit_way_lt hw)

theorem cleanAt_reached (s : State) (c : CacheName) {set way : Nat} (hs : set < setCount s.cfg c)
    (hw : way < wayCount s.cfg c) : Reached s (cleanAt s c set way) := by
  have h := writeBackBlock_reached s c set way
  unfold cleanAt
  split
  · split
    · next f hf => rw [hf] at h; exact h
    · next s1 hs1 =>
      rw [hs1] at h
      refine Relation.ReflTransGen.tail h (.block _ _ _ _ _ ⟨?_, ?_, .inr rfl, fun h => by cases h⟩)
      · rw [Moves.cfg h]; exact hs
      · rw [Moves.cfg h]; exact hw
  · exact moves_refl s

theorem hitWritebackAt_reached (s : State) (c : CacheName) (ia p : Nat) :
    Reached s (hitWritebackAt s c ia p) := by
  unfold hitWritebackAt
  split
  · next f hf => rw [findHit_error hf]; exact moves_refl s
  · exact moves_refl s
  · next w hw => exact cleanAt_reached s c (setIdx_lt _ _ _) (findHit_way_lt hw)

theorem fetchLockAt_reached (s : State) (c : CacheName) (ia p : Nat) :
    Reached s (fetchLockAt s c ia p) := by
  unfold fetchLockAt
  split
  · next f hf => rw [findHit_error hf]; exact moves_refl s
  · exact fillBlock_reached s c ia p true
  · next w hw =>
    exact (Move.block s c (setIdx s.cfg c ia) w (lockedBlock (block s c (setIdx s.cfg c ia) w))
      ⟨setIdx_lt _ _ _, findHit_way_lt hw, .inr rfl, fun h => .inr h⟩).moves

theorem deliver_reached (s : State) (e : Writeback) : Reached s (deliver s e) := by
  unfold deliver
  split
  · split
    · next h => exact (Move.memory s _ _ h).moves
    · exact moves_refl s
  · next l hl =>
    split
    · next f hf => rw [findHit_error hf]; exact moves_refl s
    · exact (Move.enqueue s _).moves
    · next w hw =>
      have hb (b : Block) (hd : b.data = lineSplice (block s l (setIdx s.cfg l e.addr) w).data
          (e.addr - lineOf s.cfg l e.addr) e.data)
          (hdirty : b.dirty = true → writeBack s.cfg l = true ∨
            (block s l (setIdx s.cfg l e.addr) w).dirty = true) :
          Move s (setBlock s l (setIdx s.cfg l e.addr) w b) :=
        .block s l _ w b ⟨setIdx_lt _ _ _, findHit_way_lt hw, .inr (by rw [hd]; simp), hdirty⟩
      dsimp only
      split
      · next hwb => exact (hb _ rfl fun _ => .inl hwb).moves
      · exact Relation.ReflTransGen.tail (hb { block s l (setIdx s.cfg l e.addr) w with data := _ } rfl
          fun h => .inr h).moves (.enqueue _ _)

theorem drainOne_reached (s : State) : Reached s (drainOne s) := by
  unfold drainOne
  split
  · exact moves_refl s
  · next e rest h => exact Reached.trans (Move.dequeue s e rest h).moves (deliver_reached _ e)

theorem settle_reached (c : CacheName) (a n fuel : Nat) (s : State) :
    Reached s (settle c a n fuel s) := by
  induction fuel generalizing s with
  | zero => exact moves_refl s
  | succ fuel ih =>
    have h := drainOne_reached s
    unfold settle
    split
    · split
      · next f hf => rw [hf] at h; exact h
      · next s1 hs => rw [hs] at h; exact Reached.trans h (ih s1)
    · exact moves_refl s

theorem innerHit_reached (kind : FlushKind) (c : CacheName) (s : State) (a : Nat) :
    Reached s (innerHit kind c s a) := by
  unfold innerHit
  split
  · exact hitInvalidateAt_reached s c a a
  · cases kind
    · exact hitWritebackInvalidateAt_reached s c a a
    · exact hitInvalidateAt_reached s c a a
    · exact hitWritebackAt_reached s c a a

theorem innerHits_reached (kind : FlushKind) (ci : CacheName) (ls : List Nat) (s : State) :
    Reached s (innerHits kind ci ls s) := by
  induction ls generalizing s with
  | nil => exact moves_refl s
  | cons a ls ih =>
    have h := innerHit_reached kind ci s a
    simp only [innerHits]
    split
    · next f hf => rw [hf] at h; exact h
    · next s1 hs => rw [hs] at h; exact Reached.trans h (ih s1)

theorem deliverQueued_reached (queued : Bool) (c : CacheName) (a n : Nat) (s : State) :
    Reached s (deliverQueued queued c a n s) := by
  unfold deliverQueued
  split
  · exact settle_reached c a n _ s
  · exact moves_refl s

theorem innerCachesHit_reached (kind : FlushKind) (c : CacheName) (a n : Nat) (cs : List CacheName)
    (queued : Bool) (s : State) : Reached s (innerCachesHit kind c a n cs queued s) := by
  induction cs generalizing queued s with
  | nil => exact deliverQueued_reached queued c a n s
  | cons ci cs ih =>
    have h := deliverQueued_reached queued ci a n s
    simp only [innerCachesHit]
    split
    · next f hf => rw [hf] at h; exact h
    · next s1 hs1 =>
      rw [hs1] at h
      refine Reached.trans h ?_
      have h' := innerHits_reached kind ci (innerLines s.cfg ci c a) s1
      split
      · next f hf => rw [hf] at h'; exact h'
      · next s2 hs2 => rw [hs2] at h'; exact Reached.trans h' (ih _ s2)

theorem innerFirst_reached (s : State) (c : CacheName) (a : Nat) (kind : FlushKind) :
    Reached s (innerFirst s c a kind) := by
  unfold innerFirst
  split
  · exact innerCachesHit_reached kind c a _ _ false s
  · exact moves_refl s

/-! ### The bodies of the operations -/

theorem indexed_lt (s : State) (c : CacheName) (ia : Nat) :
    indexedSet s c ia < setCount s.cfg c ∧ indexedWay s c ia < wayCount s.cfg c :=
  ⟨(indexDecode_lt s.cfg c ia).1, (indexDecode_lt s.cfg c ia).2.1⟩

theorem indexInvalidate_reached (c : CacheName) (acc : Access) (s : State) :
    Reached s (indexInvalidate c acc s) := by
  unfold indexInvalidate
  split
  · next f hf => rw [ownLineCheck_error hf]; exact moves_refl s
  · next s1 hs =>
    rw [ownLineCheck_ok hs]
    exact (invalidate_move s c (indexed_lt s c _).1 (indexed_lt s c _).2).moves

theorem indexWritebackInvalidate_reached (c : CacheName) (acc : Access) (s : State) :
    Reached s (indexWritebackInvalidate c acc s) :=
  flushBlock_reached s c (indexed_lt s c _).1 (indexed_lt s c _).2

theorem indexInnerFirst_reached (c : CacheName) (acc : Access) (s : State) :
    Reached s (indexInnerFirst c acc s) := by
  unfold indexInnerFirst
  split
  · exact innerFirst_reached s c _ _
  · exact moves_refl s

/-- An operation after another: what the second reaches, the pair reaches. -/
theorem reached_seq {s : State} {r : Except Fault State} {g : State → Except Fault State}
    (h : Reached s r) (hg : ∀ t, Reached t (g t)) :
    Reached s (match (generalizing := false) r with
      | .error f => .error f
      | .ok t => g t) := by
  cases r with
  | error f => exact h
  | ok t => exact Reached.trans h (hg t)

theorem indexWritebackInvalidateOuter_reached (c : CacheName) (acc : Access) (s : State) :
    Reached s (indexWritebackInvalidateOuter c acc s) :=
  reached_seq (indexInnerFirst_reached c acc s) (indexWritebackInvalidate_reached c acc)

theorem indexLoadTag_reached (c : CacheName) (acc : Access) (s : State) :
    Reached s (indexLoadTag c acc s) :=
  Relation.ReflTransGen.tail (Move.tag s c _).moves (.data _ c _)

theorem indexStoreTag_reached (c : CacheName) (acc : Access) (s : State) :
    Reached s (indexStoreTag c acc s) := by
  refine (Move.block s c (indexedSet s c acc.ia) (indexedWay s c acc.ia)
    (taggedBlock (indexedBlock s c acc.ia) (tagUnpack s.cfg c (tagLo s c) (tagHi s c)))
    ⟨(indexed_lt s c _).1, (indexed_lt s c _).2, .inr rfl, ?_⟩).moves
  intro h
  simp only [taggedBlock, tagUnpack, Bool.and_eq_true] at h
  exact .inl h.2

theorem implWrite_moves (s : State) (w : ImplWrite) : Moves s (implWrite s w) := by
  cases w with
  | block c set way b =>
    refine (Move.block s c _ _ _ ⟨Nat.mod_lt _ (setCount_pos _ _), Nat.mod_lt _ (wayCount_pos _ _),
      .inl (by simp), ?_⟩).moves
    intro h
    simp only [Bool.and_eq_true] at h
    exact .inl h.2
  | tag c lo hi => exact (Move.tag s c _).moves
  | data c lo hi => exact (Move.data s c _).moves
  | watch rs => exact (Move.watch s rs).moves
  | writeback c a d => exact (Move.enqueue s _).moves

theorem implWrites_moves (ws : List ImplWrite) (s : State) : Moves s (implWrites s ws) := by
  induction ws generalizing s with
  | nil => exact moves_refl s
  | cons w ws ih => exact Relation.ReflTransGen.trans (implWrite_moves s w) (ih _)

theorem implOp_reached (c : CacheName) (acc : Access) (s : State) : Reached s (implOp c acc s) := by
  have h : Moves s (implWrites (afterImpl s) (nextImpl s c acc.vAddr acc.pAddr acc.uncached).writes) :=
    .trans (moves_withDraws (afterImpl_eq s) (afterImpl_schedule s) (by simp)) (implWrites_moves _ _)
  unfold implOp implEnd
  split <;> exact h

theorem thenGlobalize_eq (acc : Access) (r : Except Fault State) : thenGlobalize acc r = r := by
  cases r <;> rfl

theorem hitInvalidate_reached (c : CacheName) (acc : Access) (s : State) :
    Reached s (hitInvalidate c acc s) := by
  rw [hitInvalidate, thenGlobalize_eq]; exact hitInvalidateAt_reached s c _ _

theorem hitInvalidateOuter_reached (c : CacheName) (acc : Access) (s : State) :
    Reached s (hitInvalidateOuter c acc s) :=
  reached_seq (innerFirst_reached s c _ _) (hitInvalidate_reached c acc)

theorem hitWritebackInvalidate_reached (c : CacheName) (acc : Access) (s : State) :
    Reached s (hitWritebackInvalidate c acc s) := by
  rw [hitWritebackInvalidate, thenGlobalize_eq]; exact hitWritebackInvalidateAt_reached s c _ _

theorem hitWritebackInvalidateOuter_reached (c : CacheName) (acc : Access) (s : State) :
    Reached s (hitWritebackInvalidateOuter c acc s) :=
  reached_seq (innerFirst_reached s c _ _) (hitWritebackInvalidate_reached c acc)

theorem hitWriteback_reached (c : CacheName) (acc : Access) (s : State) :
    Reached s (hitWriteback c acc s) := by
  rw [hitWriteback, thenGlobalize_eq]; exact hitWritebackAt_reached s c _ _

theorem hitWritebackOuter_reached (c : CacheName) (acc : Access) (s : State) :
    Reached s (hitWritebackOuter c acc s) :=
  reached_seq (innerFirst_reached s c _ _) (hitWriteback_reached c acc)

theorem fill_reached (c : CacheName) (acc : Access) (s : State) : Reached s (fill c acc s) := by
  unfold fill
  split
  · next f hf => rw [findHit_error hf]; exact moves_refl s
  · exact fillBlock_reached s c _ _ false
  · next w hw =>
    split
    · exact moves_refl s
    · split
      · next f hf => exact readLine_error hf
      · next d s1 hd =>
        obtain ⟨rfl, hlen⟩ := readLine_ok hd
        have h := afterEvent_moves s
        refine Relation.ReflTransGen.tail h (.block _ _ _ _ _ ⟨?_, ?_, .inl ?_, ?_⟩)
        · rw [h.cfg]; exact setIdx_lt _ _ _
        · rw [h.cfg]; exact findHit_way_lt hw
        · rw [h.cfg]; exact hlen
        · obtain ⟨d', hd'⟩ := afterEvent_eq s
          rw [hd']; exact fun h => .inr h

theorem fetchLockLines_reached (c : CacheName) (ls : List Nat) (s : State) :
    Reached s (fetchLockLines c ls s) := by
  induction ls generalizing s with
  | nil => exact moves_refl s
  | cons a ls ih => exact reached_seq (fetchLockAt_reached s c a a) ih

theorem fetchLock_reached (c : CacheName) (acc : Access) (s : State) :
    Reached s (fetchLock c acc s) := by
  refine reached_seq (fetchLockAt_reached s c _ _) fun t => ?_
  split
  · exact Reached.trans (moves_withDraws (afterLines_eq t) (afterLines_schedule t) (by simp)) (fetchLockLines_reached c _ _)
  · exact moves_refl t

theorem noRow_reached (op : BitVec 5) (acc : Access) (s : State) : Reached s (noRow op acc s) :=
  moves_refl s

end Sys2Proof.Machine
end

