-- ==== Sys2Proof/Laws/Invariants.lean ====
section
/-! SUPPORT. The canonical forms of memory and of the cache arrays: which states have them, and that every
move keeps them. -/

namespace Sys2Proof.Machine

/-- A move keeps memory in canonical form. -/
theorem Move.memory_wf {s t : State} (h : Move s t) (hw : Memory.wf s.mem) : Memory.wf t.mem := by
  cases h with
  | memory p v h => exact memWrite_wf hw p v
  | data c v => obtain ⟨p, hp⟩ := setData_eq_withCp0 s c v; rw [hp]; exact hw
  | _ => exact hw

/-- Writing a block that fits keeps the caches well-formed. -/
theorem cachesWellFormed_setBlock {s : State} {c : CacheName} {set way : Nat} {b : Block}
    (hw : CachesWellFormed s) (h : BlockFits s c set way b) :
    CachesWellFormed (setBlock s c set way b) := by
  intro c'
  by_cases hc : c' = c
  · subst hc
    refine ⟨?_, fun set' way' hs' hw' => ?_⟩
    · show SparseCanonical _ ((s.caches.set c' _).get c')
      rw [PerCache.get_set_same]
      exact sparseCanonical_put (hw c').1 _ _
    · show _ = lineBytes s.cfg c' ∧ (_ → writeBack s.cfg c' = true)
      by_cases he : set' = set ∧ way' = way
      · obtain ⟨rfl, rfl⟩ := he
        rw [block_setBlock_same (hw c').1.1]
        obtain ⟨o1, o2⟩ := (hw c').2 set' way' hs' hw'
        exact ⟨h.size.elim id (fun h => h.trans o1), fun hd => (h.dirty hd).elim id o2⟩
      · rw [block_setBlock_other s b h.way_lt hw' he]
        exact (hw c').2 set' way' hs' hw'
  · refine ⟨?_, fun set' way' hs' hw' => ?_⟩
    · show SparseCanonical _ ((s.caches.set c _).get c')
      rw [PerCache.get_set_other _ _ hc]
      exact (hw c').1
    · show _ = lineBytes s.cfg c' ∧ (_ → writeBack s.cfg c' = true)
      rw [block_setBlock_cache s _ _ _ _ _ hc]
      exact (hw c').2 set' way' hs' hw'

/-- Caches in which nothing is listed are well-formed. -/
theorem cachesWellFormed_of_empty {s : State} (h : s.caches = .all []) : CachesWellFormed s := by
  intro c
  rw [h, PerCache.get_all]
  refine ⟨⟨.nil, by simp⟩, fun set way _ _ => ?_⟩
  simp [block, h, sparseGet, sparseFind, Block.blank]

/-- A move keeps the caches well-formed. -/
theorem Move.caches_wf {s t : State} (h : Move s t) (hw : CachesWellFormed s) :
    CachesWellFormed t := by
  cases h with
  | block c set way b h => exact cachesWellFormed_setBlock hw h
  | data c v => obtain ⟨p, hp⟩ := setData_eq_withCp0 s c v; rw [hp]; exact hw
  | _ => exact hw

end Sys2Proof.Machine
end

