-- ==== Sys2Proof/Laws/Exec.lean ====
section
/-! SUPPORT. What `exec` and `step` can answer: every instruction is R61 around the body of its op, a next
state is a chain of moves and pc + 4, a fault's reported state is reached by a chain of moves. -/

namespace Sys2Proof.Machine

/-- The body of each op (R65 to R79), as the arms of `exec` use them. -/
def opBody (op : BitVec 5) : Access → State → Except Fault State :=
  match op.toNat with
  | 0 => indexInvalidate .i
  | 1 => indexWritebackInvalidate .d
  | 2 => indexWritebackInvalidateOuter .t
  | 3 => indexWritebackInvalidateOuter .s
  | 4 => indexLoadTag .i
  | 5 => indexLoadTag .d
  | 6 => indexLoadTag .t
  | 7 => indexLoadTag .s
  | 8 => indexStoreTag .i
  | 9 => indexStoreTag .d
  | 10 => indexStoreTag .t
  | 11 => indexStoreTag .s
  | 12 => implOp .i
  | 13 => implOp .d
  | 14 => implOp .t
  | 15 => implOp .s
  | 16 => hitInvalidate .i
  | 17 => hitInvalidate .d
  | 18 => hitInvalidateOuter .t
  | 19 => hitInvalidateOuter .s
  | 20 => fill .i
  | 21 => hitWritebackInvalidate .d
  | 22 => hitWritebackInvalidateOuter .t
  | 23 => hitWritebackInvalidateOuter .s
  | 24 => noRow 24
  | 25 => hitWriteback .d
  | 26 => hitWritebackOuter .t
  | 27 => hitWritebackOuter .s
  | 28 => fetchLock .i
  | 29 => fetchLock .d
  | 30 => noRow 30
  | _ => noRow 31

theorem bitVec5_cases {P : BitVec 5 → Prop} (h : ∀ n : Fin 32, P (BitVec.ofNat 5 n.val))
    (op : BitVec 5) : P op := by
  have := h ⟨op.toNat, op.isLt⟩
  simpa using this

theorem execCache_eq (op : BitVec 5) (imm : BitVec 9) (rx : BitVec 3) (s : State) :
    execCache op imm rx s = cacheInstr op imm rx (opBody op) s := by
  revert op
  refine bitVec5_cases fun n => ?_
  fin_cases n <;> rfl

/-- Every arm is the step of R61 around the body of its op. -/
theorem exec_eq (i : Instr) (s : State) :
    exec i s = cacheInstr i.op i.imm i.rx (opBody i.op) s := by
  cases i
  case cache op imm rx => exact execCache_eq op imm rx s
  all_goals rfl

theorem opBody_reached (op : BitVec 5) (acc : Access) (s : State) :
    Reached s (opBody op acc s) := by
  revert op
  refine bitVec5_cases fun n => ?_
  fin_cases n
  · exact indexInvalidate_reached .i acc s
  · exact indexWritebackInvalidate_reached .d acc s
  · exact indexWritebackInvalidateOuter_reached .t acc s
  · exact indexWritebackInvalidateOuter_reached .s acc s
  · exact indexLoadTag_reached .i acc s
  · exact indexLoadTag_reached .d acc s
  · exact indexLoadTag_reached .t acc s
  · exact indexLoadTag_reached .s acc s
  · exact indexStoreTag_reached .i acc s
  · exact indexStoreTag_reached .d acc s
  · exact indexStoreTag_reached .t acc s
  · exact indexStoreTag_reached .s acc s
  · exact implOp_reached .i acc s
  · exact implOp_reached .d acc s
  · exact implOp_reached .t acc s
  · exact implOp_reached .s acc s
  · exact hitInvalidate_reached .i acc s
  · exact hitInvalidate_reached .d acc s
  · exact hitInvalidateOuter_reached .t acc s
  · exact hitInvalidateOuter_reached .s acc s
  · exact fill_reached .i acc s
  · exact hitWritebackInvalidate_reached .d acc s
  · exact hitWritebackInvalidateOuter_reached .t acc s
  · exact hitWritebackInvalidateOuter_reached .s acc s
  · exact noRow_reached 24 acc s
  · exact hitWriteback_reached .d acc s
  · exact hitWritebackOuter_reached .t acc s
  · exact hitWritebackOuter_reached .s acc s
  · exact fetchLock_reached .i acc s
  · exact fetchLock_reached .d acc s
  · exact noRow_reached 30 acc s
  · exact noRow_reached 31 acc s

/-- A check of R61 that fails reports the state it started from (R61 corner case e). -/
theorem cacheAccess_error {op : BitVec 5} {imm : BitVec 9} {rx : BitVec 3} {s : State} {f : Fault}
    (h : cacheAccess op imm rx s = .error f) : f.reported = s := by
  unfold cacheAccess at h
  split at h
  · cases h; rfl
  · split at h
    · cases h; rfl
    · dsimp only at h
      split at h
      · cases h; rfl
      · split at h
        · cases h; rfl
        · cases h; rfl
        · cases h; rfl
        · split at h
          · cases h; rfl
          · cases h

/-- Where the instruction executes, lines 1 to 7 of R61 give its access. -/
theorem cacheAccess_executes {op : BitVec 5} {imm : BitVec 9} {rx : BitVec 3} {s : State} {p : Nat}
    {u h : Bool} (he : Executes op imm rx s p u h) :
    cacheAccess op imm rx s = .ok ⟨cacheOfOp op, effectiveAddress s imm rx, p,
      instrIndex (cacheOfOp op) imm rx s p, u, h⟩ := by
  obtain ⟨h1, h2, h3, h4, h5⟩ := he
  unfold cacheAccess
  have h6 : (requiresAddress s.cfg op && u) = false := by
    cases hc : requiresAddress s.cfg op
    · rfl
    · simp [h5 hc]
  simp only [h1, h2, h3, h4, h6, Bool.not_true, Bool.false_eq_true, if_false, instrIndex]

/-- What a next state of an instruction says. -/
theorem cacheInstr_next {op : BitVec 5} {imm : BitVec 9} {rx : BitVec 3}
    {body : Access → State → Except Fault State} {s t : State}
    (h : cacheInstr op imm rx body s = .next t) :
    ∃ acc s1, cacheAccess op imm rx s = .ok acc ∧ body acc s = .ok s1 ∧
      t = withPc s1 (s1.pc + 4) := by
  unfold cacheInstr at h
  split at h
  · cases h
  · next acc ha =>
    split at h
    · cases h
    · next s1 hb => cases h; exact ⟨acc, s1, ha, hb, rfl⟩

/-- What a fault of an instruction says. -/
theorem cacheInstr_fault {op : BitVec 5} {imm : BitVec 9} {rx : BitVec 3}
    {body : Access → State → Except Fault State} {s : State} {f : Fault}
    (h : cacheInstr op imm rx body s = .fault f) :
    cacheAccess op imm rx s = .error f ∨
      ∃ acc, cacheAccess op imm rx s = .ok acc ∧ body acc s = .error f := by
  unfold cacheInstr at h
  split at h
  · next hf => cases h; exact .inl hf
  · next acc ha =>
    split at h
    · next hb => cases h; exact .inr ⟨acc, ha, hb⟩
    · cases h

theorem cacheInstr_of_ok {op : BitVec 5} {imm : BitVec 9} {rx : BitVec 3}
    {body : Access → State → Except Fault State} {s s1 : State} {acc : Access}
    (ha : cacheAccess op imm rx s = .ok acc) (hb : body acc s = .ok s1) :
    cacheInstr op imm rx body s = .next (withPc s1 (s1.pc + 4)) := by
  simp [cacheInstr, ha, hb]

theorem cacheInstr_of_error {op : BitVec 5} {imm : BitVec 9} {rx : BitVec 3}
    {body : Access → State → Except Fault State} {s : State} {acc : Access} {f : Fault}
    (ha : cacheAccess op imm rx s = .ok acc) (hb : body acc s = .error f) :
    cacheInstr op imm rx body s = .fault f := by
  simp [cacheInstr, ha, hb]

/-- An instruction that completes: a chain of moves, then pc + 4 (R12). -/
theorem exec_next {i : Instr} {s t : State} (h : exec i s = .next t) :
    ∃ s1, Moves s s1 ∧ t = withPc s1 (s.pc + 4) := by
  rw [exec_eq] at h
  obtain ⟨acc, s1, -, hb, rfl⟩ := cacheInstr_next h
  have hr := opBody_reached i.op acc s
  rw [hb] at hr
  have hpc : s1.pc = s.pc := Moves.pc hr
  exact ⟨s1, hr, by rw [hpc]⟩

/-- The state a fault of an instruction reports is reached by a chain of moves. -/
theorem exec_fault {i : Instr} {s : State} {f : Fault} (h : exec i s = .fault f) :
    Moves s f.reported := by
  rw [exec_eq] at h
  rcases cacheInstr_fault h with ha | ⟨acc, -, hb⟩
  · rw [cacheAccess_error ha]
  · have hr := opBody_reached i.op acc s
    rw [hb] at hr
    exact hr

/-- No instruction is refused. -/
theorem exec_not_refused (i : Instr) (s : State) (r : Refusal) : exec i s ≠ .refused r := by
  rw [exec_eq]
  unfold cacheInstr
  split
  · simp
  · split <;> simp

/-- What a step that answers a next state says: the configuration is well-formed, and either the
processor ran the instruction at pc or the drain delivered a writeback. -/
theorem step_next {s t : State} (h : step s = .next t) :
    cfgOk s.cfg = true ∧ ∃ d,
      ((∃ i, fetch (withDraws s d) = .ok i ∧ exec i (withDraws s d) = .next t) ∨
        drainOne (withDraws s d) = .ok t) := by
  unfold step at h
  split at h
  · next hc =>
    refine ⟨hc, ?_⟩
    have hd : ∃ d, (chooseAgent s).2 = withDraws s d := by
      unfold chooseAgent
      split
      · exact ⟨s.draws, rfl⟩
      · split
        · exact ⟨s.draws, rfl⟩
        · split
          · exact withWait_eq s _
          · exact withWait_eq s _
    obtain ⟨d, hd⟩ := hd
    refine ⟨d, ?_⟩
    split at h
    · next s1 hs1 =>
      have : s1 = withDraws s d := by rw [← hd, hs1]
      subst this
      unfold processorStep at h
      split at h
      · cases h
      · next i hi => exact .inl ⟨i, hi, h⟩
    · next s1 hs1 =>
      have : s1 = withDraws s d := by rw [← hd, hs1]
      subst this
      unfold drainStep at h
      split at h
      · cases h
      · next u hu => cases h; exact .inr hu
  · cases h

/-- A step that answers a next state: a turn of the schedule, a chain of moves, and pc + 4 if it was the
processor's. -/
theorem step_moves {s t : State} (h : step s = .next t) :
    ∃ d s1, Moves (withDraws s d) s1 ∧ (t = s1 ∨ t = withPc s1 (s.pc + 4)) := by
  obtain ⟨-, d, ⟨i, -, he⟩ | hd⟩ := step_next h
  · obtain ⟨s1, h1, rfl⟩ := exec_next he
    exact ⟨d, s1, h1, .inr rfl⟩
  · have hr := drainOne_reached (withDraws s d)
    rw [hd] at hr
    exact ⟨d, t, hr, .inl rfl⟩

/-- While the drain waits and no mark is in the way, a step that answers a next state shortens the wait
(R36). -/
theorem step_shortens_wait {s t : State} (h : step s = .next t) (hq : s.wbq ≠ [])
    (ha : atSync s = false) (hw : drainWait s ≠ 0) : drainWait t = drainWait s - 1 := by
  unfold step at h
  split at h
  · have hc : chooseAgent s = (.processor, afterProcessorTurn s) := by
      simp [chooseAgent, hq, ha, hw]
    rw [hc] at h
    simp only [processorStep] at h
    split at h
    · cases h
    · obtain ⟨s1, hm, rfl⟩ := exec_next h
      obtain ⟨rest, hr⟩ := drainWait_afterProcessorTurn s
      exact drainWait_of_cons (rest := rest) (by rw [withPc_draws, Moves.schedule hm, hr])
  · cases h

end Sys2Proof.Machine
end

