-- ==== Sys2Proof/Laws/Results.lean ====
section
/-! SUPPORT. What the shared operations and `exec` answer, given what their premises say: lookups, the
own-line check, transfers, flushing, cleaning and filling a block. -/

namespace Sys2Proof.Machine

/-! ### Lookups and checks -/

theorem findHit_of_nil {s : State} {c : CacheName} {ia p : Nat} (h : hitWays s c ia p = []) :
    findHit s c ia p = .ok none := by simp [findHit, h]

theorem findHit_of_single {s : State} {c : CacheName} {ia p w : Nat}
    (h : hitWays s c ia p = [w]) : findHit s c ia p = .ok (some w) := by simp [findHit, h]

theorem findHit_of_two {s : State} {c : CacheName} {ia p : Nat}
    (h : 2 ≤ (hitWays s c ia p).length) :
    findHit s c ia p = .error (.undefinedDuplicateTag c (setIdx s.cfg c ia) s) := by
  unfold findHit
  split
  · next h' => simp [h'] at h
  · next h' => simp [h'] at h
  · rfl

/-- A way that hits holds a valid block. -/
theorem valid_of_hit {s : State} {c : CacheName} {ia p w : Nat} (h : hitWays s c ia p = [w]) :
    (block s c (setIdx s.cfg c ia) w).valid = true :=
  (mem_hitWays (by rw [h]; exact List.mem_singleton_self w)).2.1

theorem ownLineCheck_of_false {s : State} {c : CacheName} {set way : Nat}
    (h : holdsOwnLine s c set way = false) : ownLineCheck s c set way = .ok s := by
  simp [ownLineCheck, h]

theorem ownLineCheck_of_true {s : State} {c : CacheName} {set way : Nat}
    (h : holdsOwnLine s c set way = true) :
    ownLineCheck s c set way = .error (.unpredictableOwnLine c s) := by
  simp [ownLineCheck, h]

/-! ### Draws -/

theorem block_afterEvent (s : State) (c : CacheName) (set way : Nat) :
    block (afterEvent s) c set way = block s c set way := by
  obtain ⟨d, h⟩ := afterEvent_eq s; rw [h]; rfl

theorem block_afterWay (s : State) (c : CacheName) (set way : Nat) :
    block (afterWay s) c set way = block s c set way := by
  obtain ⟨d, h⟩ := afterWay_eq s; rw [h]; rfl

theorem block_enqueue (s : State) (e : Writeback) (c : CacheName) (set way : Nat) :
    block (enqueue s e) c set way = block s c set way := rfl

theorem afterEvent_cfg (s : State) : (afterEvent s).cfg = s.cfg := by
  obtain ⟨d, h⟩ := afterEvent_eq s; rw [h]; rfl

theorem afterWay_cfg (s : State) : (afterWay s).cfg = s.cfg := by
  obtain ⟨d, h⟩ := afterWay_eq s; rw [h]; rfl

theorem transfer_of_ok {s : State} (h : nextEvent s = .ok) : transfer s = .ok (afterEvent s) := by
  simp [transfer, h]

/-! ### Writing back, flushing, cleaning -/

theorem writeBackBlock_of_ok {s : State} {c : CacheName} {set way : Nat} (h : nextEvent s = .ok) :
    writeBackBlock s c set way = .ok (enqueue (afterEvent s) (writebackEntry s c set way)) := by
  simp [writeBackBlock, transfer_of_ok h]

theorem writeBackBlock_of_cacheError {s : State} {c : CacheName} {set way : Nat}
    (h : nextEvent s = .cacheError) :
    writeBackBlock s c set way = .error (.trap .cacheError (afterEvent s)) := by
  simp [writeBackBlock, transfer, h, raise]

theorem writeBackBlock_of_busError {s : State} {c : CacheName} {set way : Nat}
    (h : nextEvent s = .busError) :
    writeBackBlock s c set way = .error (.trap .busError (afterEvent s)) := by
  simp [writeBackBlock, transfer, h, raise]

theorem flushBlock_dirty {s : State} {c : CacheName} {set way : Nat}
    (ho : holdsOwnLine s c set way = false) (hd : needsWriteback s c set way = true)
    (he : nextEvent s = .ok) :
    flushBlock s c set way = .ok (setBlock (enqueue (afterEvent s) (writebackEntry s c set way))
      c set way (invalidBlock (block s c set way))) := by
  simp [flushBlock, ownLineCheck_of_false ho, writeBackIfDirty, hd, writeBackBlock_of_ok he,
    invalidate, block_enqueue, block_afterEvent]

theorem flushBlock_clean {s : State} {c : CacheName} {set way : Nat}
    (ho : holdsOwnLine s c set way = false) (hd : needsWriteback s c set way = false) :
    flushBlock s c set way = .ok (setBlock s c set way (invalidBlock (block s c set way))) := by
  simp [flushBlock, ownLineCheck_of_false ho, writeBackIfDirty, hd, invalidate]

/-- A flush whose writeback fails ends as the writeback does. -/
theorem flushBlock_error {s : State} {c : CacheName} {set way : Nat} {f : Fault}
    (ho : holdsOwnLine s c set way = false) (hd : needsWriteback s c set way = true)
    (he : writeBackBlock s c set way = .error f) : flushBlock s c set way = .error f := by
  simp [flushBlock, ownLineCheck_of_false ho, writeBackIfDirty, hd, he]

theorem cleanAt_dirty {s : State} {c : CacheName} {set way : Nat}
    (hd : needsWriteback s c set way = true) (he : nextEvent s = .ok) :
    cleanAt s c set way = .ok (setBlock (enqueue (afterEvent s) (writebackEntry s c set way))
      c set way (cleanBlock (block s c set way))) := by
  simp [cleanAt, hd, writeBackBlock_of_ok he, block_enqueue, block_afterEvent]

theorem cleanAt_clean {s : State} {c : CacheName} {set way : Nat}
    (hd : needsWriteback s c set way = false) : cleanAt s c set way = .ok s := by
  simp [cleanAt, hd]

theorem cleanAt_error {s : State} {c : CacheName} {set way : Nat} {f : Fault}
    (hd : needsWriteback s c set way = true) (he : writeBackBlock s c set way = .error f) :
    cleanAt s c set way = .error f := by
  simp [cleanAt, hd, he]

theorem needsWriteback_true {s : State} {c : CacheName} {set way : Nat}
    (h : writeBack s.cfg c = true ∧ (block s c set way).valid = true ∧
      (block s c set way).dirty = true) : needsWriteback s c set way = true := by
  simp [needsWriteback, h.1, h.2.1, h.2.2]

theorem needsWriteback_false {s : State} {c : CacheName} {set way : Nat}
    (h : ¬(writeBack s.cfg c = true ∧ (block s c set way).valid = true ∧
      (block s c set way).dirty = true)) : needsWriteback s c set way = false := by
  simpa [needsWriteback, and_assoc] using h

/-! ### The whole instruction -/

/-- The body of the op answers a state: the instruction completes with pc + 4. -/
theorem exec_of {i : Instr} {s s1 : State} {acc : Access}
    (ha : cacheAccess i.op i.imm i.rx s = .ok acc) (hb : opBody i.op acc s = .ok s1) :
    exec i s = .next (withPc s1 (s.pc + 4)) := by
  rw [exec_eq, cacheInstr_of_ok ha hb]
  have hr := opBody_reached i.op acc s
  rw [hb] at hr
  have : s1.pc = s.pc := Moves.pc hr
  rw [this]

theorem exec_of_error {i : Instr} {s : State} {acc : Access} {f : Fault}
    (ha : cacheAccess i.op i.imm i.rx s = .ok acc) (hb : opBody i.op acc s = .error f) :
    exec i s = .fault f := by
  rw [exec_eq, cacheInstr_of_error ha hb]

/-- An instruction that completes has passed every check and run the body of its op. -/
theorem exec_next_body {i : Instr} {s t : State} {p : Nat} {u h : Bool}
    (he : Executes i.op i.imm i.rx s p u h) (hx : exec i s = .next t) :
    ∃ s1, opBody i.op ⟨cacheOfOp i.op, effectiveAddress s i.imm i.rx, p,
        instrIndex (cacheOfOp i.op) i.imm i.rx s p, u, h⟩ s = .ok s1 ∧
      t = withPc s1 (s.pc + 4) := by
  rw [exec_eq] at hx
  obtain ⟨acc, s1, ha, hb, rfl⟩ := cacheInstr_next hx
  rw [cacheAccess_executes he] at ha
  cases ha
  have hr := opBody_reached i.op ⟨cacheOfOp i.op, effectiveAddress s i.imm i.rx, p,
    instrIndex (cacheOfOp i.op) i.imm i.rx s p, u, h⟩ s
  rw [hb] at hr
  have hpc : s1.pc = s.pc := Moves.pc hr
  exact ⟨s1, hb, by rw [hpc]⟩

/-- What is reached and answered has the same configuration. -/
theorem cfg_of_ok {s s1 : State} {r : Except Fault State} (hr : Reached s r) (h : r = .ok s1) :
    s1.cfg = s.cfg := by
  subst h; exact Moves.cfg hr

/-- The inner caches keep the configuration. -/
theorem innerFirst_cfg {s s1 : State} {c : CacheName} {a : Nat} {kind : FlushKind}
    (h : innerFirst s c a kind = .ok s1) : s1.cfg = s.cfg :=
  cfg_of_ok (innerFirst_reached s c a kind) h

end Sys2Proof.Machine
end

