-- ==== Sys2Proof/Laws/InnerFirst.lean ====
section
/-! SUPPORT. What the inner-first policy (R41) does: every outcome of one inner operation, and which blocks
stay valid, keep their tags and are found by which lookups while the policy and its drain run. -/

namespace Sys2Proof.Machine

/-! ### One inner operation -/

theorem findHit_some_iff {s : State} {c : CacheName} {ia p : Nat} {o : Option Nat}
    (h : findHit s c ia p = .ok o) : hitWays s c ia p = o.toList := by
  cases o with
  | none => exact findHit_none h
  | some w => exact findHit_some h

/-- The state after a writeback that is made. -/
def afterWriteback (s : State) (c : CacheName) (set way : Nat) : State :=
  enqueue (afterEvent s) (writebackEntry s c set way)

theorem flushBlock_ok {s t : State} {c : CacheName} {set way : Nat} (h : flushBlock s c set way = .ok t) :
    t = invalidate (if needsWriteback s c set way then afterWriteback s c set way else s) c set way := by
  unfold flushBlock at h
  split at h
  · cases h
  · next s1 h1 =>
    rw [ownLineCheck_ok h1] at h
    unfold writeBackIfDirty at h
    split at h
    · cases h
    · next s2 h2 =>
      cases h
      split at h2
      · next hn => rw [writeBackBlock_ok h2, if_pos hn]; rfl
      · next hn => cases h2; rw [if_neg hn]

theorem hitInvalidateAt_ok {s t : State} {c : CacheName} {ia p : Nat} (h : hitInvalidateAt s c ia p = .ok t) :
    (hitWays s c ia p = [] ∧ t = s) ∨
    ∃ w, hitWays s c ia p = [w] ∧ t = invalidate s c (setIdx s.cfg c ia) w := by
  unfold hitInvalidateAt at h
  split at h
  · cases h
  · next hf => cases h; exact .inl ⟨findHit_none hf, rfl⟩
  · next w hf =>
    split at h
    · cases h
    · next s1 h1 => cases h; rw [ownLineCheck_ok h1]; exact .inr ⟨w, findHit_some hf, rfl⟩

theorem hitWritebackInvalidateAt_ok {s t : State} {c : CacheName} {ia p : Nat}
    (h : hitWritebackInvalidateAt s c ia p = .ok t) :
    (hitWays s c ia p = [] ∧ t = s) ∨
    ∃ w, hitWays s c ia p = [w] ∧ t = invalidate
      (if needsWriteback s c (setIdx s.cfg c ia) w then afterWriteback s c (setIdx s.cfg c ia) w else s)
      c (setIdx s.cfg c ia) w := by
  unfold hitWritebackInvalidateAt at h
  split at h
  · cases h
  · next hf => cases h; exact .inl ⟨findHit_none hf, rfl⟩
  · next w hf => exact .inr ⟨w, findHit_some hf, flushBlock_ok h⟩

theorem hitWritebackAt_ok {s t : State} {c : CacheName} {ia p : Nat} (h : hitWritebackAt s c ia p = .ok t) :
    (hitWays s c ia p = [] ∧ t = s) ∨
    ∃ w, hitWays s c ia p = [w] ∧ t = if needsWriteback s c (setIdx s.cfg c ia) w then
      setBlock (afterWriteback s c (setIdx s.cfg c ia) w) c (setIdx s.cfg c ia) w
        (cleanBlock (block s c (setIdx s.cfg c ia) w)) else s := by
  unfold hitWritebackAt at h
  split at h
  · cases h
  · next hf => cases h; exact .inl ⟨findHit_none hf, rfl⟩
  · next w hf =>
    refine .inr ⟨w, findHit_some hf, ?_⟩
    unfold cleanAt at h
    split at h
    · next hn =>
      rw [if_pos hn]
      split at h
      · cases h
      · next s1 h1 =>
        cases h
        rw [writeBackBlock_ok h1, block_enqueue, block_afterEvent]
        rfl
    · next hn => cases h; rw [if_neg hn]

theorem block_afterWriteback (s : State) (c c' : CacheName) (set way set' way' : Nat) :
    block (afterWriteback s c set way) c' set' way' = block s c' set' way' := by
  rw [afterWriteback, block_enqueue, block_afterEvent]

/-- Every outcome of an inner operation: on a miss nothing, on a hit the block invalidated, or cleaned,
after its writeback if it needs one and the kind makes one. -/
theorem innerHit_ok {kind : FlushKind} {c : CacheName} {s t : State} {a : Nat}
    (h : innerHit kind c s a = .ok t) :
    (hitWays s c a a = [] ∧ t = s) ∨
    ∃ w, hitWays s c a a = [w] ∧
      let set := setIdx s.cfg c a
      let back := if needsWriteback s c set w then afterWriteback s c set w else s
      (c = .i ∨ kind = .invalidate → t = invalidate s c set w) ∧
      (c ≠ .i → kind = .writebackInvalidate → t = invalidate back c set w) ∧
      (c ≠ .i → kind = .writeback → t = if needsWriteback s c set w then
        setBlock back c set w (cleanBlock (block s c set w)) else s) := by
  unfold innerHit at h
  by_cases hc : c = .i
  · rw [if_pos hc] at h
    obtain h | ⟨w, h, ht⟩ := hitInvalidateAt_ok h
    · exact .inl h
    · exact .inr ⟨w, h, fun _ => ht, fun hn => absurd hc hn, fun hn => absurd hc hn⟩
  · rw [if_neg hc] at h
    cases kind
    · obtain h | ⟨w, h, ht⟩ := hitWritebackInvalidateAt_ok h
      · exact .inl h
      · exact .inr ⟨w, h, fun hn => (by simp [hc] at hn), fun _ _ => ht, fun _ hn => (by cases hn)⟩
    · obtain h | ⟨w, h, ht⟩ := hitInvalidateAt_ok h
      · exact .inl h
      · exact .inr ⟨w, h, fun _ => ht, fun _ hn => (by cases hn), fun _ hn => (by cases hn)⟩
    · obtain h | ⟨w, h, ht⟩ := hitWritebackAt_ok h
      · exact .inl h
      · refine .inr ⟨w, h, fun hn => (by simp [hc] at hn), fun _ hn => (by cases hn), fun _ _ => ?_⟩
        rw [ht]; split <;> simp_all

/-! ### Which blocks stay valid -/

/-- No block has become valid or has another tag; those of the caches in `keep` are as valid as before. -/
structure Narrows (keep : CacheName → Prop) (s t : State) : Prop where
  cfg : t.cfg = s.cfg
  valid : ∀ c set way, way < wayCount s.cfg c → (block t c set way).valid = true →
    (block s c set way).valid = true
  ptag : ∀ c set way, way < wayCount s.cfg c → (block t c set way).ptag = (block s c set way).ptag
  kept : ∀ c, keep c → ∀ set way, way < wayCount s.cfg c →
    (block t c set way).valid = (block s c set way).valid

variable {keep : CacheName → Prop}

theorem Narrows.of_blocks {s t : State} (hc : t.cfg = s.cfg)
    (hb : ∀ c set way, block t c set way = block s c set way) : Narrows keep s t :=
  ⟨hc, fun _ _ _ _ h => by rwa [← hb], fun _ _ _ _ => by rw [hb], fun _ _ _ _ _ => by rw [hb]⟩

theorem Narrows.of_caches {s t : State} (hc : t.cfg = s.cfg) (h : t.caches = s.caches) :
    Narrows keep s t := .of_blocks hc (block_congr hc h)

theorem Narrows.refl (s : State) : Narrows keep s s := .of_blocks rfl fun _ _ _ => rfl

theorem Narrows.trans {s t u : State} (h : Narrows keep s t) (h' : Narrows keep t u) :
    Narrows keep s u :=
  ⟨h'.cfg.trans h.cfg,
    fun c set way hw hv => h.valid c set way hw (h'.valid c set way (by rwa [h.cfg]) hv),
    fun c set way hw => (h'.ptag c set way (by rwa [h.cfg])).trans (h.ptag c set way hw),
    fun c hk set way hw => (h'.kept c hk set way (by rwa [h.cfg])).trans (h.kept c hk set way hw)⟩

/-- A lookup finds no more than before. -/
theorem Narrows.mem_hitWays {s t : State} (h : Narrows keep s t) {c : CacheName} {ia p w : Nat}
    (hw : w ∈ hitWays t c ia p) : w ∈ hitWays s c ia p := by
  simp only [hitWays, List.mem_filter, List.mem_range, Bool.and_eq_true, decide_eq_true_eq, h.cfg] at hw ⊢
  refine ⟨hw.1, h.valid _ _ _ hw.1 hw.2.1, ?_⟩
  rw [← h.ptag _ _ _ hw.1]
  exact hw.2.2

/-- A lookup in a cache that is kept finds the same. -/
theorem Narrows.hitWays_eq {s t : State} (h : Narrows keep s t) {c : CacheName} (hk : keep c)
    (ia p : Nat) : hitWays t c ia p = hitWays s c ia p := by
  unfold hitWays
  rw [h.cfg]
  refine List.filter_congr fun w hw => ?_
  rw [List.mem_range] at hw
  rw [h.ptag _ _ _ hw, h.kept _ hk _ _ hw]

/-- Writing a block that is not newly valid and has the tag of the old one. -/
theorem narrows_setBlock {s : State} (hw : CachesWellFormed s) {c : CacheName} {set way : Nat} {b : Block}
    (hlt : way < wayCount s.cfg c) (hv : b.valid = true → (block s c set way).valid = true)
    (ht : b.ptag = (block s c set way).ptag) (hk : keep c → b.valid = (block s c set way).valid) :
    Narrows keep s (setBlock s c set way b) := by
  have hb (c' : CacheName) (set' way' : Nat) (hw' : way' < wayCount s.cfg c') :
      (c' = c ∧ set' = set ∧ way' = way ∧ block (setBlock s c set way b) c' set' way' = b) ∨
      block (setBlock s c set way b) c' set' way' = block s c' set' way' := by
    by_cases hc : c' = c
    · subst hc
      by_cases hs : set' = set ∧ way' = way
      · obtain ⟨rfl, rfl⟩ := hs
        exact .inl ⟨rfl, rfl, rfl, block_setBlock_same (hw c').1.1 _ _ _⟩
      · exact .inr (block_setBlock_other s b hlt hw' hs)
    · exact .inr (block_setBlock_cache s _ _ _ _ _ hc)
  refine ⟨rfl, fun c' set' way' hw' h => ?_, fun c' set' way' hw' => ?_, fun c' hk' set' way' hw' => ?_⟩
  all_goals obtain ⟨rfl, rfl, rfl, h'⟩ | h' := hb c' set' way' hw'
  · rw [h'] at h; exact hv h
  · rwa [h'] at h
  · rw [h', ht]
  · rw [h']
  · rw [h', hk hk']
  · rw [h']

theorem afterWriteback_cfg (s : State) (c : CacheName) (set way : Nat) :
    (afterWriteback s c set way).cfg = s.cfg := afterEvent_cfg s

theorem afterWriteback_caches (s : State) (c : CacheName) (set way : Nat) :
    (afterWriteback s c set way).caches = s.caches := by
  obtain ⟨d, h⟩ := afterEvent_eq s
  simp only [afterWriteback, enqueue, withWbq_caches, h, withDraws_caches]

/-- Well-formedness is about the configuration and the caches alone. -/
theorem cachesWellFormed_congr {s t : State} (hc : t.cfg = s.cfg) (hs : t.caches = s.caches)
    (h : CachesWellFormed s) : CachesWellFormed t := by
  intro c
  have := h c
  rw [hc, hs]
  refine ⟨this.1, fun set way h1 h2 => ?_⟩
  rw [block_congr hc hs]
  exact this.2 set way h1 h2

theorem wellFormed_of_ok {s t : State} {r : Except Fault State} (hw : CachesWellFormed s)
    (hr : Reached s r) (h : r = .ok t) : CachesWellFormed t := by
  subst h
  exact Moves.keeps (fun _ _ hm => hm.caches_wf) hr hw

/-- The caches that an inner operation of a kind leaves as valid as they are. -/
abbrev keptBy (kind : FlushKind) : CacheName → Prop := fun c => kind = .writeback ∧ c ≠ .i

theorem innerHit_narrows {kind : FlushKind} {c : CacheName} {s t : State} {a : Nat}
    (hw : CachesWellFormed s) (h : innerHit kind c s a = .ok t) : Narrows (keptBy kind) s t := by
  obtain ⟨-, rfl⟩ | ⟨w, hh, h1, h2, h3⟩ := innerHit_ok h
  · exact .refl _
  · have hlt := (mem_hitWays (by rw [hh]; exact List.mem_singleton_self w)).1
    have hinv (u : State) (hu : u.cfg = s.cfg) (hu' : u.caches = s.caches) (hn : ¬keptBy kind c) :
        Narrows (keptBy kind) s (invalidate u c (setIdx s.cfg c a) w) :=
      Narrows.trans (.of_caches hu hu')
        (narrows_setBlock (cachesWellFormed_congr hu hu' hw) (by rwa [hu]) (by simp [invalidBlock])
          (by simp [invalidBlock]) fun hk => absurd hk hn)
    have hback (b : Bool) : (if b then afterWriteback s c (setIdx s.cfg c a) w else s).cfg = s.cfg ∧
        (if b then afterWriteback s c (setIdx s.cfg c a) w else s).caches = s.caches := by
      cases b
      · exact ⟨rfl, rfl⟩
      · exact ⟨afterWriteback_cfg _ _ _ _, afterWriteback_caches _ _ _ _⟩
    by_cases hc : c = .i ∨ kind = .invalidate
    · rw [h1 hc]
      exact hinv s rfl rfl fun hk => hc.elim hk.2 fun hk' => by rw [hk.1] at hk'; cases hk'
    · rw [not_or] at hc
      cases kind
      · rw [h2 hc.1 rfl]
        exact hinv _ (hback _).1 (hback _).2 fun hk => by cases hk.1
      · exact absurd rfl hc.2
      · rw [h3 hc.1 rfl]
        split
        · next hn =>
          have hb := hback true
          refine Narrows.trans (.of_caches hb.1 hb.2)
            (narrows_setBlock (cachesWellFormed_congr hb.1 hb.2 hw) (by rw [hb.1]; exact hlt) ?_ ?_ ?_) <;>
          simp [cleanBlock, block_afterWriteback]
        · exact .refl _

/-- Delivering a writeback changes no block's validity or tag. -/
theorem deliver_narrows {s t : State} {e : Writeback} (hw : CachesWellFormed s) (h : deliver s e = .ok t) :
    Narrows keep s t := by
  unfold deliver at h
  split at h
  · split at h <;> cases h
    exact .of_caches rfl rfl
  · next l _ =>
    split at h
    · cases h
    · cases h; exact .of_caches rfl rfl
    · next w hf =>
      dsimp only at h
      split at h <;> cases h
      · exact narrows_setBlock hw (findHit_way_lt hf) id rfl fun _ => rfl
      · have h1 := narrows_setBlock (keep := keep) hw (c := l) (set := setIdx s.cfg l e.addr)
          (b := { block s l (setIdx s.cfg l e.addr) w with
            data := lineSplice (block s l (setIdx s.cfg l e.addr) w).data
              (e.addr - lineOf s.cfg l e.addr) e.data })
          (findHit_way_lt hf) id rfl fun _ => rfl
        exact h1.trans (.of_caches rfl rfl)

theorem drainOne_narrows {s t : State} (hw : CachesWellFormed s) (h : drainOne s = .ok t) :
    Narrows keep s t := by
  unfold drainOne at h
  split at h
  · cases h; exact .refl _
  · next e rest _ =>
    exact Narrows.trans (t := withWbq s rest) (.of_caches rfl rfl)
      (deliver_narrows (cachesWellFormed_congr (s := s) rfl rfl hw) h)

theorem settle_narrows {c : CacheName} {a n fuel : Nat} {s t : State} (hw : CachesWellFormed s)
    (h : settle c a n fuel s = .ok t) : Narrows keep s t := by
  induction fuel generalizing s with
  | zero => cases h; exact .refl _
  | succ fuel ih =>
    unfold settle at h
    split at h
    · split at h
      · cases h
      · next s1 h1 =>
        exact (drainOne_narrows hw h1).trans (ih (wellFormed_of_ok hw (drainOne_reached s) h1) h)
    · cases h; exact .refl _

theorem deliverQueued_narrows {queued : Bool} {c : CacheName} {a n : Nat} {s t : State}
    (hw : CachesWellFormed s) (h : deliverQueued queued c a n s = .ok t) : Narrows keep s t := by
  unfold deliverQueued at h
  split at h
  · exact settle_narrows hw h
  · cases h; exact .refl _

theorem innerHits_narrows {kind : FlushKind} {ci : CacheName} {ls : List Nat} {s t : State}
    (hw : CachesWellFormed s) (h : innerHits kind ci ls s = .ok t) : Narrows (keptBy kind) s t := by
  induction ls generalizing s with
  | nil => cases h; exact .refl _
  | cons a ls ih =>
    simp only [innerHits] at h
    split at h
    · cases h
    · next s1 h1 =>
      exact (innerHit_narrows hw h1).trans (ih (wellFormed_of_ok hw (innerHit_reached kind ci s a) h1) h)

/-- The turns of the inner caches: what is queued is delivered, then the cache's lines are operated on, then the rest. -/
theorem innerCachesHit_cons {kind : FlushKind} {c : CacheName} {a n : Nat} {ci : CacheName}
    {cs : List CacheName} {queued : Bool} {s t : State}
    (h : innerCachesHit kind c a n (ci :: cs) queued s = .ok t) :
    ∃ s1 s2, deliverQueued queued ci a n s = .ok s1 ∧
      innerHits kind ci (innerLines s.cfg ci c a) s1 = .ok s2 ∧
      innerCachesHit kind c a n cs (queued || decide (s2.wbq.length ≠ s1.wbq.length)) s2 = .ok t := by
  simp only [innerCachesHit] at h
  split at h
  · cases h
  · next s1 h1 =>
    split at h
    · cases h
    · next s2 h2 => exact ⟨s1, s2, h1, h2, h⟩

theorem innerCachesHit_narrows {kind : FlushKind} {c : CacheName} {a n : Nat} {cs : List CacheName}
    {queued : Bool} {s t : State} (hw : CachesWellFormed s)
    (h : innerCachesHit kind c a n cs queued s = .ok t) : Narrows (keptBy kind) s t := by
  induction cs generalizing queued s with
  | nil => exact deliverQueued_narrows hw h
  | cons ci cs ih =>
    obtain ⟨s1, s2, h1, h2, h3⟩ := innerCachesHit_cons h
    have hw1 := wellFormed_of_ok hw (deliverQueued_reached _ _ _ _ _) h1
    have hw2 := wellFormed_of_ok hw1 (innerHits_reached _ _ _ _) h2
    exact ((deliverQueued_narrows hw h1).trans (innerHits_narrows hw1 h2)).trans (ih hw2 h3)

/-- With the policy on, the inner caches take their turns; without it nothing happens. -/
theorem innerFirst_on {s : State} (h : s.cfg.outerOpsInnerFirst = true) (c : CacheName) (a : Nat)
    (kind : FlushKind) : innerFirst s c a kind
      = innerCachesHit kind c a (lineBytes s.cfg c) (innerCaches s.cfg c) false s := by
  simp [innerFirst, h]

theorem innerFirst_narrows {kind : FlushKind} {c : CacheName} {a : Nat} {s t : State}
    (hw : CachesWellFormed s) (h : innerFirst s c a kind = .ok t) : Narrows (keptBy kind) s t := by
  unfold innerFirst at h
  split at h
  · exact innerCachesHit_narrows hw h
  · cases h; exact .refl _

end Sys2Proof.Machine
end

