-- ==== Sys2Proof/Laws/Arrivals.lean ====
section
/-! SUPPORT. What the operations on the inner caches
    (R41) do to a line of an inner cache: it is held no longer,
or held clean, and the data of a dirty block comes to the outer cache. -/

namespace Sys2Proof.Machine

/-! ### Lines of an inner cache in a line of an outer cache -/

/-- A line of the inner cache that lies in the outer line is among `innerLines`. -/
theorem mem_innerLines {cfg : Cfg} {ci c : CacheName} {a b : Nat}
    (hl : (cfg.caches.get ci).lineBits ≤ (cfg.caches.get c).lineBits)
    (ha : a % lineBytes cfg c = 0) (hb : b % lineBytes cfg ci = 0) (h1 : a ≤ b)
       (h2 : b < a + lineBytes cfg c) : b ∈ innerLines cfg ci c a := by
  have hd : lineBytes cfg ci ∣ lineBytes cfg c := Nat.pow_dvd_pow 2 hl
  have hp := lineBytes_pos cfg ci
  have hda : lineBytes cfg ci ∣ a := hd.trans (Nat.dvd_of_mod_eq_zero ha)
  have hdb : lineBytes cfg ci ∣ b := Nat.dvd_of_mod_eq_zero hb
  unfold innerLines
  rw [List.mem_map]
  refine ⟨(b - a) / lineBytes cfg ci, ?_, ?_⟩
  · rw [List.mem_range]
    exact Nat.div_lt_div_of_lt_of_dvd hd (by omega)
  · rw [Nat.div_mul_cancel (Nat.dvd_sub hdb hda)]; omega

/-- What is among `innerLines` is a line of the inner cache and lies in the outer line. -/
theorem innerLines_range {cfg : Cfg} {ci c : CacheName} {a b : Nat}
    (hl : (cfg.caches.get ci).lineBits ≤ (cfg.caches.get c).lineBits)
    (ha : a % lineBytes cfg c = 0) (h : b ∈ innerLines cfg ci c a) : b % lineBytes cfg ci = 0 ∧ a ≤ b ∧
       b + lineBytes cfg ci ≤ a + lineBytes cfg c := by
  have hd : lineBytes cfg ci ∣ lineBytes cfg c := Nat.pow_dvd_pow 2 hl
  have hda : lineBytes cfg ci ∣ a := hd.trans (Nat.dvd_of_mod_eq_zero ha)
  unfold innerLines at h
  rw [List.mem_map] at h
  obtain ⟨k, hk, rfl⟩ := h
  rw [List.mem_range] at hk
  refine ⟨?_, by omega, ?_⟩
  · rw [Nat.add_mul_mod_self_right]; exact Nat.mod_eq_zero_of_dvd hda
  · have : (k + 1) * lineBytes cfg ci ≤ lineBytes cfg c := by
      calc (k + 1) * lineBytes cfg ci ≤ lineBytes cfg c / lineBytes cfg ci * lineBytes cfg ci := Nat.mul_le_mul_right _ hk
        _ ≤ _ := Nat.div_mul_le_self _ _
    rw [Nat.add_mul] at this; omega

/-- A line of an inner cache is no longer than one of the outer cache (R20). -/
theorem lineBits_le_outer {cfg : Cfg} {ci c : CacheName} (hok : cfgOk cfg = true)
    (hc : present cfg c = true) (hi : ci ∈ innerCaches cfg c) : (cfg.caches.get ci).lineBits ≤
    (cfg.caches.get c).lineBits := by
  have hk : cacheOk cfg ci = true := by
    simp only [cfgOk, Bool.and_eq_true, List.all_cons, List.all_nil] at hok
    cases ci <;> tauto
  simp only [innerCaches, List.mem_filter] at hi
  simp only [cacheOk, hi.2, Bool.not_true, Bool.false_or, Bool.and_eq_true, List.all_eq_true,
      decide_eq_true_eq] at hk
  refine hk.2 c ?_
  simp only [outerCaches, List.mem_filter, hc, and_true]
  have := hi.1
  cases c <;> simp [inside] at this <;> cases ci <;> simp_all [outside]

/-- The same for a well-formed configuration. -/
theorem innerLines_range_ok {cfg : Cfg} {ci c : CacheName} {a b : Nat} (hok : cfgOk cfg = true)
    (hpc : present cfg c = true) (hci : ci ∈ innerCaches cfg c)
    (ha : a % lineBytes cfg c = 0) (h : b ∈ innerLines cfg ci c a) : b % lineBytes cfg ci = 0 ∧ a ≤ b ∧
       b + lineBytes cfg ci ≤ a + lineBytes cfg c := innerLines_range (lineBits_le_outer hok hpc hci) ha h

theorem line_div {cfg : Cfg} {c : CacheName} {a x : Nat} (ha : a % lineBytes cfg c = 0) (h1 : a ≤ x)
    (h2 : x < a + lineBytes cfg c) :
    x / lineBytes cfg c = a / lineBytes cfg c := by
  have hp := lineBytes_pos cfg c
  have e1 := Nat.div_add_mod a (lineBytes cfg c)
  refine Nat.div_eq_of_lt_le ?_ ?_
  · rw [Nat.mul_comm]; omega
  · rw [Nat.succ_mul, Nat.mul_comm]; omega

/-- Every byte of an outer line selects one set, one line and the same ways. -/
theorem same_line {s : State} {c : CacheName} {a x : Nat} (ha : a % lineBytes s.cfg c = 0) (h1 : a ≤ x)
    (h2 : x < a + lineBytes s.cfg c) :
    setIdx s.cfg c x = setIdx s.cfg c a ∧ lineOf s.cfg c x = a ∧ hitWays s c x x = hitWays s c a a := by
  have hd := line_div ha h1 h2
  have hs : setIdx s.cfg c x = setIdx s.cfg c a := by unfold setIdx; rw [hd]
  have ht : ptagOf s.cfg c x = ptagOf s.cfg c a := by unfold ptagOf waySize; rw [← Nat.div_div_eq_div_mul,
      ← Nat.div_div_eq_div_mul, hd]
  refine ⟨hs, ?_, ?_⟩
  · have e1 := Nat.div_add_mod a (lineBytes s.cfg c)
    have e2 := Nat.div_add_mod x (lineBytes s.cfg c)
    unfold lineOf; rw [hd] at e2; omega
  · unfold hitWays; rw [hs, ht]

/-- Two lines with one set and one tag are one line. -/
theorem line_eq {cfg : Cfg} {c x b} (h1 : setIdx cfg c x = setIdx cfg c b)
    (h2 : ptagOf cfg c x = ptagOf cfg c b) (hx : x % lineBytes cfg c = 0) (hb : b % lineBytes cfg c = 0) :
    x = b := by
  have hl : x / lineBytes cfg c = b / lineBytes cfg c := by
    unfold ptagOf waySize at h2
    unfold setIdx at h1
    rw [← Nat.div_div_eq_div_mul, ← Nat.div_div_eq_div_mul] at h2
    rw [← Nat.div_add_mod (x / lineBytes cfg c) (setCount cfg c), ← Nat.div_add_mod (b / lineBytes cfg c)
        (setCount cfg c), h1, h2]
  have e3 := Nat.div_add_mod x (lineBytes cfg c)
  have e4 := Nat.div_add_mod b (lineBytes cfg c)
  rw [hl] at e3; omega

/-- The tag of a block that hits is that of the line looked up. -/
theorem lineAddr_of_hit {s : State} {c x w} (h : w ∈ hitWays s c x x) (hx : x % lineBytes s.cfg c = 0) :
    lineAddr s.cfg c (setIdx s.cfg c x) (block s c (setIdx s.cfg c x) w) = x := by
  have hm := (mem_hitWays h).2.2
  unfold lineAddr
  rw [hm]
  unfold ptagOf waySize setIdx
  have hp := lineBytes_pos s.cfg c
  rw [← Nat.div_div_eq_div_mul]
  have e1 := Nat.div_add_mod (x / lineBytes s.cfg c) (setCount s.cfg c)
  have e2 := Nat.div_add_mod x (lineBytes s.cfg c)
  generalize x / lineBytes s.cfg c = q at *
  calc q / setCount s.cfg c *
      (lineBytes s.cfg c * setCount s.cfg c) + q % setCount s.cfg c * lineBytes s.cfg c
      = lineBytes s.cfg c * (setCount s.cfg c * (q / setCount s.cfg c) + q % setCount s.cfg c) := by ring
    _ = x := by rw [e1]; omega

theorem nextLevel_mem {cfg : Cfg} {c m : CacheName} (h : nextLevel cfg c = .cache m) : m ∈ outside c := by
  unfold nextLevel outerCaches at h
  split at h
  · cases h
  · next l ls hh =>
      cases h; exact (List.mem_filter.1 (hh ▸ List.mem_cons_self : m ∈ (outside c).filter _)).1

/-- The next level of a cache is neither it nor inside it. -/
theorem nextLevel_notIn {cfg : Cfg} {c m : CacheName} (h : nextLevel cfg c = .cache m) : ¬
    (m = c ∨ m ∈ inside c) := by
  have := nextLevel_mem h
  cases c <;> cases m <;> simp_all [inside, outside]

/-- A cache whose next level is `c` is the last of the inner caches of `c`. -/
theorem inner_last {cfg : Cfg} {ci c : CacheName} (hi : ci ∈ innerCaches cfg c)
    (h : nextLevel cfg ci = .cache c) (hni : ci ≠ .i) : innerCaches cfg c =
    (innerCaches cfg c).dropLast ++ [ci] ∧ ∀ cj ∈ (innerCaches cfg c).dropLast, cj ≠ ci ∧ cj ≠ c := by
  simp only [innerCaches, nextLevel, outerCaches] at *
  cases c <;> cases ci <;> simp [inside, outside, List.filter_cons] at * <;>
    (cases h1 : present cfg .i <;> cases h2 : present cfg .d <;> cases h3 : present cfg .s <;> cases h4 :
        present cfg .t <;> simp_all)

theorem levelsLeft_pos (l : Level) :
    1 ≤ levelsLeft l := by cases l with | mem => decide | cache c => cases c <;> decide

theorem length_le_settleFuel (q : List Writeback) : q.length ≤ settleFuel q := by
  induction q with
  | nil => simp [settleFuel]
  | cons e q ih =>
      have := levelsLeft_pos e.level; simp only [settleFuel, List.map_cons, List.sum_cons,
          List.length_cons] at *; omega

theorem block_of_get {s t : State} {c} (hc : t.cfg = s.cfg) (h : t.caches.get c = s.caches.get c)
    (set way) : block t c set way = block s c set way := by
  simp only [block, hc, h]

theorem hitWays_of_get {s t : State} {c} (hc : t.cfg = s.cfg) (h : t.caches.get c = s.caches.get c)
    (x y) : hitWays t c x y = hitWays s c x y := by
  simp only [hitWays, hc, block_of_get hc h]

theorem lineSplice_getD (d v : List Byte) (off p : Nat) (h : p < d.length) :
    (lineSplice d off v).getD p 0 = if off ≤ p ∧ p < off + v.length then v.getD
    (p - off) 0 else d.getD p 0 := by
  simp [lineSplice, List.getD_eq_getElem?_getD, h]

/-! ### Hit Invalidate on the inner caches -/

/-- What Hit Invalidate leaves unchanged. -/
theorem hitInvalidateAt_frame {s t : State} {c ia p} (h : hitInvalidateAt s c ia p = .ok t) :
    t.wbq = s.wbq ∧ t.mem = s.mem ∧ t.draws = s.draws ∧ ∀ c' ≠ c, t.caches.get c' = s.caches.get c' := by
  obtain ⟨-, rfl⟩ | ⟨w, -, rfl⟩ := hitInvalidateAt_ok h
  · exact ⟨rfl, rfl, rfl, fun _ _ => rfl⟩
  · refine ⟨rfl, rfl, rfl, fun c' hc => ?_⟩
    exact PerCache.get_set_other _ _ hc

theorem innerHit_invalidate (ci) {s t : State} {a} (h : innerHit .invalidate ci s a = .ok t) :
    hitInvalidateAt s ci a a = .ok t := by
  unfold innerHit at h; split at h <;> exact h

theorem innerHits_invalidate (ci) (ls) {s t : State} (h : innerHits .invalidate ci ls s = .ok t) :
    t.wbq = s.wbq ∧ t.mem = s.mem ∧ t.draws = s.draws ∧ ∀ c' ≠ ci, t.caches.get c' = s.caches.get c' := by
  induction ls generalizing s with
  | nil => cases h; exact ⟨rfl, rfl, rfl, fun _ _ => rfl⟩
  | cons a ls ih =>
    simp only [innerHits] at h
    split at h
    · cases h
    · next s1 h1 =>
      obtain ⟨a1, a2, a3, a4⟩ := hitInvalidateAt_frame (innerHit_invalidate ci h1)
      obtain ⟨b1, b2, b3, b4⟩ := ih h
      exact ⟨b1.trans a1, b2.trans a2, b3.trans a3, fun c' hc => (b4 c' hc).trans (a4 c' hc)⟩

/-- What Hit Invalidate on the inner caches leaves unchanged. -/
theorem innerCachesHit_invalidate (c a n) (cs) {s t : State}
    (h : innerCachesHit .invalidate c a n cs false s = .ok t) :
    t.wbq = s.wbq ∧ t.mem = s.mem ∧ t.draws = s.draws ∧ ∀ c' ∉ cs, t.caches.get c' = s.caches.get c' := by
  induction cs generalizing s with
  | nil => cases h; exact ⟨rfl, rfl, rfl, fun _ _ => rfl⟩
  | cons ci cs ih =>
    obtain ⟨s1, s2, h1, h2, h3⟩ := innerCachesHit_cons h
    simp only [deliverQueued, Bool.false_eq_true, if_false] at h1
    cases h1
    obtain ⟨a1, a2, a3, a4⟩ := innerHits_invalidate _ _ h2
    rw [a1] at h3
    simp at h3
    obtain ⟨b1, b2, b3, b4⟩ := ih h3
    exact ⟨b1.trans a1, b2.trans a2, b3.trans a3, fun c' hc => (b4 c' (by simp at hc; exact hc.2)).trans
        (a4 c' (by simp at hc; exact hc.1))⟩

/-! ### Lines that are invalidated -/

/-- After an operation that invalidates, no block hits. -/
theorem innerHit_gone {kind : FlushKind} {c : CacheName} {s t : State} {a : Nat} (hw : CachesWellFormed s)
    (h : innerHit kind c s a = .ok t) (hk : c = .i ∨ kind ≠ .writeback) : hitWays t c a a = [] := by
  have hn := innerHit_narrows hw h
  obtain ⟨h0, rfl⟩ | ⟨w, hh, h1, h2, -⟩ := innerHit_ok h
  · exact h0
  · have ⟨u, hu, hu', ht⟩ : ∃ u, u.cfg = s.cfg ∧ u.caches = s.caches ∧ t = invalidate u c
      (setIdx s.cfg c a) w := by
      by_cases hc : c = .i ∨ kind = .invalidate
      · exact ⟨s, rfl, rfl, h1 hc⟩
      · rw [not_or] at hc
        refine ⟨_, ?_, ?_, h2 hc.1 ?_⟩
        · split
          · exact afterWriteback_cfg _ _ _ _
          · rfl
        · split
          · exact afterWriteback_caches _ _ _ _
          · rfl
        · obtain hk | hk := hk
          · exact absurd hk hc.1
          · cases kind <;> simp_all
    apply List.eq_nil_iff_forall_not_mem.2
    intro v hv
    have := hn.mem_hitWays hv
    rw [hh, List.mem_singleton] at this
    subst this
    have hvv := (mem_hitWays hv).2.1
    rw [ht] at hvv
    have hcc : (invalidate u c (setIdx s.cfg c a) v).cfg = s.cfg := hu
    rw [hcc, invalidate, block_setBlock_same (by rw [hu']; exact (hw c).1.1)] at hvv
    simp [invalidBlock] at hvv

theorem innerHits_gone {kind : FlushKind} {ci : CacheName} {ls} {s t : State} (hw : CachesWellFormed s)
    (h : innerHits kind ci ls s = .ok t) (hk : ci = .i ∨ kind ≠ .writeback) {b} (hb : b ∈ ls) :
       hitWays t ci b b = [] := by
  induction ls generalizing s with
  | nil => cases hb
  | cons a ls ih =>
    simp only [innerHits] at h
    split at h
    · cases h
    · next s1 h1 =>
      have hw1 := wellFormed_of_ok hw (innerHit_reached kind ci s a) h1
      cases hb with
      | head =>
        have := innerHit_gone hw h1 hk
        apply List.eq_nil_iff_forall_not_mem.2
        intro v hv
        have := (innerHits_narrows hw1 h).mem_hitWays hv
        simp_all
      | tail _ hb => exact ih hw1 h hb

/-- No line of an inner cache that was operated on hits any more. -/
theorem innerCachesHit_gone {kind : FlushKind} {c ci : CacheName} {a n cs q} {s t : State}
    (hw : CachesWellFormed s)
    (h : innerCachesHit kind c a n cs q s = .ok t) (hk : ci = .i ∨ kind ≠ .writeback) (hci : ci ∈ cs) {b}
       (hb : b ∈ innerLines s.cfg ci c a) : hitWays t ci b b = [] := by
  induction cs generalizing s q with
  | nil => cases hci
  | cons cj cs ih =>
    obtain ⟨s1, s2, h1, h2, h3⟩ := innerCachesHit_cons h
    have hw1 := wellFormed_of_ok hw (deliverQueued_reached _ _ _ _ _) h1
    have hw2 := wellFormed_of_ok hw1 (innerHits_reached _ _ _ _) h2
    have hc1 : s1.cfg = s.cfg := cfg_of_ok (deliverQueued_reached _ _ _ _ _) h1
    have hc2 : s2.cfg = s1.cfg := cfg_of_ok (innerHits_reached _ _ _ _) h2
    cases hci with
    | head =>
      have := innerHits_gone hw1 h2 hk hb
      apply List.eq_nil_iff_forall_not_mem.2
      intro v hv
      have := (innerCachesHit_narrows hw2 h3).mem_hitWays hv
      simp_all
    | tail _ hci => exact ih hw2 h3 hci (by rw [hc2, hc1]; exact hb)

/-! ### Lines that are cleaned -/

/-- No writeback of the range is pending for the cache or one inside it. -/
abbrev NonePending (ci : CacheName) (a n : Nat) (u : State) : Prop := u.wbq.any (pendingFor ci a n) = false

/-- No block that hits on the line is dirty. -/
def LineClean (ci : CacheName) (b : Nat) (u : State) : Prop := ∀ w ∈ hitWays u ci b b,
    (block u ci (setIdx u.cfg ci b) w).dirty = false

/-- No cache outside `cj` is `ci` or inside it: a writeback of `cj` is never for `ci`. -/
abbrev Outward (ci cj : CacheName) : Prop := ∀ l ∈ outside cj, ¬(l = ci ∨ l ∈ inside ci)

theorem deliver_nonePending {s t : State} {e : Writeback} {ci a n} (h : deliver s e = .ok t)
    (hp : NonePending ci a n s) (he : pendingFor ci a n e = false) : NonePending ci a n t := by
  have hpass : ∀ l, e.level = .cache l → pendingFor ci a n
      { e with level := nextLevel s.cfg l } = false := by
    intro l hl
    cases hn : nextLevel s.cfg l with
    | mem => simp [pendingFor]
    | cache m =>
      have := nextLevel_mem hn
      simp only [pendingFor, hl] at he ⊢
      by_contra hc
      simp only [Bool.not_eq_false, Bool.and_eq_true, Bool.or_eq_true, decide_eq_true_eq,
          List.contains_iff_mem] at hc
      obtain ⟨⟨h1, h2⟩, h3⟩ := hc
      have : l = ci ∨ l ∈ inside ci := by
        cases l <;> simp [outside] at this <;> rcases this with rfl | rfl <;> cases ci <;> simp_all [inside]
      simp [h2, h3] at he
      exact this.elim he.1 he.2
  unfold deliver at h
  split at h
  · split at h <;> cases h; exact hp
  · next l hl =>
    split at h
    · cases h
    · cases h
      show List.any (s.wbq ++ [_]) _ = false
      rw [List.any_append, hp]
      simp only [List.any_cons, List.any_nil, Bool.or_false, Bool.false_or]
      exact hpass l hl
    · dsimp only at h
      split at h <;> cases h
      · exact hp
      · show List.any (s.wbq ++ [_]) _ = false
        rw [List.any_append, hp]
        simp only [List.any_cons, List.any_nil, Bool.or_false, Bool.false_or]
        exact hpass l hl

theorem deliver_lineClean {s t : State} {e : Writeback} {ci a n b} (hw : CachesWellFormed s)
    (h : deliver s e = .ok t) (he : pendingFor ci a n e = false)
    (hb : a ≤ b) (hb2 : b % lineBytes s.cfg ci = 0) (hb' : b + lineBytes s.cfg ci ≤ a + n)
       (hj : LineClean ci b s) : LineClean ci b t := by
  have hn : Narrows (fun _ => True) s t := deliver_narrows hw h
  intro w hwt
  rw [hn.hitWays_eq trivial] at hwt
  rw [hn.cfg]
  have h0 := hj w hwt
  have hlt := mem_hitWays hwt
  unfold deliver at h
  split at h
  · split at h <;> cases h; exact h0
  · next l hl =>
    split at h
    · cases h
    · cases h; exact h0
    · next v hf =>
      have key : ∀ bb, block (setBlock s l (setIdx s.cfg l e.addr) v bb) ci
          (setIdx s.cfg ci b) w = block s ci (setIdx s.cfg ci b) w := by
        intro bb
        by_cases hc : ci = l
        · subst hc
          refine block_setBlock_other s bb (findHit_way_lt hf) hlt.1 ?_
          rintro ⟨e1, e2⟩
          subst e2
          have hv := mem_hitWays (by rw [findHit_some hf]; exact List.mem_singleton_self w :
              w ∈ hitWays s ci e.addr e.addr)
          have ht : ptagOf s.cfg ci b = ptagOf s.cfg ci e.addr := by rw [← hlt.2.2, ← hv.2.2, e1]
          have hp := lineBytes_pos s.cfg ci
          have hs := setCount_pos s.cfg ci
          have hline : b / lineBytes s.cfg ci = e.addr / lineBytes s.cfg ci := by
            unfold ptagOf waySize at ht
            unfold setIdx at e1
            rw [← Nat.div_div_eq_div_mul, ← Nat.div_div_eq_div_mul] at ht
            rw [← Nat.div_add_mod (b / lineBytes s.cfg ci) (setCount s.cfg ci), ← Nat.div_add_mod
                (e.addr / lineBytes s.cfg ci) (setCount s.cfg ci), ht, e1]
          have e3 := Nat.div_add_mod e.addr (lineBytes s.cfg ci)
          have e4 := Nat.div_add_mod b (lineBytes s.cfg ci)
          have e5 := Nat.mod_lt e.addr hp
          rw [hline, hb2] at e4
          have e6 : a ≤ e.addr ∧ e.addr < a + n := by omega
          simp [pendingFor, hl, e6.1, e6.2] at he
        · exact block_setBlock_cache s _ _ _ _ _ hc
      dsimp only at h
      split at h <;> cases h
      · rw [key]; exact h0
      · rw [block_enqueue, key]; exact h0

theorem drainOne_lineClean {s t : State} {ci a n b} (hw : CachesWellFormed s) (h : drainOne s = .ok t)
    (hb : a ≤ b) (hb2 : b % lineBytes s.cfg ci = 0) (hb' : b + lineBytes s.cfg ci ≤ a + n)
       (hp : NonePending ci a n s) (hj : LineClean ci b s) : NonePending ci a n t ∧ LineClean ci b t := by
  unfold drainOne at h
  split at h
  · cases h; exact ⟨hp, hj⟩
  · next e rest hq =>
    rw [NonePending, hq, List.any_cons, Bool.or_eq_false_iff] at hp
    exact ⟨deliver_nonePending h hp.2 hp.1, deliver_lineClean (s := withWbq s rest)
        (cachesWellFormed_congr rfl rfl hw) h hp.1 hb hb2 hb' hj⟩

/-- Draining makes no block of the line dirty while nothing is pending for the range. -/
theorem settle_lineClean {c : CacheName} {a' n' fuel : Nat} {s t : State} {ci a n b}
    (hw : CachesWellFormed s) (h : settle c a' n' fuel s = .ok t)
    (hb : a ≤ b) (hb2 : b % lineBytes s.cfg ci = 0) (hb' : b + lineBytes s.cfg ci ≤ a + n)
       (hp : NonePending ci a n s) (hj : LineClean ci b s) : NonePending ci a n t ∧ LineClean ci b t := by
  induction fuel generalizing s with
  | zero => cases h; exact ⟨hp, hj⟩
  | succ k ih =>
    unfold settle at h
    split at h
    · split at h
      · cases h
      · next s1 h1 =>
        have hc : s1.cfg = s.cfg := cfg_of_ok (drainOne_reached s) h1
        obtain ⟨p1, j1⟩ := drainOne_lineClean hw h1 hb hb2 hb' hp hj
        exact ih (wellFormed_of_ok hw (drainOne_reached s) h1) h (by rw [hc]; exact hb2)
            (by rw [hc]; exact hb') p1 j1
    · cases h; exact ⟨hp, hj⟩

/-- An inner operation queues nothing, or one block. -/
theorem innerHit_wbq {cj : CacheName} {s t : State} {x} {kind} (h : innerHit kind cj s x = .ok t) :
    t.wbq = s.wbq ∨ ∃ w, t.wbq = s.wbq ++ [writebackEntry s cj (setIdx s.cfg cj x) w] := by
  have hback : ∀ w (b : Bool), (if b then afterWriteback s cj
      (setIdx s.cfg cj x) w else s).wbq = s.wbq ∨ ∃ w',
      (if b then afterWriteback s cj (setIdx s.cfg cj x) w else s).wbq = s.wbq ++ [writebackEntry s cj
      (setIdx s.cfg cj x) w'] := by
    intro w b; cases b
    · exact .inl rfl
    · right; refine ⟨w, ?_⟩
      obtain ⟨d, hd⟩ := afterEvent_eq s
      simp [afterWriteback, enqueue, hd]
  obtain ⟨-, rfl⟩ | ⟨w, hh, h1, h2, h3⟩ := innerHit_ok h
  · exact .inl rfl
  · by_cases hc : cj = .i ∨ kind = .invalidate
    · rw [h1 hc]; exact .inl rfl
    · rw [not_or] at hc
      cases kind
      · rw [h2 hc.1 rfl]; simp only [invalidate, setBlock_wbq]; exact hback w
          (needsWriteback s cj (setIdx s.cfg cj x) w)
      · exact absurd rfl hc.2
      · rw [h3 hc.1 rfl]
        split
        · next hn =>
          simp only [setBlock_wbq]; simpa using hback w true
        · exact .inl rfl

theorem innerHit_nonePending {cj : CacheName} {s t : State} {x} {ci a n} {kind}
    (h : innerHit kind cj s x = .ok t) (hH : Outward ci cj) (hp : NonePending ci a n s) :
    NonePending ci a n t := by
  obtain h | ⟨w, h⟩ := innerHit_wbq h
  · rw [NonePending, h]; exact hp
  · rw [NonePending, h, List.any_append, hp]
    simp only [List.any_cons, List.any_nil, Bool.or_false, Bool.false_or, writebackEntry, pendingFor]
    cases hn : nextLevel s.cfg cj with
    | mem => simp
    | cache m =>
      have := hH m (nextLevel_mem hn)
      simp only [not_or] at this
      simp [this.1, this.2]

/-- An inner operation makes no block dirty. -/
theorem innerHit_dirty {cj : CacheName} {s t : State} {x} (hw : CachesWellFormed s) {kind}
    (h : innerHit kind cj s x = .ok t) (c set way) (hl : way < wayCount s.cfg c) :
    (block t c set way).dirty = true → (block s c set way).dirty = true := by
  have hset : ∀ (u : State) (w bb), w < wayCount s.cfg cj → u.cfg = s.cfg → u.caches = s.caches →
      bb.dirty = false → (block (setBlock u cj (setIdx s.cfg cj x) w bb) c set way).dirty = true →
      (block s c set way).dirty = true := by
    intro u w bb hwl hu hu' hbb
    by_cases hc : c = cj
    · subst hc
      by_cases hs : set = setIdx s.cfg c x ∧ way = w
      · obtain ⟨rfl, rfl⟩ := hs
        rw [block_setBlock_same (by rw [hu']; exact (hw c).1.1), hbb]; simp
      · rw [block_setBlock_other u bb (by rwa [hu]) (by rwa [hu]) hs, block_congr hu hu']; exact id
    · rw [block_setBlock_cache u _ _ _ _ _ hc, block_congr hu hu']; exact id
  have hback (b : Bool) (w) : (if b then afterWriteback s cj (setIdx s.cfg cj x) w else s).cfg = s.cfg ∧
        (if b then afterWriteback s cj (setIdx s.cfg cj x) w else s).caches = s.caches := by
      cases b
      · exact ⟨rfl, rfl⟩
      · exact ⟨afterWriteback_cfg _ _ _ _, afterWriteback_caches _ _ _ _⟩
  obtain ⟨-, rfl⟩ | ⟨w, hh, h1, h2, h3⟩ := innerHit_ok h
  · exact id
  · have hwl := (mem_hitWays (by rw [hh]; exact List.mem_singleton_self w)).1
    by_cases hc : cj = .i ∨ kind = .invalidate
    · rw [h1 hc]; exact hset s w _ hwl rfl rfl rfl
    · rw [not_or] at hc
      cases kind
      · rw [h2 hc.1 rfl]; exact hset _ w _ hwl (hback _ w).1 (hback _ w).2 rfl
      · exact absurd rfl hc.2
      · rw [h3 hc.1 rfl]
        split
        · exact hset _ w _ hwl (hback true w).1 (hback true w).2 rfl
        · exact id

theorem innerHit_lineClean {cj : CacheName} {s t : State} {x} (hw : CachesWellFormed s) {kind ci b}
    (h : innerHit kind cj s x = .ok t) (hj : LineClean ci b s) : LineClean ci b t := by
  have hn := innerHit_narrows hw h
  intro w hwt
  rw [hn.cfg]
  have hws := hn.mem_hitWays hwt
  have := hj w hws
  by_contra hd
  rw [Bool.not_eq_false] at hd
  rw [innerHit_dirty hw h _ _ _ (mem_hitWays hws).1 hd] at this
  cases this

/-- Hit Writeback leaves the line clean. -/
theorem innerHit_cleans {ci : CacheName} {s t : State} {b} (hw : CachesWellFormed s) (hci : ci ≠ .i)
    (h : innerHit .writeback ci s b = .ok t) : LineClean ci b t := by
  have hn := innerHit_narrows hw h
  intro v hv
  have hvs := hn.mem_hitWays hv
  rw [hn.cfg]
  obtain ⟨h0, rfl⟩ | ⟨w, hh, -, -, h3⟩ := innerHit_ok h
  · rw [h0] at hvs; cases hvs
  · rw [hh, List.mem_singleton] at hvs
    subst hvs
    have hm := mem_hitWays (by rw [hh]; exact List.mem_singleton_self v : v ∈ hitWays s ci b b)
    rw [h3 hci rfl]
    split
    · rw [block_setBlock_same]
      · rfl
      · rw [afterWriteback_caches]; exact (hw ci).1.1
    · next hnw =>
      simp only [needsWriteback, hm.2.1, Bool.and_true, Bool.and_eq_true, not_and, Bool.not_eq_true] at hnw
      by_contra hd
      rw [Bool.not_eq_false] at hd
      have := ((hw ci).2 _ v (setIdx_lt _ _ _) hm.1).2 hd
      rw [hnw this] at hd; cases hd

theorem innerHits_lineClean {cj : CacheName} {ls} {s t : State} {kind ci a n b} (hw : CachesWellFormed s)
    (h : innerHits kind cj ls s = .ok t) (hH : Outward ci cj)
    (hp : NonePending ci a n s) : NonePending ci a n t ∧ (LineClean ci b s → LineClean ci b t) := by
  induction ls generalizing s with
  | nil => cases h; exact ⟨hp, id⟩
  | cons x ls ih =>
    simp only [innerHits] at h
    split at h
    · cases h
    · next s1 h1 =>
      obtain ⟨a1, a2⟩ := ih (wellFormed_of_ok hw (innerHit_reached kind cj s x) h1) h
          (innerHit_nonePending h1 hH hp)
      exact ⟨a1, fun hj => a2 (innerHit_lineClean hw h1 hj)⟩

theorem innerHits_cleans {ci : CacheName} {ls} {s t : State} {b} (hw : CachesWellFormed s) (hci : ci ≠ .i)
    (h : innerHits .writeback ci ls s = .ok t) (hb : b ∈ ls) : LineClean ci b t := by
  induction ls generalizing s with
  | nil => cases hb
  | cons x ls ih =>
    simp only [innerHits] at h
    split at h
    · cases h
    · next s1 h1 =>
      have hw1 := wellFormed_of_ok hw (innerHit_reached _ ci s x) h1
      cases hb with
      | head =>
        have hj := innerHit_cleans hw hci h1
        clear ih hw h1
        induction ls generalizing s1 with
        | nil => cases h; exact hj
        | cons x ls ih =>
          simp only [innerHits] at h
          split at h
          · cases h
          · next s2 h2 =>
              exact ih _ h (wellFormed_of_ok hw1 (innerHit_reached _ ci s1 x) h2)
                  (innerHit_lineClean hw1 h2 hj)
      | tail _ hb => exact ih hw1 h hb

theorem innerHits_wbq {kind ci ls} {s t : State} (h : innerHits kind ci ls s = .ok t) : ∃ Q,
    t.wbq = s.wbq ++ Q := by
  induction ls generalizing s with
  | nil => cases h; exact ⟨[], by simp⟩
  | cons x ls ih =>
    simp only [innerHits] at h
    split at h
    · cases h
    · next s1 h1 =>
      obtain ⟨Q, hQ⟩ := ih h
      obtain h | ⟨w, h⟩ := innerHit_wbq h1
      · exact ⟨Q, by rw [hQ, h]⟩
      · exact ⟨_, by rw [hQ, h, List.append_assoc]⟩

theorem innerCachesHit_lineClean {kind : FlushKind} {c ci : CacheName} {a n cs q b} {s t : State}
    (hw : CachesWellFormed s)
    (h : innerCachesHit kind c a n cs q s = .ok t) (hcs : ∀ cj ∈ cs, Outward ci cj)
    (hb : a ≤ b) (hb2 : b % lineBytes s.cfg ci = 0) (hb' : b + lineBytes s.cfg ci ≤ a + n)
       (hp : NonePending ci a n s) (hj : LineClean ci b s) : LineClean ci b t := by
  have hdq : ∀ {q : Bool} {cj} {s t : State}, CachesWellFormed s → deliverQueued q cj a n s = .ok t →
      b % lineBytes s.cfg ci = 0 → b + lineBytes s.cfg ci ≤ a + n → NonePending ci a n s →
      LineClean ci b s → NonePending ci a n t ∧ LineClean ci b t := by
    intro q cj s t hw h hb2 hb' hp hj
    unfold deliverQueued at h
    split at h
    · exact settle_lineClean hw h hb hb2 hb' hp hj
    · cases h; exact ⟨hp, hj⟩
  induction cs generalizing s q with
  | nil => exact (hdq hw h hb2 hb' hp hj).2
  | cons cj cs ih =>
    obtain ⟨s1, s2, h1, h2, h3⟩ := innerCachesHit_cons h
    have hw1 := wellFormed_of_ok hw (deliverQueued_reached _ _ _ _ _) h1
    have hw2 := wellFormed_of_ok hw1 (innerHits_reached _ _ _ _) h2
    have hc1 : s1.cfg = s.cfg := cfg_of_ok (deliverQueued_reached _ _ _ _ _) h1
    have hc2 : s2.cfg = s1.cfg := cfg_of_ok (innerHits_reached _ _ _ _) h2
    obtain ⟨p1, j1⟩ := hdq hw h1 hb2 hb' hp hj
    obtain ⟨p2, j2⟩ := innerHits_lineClean (b := b) hw1 h2 (hcs cj (by simp)) p1
    exact ih hw2 h3 (fun x hx => hcs x (by simp [hx])) (by rw [hc2, hc1]; exact hb2)
        (by rw [hc2, hc1]; exact hb') p2 (j2 j1)

/-- Hit Writeback on the inner caches leaves every line of theirs clean. -/
theorem innerCachesHit_cleans {c ci : CacheName} {a n cs q b} {s t : State} (hw : CachesWellFormed s)
    (hs : ∀ (s t : State) , settle ci a n (settleFuel s.wbq) s = .ok t → NonePending ci a n t)
    (h : innerCachesHit .writeback c a n cs q s = .ok t) (hci : ci ≠ .i) (hm : ci ∈ cs)
       (hcs : cs.Pairwise Outward)
    (hb : a ≤ b) (hb2 : b % lineBytes s.cfg ci = 0) (hb' : b + lineBytes s.cfg ci ≤ a + n)
       (hbl : b ∈ innerLines s.cfg ci c a) (hp : q = false → NonePending ci a n s) : LineClean ci b t := by
  induction cs generalizing s q with
  | nil => cases hm
  | cons cj cs ih =>
    obtain ⟨s1, s2, h1, h2, h3⟩ := innerCachesHit_cons h
    have hw1 := wellFormed_of_ok hw (deliverQueued_reached _ _ _ _ _) h1
    have hw2 := wellFormed_of_ok hw1 (innerHits_reached _ _ _ _) h2
    have hc1 : s1.cfg = s.cfg := cfg_of_ok (deliverQueued_reached _ _ _ _ _) h1
    have hc2 : s2.cfg = s1.cfg := cfg_of_ok (innerHits_reached _ _ _ _) h2
    rw [List.pairwise_cons] at hcs
    cases hm with
    | head =>
      have p1 : NonePending ci a n s1 := by
        unfold deliverQueued at h1
        split at h1
        · exact hs _ _ h1
        · next hq => cases h1; exact hp (by simpa using hq)
      have hHself :
          Outward ci ci := by intro l hl; cases ci <;> simp [outside] at hl <;> rcases hl with rfl | rfl <;> simp [inside]
      exact innerCachesHit_lineClean hw2 h3 hcs.1 hb (by rw [hc2, hc1]; exact hb2)
          (by rw [hc2, hc1]; exact hb') (innerHits_lineClean (b := b) hw1 h2 hHself p1).1
          (innerHits_cleans hw1 hci h2 hbl)
    | tail _ hm =>
      refine ih hw2 h3 hm hcs.2 (by rw [hc2, hc1]; exact hb2) (by rw [hc2, hc1]; exact hb')
          (by rw [hc2, hc1]; exact hbl) ?_
      intro hq
      rw [Bool.or_eq_false_iff] at hq
      obtain ⟨rfl, hl⟩ := hq
      simp only [deliverQueued, Bool.false_eq_true, if_false] at h1
      cases h1
      obtain ⟨Q, hQ⟩ := innerHits_wbq h2
      have : Q = [] := by
        rw [hQ] at hl; simpa using hl
      rw [NonePending, hQ, this, List.append_nil]; exact hp rfl

theorem innerCaches_outward (cfg c) : (innerCaches cfg c).Pairwise Outward := by
  refine List.Pairwise.filter _ ?_
  cases c <;> decide

/-! ### The data of a dirty inner block -/

/-- An inner operation changes nothing, or one block, after it has queued it if that was needed. -/
theorem innerHit_block {kind : FlushKind} {cj : CacheName} {s t : State} {x : Nat}
    (h : innerHit kind cj s x = .ok t) :
    t = s ∨ ∃ w u bb, hitWays s cj x x = [w] ∧ t = setBlock u cj (setIdx s.cfg cj x) w bb ∧ bb.data =
       (block s cj (setIdx s.cfg cj x) w).data ∧ bb.dirty = false ∧
     u.cfg = s.cfg ∧ u.caches = s.caches ∧ (u = s ∨
         (needsWriteback s cj (setIdx s.cfg cj x) w = true ∧
         u.wbq = s.wbq ++ [writebackEntry s cj (setIdx s.cfg cj x) w])) := by
  have hback (w : Nat) : ∃ u, u = (if needsWriteback s cj (setIdx s.cfg cj x) w then afterWriteback s cj
      (setIdx s.cfg cj x) w else s) ∧ u.cfg = s.cfg ∧ u.caches = s.caches ∧
      (u = s ∨ (needsWriteback s cj (setIdx s.cfg cj x) w = true ∧
      u.wbq = s.wbq ++ [writebackEntry s cj (setIdx s.cfg cj x) w])) := by
    refine ⟨_, rfl, ?_⟩
    split
    · next hn =>
      refine ⟨afterWriteback_cfg _ _ _ _, afterWriteback_caches _ _ _ _, .inr ⟨hn, ?_⟩⟩
      obtain ⟨d, hd⟩ := afterEvent_eq s
      simp [afterWriteback, enqueue, hd]
    · exact ⟨rfl, rfl, .inl rfl⟩
  obtain ⟨-, rfl⟩ | ⟨w, hh, h1, h2, h3⟩ := innerHit_ok h
  · exact .inl rfl
  · obtain ⟨u, hu, c1, c2, c3⟩ := hback w
    by_cases hc : cj = .i ∨ kind = .invalidate
    · exact .inr ⟨w, s, _, hh, h1 hc, rfl, rfl, rfl, rfl, .inl rfl⟩
    · rw [not_or] at hc
      cases kind
      · refine .inr ⟨w, u, _, hh, by rw [h2 hc.1 rfl, ← hu]; rfl, ?_, rfl, c1, c2, c3⟩
        show (block u _ _ _).data = _
        rw [block_congr c1 c2]
      · exact absurd rfl hc.2
      · rw [h3 hc.1 rfl]
        split
        · next hn =>
          rw [if_pos hn] at hu
          refine .inr ⟨w, u, _, hh, by rw [hu], ?_, rfl, c1, c2, c3⟩
          rfl
        · exact .inl rfl

theorem innerHit_queues {kind : FlushKind} {ci : CacheName} {s t : State} {x w : Nat}
    (hk : kind ≠ .invalidate) (hi : ci ≠ .i) (h : innerHit kind ci s x = .ok t)
    (hh : hitWays s ci x x = [w])
    (hn : needsWriteback s ci (setIdx s.cfg ci x) w = true) :
       t.wbq = s.wbq ++ [writebackEntry s ci (setIdx s.cfg ci x) w] := by
  obtain ⟨d, hd⟩ := afterEvent_eq s
  obtain ⟨h0, rfl⟩ | ⟨w', hh', h1, h2, h3⟩ := innerHit_ok h
  · rw [h0] at hh; cases hh
  · rw [hh'] at hh; cases hh
    cases kind
    · rw [h2 hi rfl, if_pos hn]; simp [invalidate, afterWriteback, enqueue, hd]
    · exact absurd rfl hk
    · rw [h3 hi rfl, if_pos hn, if_pos hn]; simp [afterWriteback, enqueue, hd]

/-- Operations that find no block to write back queue nothing. -/
theorem innerHits_quiet {kind : FlushKind} {s0 : State} {cj ci c : CacheName} {ls} {u t : State}
    (hne : cj ≠ ci) (hne' : cj ≠ c)
    (hno : ∀ x ∈ ls, ∀ w' ∈ hitWays s0 cj x x, needsWriteback s0 cj (setIdx s0.cfg cj x) w' = false)
    (hw : CachesWellFormed u) (hcfg : u.cfg = s0.cfg)
       (hsub : ∀ x, ∀ v ∈ hitWays u cj x x, v ∈ hitWays s0 cj x x ∧
       ((block u cj (setIdx u.cfg cj x) v).dirty = true → (block s0 cj (setIdx u.cfg cj x) v).dirty = true))
    (hq : u.wbq = []) (h : innerHits kind cj ls u = .ok t) : t.wbq = [] ∧
       t.caches.get ci = u.caches.get ci ∧ t.caches.get c = u.caches.get c := by
  induction ls generalizing u with
  | nil => cases h; exact ⟨hq, rfl, rfl⟩
  | cons x ls ih =>
    simp only [innerHits] at h
    split at h
    · cases h
    · next s1 h1 =>
      have hw1 := wellFormed_of_ok hw (innerHit_reached kind cj u x) h1
      have hc1 : s1.cfg = u.cfg := cfg_of_ok (innerHit_reached kind cj u x) h1
      have hnar := innerHit_narrows hw h1
      have hform := innerHit_block h1
      have hq1 : s1.wbq = [] ∧ s1.caches.get ci = u.caches.get ci ∧ s1.caches.get c = u.caches.get c ∧
          (∀ cc set way, way < wayCount u.cfg cc → (block s1 cc set way).dirty = true →
          (block u cc set way).dirty = true) := by
        obtain rfl | ⟨w, u', bb, hh, rfl, -, hbd, c1, c2, c3⟩ := hform
        · exact ⟨hq, rfl, rfl, fun _ _ _ _ => id⟩
        · have hwl := (mem_hitWays (by rw [hh]; exact List.mem_singleton_self w)).1
          refine ⟨?_, ?_, ?_, ?_⟩
          · obtain rfl | ⟨hn, -⟩ := c3
            · exact hq
            · exfalso
              have h1 := hsub x w (by rw [hh]; exact List.mem_singleton_self w)
              have h2 := hno x (by simp) w h1.1
              have hm := mem_hitWays h1.1
              simp only [needsWriteback, Bool.and_eq_true] at hn
              rw [hcfg] at hn h1
              simp [needsWriteback, hn.1.1, hm.2.1, h1.2 hn.2] at h2
          · show (PerCache.set _ _ _).get ci = _
            rw [PerCache.get_set_other _ _ (Ne.symm hne), c2]
          · show (PerCache.set _ _ _).get c = _
            rw [PerCache.get_set_other _ _ (Ne.symm hne'), c2]
          · intro cc set way hl
            by_cases hc : cc = cj
            · subst hc
              by_cases hs : set = setIdx u.cfg cc x ∧ way = w
              · obtain ⟨rfl, rfl⟩ := hs
                rw [block_setBlock_same (by rw [c2]; exact (hw cc).1.1), hbd]; simp
              · rw [block_setBlock_other u' bb (by rwa [c1]) (by rwa [c1]) hs, block_congr c1 c2]; exact id
            · rw [block_setBlock_cache u' _ _ _ _ _ hc, block_congr c1 c2]; exact id
      obtain ⟨r1, r2, r3⟩ := ih (fun y hy => hno y (by simp [hy])) hw1 (hc1.trans hcfg) (by
        intro y v hv
        have := hnar.mem_hitWays hv
        obtain ⟨a1, a2⟩ := hsub y v this
        refine ⟨a1, fun hd => ?_⟩
        rw [hc1] at hd ⊢
        exact a2 (hq1.2.2.2 _ _ _ (mem_hitWays this).1 hd)) hq1.1 h
      exact ⟨r1, r2.trans hq1.2.1, r3.trans hq1.2.2.1⟩

theorem innerHits_dirty {cj : CacheName} {ls} {s t : State} (hw : CachesWellFormed s) {kind}
    (h : innerHits kind cj ls s = .ok t) (c set way) (hl : way < wayCount s.cfg c) :
    (block t c set way).dirty = true → (block s c set way).dirty = true := by
  induction ls generalizing s with
  | nil => cases h; exact id
  | cons x ls ih =>
    simp only [innerHits] at h
    split at h
    · cases h
    · next s1 h1 =>
      have hc1 : s1.cfg = s.cfg := cfg_of_ok (innerHit_reached kind cj s x) h1
      exact fun hd => innerHit_dirty hw h1 c set way hl
          (ih (wellFormed_of_ok hw (innerHit_reached kind cj s x) h1) h (by rwa [hc1]) hd)

theorem innerCachesHit_quiet {kind : FlushKind} {s0 : State} {ci c : CacheName} {a n}
    {cs : List CacheName} {tail} {u t : State}
    (hcs : ∀ cj ∈ cs, cj ≠ ci ∧ cj ≠ c ∧ ∀ x ∈ innerLines s0.cfg cj c a, ∀ w' ∈ hitWays s0 cj x x,
       needsWriteback s0 cj (setIdx s0.cfg cj x) w' = false)
    (hw : CachesWellFormed u) (hcfg : u.cfg = s0.cfg)
       (hsub : ∀ cj ∈ cs, ∀ x, ∀ v ∈ hitWays u cj x x, v ∈ hitWays s0 cj x x ∧
       ((block u cj (setIdx u.cfg cj x) v).dirty = true → (block s0 cj (setIdx u.cfg cj x) v).dirty = true))
    (hq : u.wbq = []) (h : innerCachesHit kind c a n (cs ++ [tail]) false u = .ok t) :
    ∃ s1, innerCachesHit kind c a n [tail] false s1 = .ok t ∧ s1.wbq = [] ∧ s1.cfg = u.cfg ∧
       CachesWellFormed s1 ∧ s1.caches.get ci = u.caches.get ci ∧ s1.caches.get c = u.caches.get c := by
  induction cs generalizing u with
  | nil => exact ⟨u, h, hq, rfl, hw, rfl, rfl⟩
  | cons cj cs ih =>
    obtain ⟨s1, s2, h1, h2, h3⟩ := innerCachesHit_cons h
    simp only [deliverQueued, Bool.false_eq_true, if_false] at h1
    cases h1
    have hw2 := wellFormed_of_ok hw (innerHits_reached _ _ _ _) h2
    have hc2 : s2.cfg = u.cfg := cfg_of_ok (innerHits_reached _ _ _ _) h2
    obtain ⟨n1, n2, n3⟩ := hcs cj (by simp)
    obtain ⟨r1, r2, r3⟩ := innerHits_quiet n1 n2 (by rw [hcfg]; exact n3) hw hcfg (hsub cj (by simp)) hq h2
    rw [r1, hq] at h3
    simp only [List.length_nil, ne_eq, not_true_eq_false, decide_false, Bool.or_false] at h3
    obtain ⟨t1, q1, q2, q3, q4, q5, q6⟩ := ih (fun x hx => hcs x (by simp [hx])) hw2 (hc2.trans hcfg) (by
      intro x hx y v hv
      have hv' := (innerHits_narrows hw h2).mem_hitWays hv
      obtain ⟨a1, a2⟩ := hsub x (by simp [hx]) y v hv'
      refine ⟨a1, fun hd => ?_⟩
      rw [hc2] at hd ⊢
      exact a2 (innerHits_dirty hw h2 _ _ _ (mem_hitWays hv').1 hd)) r1 h3
    exact ⟨t1, q1, q2, q3.trans hc2, q4, q5.trans r2, q6.trans r3⟩

/-- A writeback of a line of `ci` in the outer line at `a`, of the data `D` if it is the line `b`. -/
structure FromInner (cfg : Cfg) (ci c : CacheName) (a b : Nat) (D : List Byte) (e : Writeback) : Prop where
  lev : e.level = .cache c
  al : e.addr % lineBytes cfg ci = 0
  lo : a ≤ e.addr
  hi : e.addr + lineBytes cfg ci ≤ a + lineBytes cfg c
  len : e.data.length = lineBytes cfg ci
  eq : e.addr = b → e.data = D

/-- What the operations on `ci` queue. -/
theorem innerHits_queue {kind : FlushKind} {ci c : CacheName} {a b w} {ls} {u t : State} {D : List Byte}
    (hk : kind ≠ .invalidate) (hi : ci ≠ .i) (hne : c ≠ ci) (hlt : w < wayCount u.cfg ci)
    (hnext : nextLevel u.cfg ci = .cache c)
    (hls : ∀ x ∈ ls, x % lineBytes u.cfg ci = 0 ∧ a ≤ x ∧ x + lineBytes u.cfg ci ≤ a + lineBytes u.cfg c)
    (hbal : b % lineBytes u.cfg ci = 0)
    (hw : CachesWellFormed u) (hD : (block u ci (setIdx u.cfg ci b) w).data = D)
       (hwl : ∀ v ∈ hitWays u ci b b, v = w)
    (hq : ∀ e ∈ u.wbq, FromInner u.cfg ci c a b D e) (h : innerHits kind ci ls u = .ok t) :
    (∀ e ∈ t.wbq, FromInner u.cfg ci c a b D e) ∧ t.caches.get c = u.caches.get c ∧
    ((b ∈ ls ∧ hitWays u ci b b = [w] ∧ needsWriteback u ci (setIdx u.cfg ci b) w = true) ∨
        { level := .cache c, addr := b, data := D } ∈ u.wbq →
        { level := .cache c, addr := b, data := D } ∈ t.wbq) := by
  induction ls generalizing u with
  | nil => cases h; exact ⟨hq, rfl, by simp⟩
  | cons x ls ih =>
    simp only [innerHits] at h
    split at h
    · cases h
    · next s1 h1 =>
      have hw1 := wellFormed_of_ok hw (innerHit_reached kind ci u x) h1
      have hc1 : s1.cfg = u.cfg := cfg_of_ok (innerHit_reached kind ci u x) h1
      have hnar := innerHit_narrows hw h1
      have hx := hls x (by simp)
      have hent : ∀ v, v ∈ hitWays u ci x x → FromInner u.cfg ci c a b D
          (writebackEntry u ci (setIdx u.cfg ci x) v) := by
        intro v hv
        refine ⟨hnext, ?_, ?_, ?_, ?_, ?_⟩
        · simp only [writebackEntry]; rw [lineAddr_of_hit hv hx.1]; exact hx.1
        · simp only [writebackEntry]; rw [lineAddr_of_hit hv hx.1]; exact hx.2.1
        · simp only [writebackEntry]; rw [lineAddr_of_hit hv hx.1]; exact hx.2.2
        · exact ((hw ci).2 _ v (setIdx_lt _ _ _) (mem_hitWays hv).1).1
        · simp only [writebackEntry]; rw [lineAddr_of_hit hv hx.1]
          rintro rfl
          rw [hwl v hv]; exact hD
      have hform := innerHit_block h1
      have hdata : (block s1 ci (setIdx u.cfg ci b) w).data = D := by
        · obtain rfl | ⟨v, u', bb, hh, rfl, hbb, -, c1, c2, -⟩ := hform
          · exact hD
          · have hvl := (mem_hitWays (by rw [hh]; exact List.mem_singleton_self v)).1
            by_cases hs : setIdx u.cfg ci b = setIdx u.cfg ci x ∧ w = v
            · obtain ⟨e1, rfl⟩ := hs
              rw [e1, block_setBlock_same (by rw [c2]; exact (hw ci).1.1), hbb, ← e1]; exact hD
            · rw [block_setBlock_other u' bb (by rwa [c1]) (by rwa [c1]) hs, block_congr c1 c2]; exact hD
      have hwbq : (∀ e ∈ s1.wbq, FromInner u.cfg ci c a b D e) ∧ (∀ e ∈ u.wbq, e ∈ s1.wbq) ∧
          s1.caches.get c = u.caches.get c := by
        obtain rfl | ⟨v, u', bb, hh, rfl, hbb, -, c1, c2, c3⟩ := hform
        · exact ⟨hq, fun _ => id, rfl⟩
        · have hcc : (setBlock u' ci (setIdx u.cfg ci x) v bb).caches.get c = u.caches.get c := by
            show (PerCache.set _ _ _).get c = _
            rw [PerCache.get_set_other _ _ hne, c2]
          obtain rfl | ⟨-, hq'⟩ := c3
          · exact ⟨hq, fun _ => id, hcc⟩
          · refine ⟨?_, ?_, hcc⟩ <;> simp only [setBlock_wbq, hq']
            · intro e he
              rw [List.mem_append, List.mem_singleton] at he
              obtain he | rfl := he
              · exact hq e he
              · exact hent v (by rw [hh]; exact List.mem_singleton_self v)
            · intro e he; exact List.mem_append_left _ he
      · obtain ⟨r1, r2, r3⟩ := ih (by rw [hc1]; exact hlt) (by rw [hc1]; exact hnext)
          (by rw [hc1]; exact fun y hy => hls y (by simp [hy])) (by rw [hc1]; exact hbal) hw1
          (by rw [hc1]; exact hdata)
           (fun v hv => hwl v (hnar.mem_hitWays hv)) (by rw [hc1]; exact hwbq.1) h
        rw [hc1] at r1 r3
        refine ⟨r1, r2.trans hwbq.2.2, ?_⟩
        rintro (⟨hb, hh, hn⟩ | hin)
        · by_cases hxb : b = x
          · subst hxb
            apply r3
            right
            rw [innerHit_queues hk hi h1 hh hn, List.mem_append, List.mem_singleton]
            right
            simp only [writebackEntry]
            rw [lineAddr_of_hit (by rw [hh]; exact List.mem_singleton_self w) hbal, hnext, hD]
          · apply r3
            left
            refine ⟨by simpa [hxb] using hb, ?_⟩
            have hblk : block s1 ci (setIdx u.cfg ci b) w = block u ci (setIdx u.cfg ci b) w := by
              obtain rfl | ⟨v, u', bb, hh', rfl, hbb, -, c1, c2, -⟩ := hform
              · rfl
              · have hvm := mem_hitWays (by rw [hh']; exact List.mem_singleton_self v :
                  v ∈ hitWays u ci x x)
                rw [block_setBlock_other u' bb (by rw [c1]; exact hvm.1) (by rwa [c1]), block_congr c1 c2]
                rintro ⟨e1, rfl⟩
                have hwm := mem_hitWays (by rw [hh]; exact List.mem_singleton_self w : w ∈ hitWays u ci b b)
                exact hxb (line_eq e1 (by rw [← hwm.2.2, ← hvm.2.2, e1]) hbal hx.1)
            have hwm := mem_hitWays (by rw [hh]; exact List.mem_singleton_self w : w ∈ hitWays u ci b b)
            have hin : w ∈ hitWays s1 ci b b := by
              simp only [hitWays, hc1, List.mem_filter, List.mem_range, Bool.and_eq_true, decide_eq_true_eq]
              rw [hblk]; exact ⟨hwm.1, hwm.2.1, hwm.2.2⟩
            refine ⟨?_, ?_⟩
            · have hsub : ∀ v ∈ hitWays s1 ci b b, v = w := fun v hv => hwl v (hnar.mem_hitWays hv)
              have hnd : (hitWays s1 ci b b).Nodup := List.Nodup.filter _ List.nodup_range
              generalize hitWays s1 ci b b = L at *
              match L, hin, hsub, hnd with
              | [y], _, hs, _ => rw [hs y (by simp)]
              | y :: z :: r, _, hs, hd =>
                have := hs y (by simp); have := hs z (by simp); subst_vars; simp at hd
            · simp only [needsWriteback, hc1, hblk]; simpa only [needsWriteback] using hn
        · exact r3 (.inr (hwbq.2.1 _ hin))

/-- The data `D` of the line `b` is in the outer block, or on its way outward. -/
def Arrived (ci c : CacheName) (a b : Nat) (D : List Byte) (u : State) : Prop :=
    (∀ v ∈ hitWays u c b b, (writeBack u.cfg c = true → (block u c (setIdx u.cfg c b) v).dirty = true) ∧
    ∀ k < lineBytes u.cfg ci, (block u c (setIdx u.cfg c b) v).data.getD (b - a + k) 0 = D.getD k 0) ∧
    (hitWays u c b b = [] ∨ writeBack u.cfg c = false →
    { level := nextLevel u.cfg c, addr := b, data := D } ∈ u.wbq)

theorem deliver_arrives {ci c : CacheName} {a b : Nat} {D : List Byte} {u t : State} {e : Writeback}
    (hw : CachesWellFormed u) (ha : a % lineBytes u.cfg c = 0) (hbal : b % lineBytes u.cfg ci = 0)
      (hba : a ≤ b) (hbt : b + lineBytes u.cfg ci ≤ a + lineBytes u.cfg c)
    (he : FromInner u.cfg ci c a b D e) (h : deliver u e = .ok t) :
    (e.addr = b → Arrived ci c a b D t) ∧ (Arrived ci c a b D u → Arrived ci c a b D t) ∧
      (t.wbq = u.wbq ∨ t.wbq = u.wbq ++ [{ e with level := nextLevel u.cfg c }]) := by
  have hp := lineBytes_pos u.cfg ci
  have hn : Narrows (fun _ => True) u t := deliver_narrows hw h
  have hse := same_line (s := u) (x := e.addr) ha he.lo (by have := he.hi; omega)
  have hsb := same_line (s := u) (x := b) ha hba (by omega)
  have hhits := hn.hitWays_eq (c := c) trivial b b
  unfold Arrived
  rw [hhits, hn.cfg]
  unfold deliver at h
  rw [he.lev] at h
  dsimp only at h
  split at h
  · cases h
  · next hf =>
    cases h
    have h0 : hitWays u c b b = [] := by rw [hsb.2.2, ← hse.2.2]; exact findHit_none hf
    simp only [enqueue, withWbq_wbq]
    simp only [h0]
    refine ⟨fun hb => ⟨by simp, fun _ => ?_⟩, fun hA => ⟨by simp, fun _ => ?_⟩, by simp⟩
    · rw [List.mem_append, List.mem_singleton]; right
      rw [← hb, he.eq hb]
    · exact List.mem_append_left _ (hA.2 (by simp))
  · next w hf =>
    have h0 : hitWays u c b b = [w] := by rw [hsb.2.2, ← hse.2.2]; exact findHit_some hf
    have hwl : w < wayCount u.cfg c := findHit_way_lt hf
    have hlen : (block u c (setIdx u.cfg c b) w).data.length = lineBytes u.cfg c :=
        ((hw c).2 _ w (setIdx_lt _ _ _) hwl).1
    rw [hse.1, ← hsb.1, hse.2.1] at h
    have hdat : ∀ k < lineBytes u.cfg ci, (lineSplice (block u c (setIdx u.cfg c b) w).data
        (e.addr - a) e.data).getD (b - a + k) 0 = if e.addr = b then D.getD k 0 else
        (block u c (setIdx u.cfg c b) w).data.getD (b - a + k) 0 := by
      intro k hk
      rw [lineSplice_getD _ _ _ _ (by rw [hlen]; omega), he.len]
      have hlo := he.lo
      by_cases hb : e.addr = b
      · rw [if_pos hb, if_pos (by omega), he.eq hb]; congr 1; omega
      · rw [if_neg hb, if_neg]
        rintro ⟨h1, h2⟩
        apply hb
        have := he.al
        have e1 := Nat.div_add_mod e.addr (lineBytes u.cfg ci)
        have e2 := Nat.div_add_mod b (lineBytes u.cfg ci)
        rw [this] at e1; rw [hbal] at e2
        generalize lineBytes u.cfg ci = L at *
        generalize e.addr / L = q at *
        generalize b / L = r at *
        obtain h3 | h3 | h3 := Nat.lt_trichotomy q r
        · have : L * (q + 1) ≤ L * r := Nat.mul_le_mul_left _ h3
          rw [Nat.mul_add] at this; omega
        · subst h3; omega
        · have : L * (r + 1) ≤ L * q := Nat.mul_le_mul_left _ h3
          rw [Nat.mul_add] at this; omega
    split at h
    · next hwb =>
      cases h
      simp only [h0, List.mem_singleton, forall_eq]
      rw [block_setBlock_same (hw c).1.1]
      dsimp only
      refine ⟨fun hb => ⟨⟨fun _ => rfl, fun k hk => ?_⟩, by simp [hwb]⟩, fun hA =>
          ⟨⟨fun _ => rfl, fun k hk => ?_⟩, by simp [hwb]⟩, by simp⟩
      · rw [hdat k hk, if_pos hb]
      · rw [hdat k hk]; split
        · rfl
        · exact (hA.1).2 k hk
    · next hwb =>
      rw [Bool.not_eq_true] at hwb
      cases h
      simp only [h0, List.mem_singleton, forall_eq]
      rw [block_enqueue, block_setBlock_same (hw c).1.1]
      simp only [enqueue, withWbq_wbq, setBlock_wbq, hwb]
      refine ⟨fun hb => ⟨⟨by simp, fun k hk => ?_⟩, fun _ => ?_⟩, fun hA =>
          ⟨⟨by simp, fun k hk => ?_⟩, fun _ => ?_⟩, by simp⟩
      · rw [hdat k hk, if_pos hb]
      · rw [List.mem_append, List.mem_singleton]; right; rw [← hb, he.eq hb]
      · rw [hdat k hk]; split
        · rfl
        · exact hA.1.2 k hk
      · exact List.mem_append_left _ (hA.2 (.inr trivial))

theorem arrived_withWbq {ci c : CacheName} {a b : Nat} {D : List Byte} {u : State} {e} {q}
    (hne : nextLevel u.cfg c ≠ e.level) (hq : u.wbq = e :: q)
    (h : Arrived ci c a b D u) : Arrived ci c a b D (withWbq u q) := by
  refine ⟨h.1, fun hh => ?_⟩
  have := h.2 hh
  rw [hq, List.mem_cons] at this
  obtain h | h := this
  · rw [← h] at hne; exact absurd rfl hne
  · exact h

/-- Draining brings the data of the line `b` to the outer cache. -/
theorem settle_arrives {ci c : CacheName} {a b : Nat} {D : List Byte} {P Q : List Writeback} {fuel}
    {u t : State}
    (hnl : ∀ m, nextLevel u.cfg c = .cache m → ¬ (m = c ∨ m ∈ inside c))
    (hw : CachesWellFormed u) (ha : a % lineBytes u.cfg c = 0) (hbal : b % lineBytes u.cfg ci = 0)
      (hba : a ≤ b) (hbt : b + lineBytes u.cfg ci ≤ a + lineBytes u.cfg c)
    (hP : ∀ e ∈ P, FromInner u.cfg ci c a b D e) (hQ : Q.any (pendingFor c a (lineBytes u.cfg c)) = false)
      (hq : u.wbq = P ++ Q) (hf : P.length ≤ fuel)
    (hA : (∃ e ∈ P, e.addr = b) ∨ Arrived ci c a b D u)
    (h : settle c a (lineBytes u.cfg c) fuel u = .ok t) : Arrived ci c a b D t := by
  induction P generalizing fuel u Q with
  | nil =>
    have : t = u := by
      cases fuel with
      | zero => cases h; rfl
      | succ k =>
        rw [settle, hq, List.nil_append, hQ] at h; cases h; rfl
    subst this
    simpa using hA
  | cons e P ih =>
    cases fuel with
    | zero => simp at hf
    | succ k =>
      have he := hP e (by simp)
      have hp := lineBytes_pos u.cfg ci
      have hpend : u.wbq.any (pendingFor c a (lineBytes u.cfg c)) = true := by
        rw [hq]; simp only [List.cons_append, List.any_cons, Bool.or_eq_true]; left
        have := he.lo; have := he.hi
        simp only [pendingFor, he.lev, decide_true, Bool.true_or, Bool.true_and, Bool.and_eq_true,
            decide_eq_true_eq]
        omega
      rw [settle, hpend, if_pos rfl] at h
      split at h
      · cases h
      · next s1 h1 =>
        have hw1 := wellFormed_of_ok hw (drainOne_reached u) h1
        have hc1 : s1.cfg = u.cfg := cfg_of_ok (drainOne_reached u) h1
        have hnl' : nextLevel u.cfg c ≠ .cache c := fun hh => hnl c hh (.inl rfl)
        simp only [drainOne, hq, List.cons_append] at h1
        obtain ⟨r1, r2, r3⟩ := deliver_arrives (u := withWbq u (P ++ Q))
            (cachesWellFormed_congr (s := u) rfl rfl hw) ha hbal hba hbt he h1
        have hpass : pendingFor c a (lineBytes u.cfg c) { e with level := nextLevel u.cfg c } = false := by
          cases hn : nextLevel u.cfg c with
          | mem => simp [pendingFor]
          | cache m => have := hnl m hn; simp [pendingFor]; tauto
        obtain ⟨Q', hQ', hq'⟩ : ∃ Q', Q'.any (pendingFor c a (lineBytes u.cfg c)) = false ∧
            s1.wbq = P ++ Q' := by
          obtain r3 | r3 := r3
          · exact ⟨Q, hQ, r3⟩
          · refine ⟨Q ++ [{ e with level := nextLevel u.cfg c }], ?_, by rw [r3]; simp⟩
            rw [List.any_append, hQ]; simp only [List.any_cons, hpass]; rfl
        rw [← hc1] at hnl ha hbal hbt hQ' hP
        refine ih hnl hw1 ha hbal hbt (fun x hx => hP x (by simp [hx])) hQ' hq' (by simpa using hf) ?_
            (by rw [hc1]; exact h)
        by_cases hb : e.addr = b
        · exact .inr (r1 hb)
        · obtain ⟨x, hx, hxb⟩ | hA := hA
          · rw [List.mem_cons] at hx
            obtain rfl | hx := hx
            · exact absurd hxb hb
            · exact .inl ⟨x, hx, hxb⟩
          · exact .inr (r2 (arrived_withWbq (by rw [he.lev]; exact hnl') (by rw [hq]; rfl) hA))

end Sys2Proof.Machine
end

