-- ==== Sys2Proof/Laws/Events.lean ====
section
/-! SUPPORT. How an outcome depends on the listed draws of line transfers (R35, R37): of two runs of an
operation that differ in one such draw, ok in the one and an error in the other, either neither comes to
that draw, and they differ in nothing else, or the second ends there with the exception of that error. -/

namespace Sys2Proof.Machine

/-- The state with the draws of line transfers replaced. -/
def withEvents (s : State) (es : List TransferEvent) : State :=
  withDraws s { s.draws with events := es }

/-- Two states that differ only in one draw that is still listed, before `rest`: ok, and `e`. -/
def Twin (rest : List TransferEvent) (e : TransferEvent) (s s' : State) : Prop :=
  ∃ oks, s.draws.events = oks ++ .ok :: rest ∧ s' = withEvents s (oks ++ e :: rest)

/-- The state of an outcome, or the one its fault reports. -/
def outcomeState : Except Fault State → State
  | .ok t => t
  | .error f => f.reported

/-- At most `rest` is still listed after the outcome. -/
def DrawMade (rest : List TransferEvent) (r : Except Fault State) : Prop :=
  (outcomeState r).draws.events.length ≤ rest.length

/-- The outcome takes listed draws of transfers off, and adds none. -/
def TakesEvents (s : State) (r : Except Fault State) : Prop :=
  (outcomeState r).draws.events <:+ s.draws.events

/-- The outcome is the exception of a failing draw, with `rest` still listed. -/
def TrapsAt {α : Type} (rest : List TransferEvent) (x : Exception) (r : Except Fault α) : Prop :=
  ∃ t, r = .error (.trap x t) ∧ t.draws.events = rest

/-- The outcomes of the two runs. -/
def TwinOutcome (rest : List TransferEvent) (e : TransferEvent) (x : Exception)
    (r r' : Except Fault State) : Prop :=
  (∃ t t', r = .ok t ∧ r' = .ok t' ∧ Twin rest e t t') ∨
  (∃ f f', r = .error f ∧ r' = .error f' ∧ Twin rest e f.reported f'.reported) ∨
  (DrawMade rest r ∧ TrapsAt rest x r')

/-- A draw that fails, and the exception it raises (R84, R85). -/
abbrev FailingDraw (e : TransferEvent) (x : Exception) : Prop :=
  (e, x) ∈ [(TransferEvent.cacheError, Exception.cacheError), (.busError, .busError)]

variable {rest : List TransferEvent} {e : TransferEvent} {x : Exception}

theorem twin_ok {t t' : State} (h : Twin rest e t t') : TwinOutcome rest e x (.ok t) (.ok t') :=
  .inl ⟨t, t', rfl, rfl, h⟩

theorem twin_error {f f' : Fault} (h : Twin rest e f.reported f'.reported) :
    TwinOutcome rest e x (.error f) (.error f') := .inr (.inl ⟨f, f', rfl, rfl, h⟩)

theorem takesEvents_of_reached {s : State} {r : Except Fault State} (h : Reached s r) :
    TakesEvents s r := by
  cases r <;> exact Moves.events h

/-- An operation after another: a draw that the first makes is made after both. -/
theorem twin_seq {r r' : Except Fault State} {g g' : State → Except Fault State}
    (h : TwinOutcome rest e x r r') (hr : ∀ t, r = .ok t → TakesEvents t (g t))
    (hg : ∀ t t', r = .ok t → Twin rest e t t' → TwinOutcome rest e x (g t) (g' t')) :
    TwinOutcome rest e x
      (match (generalizing := false) r with
        | .error f => .error f
        | .ok t => g t)
      (match (generalizing := false) r' with
        | .error f => .error f
        | .ok t => g' t) := by
  obtain ⟨t, t', rfl, rfl, ht⟩ | ⟨f, f', rfl, rfl, hf⟩ | ⟨hm, t', rfl, ht'⟩ := h
  · exact hg t t' rfl ht
  · exact twin_error hf
  · refine .inr (.inr ⟨?_, t', rfl, ht'⟩)
    cases r with
    | ok t => exact (hr t rfl).length_le.trans hm
    | error f => exact hm

/-! ### The shared operations -/

theorem transfer_twin (hx : FailingDraw e x) {s s' : State} (h : Twin rest e s s') :
    TwinOutcome rest e x (transfer s) (transfer s') := by
  obtain ⟨oks, he, rfl⟩ := h
  cases oks with
  | nil =>
    refine .inr (.inr ⟨?_, ?_⟩)
    · simp [transfer, nextEvent, afterEvent, he, DrawMade, outcomeState]
    · simp only [FailingDraw, List.mem_cons, Prod.mk.injEq, List.not_mem_nil, or_false] at hx
      obtain ⟨rfl, rfl⟩ | ⟨rfl, rfl⟩ := hx <;> exact ⟨_, rfl, rfl⟩
  | cons o oks =>
    have ht : Twin rest e (afterEvent s) (afterEvent (withEvents s (o :: oks ++ e :: rest))) := by
      refine ⟨oks, ?_, ?_⟩ <;> simp [afterEvent, he, withEvents, withDraws]
    have ho : nextEvent s = o ∧ nextEvent (withEvents s (o :: oks ++ e :: rest)) = o := by
      simp [nextEvent, he, withEvents]
    unfold transfer
    rw [ho.1, ho.2]
    cases o with
    | ok => exact twin_ok ht
    | cacheError => exact twin_error (f := .trap _ _) (f' := .trap _ _) ht
    | busError => exact twin_error (f := .trap _ _) (f' := .trap _ _) ht

theorem twin_enqueue {s s' : State} (h : Twin rest e s s') (w : Writeback) :
    Twin rest e (enqueue s w) (enqueue s' w) := by
  obtain ⟨oks, he, rfl⟩ := h; exact ⟨oks, he, rfl⟩

theorem twin_setBlock {s s' : State} (h : Twin rest e s s') (c : CacheName) (set way : Nat) (b : Block) :
    Twin rest e (setBlock s c set way b) (setBlock s' c set way b) := by
  obtain ⟨oks, he, rfl⟩ := h; exact ⟨oks, he, rfl⟩

theorem twin_afterWay {s s' : State} (h : Twin rest e s s') : Twin rest e (afterWay s) (afterWay s') := by
  obtain ⟨oks, he, rfl⟩ := h
  refine ⟨oks, by simpa using he, ?_⟩
  unfold afterWay withEvents
  cases hw : s.draws.ways <;> simp [withDraws, hw]

theorem twin_afterLines {s s' : State} (h : Twin rest e s s') :
    Twin rest e (afterLines s) (afterLines s') := by
  obtain ⟨oks, he, rfl⟩ := h
  refine ⟨oks, by simpa using he, ?_⟩
  unfold afterLines withEvents
  cases hw : s.draws.lines <;> simp [withDraws, hw]

/-- A lookup does not look at the draws; where it fails, it reports its state. -/
theorem findHit_withEvents (s : State) (es : List TransferEvent) (c : CacheName) (ia p : Nat) :
    findHit (withEvents s es) c ia p =
      match findHit s c ia p with
      | .ok o => .ok o
      | .error _ => .error (.undefinedDuplicateTag c (setIdx s.cfg c ia) (withEvents s es)) := by
  unfold findHit
  rw [show hitWays (withEvents s es) c ia p = hitWays s c ia p from rfl]
  split <;> simp_all [withEvents]

theorem writeBackBlock_twin (hx : FailingDraw e x) {s s' : State} (h : Twin rest e s s') (c : CacheName)
    (set way : Nat) : TwinOutcome rest e x (writeBackBlock s c set way) (writeBackBlock s' c set way) := by
  have hw : writebackEntry s' c set way = writebackEntry s c set way := by
    obtain ⟨oks, he, rfl⟩ := h; rfl
  unfold writeBackBlock
  rw [hw]
  exact twin_seq (transfer_twin hx h) (fun _ _ => List.suffix_rfl) fun t t' _ ht => twin_ok (twin_enqueue ht _)

theorem writeBackIfDirty_twin (hx : FailingDraw e x) {s s' : State} (h : Twin rest e s s')
    (c : CacheName) (set way : Nat) :
    TwinOutcome rest e x (writeBackIfDirty s c set way) (writeBackIfDirty s' c set way) := by
  have hn : needsWriteback s' c set way = needsWriteback s c set way := by
    obtain ⟨oks, he, rfl⟩ := h; rfl
  unfold writeBackIfDirty
  rw [hn]
  split
  · exact writeBackBlock_twin hx h c set way
  · exact twin_ok h

theorem twin_invalidate {s s' : State} (h : Twin rest e s s') (c : CacheName) (set way : Nat) :
    Twin rest e (invalidate s c set way) (invalidate s' c set way) := by
  obtain ⟨oks, he, rfl⟩ := h; exact ⟨oks, he, rfl⟩

theorem ownLineCheck_twin {s s' : State} (h : Twin rest e s s') (c : CacheName) (set way : Nat) :
    TwinOutcome rest e x (ownLineCheck s c set way) (ownLineCheck s' c set way) := by
  have hn : holdsOwnLine s' c set way = holdsOwnLine s c set way := by
    obtain ⟨oks, he, rfl⟩ := h; rfl
  unfold ownLineCheck
  rw [hn]
  split
  · exact twin_error (f := .unpredictableOwnLine _ _) (f' := .unpredictableOwnLine _ _) h
  · exact twin_ok h

theorem flushBlock_twin (hx : FailingDraw e x) {s s' : State} (h : Twin rest e s s') (c : CacheName)
    (set way : Nat) : TwinOutcome rest e x (flushBlock s c set way) (flushBlock s' c set way) := by
  unfold flushBlock
  refine twin_seq (ownLineCheck_twin h c set way) (fun t _ => ?_) fun t t' _ ht =>
    twin_seq (writeBackIfDirty_twin hx ht c set way) (fun _ _ => List.suffix_rfl)
      fun u u' _ hu => twin_ok (twin_invalidate hu c set way)
  have h1 := takesEvents_of_reached (writeBackIfDirty_reached t c set way)
  cases hw : writeBackIfDirty t c set way <;> rw [hw] at h1 <;> exact h1

theorem cleanAt_twin (hx : FailingDraw e x) {s s' : State} (h : Twin rest e s s') (c : CacheName)
    (set way : Nat) : TwinOutcome rest e x (cleanAt s c set way) (cleanAt s' c set way) := by
  have hn : needsWriteback s' c set way = needsWriteback s c set way := by
    obtain ⟨oks, he, rfl⟩ := h; rfl
  unfold cleanAt
  rw [hn]
  split
  · refine twin_seq (writeBackBlock_twin hx h c set way) (fun _ _ => List.suffix_rfl) fun t t' _ ht => ?_
    obtain ⟨oks, he, rfl⟩ := ht
    exact twin_ok ⟨oks, he, rfl⟩
  · exact twin_ok h

/-- A lookup that fails in both runs. -/
theorem twin_duplicate {s s' : State} (h : Twin rest e s s') (c : CacheName) (set : Nat) :
    TwinOutcome rest e x (.error (.undefinedDuplicateTag c set s))
      (.error (.undefinedDuplicateTag c set s')) :=
  twin_error (f := .undefinedDuplicateTag _ _ _) (f' := .undefinedDuplicateTag _ _ _) h

/-- What a lookup answers in both runs. -/
theorem findHit_twin {s s' : State} (h : Twin rest e s s') (c : CacheName) (ia p : Nat) :
    (∃ o, findHit s c ia p = .ok o ∧ findHit s' c ia p = .ok o) ∨
    (findHit s c ia p = .error (.undefinedDuplicateTag c (setIdx s.cfg c ia) s) ∧
      findHit s' c ia p = .error (.undefinedDuplicateTag c (setIdx s.cfg c ia) s')) := by
  obtain ⟨oks, he, rfl⟩ := h
  rw [findHit_withEvents]
  cases hf : findHit s c ia p with
  | ok o => exact .inl ⟨o, rfl, rfl⟩
  | error f => rw [findHit_error hf]; exact .inr ⟨rfl, rfl⟩

theorem hitInvalidateAt_twin {s s' : State} (h : Twin rest e s s') (c : CacheName) (ia p : Nat) :
    TwinOutcome rest e x (hitInvalidateAt s c ia p) (hitInvalidateAt s' c ia p) := by
  have hc : s'.cfg = s.cfg := by obtain ⟨oks, he, rfl⟩ := h; rfl
  unfold hitInvalidateAt
  obtain ⟨o, h1, h2⟩ | ⟨h1, h2⟩ := findHit_twin h c ia p <;> rw [h1, h2]
  · cases o with
    | none => exact twin_ok h
    | some w =>
      rw [hc]
      exact twin_seq (ownLineCheck_twin h c _ w) (fun _ _ => List.suffix_rfl)
        fun t t' ht hh => by
          have hc' : t'.cfg = t.cfg := by obtain ⟨oks, he, rfl⟩ := hh; rfl
          exact twin_ok (twin_invalidate hh c _ w)
  · exact twin_duplicate h c _

theorem hitWritebackInvalidateAt_twin (hx : FailingDraw e x) {s s' : State} (h : Twin rest e s s')
    (c : CacheName) (ia p : Nat) :
    TwinOutcome rest e x (hitWritebackInvalidateAt s c ia p) (hitWritebackInvalidateAt s' c ia p) := by
  have hc : s'.cfg = s.cfg := by obtain ⟨oks, he, rfl⟩ := h; rfl
  unfold hitWritebackInvalidateAt
  obtain ⟨o, h1, h2⟩ | ⟨h1, h2⟩ := findHit_twin h c ia p <;> rw [h1, h2]
  · cases o with
    | none => exact twin_ok h
    | some w => rw [hc]; exact flushBlock_twin hx h c _ w
  · exact twin_duplicate h c _

theorem hitWritebackAt_twin (hx : FailingDraw e x) {s s' : State} (h : Twin rest e s s')
    (c : CacheName) (ia p : Nat) :
    TwinOutcome rest e x (hitWritebackAt s c ia p) (hitWritebackAt s' c ia p) := by
  have hc : s'.cfg = s.cfg := by obtain ⟨oks, he, rfl⟩ := h; rfl
  unfold hitWritebackAt
  obtain ⟨o, h1, h2⟩ | ⟨h1, h2⟩ := findHit_twin h c ia p <;> rw [h1, h2]
  · cases o with
    | none => exact twin_ok h
    | some w => rw [hc]; exact cleanAt_twin hx h c _ w
  · exact twin_duplicate h c _

/-- What a line is read from does not depend on the draws (R37). -/
theorem lineFrom_twin {s s' : State} (h : Twin rest e s s') (a n : Nat) (ls : List CacheName) :
    (∃ d, lineFrom s a n ls = .ok d ∧ lineFrom s' a n ls = .ok d) ∨
    (∃ f f', lineFrom s a n ls = .error f ∧ lineFrom s' a n ls = .error f' ∧
      Twin rest e f.reported f'.reported) := by
  induction ls with
  | nil =>
    have hm : memoryLine s' a n = if inPhysicalSpace s.cfg a n then .ok (memRead s a n)
        else .error (.outsidePhysicalSpace a s') := by
      obtain ⟨oks, he, rfl⟩ := h; rfl
    simp only [lineFrom]
    rw [hm, memoryLine]
    split
    · exact .inl ⟨_, rfl, rfl⟩
    · exact .inr ⟨_, _, rfl, rfl, h⟩
  | cons l ls ih =>
    simp only [lineFrom]
    obtain ⟨o, h1, h2⟩ | ⟨h1, h2⟩ := findHit_twin h l a a <;> rw [h1, h2]
    · cases o with
      | none => exact ih
      | some w =>
        refine .inl ⟨_, rfl, ?_⟩
        obtain ⟨oks, he, rfl⟩ := h; rfl
    · exact .inr ⟨_, _, rfl, rfl, h⟩

/-- What `ReadLine` answers in the two runs. -/
theorem readLine_twin (hx : FailingDraw e x) {s s' : State} (h : Twin rest e s s') (c : CacheName)
    (p : Nat) :
    (∃ d t t', readLine s c p = .ok (d, t) ∧ readLine s' c p = .ok (d, t') ∧ Twin rest e t t') ∨
    (∃ f f', readLine s c p = .error f ∧ readLine s' c p = .error f' ∧
      Twin rest e f.reported f'.reported) ∨
    (TrapsAt rest x (readLine s' c p) ∧ (∀ d t, readLine s c p = .ok (d, t) → DrawMade rest (.ok t)) ∧
      ∀ f, readLine s c p = .error f → DrawMade rest (.error f)) := by
  have hc : s'.cfg = s.cfg := by obtain ⟨oks, he, rfl⟩ := h; rfl
  unfold readLine
  rw [hc]
  obtain ⟨t, t', h1, h2, ht⟩ | ⟨f, f', h1, h2, hf⟩ | ⟨hm, t', h2, ht'⟩ := transfer_twin hx h
  · rw [h1, h2]
    obtain ⟨d, h3, h4⟩ | ⟨f, f', h3, h4, hf⟩ :=
      lineFrom_twin ht (lineOf s.cfg c p) (lineBytes s.cfg c) (outerCaches s.cfg c)
    · simp only [h3, h4]
      exact .inl ⟨d, t, t', rfl, rfl, ht⟩
    · simp only [h3, h4]
      exact .inr (.inl ⟨f, f', rfl, rfl, hf⟩)
  · rw [h1, h2]
    exact .inr (.inl ⟨f, f', rfl, rfl, hf⟩)
  · refine .inr (.inr ⟨⟨t', by rw [h2], ht'⟩, ?_, ?_⟩)
    · intro d t hd
      cases h1 : transfer s with
      | error f => rw [h1] at hd; cases hd
      | ok u =>
        rw [h1] at hd hm
        cases h3 : lineFrom u (lineOf s.cfg c p) (lineBytes s.cfg c) (outerCaches s.cfg c) <;>
          simp only [h3] at hd <;> cases hd
        exact hm
    · intro f hd
      cases h1 : transfer s with
      | error f' => rw [h1] at hd hm; cases hd; exact hm
      | ok u =>
        rw [h1] at hd hm
        cases h3 : lineFrom u (lineOf s.cfg c p) (lineBytes s.cfg c) (outerCaches s.cfg c) <;>
          simp only [h3] at hd <;> cases hd
        show f.reported.draws.events.length ≤ _
        rw [lineFrom_error h3]
        exact hm

theorem fillBlock_twin (hx : FailingDraw e x) {s s' : State} (h : Twin rest e s s') (c : CacheName)
    (ia p : Nat) (lk : Bool) :
    TwinOutcome rest e x (fillBlock s c ia p lk) (fillBlock s' c ia p lk) := by
  have hc : s'.cfg = s.cfg := by obtain ⟨oks, he, rfl⟩ := h; rfl
  have hu : unlockedWays s' c = unlockedWays s c := by obtain ⟨oks, he, rfl⟩ := h; rfl
  have hv : victimWay s' c = victimWay s c := by obtain ⟨oks, he, rfl⟩ := h; rfl
  unfold fillBlock
  rw [hc, hu, hv]
  split
  · exact twin_error (f := .undefinedAllWaysLocked _ _ _) (f' := .undefinedAllWaysLocked _ _ _) h
  · refine twin_seq (writeBackIfDirty_twin hx (twin_afterWay h) c _ _) (fun t _ => ?_) fun t t' _ ht => ?_
    · have hm : ∀ (d : List Byte) (u : State), readLine t c p = .ok (d, u) →
          u.draws.events <:+ t.draws.events := by
        intro d u hd
        rw [(readLine_ok hd).1]
        exact afterEvent_events t
      cases hr : readLine t c p with
      | ok d => exact hm d.1 d.2 hr
      | error f => exact Moves.events (readLine_error hr)
    · obtain ⟨d, u, u', h1, h2, hu⟩ | ⟨f, f', h1, h2, hf⟩ | ⟨⟨u', h2, hu'⟩, hok, herr⟩ := readLine_twin hx ht c p
      · rw [h1, h2]; exact twin_ok (twin_setBlock hu c _ _ _)
      · rw [h1, h2]; exact twin_error hf
      · refine .inr (.inr ⟨?_, u', by rw [h2], hu'⟩)
        cases hr : readLine t c p with
        | ok d => exact hok d.1 d.2 hr
        | error f => exact herr f hr

theorem fetchLockAt_twin (hx : FailingDraw e x) {s s' : State} (h : Twin rest e s s') (c : CacheName)
    (ia p : Nat) : TwinOutcome rest e x (fetchLockAt s c ia p) (fetchLockAt s' c ia p) := by
  have hc : s'.cfg = s.cfg := by obtain ⟨oks, he, rfl⟩ := h; rfl
  unfold fetchLockAt
  obtain ⟨o, h1, h2⟩ | ⟨h1, h2⟩ := findHit_twin h c ia p <;> rw [h1, h2]
  · cases o with
    | none => exact fillBlock_twin hx h c ia p true
    | some w => obtain ⟨oks, he, rfl⟩ := h; exact twin_ok ⟨oks, he, rfl⟩
  · exact twin_duplicate h c _

theorem deliver_twin {s s' : State} (h : Twin rest e s s') (w : Writeback) :
    TwinOutcome rest e x (deliver s w) (deliver s' w) := by
  have hc : s'.cfg = s.cfg := by obtain ⟨oks, he, rfl⟩ := h; rfl
  unfold deliver
  rw [hc]
  split
  · split
    · obtain ⟨oks, he, rfl⟩ := h; exact twin_ok ⟨oks, he, rfl⟩
    · exact twin_error (f := .outsidePhysicalSpace _ _) (f' := .outsidePhysicalSpace _ _) h
  · next l _ =>
    obtain ⟨o, h1, h2⟩ | ⟨h1, h2⟩ := findHit_twin h l w.addr w.addr <;> rw [h1, h2]
    · cases o with
      | none => exact twin_ok (twin_enqueue h _)
      | some v =>
        obtain ⟨oks, he, rfl⟩ := h
        dsimp only
        split <;> exact twin_ok ⟨oks, he, rfl⟩
    · exact twin_duplicate h l _

theorem drainOne_twin {s s' : State} (h : Twin rest e s s') :
    TwinOutcome rest e x (drainOne s) (drainOne s') := by
  have hq : s'.wbq = s.wbq := by obtain ⟨oks, he, rfl⟩ := h; rfl
  unfold drainOne
  rw [hq]
  split
  · exact twin_ok h
  · refine deliver_twin ?_ _
    obtain ⟨oks, he, rfl⟩ := h; exact ⟨oks, he, rfl⟩

theorem settle_twin (c : CacheName) (a n fuel : Nat) {s s' : State} (h : Twin rest e s s') :
    TwinOutcome rest e x (settle c a n fuel s) (settle c a n fuel s') := by
  induction fuel generalizing s s' with
  | zero => exact twin_ok h
  | succ fuel ih =>
    have hq : s'.wbq = s.wbq := by obtain ⟨oks, he, rfl⟩ := h; rfl
    unfold settle
    rw [hq]
    split
    · exact twin_seq (drainOne_twin h) (fun t _ => takesEvents_of_reached (settle_reached c a n fuel t))
        fun t t' _ ht => ih ht
    · exact twin_ok h

theorem deliverQueued_twin (queued : Bool) (c : CacheName) (a n : Nat) {s s' : State}
    (h : Twin rest e s s') :
    TwinOutcome rest e x (deliverQueued queued c a n s) (deliverQueued queued c a n s') := by
  have hq : s'.wbq = s.wbq := by obtain ⟨oks, he, rfl⟩ := h; rfl
  unfold deliverQueued
  rw [hq]
  split
  · exact settle_twin c a n _ h
  · exact twin_ok h

theorem innerHit_twin (hx : FailingDraw e x) (kind : FlushKind) (c : CacheName) {s s' : State}
    (h : Twin rest e s s') (a : Nat) :
    TwinOutcome rest e x (innerHit kind c s a) (innerHit kind c s' a) := by
  unfold innerHit
  split
  · exact hitInvalidateAt_twin h c a a
  · cases kind
    · exact hitWritebackInvalidateAt_twin hx h c a a
    · exact hitInvalidateAt_twin h c a a
    · exact hitWritebackAt_twin hx h c a a

theorem innerHits_twin (hx : FailingDraw e x) (kind : FlushKind) (ci : CacheName) (ls : List Nat)
    {s s' : State} (h : Twin rest e s s') :
    TwinOutcome rest e x (innerHits kind ci ls s) (innerHits kind ci ls s') := by
  induction ls generalizing s s' with
  | nil => exact twin_ok h
  | cons a ls ih =>
    simp only [innerHits]
    exact twin_seq (innerHit_twin hx kind ci h a)
      (fun t _ => takesEvents_of_reached (innerHits_reached kind ci ls t)) fun t t' _ ht => ih ht

theorem innerCachesHit_twin (hx : FailingDraw e x) (kind : FlushKind) (c : CacheName) (a n : Nat)
    (cs : List CacheName) (queued : Bool) {s s' : State} (h : Twin rest e s s') :
    TwinOutcome rest e x (innerCachesHit kind c a n cs queued s)
      (innerCachesHit kind c a n cs queued s') := by
  induction cs generalizing queued s s' with
  | nil => exact deliverQueued_twin queued c a n h
  | cons ci cs ih =>
    have hc : s'.cfg = s.cfg := by obtain ⟨oks, he, rfl⟩ := h; rfl
    simp only [innerCachesHit]
    rw [hc]
    refine twin_seq (deliverQueued_twin queued ci a n h) (fun t _ => ?_) fun t t' _ ht =>
      twin_seq (innerHits_twin hx kind ci _ ht)
        (fun u _ => takesEvents_of_reached (innerCachesHit_reached kind c a n cs _ u)) fun u u' _ hu => ?_
    · exact takesEvents_of_reached (reached_seq (innerHits_reached kind ci _ t)
        fun u => innerCachesHit_reached kind c a n cs _ u)
    · have hq : u'.wbq = u.wbq ∧ t'.wbq = t.wbq := by
        obtain ⟨_, _, rfl⟩ := hu; obtain ⟨_, _, rfl⟩ := ht; exact ⟨rfl, rfl⟩
      rw [hq.1, hq.2]
      exact ih _ hu

theorem innerFirst_twin (hx : FailingDraw e x) {s s' : State} (h : Twin rest e s s') (c : CacheName)
    (a : Nat) (kind : FlushKind) :
    TwinOutcome rest e x (innerFirst s c a kind) (innerFirst s' c a kind) := by
  have hc : s'.cfg = s.cfg := by obtain ⟨oks, he, rfl⟩ := h; rfl
  unfold innerFirst
  rw [hc]
  split
  · exact innerCachesHit_twin hx kind c a _ _ false h
  · exact twin_ok h

/-! ### The bodies of the operations -/

theorem indexInvalidate_twin {s s' : State} (h : Twin rest e s s') (c : CacheName) (acc : Access) :
    TwinOutcome rest e x (indexInvalidate c acc s) (indexInvalidate c acc s') := by
  have hc : indexedSet s' c = indexedSet s c ∧ indexedWay s' c = indexedWay s c := by
    obtain ⟨_, _, rfl⟩ := h; exact ⟨rfl, rfl⟩
  unfold indexInvalidate
  rw [hc.1, hc.2]
  refine twin_seq (ownLineCheck_twin h c _ _) (fun _ _ => List.suffix_rfl) fun t t' ht hh => ?_
  exact twin_ok (twin_invalidate hh c _ _)

theorem indexWritebackInvalidate_twin (hx : FailingDraw e x) {s s' : State} (h : Twin rest e s s')
    (c : CacheName) (acc : Access) :
    TwinOutcome rest e x (indexWritebackInvalidate c acc s) (indexWritebackInvalidate c acc s') := by
  have hc : indexedSet s' c = indexedSet s c ∧ indexedWay s' c = indexedWay s c := by
    obtain ⟨_, _, rfl⟩ := h; exact ⟨rfl, rfl⟩
  unfold indexWritebackInvalidate
  rw [hc.1, hc.2]
  exact flushBlock_twin hx h c _ _

theorem indexInnerFirst_twin (hx : FailingDraw e x) {s s' : State} (h : Twin rest e s s')
    (c : CacheName) (acc : Access) :
    TwinOutcome rest e x (indexInnerFirst c acc s) (indexInnerFirst c acc s') := by
  have hc : indexedBlock s' c acc.ia = indexedBlock s c acc.ia ∧
      indexedSet s' c acc.ia = indexedSet s c acc.ia ∧ s'.cfg = s.cfg := by
    obtain ⟨_, _, rfl⟩ := h; exact ⟨rfl, rfl, rfl⟩
  unfold indexInnerFirst
  rw [hc.1, hc.2.1, hc.2.2]
  split
  · exact innerFirst_twin hx h c _ _
  · exact twin_ok h

theorem fill_twin (hx : FailingDraw e x) {s s' : State} (h : Twin rest e s s') (c : CacheName)
    (acc : Access) : TwinOutcome rest e x (fill c acc s) (fill c acc s') := by
  have hc : s'.cfg = s.cfg := by obtain ⟨oks, he, rfl⟩ := h; rfl
  have hb : block s' c = block s c := by obtain ⟨oks, he, rfl⟩ := h; rfl
  unfold fill
  obtain ⟨o, h1, h2⟩ | ⟨h1, h2⟩ := findHit_twin h c acc.ia acc.pAddr <;> rw [h1, h2]
  · cases o with
    | none => exact fillBlock_twin hx h c _ _ false
    | some w =>
      dsimp only
      rw [hc, hb]
      split
      · exact twin_ok h
      · obtain ⟨d, u, u', h1, h2, hu⟩ | ⟨f, f', h1, h2, hf⟩ | ⟨⟨u', h2, hu'⟩, hok, herr⟩ :=
          readLine_twin hx h c acc.pAddr
        · rw [h1, h2]; exact twin_ok (twin_setBlock hu c _ _ _)
        · rw [h1, h2]; exact twin_error hf
        · refine .inr (.inr ⟨?_, u', by rw [h2], hu'⟩)
          cases hr : readLine s c acc.pAddr with
          | ok d => exact hok d.1 d.2 hr
          | error f => exact herr f hr
  · exact twin_duplicate h c _

/-- The checks of R61 do not look at the draws. -/
theorem cacheAccess_withEvents {op : BitVec 5} {imm : BitVec 9} {rx : BitVec 3} {s : State} {acc : Access}
    (h : cacheAccess op imm rx s = .ok acc) (es : List TransferEvent) :
    cacheAccess op imm rx (withEvents s es) = .ok acc := by
  rw [← h]
  unfold cacheAccess at h ⊢
  rw [show effectiveAddress (withEvents s es) = effectiveAddress s from rfl,
    show watchMatch (withEvents s es) = watchMatch s from rfl,
    show Machine.translate (withEvents s es) = Machine.translate s from rfl,
    show (withEvents s es).cfg = s.cfg from rfl, show (withEvents s es).cp0 = s.cp0 from rfl]
  split at h
  · cases h
  · next h1 =>
    split at h
    · cases h
    · next h2 =>
      dsimp only at h ⊢
      split at h
      · cases h
      · next h3 =>
        split at h
        · cases h
        · cases h
        · cases h
        · next ht =>
          split at h
          · cases h
          · next h4 => simp only [if_neg h1, if_neg h2, if_neg h3, if_neg h4]

theorem fetchLockLines_twin (hx : FailingDraw e x) (c : CacheName) (ls : List Nat) {s s' : State}
    (h : Twin rest e s s') :
    TwinOutcome rest e x (fetchLockLines c ls s) (fetchLockLines c ls s') := by
  induction ls generalizing s s' with
  | nil => exact twin_ok h
  | cons a ls ih =>
    simp only [fetchLockLines]
    exact twin_seq (fetchLockAt_twin hx h c a a)
      (fun t _ => takesEvents_of_reached (fetchLockLines_reached c ls t)) fun t t' _ ht => ih ht

theorem fetchLock_twin (hx : FailingDraw e x) {s s' : State} (h : Twin rest e s s') (c : CacheName)
    (acc : Access) : TwinOutcome rest e x (fetchLock c acc s) (fetchLock c acc s') := by
  unfold fetchLock
  refine twin_seq (fetchLockAt_twin hx h c _ _) (fun t _ => ?_) fun t t' _ ht => ?_
  · split
    · have hl : (afterLines t).draws.events = t.draws.events := afterLines_events t
      have := takesEvents_of_reached (fetchLockLines_reached c (nextLines t) (afterLines t))
      rw [TakesEvents, hl] at this
      exact this
    · exact List.suffix_rfl
  · have hc : t'.cfg = t.cfg ∧ nextLines t' = nextLines t := by
      obtain ⟨_, _, rfl⟩ := ht; exact ⟨rfl, rfl⟩
    rw [hc.1, hc.2]
    split
    · exact fetchLockLines_twin hx c _ (twin_afterLines ht)
    · exact twin_ok ht

theorem indexLoadTag_twin {s s' : State} (h : Twin rest e s s') (c : CacheName) (acc : Access) :
    TwinOutcome rest e x (indexLoadTag c acc s) (indexLoadTag c acc s') := by
  obtain ⟨oks, he, rfl⟩ := h
  unfold indexLoadTag setData
  rw [show ∀ u v, (setTag u c v).cfg = u.cfg from fun _ _ => rfl,
    show ∀ u v, (setTag u c v).cfg = u.cfg from fun _ _ => rfl,
    show (withEvents s (oks ++ e :: rest)).cfg = s.cfg from rfl]
  split <;> exact twin_ok ⟨oks, he, rfl⟩

theorem thenGlobalize_twin {r r' : Except Fault State} (acc : Access) (h : TwinOutcome rest e x r r') :
    TwinOutcome rest e x (thenGlobalize acc r) (thenGlobalize acc r') := by
  rwa [thenGlobalize_eq, thenGlobalize_eq]

/-- A Hit operation on T or S, after the inner caches. -/
theorem innerFirst_seq_twin (hx : FailingDraw e x) {s s' : State} (h : Twin rest e s s') (c : CacheName)
    (p : Nat) (kind : FlushKind) {g : State → Except Fault State} (hr : ∀ t, Reached t (g t))
    (hg : ∀ t t', Twin rest e t t' → TwinOutcome rest e x (g t) (g t')) :
    TwinOutcome rest e x
      (match (generalizing := false) innerFirst s c (lineOf s.cfg c p) kind with
        | .error f => .error f
        | .ok t => g t)
      (match (generalizing := false) innerFirst s' c (lineOf s'.cfg c p) kind with
        | .error f => .error f
        | .ok t => g t) := by
  have hc : s'.cfg = s.cfg := by obtain ⟨_, _, rfl⟩ := h; rfl
  rw [hc]
  exact twin_seq (innerFirst_twin hx h c _ kind) (fun t _ => takesEvents_of_reached (hr t))
    fun t t' _ => hg t t'

/-- The body of every operation but the implementation-dependent ones. -/
theorem opBody_twin (hx : FailingDraw e x) {s s' : State} (h : Twin rest e s s') (op : BitVec 5)
    (acc : Access) (h3 : operationCode op ≠ 3) :
    TwinOutcome rest e x (opBody op acc s) (opBody op acc s') := by
  have hst : ∀ c, TwinOutcome rest e x (indexStoreTag c acc s) (indexStoreTag c acc s') := by
    intro c; obtain ⟨o, he, rfl⟩ := h; exact twin_ok ⟨o, he, rfl⟩
  have hno : ∀ op, TwinOutcome rest e x (noRow op acc s) (noRow op acc s') := fun op =>
    twin_error (f := .undefinedOpNotImplemented _ _) (f' := .undefinedOpNotImplemented _ _) h
  have hhi : ∀ c t t', Twin rest e t t' →
      TwinOutcome rest e x (hitInvalidate c acc t) (hitInvalidate c acc t') :=
    fun c _ _ h => thenGlobalize_twin acc (hitInvalidateAt_twin h c _ _)
  have hwi : ∀ c t t', Twin rest e t t' →
      TwinOutcome rest e x (hitWritebackInvalidate c acc t) (hitWritebackInvalidate c acc t') :=
    fun c _ _ h => thenGlobalize_twin acc (hitWritebackInvalidateAt_twin hx h c _ _)
  have hwb : ∀ c t t', Twin rest e t t' →
      TwinOutcome rest e x (hitWriteback c acc t) (hitWriteback c acc t') :=
    fun c _ _ h => thenGlobalize_twin acc (hitWritebackAt_twin hx h c _ _)
  revert op
  refine bitVec5_cases fun n => ?_
  fin_cases n
  all_goals intro h3
  all_goals first
    | exact indexInvalidate_twin h _ acc
    | exact indexWritebackInvalidate_twin hx h _ acc
    | exact twin_seq (indexInnerFirst_twin hx h _ acc)
        (fun t _ => takesEvents_of_reached (indexWritebackInvalidate_reached _ acc t))
        fun _ _ _ h => indexWritebackInvalidate_twin hx h _ acc
    | exact indexLoadTag_twin h _ acc
    | exact hst _
    | exact absurd rfl h3
    | exact hhi _ _ _ h
    | exact innerFirst_seq_twin hx h _ _ _ (hitInvalidate_reached _ acc) (hhi _)
    | exact fill_twin hx h _ acc
    | exact hwi _ _ _ h
    | exact innerFirst_seq_twin hx h _ _ _ (hitWritebackInvalidate_reached _ acc) (hwi _)
    | exact hwb _ _ _ h
    | exact innerFirst_seq_twin hx h _ _ _ (hitWriteback_reached _ acc) (hwb _)
    | exact fetchLock_twin hx h _ acc
    | exact hno _

/-- An implementation-dependent operation makes no draw of a transfer. -/
theorem implOp_events (c : CacheName) (acc : Access) (s : State) :
    (outcomeState (implOp c acc s)).draws.events = s.draws.events := by
  have h1 (w : ImplWrite) (s : State) : (implWrite s w).draws.events = s.draws.events := by
    cases w <;> simp [implWrite, setTag, setData, enqueue]
    split <;> rfl
  have h2 (ws : List ImplWrite) (s : State) : (implWrites s ws).draws.events = s.draws.events := by
    induction ws generalizing s with
    | nil => rfl
    | cons w ws ih => exact (ih _).trans (h1 w s)
  have h3 (o : Option ImplStop) (s : State) :
      (outcomeState (implEnd s o)).draws.events = s.draws.events := by
    cases o with
    | none => rfl
    | some o => cases o <;> rfl
  unfold implOp
  rw [h3, h2]
  simp

end Sys2Proof.Machine
end

