-- ==== Sys2Proof/Laws/Faults.lean ====
section
/-! SUPPORT. Which kinds of fault each shared operation and the body of each op can end in, and which of
R61's checks each other fault comes from. -/

namespace Sys2Proof.Machine

/-- What a fault comes from: one of the checks of R61, or a part of an operation's body. -/
inductive FaultKind where
  | check | transfer | duplicate | ownLine | allLocked | outside | noRow | implementation
  deriving DecidableEq, Repr

def Fault.kind : Fault → FaultKind
  | .trap .cacheError _ => .transfer
  | .trap .busError _ => .transfer
  | .trap (.implementation _) _ => .implementation
  | .trap (.coprocessorUnusable _) _ => .check
  | .trap (.watch _) _ => .check
  | .trap (.addressError _ _) _ => .check
  | .trap (.tlbRefill _ _) _ => .check
  | .trap (.tlbInvalid _ _) _ => .check
  | .trap (.tlbModified _) _ => .check
  | .trap (.executeInhibit _) _ => .check
  | .trap (.readInhibit _) _ => .check
  | .undefinedOpNotImplemented _ _ => .noRow
  | .undefinedUncacheableAddress _ => .check
  | .undefinedAllWaysLocked _ _ _ => .allLocked
  | .undefinedDuplicateTag _ _ _ => .duplicate
  | .unpredictableOwnLine _ _ => .ownLine
  | .undefinedByImplementation _ _ => .implementation
  | .unpredictableByImplementation _ _ => .implementation
  | .outsidePhysicalSpace _ _ => .outside

/-- The outcome is a state, or a fault of one of the kinds. -/
def FaultsIn {α : Type} (ks : List FaultKind) (r : Except Fault α) : Prop :=
  ∀ f, r = .error f → f.kind ∈ ks

theorem faultsIn_ok {α : Type} (ks : List FaultKind) (a : α) :
    FaultsIn ks (.ok a : Except Fault α) := by
  intro f h; cases h

theorem faultsIn_error {α : Type} {ks : List FaultKind} {f : Fault} (h : f.kind ∈ ks) :
    FaultsIn ks (.error f : Except Fault α) := by
  intro g hg; cases hg; exact h

theorem FaultsIn.mono {α : Type} {ks ls : List FaultKind} {r : Except Fault α} (h : FaultsIn ks r)
    (hs : ∀ k ∈ ks, k ∈ ls) : FaultsIn ls r := fun f hf => hs _ (h f hf)

theorem findHit_faults (s : State) (c : CacheName) (ia p : Nat) :
    FaultsIn [.duplicate] (findHit s c ia p) := by
  intro f h; rw [findHit_error h]; simp [Fault.kind]

theorem ownLineCheck_faults (s : State) (c : CacheName) (set way : Nat) :
    FaultsIn [.ownLine] (ownLineCheck s c set way) := by
  intro f h; rw [ownLineCheck_error h]; simp [Fault.kind]

theorem transfer_faults (s : State) : FaultsIn [.transfer] (transfer s) := by
  unfold transfer
  split
  · exact faultsIn_ok _ _
  · exact faultsIn_error (by simp [Fault.kind])
  · exact faultsIn_error (by simp [Fault.kind])

theorem writeBackBlock_faults (s : State) (c : CacheName) (set way : Nat) :
    FaultsIn [.transfer] (writeBackBlock s c set way) := by
  unfold writeBackBlock
  split
  · next f hf => exact faultsIn_error (transfer_faults s f hf)
  · exact faultsIn_ok _ _

theorem writeBackIfDirty_faults (s : State) (c : CacheName) (set way : Nat) :
    FaultsIn [.transfer] (writeBackIfDirty s c set way) := by
  unfold writeBackIfDirty
  split
  · exact writeBackBlock_faults s c set way
  · exact faultsIn_ok _ _

theorem lineFrom_faults (s : State) (a n : Nat) (ls : List CacheName) :
    FaultsIn [.duplicate, .outside] (lineFrom s a n ls) := by
  induction ls with
  | nil =>
    unfold lineFrom memoryLine
    split
    · exact faultsIn_ok _ _
    · exact faultsIn_error (by simp [Fault.kind])
  | cons l ls ih =>
    unfold lineFrom
    split
    · next f hf => exact faultsIn_error (by simpa using .inl (by simpa using findHit_faults s l a a f hf))
    · exact faultsIn_ok _ _
    · exact ih

theorem readLine_faults (s : State) (c : CacheName) (p : Nat) :
    FaultsIn [.transfer, .duplicate, .outside] (readLine s c p) := by
  unfold readLine
  split
  · next f hf => exact faultsIn_error (by have := transfer_faults s f hf; simp_all)
  · split
    · next s1 hs f hf => exact faultsIn_error (by have := lineFrom_faults _ _ _ _ f hf; simp_all)
    · exact faultsIn_ok _ _

theorem fillBlock_faults (s : State) (c : CacheName) (ia p : Nat) (lk : Bool) :
    FaultsIn [.transfer, .duplicate, .outside, .allLocked] (fillBlock s c ia p lk) := by
  unfold fillBlock
  split
  · exact faultsIn_error (by simp [Fault.kind])
  · split
    · next f hf => exact faultsIn_error (by have := writeBackIfDirty_faults _ _ _ _ f hf; simp_all)
    · split
      · next f hf => exact faultsIn_error (by have := readLine_faults _ _ _ f hf; simp_all; tauto)
      · exact faultsIn_ok _ _

theorem hitInvalidateAt_faults (s : State) (c : CacheName) (ia p : Nat) :
    FaultsIn [.duplicate, .ownLine] (hitInvalidateAt s c ia p) := by
  unfold hitInvalidateAt
  split
  · next f hf => exact faultsIn_error (by have := findHit_faults _ _ _ _ f hf; simp_all)
  · exact faultsIn_ok _ _
  · split
    · next f hf => exact faultsIn_error (by have := ownLineCheck_faults _ _ _ _ f hf; simp_all)
    · exact faultsIn_ok _ _

theorem flushBlock_faults (s : State) (c : CacheName) (set way : Nat) :
    FaultsIn [.ownLine, .transfer] (flushBlock s c set way) := by
  unfold flushBlock
  split
  · next f hf => exact faultsIn_error (by have := ownLineCheck_faults _ _ _ _ f hf; simp_all)
  · split
    · next f hf => exact faultsIn_error (by have := writeBackIfDirty_faults _ _ _ _ f hf; simp_all)
    · exact faultsIn_ok _ _

theorem hitWritebackInvalidateAt_faults (s : State) (c : CacheName) (ia p : Nat) :
    FaultsIn [.duplicate, .ownLine, .transfer] (hitWritebackInvalidateAt s c ia p) := by
  unfold hitWritebackInvalidateAt
  split
  · next f hf => exact faultsIn_error (by have := findHit_faults _ _ _ _ f hf; simp_all)
  · exact faultsIn_ok _ _
  · exact (flushBlock_faults _ _ _ _).mono (by simp)

theorem hitWritebackAt_faults (s : State) (c : CacheName) (ia p : Nat) :
    FaultsIn [.duplicate, .transfer] (hitWritebackAt s c ia p) := by
  unfold hitWritebackAt
  split
  · next f hf => exact faultsIn_error (by have := findHit_faults _ _ _ _ f hf; simp_all)
  · exact faultsIn_ok _ _
  · unfold cleanAt
    split
    · split
      · next f hf => exact faultsIn_error (by have := writeBackBlock_faults _ _ _ _ f hf; simp_all)
      · exact faultsIn_ok _ _
    · exact faultsIn_ok _ _

theorem fetchLockAt_faults (s : State) (c : CacheName) (ia p : Nat) :
    FaultsIn [.transfer, .duplicate, .outside, .allLocked] (fetchLockAt s c ia p) := by
  unfold fetchLockAt
  split
  · next f hf => exact faultsIn_error (by have := findHit_faults _ _ _ _ f hf; simp_all)
  · exact fillBlock_faults s c ia p true
  · exact faultsIn_ok _ _

theorem fetchLockLines_faults (c : CacheName) (ls : List Nat) (s : State) :
    FaultsIn [.transfer, .duplicate, .outside, .allLocked] (fetchLockLines c ls s) := by
  induction ls generalizing s with
  | nil => exact faultsIn_ok _ _
  | cons a ls ih =>
    unfold fetchLockLines
    split
    · next f hf => exact faultsIn_error (fetchLockAt_faults _ _ _ _ f hf)
    · exact ih _

theorem deliver_faults (s : State) (e : Writeback) :
    FaultsIn [.duplicate, .outside] (deliver s e) := by
  unfold deliver
  split
  · split
    · exact faultsIn_ok _ _
    · exact faultsIn_error (by simp [Fault.kind])
  · split
    · next f hf => exact faultsIn_error (by have := findHit_faults _ _ _ _ f hf; simp_all)
    · exact faultsIn_ok _ _
    · dsimp only
      split <;> exact faultsIn_ok _ _

theorem drainOne_faults (s : State) : FaultsIn [.duplicate, .outside] (drainOne s) := by
  unfold drainOne
  split
  · exact faultsIn_ok _ _
  · exact deliver_faults _ _

theorem settle_faults (c : CacheName) (a n fuel : Nat) (s : State) :
    FaultsIn [.duplicate, .outside] (settle c a n fuel s) := by
  induction fuel generalizing s with
  | zero => exact faultsIn_ok _ _
  | succ fuel ih =>
    unfold settle
    split
    · split
      · next f hf => exact faultsIn_error (drainOne_faults s f hf)
      · exact ih _
    · exact faultsIn_ok _ _

/-- The kinds an operation on several caches can end in. -/
abbrev flushFaults : List FaultKind := [.duplicate, .ownLine, .transfer, .outside]

theorem innerHits_faults (kind : FlushKind) (ci : CacheName) (ls : List Nat) (s : State) :
    FaultsIn flushFaults (innerHits kind ci ls s) := by
  induction ls generalizing s with
  | nil => exact faultsIn_ok _ _
  | cons a ls ih =>
    unfold innerHits
    split
    · next f hf =>
      refine faultsIn_error ?_
      unfold innerHit at hf
      split at hf
      · have := hitInvalidateAt_faults _ _ _ _ f hf; simp_all; tauto
      · cases kind
        · have := hitWritebackInvalidateAt_faults _ _ _ _ f hf; simp_all; tauto
        · have := hitInvalidateAt_faults _ _ _ _ f hf; simp_all; tauto
        · have := hitWritebackAt_faults _ _ _ _ f hf; simp_all; tauto
    · exact ih _

theorem deliverQueued_faults (queued : Bool) (c : CacheName) (a n : Nat) (s : State) :
    FaultsIn [.duplicate, .outside] (deliverQueued queued c a n s) := by
  unfold deliverQueued
  split
  · exact settle_faults _ _ _ _ _
  · exact faultsIn_ok _ _

/-- Hit operations that end in some kinds of fault, deliveries among them, make the inner-first operations
on all the caches end in those. -/
theorem innerCachesHit_faultsIn {ks : List FaultKind} (hk : FaultKind.duplicate ∈ ks ∧ FaultKind.outside ∈ ks)
    {kind : FlushKind} (hh : ∀ ci ls s, FaultsIn ks (innerHits kind ci ls s)) (c : CacheName) (a n : Nat)
    (cs : List CacheName) (queued : Bool) (s : State) :
    FaultsIn ks (innerCachesHit kind c a n cs queued s) := by
  have hd : ∀ q ci s, FaultsIn ks (deliverQueued q ci a n s) := fun q ci s =>
    (deliverQueued_faults q ci a n s).mono (by simp [hk])
  induction cs generalizing queued s with
  | nil => exact hd _ _ _
  | cons ci cs ih =>
    unfold innerCachesHit
    split
    · next f hf => exact faultsIn_error (hd _ _ _ f hf)
    · split
      · next f hf => exact faultsIn_error (hh _ _ _ f hf)
      · exact ih _ _

theorem innerFirst_faults (s : State) (c : CacheName) (a : Nat) (kind : FlushKind) :
    FaultsIn flushFaults (innerFirst s c a kind) := by
  unfold innerFirst
  split
  · exact innerCachesHit_faultsIn (by simp) (innerHits_faults kind) _ _ _ _ _ _
  · exact faultsIn_ok _ _

/-- The kinds an inner-first Hit Invalidate can end in: no line is transferred. -/
abbrev invalidateFaults : List FaultKind := [.duplicate, .ownLine, .outside]

theorem innerHits_invalidate_faults (ci : CacheName) (ls : List Nat) (s : State) :
    FaultsIn invalidateFaults (innerHits .invalidate ci ls s) := by
  induction ls generalizing s with
  | nil => exact faultsIn_ok _ _
  | cons a ls ih =>
    unfold innerHits
    split
    · next f hf =>
      refine faultsIn_error ?_
      unfold innerHit at hf
      split at hf
      · have := hitInvalidateAt_faults _ _ _ _ f hf; simp_all; tauto
      · have := hitInvalidateAt_faults _ _ _ _ f hf; simp_all; tauto
    · exact ih _

theorem innerFirst_invalidate_faults (s : State) (c : CacheName) (a : Nat) :
    FaultsIn invalidateFaults (innerFirst s c a .invalidate) := by
  unfold innerFirst
  split
  · exact innerCachesHit_faultsIn (by simp) innerHits_invalidate_faults _ _ _ _ _ _
  · exact faultsIn_ok _ _

/-- The kinds the body of each op can end in. -/
def bodyFaults (op : BitVec 5) : List FaultKind :=
  match operationCode op with
  | 0 => if op = 0 then [.ownLine] else flushFaults
  | 1 => []
  | 2 => []
  | 3 => [.transfer, .implementation, .allLocked, .duplicate, .ownLine]
  | 4 => if op.toNat < 18 then [.duplicate, .ownLine] else invalidateFaults
  | 5 => if op = 20 then [.transfer, .duplicate, .outside, .allLocked] else flushFaults
  | 6 => if op = 24 then [.noRow] else if op = 25 then [.duplicate, .transfer] else flushFaults
  | _ => if op.toNat < 30 then [.transfer, .duplicate, .outside, .allLocked] else [.noRow]

/-- An operation after another ends in one of both's kinds of fault. -/
theorem faultsIn_seq {ks : List FaultKind} {r : Except Fault State}
    {g : State → Except Fault State} (h : FaultsIn ks r) (hg : ∀ t, FaultsIn ks (g t)) :
    FaultsIn ks (match (generalizing := false) r with
      | .error f => .error f
      | .ok t => g t) := by
  cases r with
  | error f => exact h
  | ok t => exact hg t

theorem indexInvalidate_faults (c : CacheName) (acc : Access) (s : State) :
    FaultsIn [.ownLine] (indexInvalidate c acc s) := by
  unfold indexInvalidate
  split
  · next f hf => exact faultsIn_error (ownLineCheck_faults _ _ _ _ f hf)
  · exact faultsIn_ok _ _

theorem indexWritebackInvalidateOuter_faults (c : CacheName) (acc : Access) (s : State) :
    FaultsIn flushFaults (indexWritebackInvalidateOuter c acc s) := by
  refine faultsIn_seq ?_ fun t => (flushBlock_faults _ _ _ _).mono (by simp)
  unfold indexInnerFirst
  split
  · exact innerFirst_faults _ _ _ _
  · exact faultsIn_ok _ _

theorem implOp_faults (c : CacheName) (acc : Access) (s : State) :
    FaultsIn [.transfer, .implementation, .allLocked, .duplicate, .ownLine] (implOp c acc s) := by
  unfold implOp implEnd
  split <;> first
    | exact faultsIn_ok _ _
    | exact faultsIn_error (by simp [Fault.kind])

/-- An implementation-dependent operation ends on its own line only where ImplOp says so (R64, R70). -/
theorem implOp_ownLine {c c' : CacheName} {acc : Access} {s t : State}
    (h : implOp c acc s = .error (.unpredictableOwnLine c' t)) :
    (nextImpl s c acc.vAddr acc.pAddr acc.uncached).stop = some (.ownLine c') := by
  unfold implOp implEnd at h
  split at h <;> first
    | (cases h; assumption)
    | cases h

theorem hitInvalidate_faults (c : CacheName) (acc : Access) (s : State) :
    FaultsIn [.duplicate, .ownLine] (hitInvalidate c acc s) := by
  rw [hitInvalidate, thenGlobalize_eq]; exact hitInvalidateAt_faults _ _ _ _

theorem hitInvalidateOuter_faults (c : CacheName) (acc : Access) (s : State) :
    FaultsIn invalidateFaults (hitInvalidateOuter c acc s) :=
  faultsIn_seq (innerFirst_invalidate_faults _ _ _) fun t => (hitInvalidate_faults c acc t).mono (by simp)

theorem hitWritebackInvalidate_faults (c : CacheName) (acc : Access) (s : State) :
    FaultsIn flushFaults (hitWritebackInvalidate c acc s) := by
  rw [hitWritebackInvalidate, thenGlobalize_eq]
  exact (hitWritebackInvalidateAt_faults _ _ _ _).mono (by simp)

theorem hitWritebackInvalidateOuter_faults (c : CacheName) (acc : Access) (s : State) :
    FaultsIn flushFaults (hitWritebackInvalidateOuter c acc s) :=
  faultsIn_seq (innerFirst_faults _ _ _ _) (hitWritebackInvalidate_faults c acc)

theorem hitWriteback_faults (c : CacheName) (acc : Access) (s : State) :
    FaultsIn [.duplicate, .transfer] (hitWriteback c acc s) := by
  rw [hitWriteback, thenGlobalize_eq]; exact hitWritebackAt_faults _ _ _ _

theorem hitWritebackOuter_faults (c : CacheName) (acc : Access) (s : State) :
    FaultsIn flushFaults (hitWritebackOuter c acc s) :=
  faultsIn_seq (innerFirst_faults _ _ _ _) fun t => (hitWriteback_faults c acc t).mono (by simp)

theorem fill_faults (c : CacheName) (acc : Access) (s : State) :
    FaultsIn [.transfer, .duplicate, .outside, .allLocked] (fill c acc s) := by
  unfold fill
  split
  · next f hf => exact faultsIn_error (by have := findHit_faults _ _ _ _ f hf; simp_all)
  · exact fillBlock_faults _ _ _ _ _
  · split
    · exact faultsIn_ok _ _
    · split
      · next f hf => exact faultsIn_error (by have := readLine_faults _ _ _ f hf; simp_all; tauto)
      · exact faultsIn_ok _ _

theorem fetchLock_faults (c : CacheName) (acc : Access) (s : State) :
    FaultsIn [.transfer, .duplicate, .outside, .allLocked] (fetchLock c acc s) := by
  refine faultsIn_seq (fetchLockAt_faults _ _ _ _) fun t => ?_
  split
  · exact fetchLockLines_faults _ _ _
  · exact faultsIn_ok _ _

theorem noRow_faults (op : BitVec 5) (acc : Access) (s : State) :
    FaultsIn [.noRow] (noRow op acc s) := faultsIn_error (by simp [Fault.kind])

/-- The body of an op ends in no fault of another kind than its own. -/
theorem opBody_faults (op : BitVec 5) (acc : Access) (s : State) :
    FaultsIn (bodyFaults op) (opBody op acc s) := by
  revert op
  refine bitVec5_cases fun n => ?_
  fin_cases n
  · exact indexInvalidate_faults .i acc s
  · exact (flushBlock_faults s .d _ _).mono (by simp [bodyFaults, operationCode])
  · exact indexWritebackInvalidateOuter_faults .t acc s
  · exact indexWritebackInvalidateOuter_faults .s acc s
  · exact faultsIn_ok _ _
  · exact faultsIn_ok _ _
  · exact faultsIn_ok _ _
  · exact faultsIn_ok _ _
  · exact faultsIn_ok _ _
  · exact faultsIn_ok _ _
  · exact faultsIn_ok _ _
  · exact faultsIn_ok _ _
  · exact implOp_faults .i acc s
  · exact implOp_faults .d acc s
  · exact implOp_faults .t acc s
  · exact implOp_faults .s acc s
  · exact hitInvalidate_faults .i acc s
  · exact hitInvalidate_faults .d acc s
  · exact hitInvalidateOuter_faults .t acc s
  · exact hitInvalidateOuter_faults .s acc s
  · exact fill_faults .i acc s
  · exact hitWritebackInvalidate_faults .d acc s
  · exact hitWritebackInvalidateOuter_faults .t acc s
  · exact hitWritebackInvalidateOuter_faults .s acc s
  · exact noRow_faults 24 acc s
  · exact hitWriteback_faults .d acc s
  · exact hitWritebackOuter_faults .t acc s
  · exact hitWritebackOuter_faults .s acc s
  · exact fetchLock_faults .i acc s
  · exact fetchLock_faults .d acc s
  · exact noRow_faults 30 acc s
  · exact noRow_faults 31 acc s

theorem check_not_mem_bodyFaults (op : BitVec 5) : FaultKind.check ∉ bodyFaults op := by
  revert op; decide

/-- A fault of a check is a fault of the checks, not of the body. -/
theorem exec_check {i : Instr} {s : State} {f : Fault} (hk : f.kind = .check) :
    exec i s = .fault f ↔ cacheAccess i.op i.imm i.rx s = .error f := by
  rw [exec_eq]
  constructor
  · intro h
    rcases cacheInstr_fault h with ha | ⟨acc, -, hb⟩
    · exact ha
    · have := opBody_faults _ _ _ f hb
      rw [hk] at this
      exact absurd this (check_not_mem_bodyFaults i.op)
  · intro h; simp [cacheInstr, h]

/-- The checks of R61 as one equation: which one speaks, and what it answers. -/
theorem cacheAccess_eq (op : BitVec 5) (imm : BitVec 9) (rx : BitVec 3) (s : State) :
    cacheAccess op imm rx s =
      if s.cp0.cp0Usable = false then .error (.trap (.coprocessorUnusable 0) s)
      else if opImplemented s.cfg op = false then .error (.undefinedOpNotImplemented op s)
      else if (s.cfg.watchOnCache && watchMatch s (effectiveAddress s imm rx)) = true then
        .error (.trap (.watch (effectiveAddress s imm rx)) s)
      else match translate s (effectiveAddress s imm rx) with
        | .addressError => .error (.trap (.addressError .adel (effectiveAddress s imm rx)) s)
        | .tlbRefill => .error (.trap (.tlbRefill .tlbl (effectiveAddress s imm rx)) s)
        | .tlbInvalid => .error (.trap (.tlbInvalid .tlbl (effectiveAddress s imm rx)) s)
        | .ok p u h =>
          if requiresAddress s.cfg op = true ∧ u = true then .error (.undefinedUncacheableAddress s)
          else .ok ⟨cacheOfOp op, effectiveAddress s imm rx, p,
            indexAddress s.cfg (cacheOfOp op) (effectiveAddress s imm rx) p, u, h⟩ := by
  unfold cacheAccess
  cases s.cp0.cp0Usable <;> cases opImplemented s.cfg op <;>
    simp only [raise, Bool.not_true, Bool.not_false, if_true, if_false, Bool.false_eq_true,
      Bool.true_eq_false]
  split
  · rfl
  · cases translate s (effectiveAddress s imm rx) <;> simp

/-- A fault of the checks, other than an operation that is not implemented, is of kind check. -/
theorem cacheAccess_kind {op : BitVec 5} {imm : BitVec 9} {rx : BitVec 3} {s : State} {f : Fault}
    (h : cacheAccess op imm rx s = .error f) :
    f.kind = .check ∨ f = .undefinedOpNotImplemented op s := by
  rw [cacheAccess_eq] at h
  split at h
  · cases h; exact .inl rfl
  · split at h
    · cases h; exact .inr rfl
    · split at h
      · cases h; exact .inl rfl
      · split at h
        · cases h; exact .inl rfl
        · cases h; exact .inl rfl
        · cases h; exact .inl rfl
        · split at h
          · cases h; exact .inl rfl
          · cases h

/-- A fault of a part of the body comes from the op's body, and is one of its kinds. -/
theorem exec_body_fault {i : Instr} {s : State} {f : Fault} (hk : f.kind ≠ .check)
    (hn : f.kind ≠ .noRow) (h : exec i s = .fault f) : f.kind ∈ bodyFaults i.op := by
  rw [exec_eq] at h
  rcases cacheInstr_fault h with ha | ⟨acc, -, hb⟩
  · rcases cacheAccess_kind ha with h' | rfl
    · exact absurd h' hk
    · exact absurd rfl hn
  · exact opBody_faults _ _ _ f hb

end Sys2Proof.Machine
end

