-- ==== Sys2Proof/Laws/Frames.lean ====
section
/-! SUPPORT. What the operations leave unchanged: memory, Coprocessor 0, what was pending before, and the
blocks of other places. One relation, kept by every shared operation that does not drain. -/

namespace Sys2Proof.Machine

/-- What an operation without a drain leaves unchanged; `keep` says which blocks it does not write. -/
structure Frame (keep : CacheName → Nat → Prop) (s t : State) : Prop where
  mem : t.mem = s.mem
  cp0 : t.cp0 = s.cp0
  cfg : t.cfg = s.cfg
  wbq : ∃ q, t.wbq = s.wbq ++ q
  blocks : ∀ c set way, keep c set → way < wayCount s.cfg c →
    block t c set way = block s c set way

/-- The outcome, where it is a state, is in the frame. -/
def Framed (keep : CacheName → Nat → Prop) (s : State) (r : Except Fault State) : Prop :=
  ∀ t, r = .ok t → Frame keep s t

/-- The frame of an operation on one set of one cache. -/
abbrev elsewhere (c : CacheName) (set : Nat) : CacheName → Nat → Prop :=
  fun c' set' => c' ≠ c ∨ set' ≠ set

theorem Frame.refl (keep : CacheName → Nat → Prop) (s : State) : Frame keep s s :=
  ⟨rfl, rfl, rfl, ⟨[], by simp⟩, fun _ _ _ _ _ => rfl⟩

theorem Frame.trans {keep : CacheName → Nat → Prop} {s t u : State} (h : Frame keep s t)
    (h' : Frame keep t u) : Frame keep s u := by
  obtain ⟨q, hq⟩ := h.wbq
  obtain ⟨q', hq'⟩ := h'.wbq
  refine ⟨h'.mem.trans h.mem, h'.cp0.trans h.cp0, h'.cfg.trans h.cfg, ⟨q ++ q', by rw [hq', hq, List.append_assoc]⟩,
    fun c set way hk hw => ?_⟩
  rw [h'.blocks c set way hk (by rw [h.cfg]; exact hw), h.blocks c set way hk hw]

theorem Frame.weaken {keep keep' : CacheName → Nat → Prop} {s t : State} (h : Frame keep s t)
    (hk : ∀ c set, keep' c set → keep c set) : Frame keep' s t :=
  ⟨h.mem, h.cp0, h.cfg, h.wbq, fun c set way h' hw => h.blocks c set way (hk c set h') hw⟩

theorem framed_ok {keep : CacheName → Nat → Prop} {s t : State} (h : Frame keep s t) :
    Framed keep s (.ok t) := by
  intro u hu; cases hu; exact h

theorem framed_error (keep : CacheName → Nat → Prop) (s : State) (f : Fault) :
    Framed keep s (.error f) := by
  intro u hu; cases hu

theorem frame_draws (keep : CacheName → Nat → Prop) {s t : State} (h : ∃ d, t = withDraws s d) :
    Frame keep s t := by
  obtain ⟨d, rfl⟩ := h
  exact ⟨rfl, rfl, rfl, ⟨[], by simp⟩, fun _ _ _ _ _ => rfl⟩

theorem frame_enqueue (keep : CacheName → Nat → Prop) (s : State) (e : Writeback) :
    Frame keep s (enqueue s e) :=
  ⟨rfl, rfl, rfl, ⟨[e], rfl⟩, fun _ _ _ _ _ => rfl⟩

/-- A write to a block leaves the blocks elsewhere alone. -/
theorem frame_setBlock (s : State) (c : CacheName) {set way : Nat} (hw : way < wayCount s.cfg c)
    (b : Block) : Frame (elsewhere c set) s (setBlock s c set way b) := by
  refine ⟨rfl, rfl, rfl, ⟨[], by simp⟩, fun c' set' way' hk hw' => ?_⟩
  by_cases hc : c' = c
  · subst hc
    exact block_setBlock_other s b hw hw' (fun h => hk.elim (fun h' => h' rfl) (fun h' => h' h.1))
  · exact block_setBlock_cache s _ _ _ _ _ hc

theorem writeBackBlock_framed (keep : CacheName → Nat → Prop) (s : State) (c : CacheName)
    (set way : Nat) : Framed keep s (writeBackBlock s c set way) := by
  intro t h
  rw [writeBackBlock_ok h]
  exact (frame_draws keep (afterEvent_eq s)).trans (frame_enqueue keep _ _)

theorem writeBackIfDirty_framed (keep : CacheName → Nat → Prop) (s : State) (c : CacheName)
    (set way : Nat) : Framed keep s (writeBackIfDirty s c set way) := by
  unfold writeBackIfDirty
  split
  · exact writeBackBlock_framed keep s c set way
  · exact framed_ok (Frame.refl keep s)

theorem flushBlock_framed (s : State) (c : CacheName) {set way : Nat}
    (hw : way < wayCount s.cfg c) : Framed (elsewhere c set) s (flushBlock s c set way) := by
  unfold flushBlock
  split
  · exact framed_error _ _ _
  · next s1 hs =>
    rw [ownLineCheck_ok hs]
    split
    · exact framed_error _ _ _
    · next s2 hs2 =>
      have h := writeBackIfDirty_framed (elsewhere c set) s c set way s2 hs2
      exact framed_ok (h.trans (frame_setBlock s2 c (by rw [h.cfg]; exact hw) _))

theorem hitInvalidateAt_framed (s : State) (c : CacheName) (ia p : Nat) :
    Framed (elsewhere c (setIdx s.cfg c ia)) s (hitInvalidateAt s c ia p) := by
  unfold hitInvalidateAt
  split
  · exact framed_error _ _ _
  · exact framed_ok (Frame.refl _ s)
  · next w hw =>
    split
    · exact framed_error _ _ _
    · next s1 hs =>
      rw [ownLineCheck_ok hs]
      exact framed_ok (frame_setBlock s c (findHit_way_lt hw) _)

theorem hitWritebackInvalidateAt_framed (s : State) (c : CacheName) (ia p : Nat) :
    Framed (elsewhere c (setIdx s.cfg c ia)) s (hitWritebackInvalidateAt s c ia p) := by
  unfold hitWritebackInvalidateAt
  split
  · exact framed_error _ _ _
  · exact framed_ok (Frame.refl _ s)
  · next w hw => exact flushBlock_framed s c (findHit_way_lt hw)

theorem cleanAt_framed (s : State) (c : CacheName) {set way : Nat} (hw : way < wayCount s.cfg c) :
    Framed (elsewhere c set) s (cleanAt s c set way) := by
  unfold cleanAt
  split
  · split
    · exact framed_error _ _ _
    · next s1 hs =>
      have h := writeBackBlock_framed (elsewhere c set) s c set way s1 hs
      exact framed_ok (h.trans (frame_setBlock s1 c (by rw [h.cfg]; exact hw) _))
  · exact framed_ok (Frame.refl _ s)

theorem hitWritebackAt_framed (s : State) (c : CacheName) (ia p : Nat) :
    Framed (elsewhere c (setIdx s.cfg c ia)) s (hitWritebackAt s c ia p) := by
  unfold hitWritebackAt
  split
  · exact framed_error _ _ _
  · exact framed_ok (Frame.refl _ s)
  · next w hw => exact cleanAt_framed s c (findHit_way_lt hw)

theorem fillBlock_framed (s : State) (c : CacheName) (ia p : Nat) (lk : Bool) :
    Framed (elsewhere c (setIdx s.cfg c ia)) s (fillBlock s c ia p lk) := by
  unfold fillBlock
  split
  · exact framed_error _ _ _
  · next hu =>
    have hv := (mem_unlockedWays (victimWay_mem (by simpa using hu))).1
    split
    · exact framed_error _ _ _
    · next s1 hs1 =>
      have h1 := (frame_draws (elsewhere c (setIdx s.cfg c ia)) (afterWay_eq s)).trans
        (writeBackIfDirty_framed _ _ _ _ _ s1 hs1)
      split
      · exact framed_error _ _ _
      · next d s2 hd =>
        rw [(readLine_ok hd).1]
        have h2 := h1.trans (frame_draws _ (afterEvent_eq s1))
        exact framed_ok (h2.trans (frame_setBlock _ c (by rw [h2.cfg]; exact hv) _))

theorem fetchLockAt_framed (s : State) (c : CacheName) (ia p : Nat) :
    Framed (elsewhere c (setIdx s.cfg c ia)) s (fetchLockAt s c ia p) := by
  unfold fetchLockAt
  split
  · exact framed_error _ _ _
  · exact fillBlock_framed s c ia p true
  · next w hw => exact framed_ok (frame_setBlock s c (findHit_way_lt hw) _)

/-- Further lines of a Fetch and Lock write blocks of the same cache only. -/
theorem fetchLockLines_framed (c : CacheName) (ls : List Nat) (s : State) :
    Framed (fun c' _ => c' ≠ c) s (fetchLockLines c ls s) := by
  induction ls generalizing s with
  | nil => exact framed_ok (Frame.refl _ s)
  | cons a ls ih =>
    intro t h
    unfold fetchLockLines at h
    split at h
    · cases h
    · next s1 hs1 =>
      exact ((fetchLockAt_framed s c a a s1 hs1).weaken fun _ _ h => .inl h).trans (ih s1 t h)

theorem fill_framed (c : CacheName) (acc : Access) (s : State) :
    Framed (elsewhere c (setIdx s.cfg c acc.ia)) s (fill c acc s) := by
  unfold fill
  split
  · exact framed_error _ _ _
  · exact fillBlock_framed s c _ _ false
  · next w hw =>
    split
    · exact framed_ok (Frame.refl _ s)
    · split
      · exact framed_error _ _ _
      · next d s1 hd =>
        rw [(readLine_ok hd).1]
        have h := frame_draws (elsewhere c (setIdx s.cfg c acc.ia)) (afterEvent_eq s)
        exact framed_ok (h.trans (frame_setBlock _ c (by rw [h.cfg]; exact findHit_way_lt hw) _))

/-- A Fetch and Lock of one line. -/
theorem fetchLock_framed (c : CacheName) (acc : Access) (s : State) :
    Framed (fun c' set => c' ≠ c ∨ s.cfg.fetchLockExtraLines = false ∧ set ≠ setIdx s.cfg c acc.ia)
      s (fetchLock c acc s) := by
  intro t h
  unfold fetchLock at h
  split at h
  · cases h
  · next s1 hs1 =>
    have h1 := fetchLockAt_framed s c acc.ia acc.pAddr s1 hs1
    split at h
    · next hx =>
      rw [h1.cfg] at hx
      have h2 := (frame_draws (fun c' _ => c' ≠ c) (afterLines_eq s1)).trans
        (fetchLockLines_framed c _ _ t h)
      exact ((h1.weaken fun _ _ h => .inl h).trans h2).weaken fun _ _ h =>
        h.elim id (fun h => by simp [hx] at h)
    · cases h; exact h1.weaken fun _ _ h => h.imp id (·.2)

/-- An operation on T or S that does not operate on inner caches first is one on T or S alone. -/
theorem innerFirst_off {s : State} (h : s.cfg.outerOpsInnerFirst = false) (c : CacheName) (a : Nat)
    (kind : FlushKind) : innerFirst s c a kind = .ok s := by
  simp [innerFirst, h]

/-- The set that an operation with a row works on. -/
def opSet (op : BitVec 5) (s : State) (ia : Nat) : Nat :=
  if operationCode op ≤ 2 then indexedSet s (cacheOfOp op) ia else setIdx s.cfg (cacheOfOp op) ia

/-- The blocks such an operation does not write. -/
abbrev opElsewhere (op : BitVec 5) (acc : Access) (s : State) : CacheName → Nat → Prop := fun c' set =>
  c' ≠ cacheOfOp op ∨
    (operationCode op = 7 → s.cfg.fetchLockExtraLines = false) ∧ set ≠ opSet op s acc.ia

/-- The body of an operation that neither loads a tag nor is left to the implementation, and does not operate on
inner caches first, writes at most one set of its cache (Fetch and Lock of further lines: its cache). -/
theorem opBody_framed (op : BitVec 5) (acc : Access) (s : State)
    (hi : actsInnerFirst s.cfg op = false) (h1 : operationCode op ≠ 1) (h3 : operationCode op ≠ 3) :
    Framed (opElsewhere op acc s) s (opBody op acc s) := by
  have hix : ∀ c, Framed (elsewhere c (indexedSet s c acc.ia)) s (indexInvalidate c acc s) := by
    intro c
    unfold indexInvalidate
    split
    · exact framed_error _ _ _
    · next s1 hs => rw [ownLineCheck_ok hs]; exact framed_ok (frame_setBlock s c (indexed_lt s c _).2 _)
  have hst : ∀ c, Framed (elsewhere c (indexedSet s c acc.ia)) s (indexStoreTag c acc s) := by
    intro c; exact framed_ok (frame_setBlock s c (indexed_lt s c _).2 _)
  have hiw : ∀ c, Framed (elsewhere c (indexedSet s c acc.ia)) s (indexWritebackInvalidate c acc s) := by
    intro c; exact flushBlock_framed s c (indexed_lt s c _).2
  have off : outerOp op = true → [0, 4, 5, 6].contains (operationCode op) = true →
      s.cfg.outerOpsInnerFirst = false := by
    intro ho hk; unfold actsInnerFirst at hi; rw [ho, hk] at hi; simpa using hi
  have wk : ∀ {c set r}, cacheOfOp op = c → opSet op s acc.ia = set →
      Framed (elsewhere c set) s r → Framed (opElsewhere op acc s) s r := by
    rintro c set r rfl rfl h t ht
    exact (h t ht).weaken fun _ _ hh => hh.imp id (·.2)
  revert op
  refine bitVec5_cases fun n => ?_
  fin_cases n
  all_goals intro hi h1 h3 off wk
  · exact wk rfl rfl (hix .i)
  · exact wk rfl rfl (hiw .d)
  · refine wk rfl rfl ?_
    show Framed _ s (indexWritebackInvalidateOuter .t acc s)
    simp only [indexWritebackInvalidateOuter, indexInnerFirst, innerFirst_off (off rfl rfl), ite_self]; exact hiw .t
  · refine wk rfl rfl ?_
    show Framed _ s (indexWritebackInvalidateOuter .s acc s)
    simp only [indexWritebackInvalidateOuter, indexInnerFirst, innerFirst_off (off rfl rfl), ite_self]; exact hiw .s
  · exact absurd rfl h1
  · exact absurd rfl h1
  · exact absurd rfl h1
  · exact absurd rfl h1
  · exact wk rfl rfl (hst .i)
  · exact wk rfl rfl (hst .d)
  · exact wk rfl rfl (hst .t)
  · exact wk rfl rfl (hst .s)
  · exact absurd rfl h3
  · exact absurd rfl h3
  · exact absurd rfl h3
  · exact absurd rfl h3
  · refine wk rfl rfl ?_
    show Framed _ s (hitInvalidate .i acc s)
    rw [hitInvalidate, thenGlobalize_eq]; exact hitInvalidateAt_framed _ _ _ _
  · refine wk rfl rfl ?_
    show Framed _ s (hitInvalidate .d acc s)
    rw [hitInvalidate, thenGlobalize_eq]; exact hitInvalidateAt_framed _ _ _ _
  · refine wk rfl rfl ?_
    show Framed _ s (hitInvalidateOuter .t acc s)
    simp only [hitInvalidateOuter, innerFirst_off (off rfl rfl)]
    rw [hitInvalidate, thenGlobalize_eq]; exact hitInvalidateAt_framed _ _ _ _
  · refine wk rfl rfl ?_
    show Framed _ s (hitInvalidateOuter .s acc s)
    simp only [hitInvalidateOuter, innerFirst_off (off rfl rfl)]
    rw [hitInvalidate, thenGlobalize_eq]; exact hitInvalidateAt_framed _ _ _ _
  · exact wk rfl rfl (fill_framed .i acc s)
  · refine wk rfl rfl ?_
    show Framed _ s (hitWritebackInvalidate .d acc s)
    rw [hitWritebackInvalidate, thenGlobalize_eq]; exact hitWritebackInvalidateAt_framed _ _ _ _
  · refine wk rfl rfl ?_
    show Framed _ s (hitWritebackInvalidateOuter .t acc s)
    simp only [hitWritebackInvalidateOuter, innerFirst_off (off rfl rfl)]
    rw [hitWritebackInvalidate, thenGlobalize_eq]; exact hitWritebackInvalidateAt_framed _ _ _ _
  · refine wk rfl rfl ?_
    show Framed _ s (hitWritebackInvalidateOuter .s acc s)
    simp only [hitWritebackInvalidateOuter, innerFirst_off (off rfl rfl)]
    rw [hitWritebackInvalidate, thenGlobalize_eq]; exact hitWritebackInvalidateAt_framed _ _ _ _
  · exact framed_error _ _ _
  · refine wk rfl rfl ?_
    show Framed _ s (hitWriteback .d acc s)
    rw [hitWriteback, thenGlobalize_eq]; exact hitWritebackAt_framed _ _ _ _
  · refine wk rfl rfl ?_
    show Framed _ s (hitWritebackOuter .t acc s)
    simp only [hitWritebackOuter, innerFirst_off (off rfl rfl)]
    rw [hitWriteback, thenGlobalize_eq]; exact hitWritebackAt_framed _ _ _ _
  · refine wk rfl rfl ?_
    show Framed _ s (hitWritebackOuter .s acc s)
    simp only [hitWritebackOuter, innerFirst_off (off rfl rfl)]
    rw [hitWriteback, thenGlobalize_eq]; exact hitWritebackAt_framed _ _ _ _
  · intro t ht
    exact (fetchLock_framed .i acc s t ht).weaken fun _ _ h => h.imp id fun h => ⟨h.1 rfl, h.2⟩
  · intro t ht
    exact (fetchLock_framed .d acc s t ht).weaken fun _ _ h => h.imp id fun h => ⟨h.1 rfl, h.2⟩
  · exact framed_error _ _ _
  · exact framed_error _ _ _

end Sys2Proof.Machine
end

