-- ==== Sys2Proof/Laws/Geometry.lean ====
section
/-! SUPPORT. What a well-formed configuration says of translation: the pieces are exactly what the first region
in force translates, kseg0 is unmapped, and set indices are kept exactly where `keepsSets` says so. -/

namespace Sys2Proof.Machine

/-- An address is in an interval. -/
abbrev inInterval (v : Nat) (iv : Nat × Nat) : Prop := iv.1 ≤ v ∧ v < iv.2

theorem mem_cutOut {r : AddrRange} {iv : Nat × Nat} {v : Nat} :
    (∃ p ∈ cutOut r iv, inInterval v p) ↔ inInterval v iv ∧ r.contains v = false := by
  simp only [cutOut, AddrRange.contains, inInterval]
  constructor
  · rintro ⟨p, hp, hv⟩
    simp only [List.mem_filter, List.mem_cons, List.not_mem_nil, or_false] at hp
    rcases hp.1 with rfl | rfl <;> simp at hv ⊢ <;> omega
  · rintro ⟨hv, hr⟩
    simp at hr
    by_cases hb : r.base ≤ v
    · have := hr hb
      exact ⟨(max iv.1 (r.base + r.size), iv.2), by simp; omega, by simp; omega⟩
    · exact ⟨(iv.1, min iv.2 r.base), by simp; omega, by simp; omega⟩

theorem mem_within {r : AddrRange} {iv : Nat × Nat} {v : Nat} :
    (∃ p ∈ within r iv, inInterval v p) ↔ inInterval v iv ∧ r.contains v = true := by
  simp only [within, AddrRange.contains, inInterval, List.mem_filter, List.mem_singleton]
  constructor
  · rintro ⟨p, ⟨rfl, -⟩, hv⟩
    simp at hv ⊢; omega
  · rintro ⟨hv, hr⟩
    simp at hr
    exact ⟨_, ⟨rfl, by simp; omega⟩, by simp; omega⟩

theorem mem_flatMap_intervals {f : Nat × Nat → List (Nat × Nat)} {ivs : List (Nat × Nat)} {v : Nat} :
    (∃ p ∈ ivs.flatMap f, inInterval v p) ↔ ∃ iv ∈ ivs, ∃ p ∈ f iv, inInterval v p := by
  simp only [List.mem_flatMap]
  exact ⟨fun ⟨p, ⟨iv, hm, hp⟩, hv⟩ => ⟨iv, hm, p, hp, hv⟩, fun ⟨iv, hm, p, hp, hv⟩ => ⟨p, ⟨iv, hm, hp⟩, hv⟩⟩

/-- What is left of some intervals: the addresses of the intervals that no run holds. -/
theorem mem_uncovered {rs : List AddrRange} {ivs : List (Nat × Nat)} {v : Nat} :
    (∃ p ∈ uncovered rs ivs, inInterval v p) ↔
      (∃ iv ∈ ivs, inInterval v iv) ∧ ∀ r ∈ rs, r.contains v = false := by
  induction rs generalizing ivs with
  | nil => simp [uncovered]
  | cons r rs ih =>
    rw [uncovered, ih, mem_flatMap_intervals]
    simp only [mem_cutOut, List.forall_mem_cons]
    exact ⟨fun ⟨⟨iv, hm, hv, hr⟩, h⟩ => ⟨⟨iv, hm, hv⟩, hr, h⟩, fun ⟨⟨iv, hm, hv⟩, hr, h⟩ => ⟨⟨iv, hm, hv, hr⟩, h⟩⟩

/-- The pieces of a region: the addresses of the intervals for which it is the first to hold them. -/
theorem mem_pieces {rs : List Region} {ivs : List (Nat × Nat)} {v : Nat} {g : Region} :
    (∃ iv, (g, iv) ∈ pieces rs ivs ∧ inInterval v iv) ↔
      (∃ iv ∈ ivs, inInterval v iv) ∧ (rs.find? fun r => r.contains v) = some g := by
  induction rs generalizing ivs with
  | nil => simp [pieces]
  | cons r rs ih =>
    have hsplit : (∃ iv, (g, iv) ∈ pieces (r :: rs) ivs ∧ inInterval v iv) ↔
        (g = r ∧ ∃ p ∈ ivs.flatMap (within r.range), inInterval v p) ∨
          ∃ iv, (g, iv) ∈ pieces rs (ivs.flatMap (cutOut r.range)) ∧ inInterval v iv := by
      simp only [pieces, List.mem_append, List.mem_map, Prod.mk.injEq]
      constructor
      · rintro ⟨iv, ⟨p, hp, rfl, rfl⟩ | h, hv⟩
        · exact .inl ⟨rfl, p, hp, hv⟩
        · exact .inr ⟨iv, h, hv⟩
      · rintro (⟨rfl, p, hp, hv⟩ | ⟨iv, h, hv⟩)
        · exact ⟨p, .inl ⟨p, hp, rfl, rfl⟩, hv⟩
        · exact ⟨iv, .inr h, hv⟩
    rw [hsplit, ih, mem_flatMap_intervals, mem_flatMap_intervals]
    simp only [mem_within, mem_cutOut, List.find?_cons, Region.contains]
    cases r.range.contains v <;> simp [eq_comm, and_comm]

/-- A piece of a region lies within the region. -/
theorem base_le_of_mem_pieces {rs : List Region} {ivs : List (Nat × Nat)} {g : Region} {iv : Nat × Nat}
    (h : (g, iv) ∈ pieces rs ivs) : g.base ≤ iv.1 := by
  induction rs generalizing ivs with
  | nil => cases h
  | cons r rs ih =>
    simp only [pieces, List.mem_append, List.mem_map, List.mem_flatMap, Prod.mk.injEq] at h
    rcases h with ⟨p, ⟨q, -, hp⟩, rfl, rfl⟩ | h
    · simp only [within, List.mem_filter, List.mem_singleton] at hp
      rw [hp.1]
      exact le_max_right _ _
    · exact ih h

/-- The translations in force in a mode are those of the first region in force that holds the address. -/
theorem mem_translations {cfg : Cfg} {kernel : Bool} {v : Nat} {g : Region} :
    (∃ iv, (g, iv) ∈ translations cfg kernel ∧ inInterval v iv) ↔
      (∃ iv ∈ addressesIn cfg kernel, inInterval v iv) ∧
        (cfg.regions.find? fun r => r.covers kernel v) = some g := by
  rw [translations, mem_pieces, regionsIn, List.find?_filter]
  simp only [Region.covers, Bool.decide_and, Bool.decide_eq_true]

/-- The addresses that a mode's regions translate: all of 32 bits, but outside kernel mode no kernel
address. -/
theorem mem_addressesIn {cfg : Cfg} {kernel : Bool} {v : Nat} :
    (∃ iv ∈ addressesIn cfg kernel, inInterval v iv) ↔
      v < 2 ^ 32 ∧ (kernel = false → (cfg.kernelSpace.any fun r => r.contains v) = false) := by
  cases kernel
  · simp only [addressesIn, Bool.false_eq_true, if_false, mem_uncovered]
    simp [inInterval]
  · simp [addressesIn, inInterval]

/-- In a well-formed configuration every address of kseg0 that a mode's regions translate has a region in
force, and an unmapped one. -/
theorem unmapped_of_kseg0Ok {cfg : Cfg} {kernel : Bool} (h : kseg0Ok cfg kernel = true) {v : Nat}
    (h1 : 0x80000000 ≤ v) (h2 : v < 0xA0000000)
    (hk : kernel = false → (cfg.kernelSpace.any fun r => r.contains v) = false) :
    ∃ g, (cfg.regions.find? fun r => r.covers kernel v) = some g ∧ g.isUnmapped = true := by
  simp only [kseg0Ok, Bool.and_eq_true, List.all_eq_true] at h
  have ha : ∃ iv ∈ addressesIn cfg kernel, inInterval v iv := mem_addressesIn.2 ⟨by omega, hk⟩
  have hsome : ((cfg.regions.find? fun r => r.covers kernel v)).isSome := by
    rw [List.find?_isSome]
    by_contra hn
    push Not at hn
    have : ∃ p ∈ uncovered ((regionsIn cfg kernel).map Region.range)
        ((addressesIn cfg kernel).flatMap (within ⟨0x80000000, 0x20000000⟩)), inInterval v p := by
      rw [mem_uncovered, mem_flatMap_intervals]
      refine ⟨?_, ?_⟩
      · obtain ⟨iv, hm, hv⟩ := ha
        exact ⟨iv, hm, mem_within.2 ⟨hv, by simp [AddrRange.contains]; omega⟩⟩
      · simp only [List.forall_mem_map, regionsIn, List.mem_filter]
        rintro r ⟨hr, hf⟩
        have := hn r hr
        simp only [Region.covers, Region.contains, hf, Bool.true_and] at this
        simpa using this
    obtain ⟨p, hp, -⟩ := this
    rw [List.isEmpty_iff.1 h.2] at hp
    cases hp
  obtain ⟨g, hg⟩ := Option.isSome_iff_exists.1 hsome
  obtain ⟨iv, hm, hv⟩ := mem_translations.2 ⟨ha, hg⟩
  refine ⟨g, hg, ?_⟩
  have := h.1 _ hm
  simp only [Bool.or_eq_true, decide_eq_true_eq] at this
  rcases this with (h | h) | h
  · omega
  · omega
  · exact h

/-- Two addresses that agree modulo the way size have the same set index (R22). -/
theorem setIdx_congr {cfg : Cfg} {c : CacheName} {a b : Nat}
    (h : a % waySize cfg c = b % waySize cfg c) : setIdx cfg c a = setIdx cfg c b := by
  have key : ∀ x, setIdx cfg c x = x % waySize cfg c / lineBytes cfg c := fun x => by
    rw [setIdx, waySize, Nat.mod_mul_right_div_self]
  rw [key, key, h]

/-- Addresses that step from a line into the next have another set, where there are two sets or more. -/
theorem setIdx_succ {cfg : Cfg} {c : CacheName} {x : Nat} (h2 : 2 ≤ setCount cfg c) :
    setIdx cfg c (x + 1) = setIdx cfg c x ↔ (x + 1) % lineBytes cfg c ≠ 0 := by
  have hl : 0 < lineBytes cfg c := Nat.two_pow_pos _
  simp only [setIdx]
  rw [Nat.succ_div]
  split
  · next hd =>
    have : (x + 1) % lineBytes cfg c = 0 := Nat.mod_eq_zero_of_dvd hd
    simp only [this, ne_eq, not_true, iff_false]
    generalize x / lineBytes cfg c = y
    intro he
    have h1 := Nat.add_mod y 1 (setCount cfg c)
    rw [he, Nat.mod_eq_of_lt (show 1 < setCount cfg c by omega)] at h1
    have hlt := Nat.mod_lt y (show 0 < setCount cfg c by omega)
    rcases Nat.lt_or_ge (y % setCount cfg c + 1) (setCount cfg c) with h | h
    · rw [Nat.mod_eq_of_lt h] at h1; omega
    · rw [show y % setCount cfg c + 1 = setCount cfg c by omega, Nat.mod_self] at h1; omega
  · next hd =>
    have : (x + 1) % lineBytes cfg c ≠ 0 := fun h => hd (Nat.dvd_of_mod_eq_zero h)
    simp [this]

/-- Two addresses of one set at the same place in their lines agree modulo the way size (R22). -/
theorem mod_waySize_eq {cfg : Cfg} {c : CacheName} {a b : Nat} (h : setIdx cfg c a = setIdx cfg c b)
    (hl : a % lineBytes cfg c = b % lineBytes cfg c) : a % waySize cfg c = b % waySize cfg c := by
  have key : ∀ x, x % waySize cfg c = x % lineBytes cfg c + lineBytes cfg c * setIdx cfg c x := fun x => by
    rw [waySize, Nat.mod_mul]; rfl
  rw [key, key, h, hl]

/-- Within a line an address and the line's first have the same set. -/
theorem setIdx_add {cfg : Cfg} {c : CacheName} {v j : Nat}
    (h : v % lineBytes cfg c + j < lineBytes cfg c) : setIdx cfg c (v + j) = setIdx cfg c v := by
  have hl : 0 < lineBytes cfg c := Nat.two_pow_pos _
  have : (v + j) / lineBytes cfg c = v / lineBytes cfg c := by
    conv_lhs => rw [← Nat.div_add_mod v (lineBytes cfg c), Nat.add_assoc, Nat.mul_add_div hl]
    rw [Nat.div_eq_of_lt h, Nat.add_zero]
  rw [setIdx, setIdx, this]

/-- `keepsSets` says exactly that the set indices of the two runs of addresses are the same (R4). -/
theorem keepsSets_iff {cfg : Cfg} {c : CacheName} {v p n : Nat} :
    keepsSets cfg c v p n = true ∨ n = 0 ↔ ∀ j < n, setIdx cfg c (v + j) = setIdx cfg c (p + j) := by
  have hl : 0 < lineBytes cfg c := Nat.two_pow_pos _
  have hs : 0 < setCount cfg c := Nat.two_pow_pos _
  simp only [keepsSets, Bool.or_eq_true, Bool.and_eq_true, decide_eq_true_eq]
  constructor
  · rintro (((h | h) | ⟨⟨h, hv⟩, hp⟩) | rfl) j hj
    · simp [setIdx, h, Nat.mod_one]
    · exact setIdx_congr (by rw [Nat.add_mod, ← h, ← Nat.add_mod])
    · rw [setIdx_add (by omega), setIdx_add (by omega), h]
    · omega
  · intro h
    by_cases hn : n = 0
    · exact .inr hn
    refine .inl ?_
    by_cases h1 : setCount cfg c = 1
    · exact .inl (.inl h1)
    have h2 : 2 ≤ setCount cfg c := by omega
    by_cases hw : p % waySize cfg c = v % waySize cfg c
    · exact .inl (.inr hw)
    refine .inr ?_
    have h0 : setIdx cfg c v = setIdx cfg c p := h 0 (by omega)
    have cross : ∀ j, j + 1 < n →
        ((v + j + 1) % lineBytes cfg c ≠ 0 ↔ (p + j + 1) % lineBytes cfg c ≠ 0) := fun j hj => by
      rw [← setIdx_succ h2, ← setIdx_succ h2, h j (by omega), Nat.add_assoc, Nat.add_assoc, h (j + 1) hj]
    have noCross : ∀ j, j + 1 < n → (v + j + 1) % lineBytes cfg c ≠ 0 := fun j hj hz => by
      have hz' := not_not.1 (mt (cross j hj).2 (not_not.2 hz))
      refine hw (mod_waySize_eq h0.symm ?_)
      have e : (p + (j + 1)) % lineBytes cfg c = (v + (j + 1)) % lineBytes cfg c := by
        rw [← Nat.add_assoc, ← Nat.add_assoc, hz, hz']
      exact Nat.ModEq.add_right_cancel' (j + 1) e
    have fits : ∀ x, (∀ j, j + 1 < n → (x + j + 1) % lineBytes cfg c ≠ 0) →
        x % lineBytes cfg c + n ≤ lineBytes cfg c := fun x hx => by
      by_contra hc
      have hlt := Nat.mod_lt x hl
      refine hx (lineBytes cfg c - x % lineBytes cfg c - 1) (by omega) ?_
      have : x + (lineBytes cfg c - x % lineBytes cfg c - 1) + 1
          = lineBytes cfg c * (x / lineBytes cfg c + 1) := by
        have := Nat.div_add_mod x (lineBytes cfg c)
        rw [Nat.mul_add, Nat.mul_one]; omega
      rw [this, Nat.mul_mod_right]
    exact ⟨⟨h0, fits v noCross⟩, fits p fun j hj => (cross j hj).1 (noCross j hj)⟩

/-- What a well-formed configuration says of every translation it performs: the physical address exists
(R30), and a cache that is indexed by the virtual address has the same set for both (R4). -/
theorem translation_ok {cfg : Cfg} {kernel : Bool} (h : translationsOk cfg kernel = true) {v p : Nat}
    {g : Region} (ha : ∃ iv ∈ addressesIn cfg kernel, inInterval v iv)
    (hf : (cfg.regions.find? fun r => r.covers kernel v) = some g) (hp : g.phys? = some p) :
    p + (v - g.base) < 2 ^ cfg.paBits ∧ ∀ c, present cfg c = true →
      (cfg.caches.get c).indexUsesPhysical = false → setIdx cfg c v = setIdx cfg c (p + (v - g.base)) := by
  obtain ⟨iv, hm, h1, h2⟩ := mem_translations.2 ⟨ha, hf⟩
  have hb : g.base ≤ v := by
    have := List.find?_some hf
    simp only [Region.covers, Region.contains, Region.range, AddrRange.contains, Bool.and_eq_true] at this
    exact of_decide_eq_true this.2.1
  have hlo : g.base ≤ iv.1 := base_le_of_mem_pieces hm
  simp only [translationsOk, Bool.and_eq_true, List.all_eq_true] at h
  have ht := h.1 _ hm
  simp only [translationOk, hp, Bool.and_eq_true, decide_eq_true_eq] at ht
  refine ⟨by omega, fun c hc hi => ?_⟩
  have hk := List.all_eq_true.1 ht.2 c (by cases c <;> simp)
  simp only [hc, hi, Bool.not_true, Bool.false_or] at hk
  have := keepsSets_iff.1 (.inl hk) (v - iv.1) (by omega)
  rwa [show iv.1 + (v - iv.1) = v by omega,
    show p + (iv.1 - g.base) + (v - iv.1) = p + (v - g.base) by omega] at this

end Sys2Proof.Machine
end

