-- ==== Sys2Proof/Laws/PerInstr.lean ====
section
/-! SUPPORT. One fact per instruction, as syntax: its word has the fixed bits of R51 and its own op field. -/

namespace Sys2Proof

/-- Every word that is encoded has the fixed bits of the format (R51). -/
theorem encodeFields_fixed (op : BitVec 5) (imm : BitVec 9) (rx : BitVec 3) :
    encodeFields op imm rx &&& fixedMask = fixedMatch := by
  apply BitVec.eq_of_getLsbD_eq
  intro k hk
  unfold encodeFields fixedMask fixedMatch
  simp only [BitVec.getLsbD_and, BitVec.getLsbD_append]
  interval_cases k <;> simp

/-- The op field of an encoded word (R48). -/
theorem opField_encodeFields (op : BitVec 5) (imm : BitVec 9) (rx : BitVec 3) :
    opField (encodeFields op imm rx) = op := by
  apply BitVec.eq_of_getLsbD_eq
  intro k hk
  unfold opField wordField encodeFields
  simp only [BitVec.getLsbD_extractLsb', BitVec.getLsbD_append]
  interval_cases k <;> simp

end Sys2Proof

namespace Sys2Proof.Laws.EncodingFits

/-- The word of an instruction has the fixed bits of R51 and the instruction's op in bits 20 to 16. -/
def Statement (i : Instr) : Prop :=
  encodeWord i &&& fixedMask = fixedMatch ∧ opField (encodeWord i) = i.op

theorem cache (op : BitVec 5) (imm : BitVec 9) (rx : BitVec 3) : Statement (.cache op imm rx) :=
  ⟨encodeFields_fixed _ _ _, opField_encodeFields _ _ _⟩

theorem indexInvalidateI (imm : BitVec 9) (rx : BitVec 3) : Statement (.indexInvalidateI imm rx) :=
  ⟨encodeFields_fixed _ _ _, opField_encodeFields _ _ _⟩

theorem indexWritebackInvalidateD (imm : BitVec 9) (rx : BitVec 3) : Statement (.indexWritebackInvalidateD imm rx) :=
  ⟨encodeFields_fixed _ _ _, opField_encodeFields _ _ _⟩

theorem indexWritebackInvalidateT (imm : BitVec 9) (rx : BitVec 3) : Statement (.indexWritebackInvalidateT imm rx) :=
  ⟨encodeFields_fixed _ _ _, opField_encodeFields _ _ _⟩

theorem indexWritebackInvalidateS (imm : BitVec 9) (rx : BitVec 3) : Statement (.indexWritebackInvalidateS imm rx) :=
  ⟨encodeFields_fixed _ _ _, opField_encodeFields _ _ _⟩

theorem indexLoadTagI (imm : BitVec 9) (rx : BitVec 3) : Statement (.indexLoadTagI imm rx) :=
  ⟨encodeFields_fixed _ _ _, opField_encodeFields _ _ _⟩

theorem indexLoadTagD (imm : BitVec 9) (rx : BitVec 3) : Statement (.indexLoadTagD imm rx) :=
  ⟨encodeFields_fixed _ _ _, opField_encodeFields _ _ _⟩

theorem indexLoadTagT (imm : BitVec 9) (rx : BitVec 3) : Statement (.indexLoadTagT imm rx) :=
  ⟨encodeFields_fixed _ _ _, opField_encodeFields _ _ _⟩

theorem indexLoadTagS (imm : BitVec 9) (rx : BitVec 3) : Statement (.indexLoadTagS imm rx) :=
  ⟨encodeFields_fixed _ _ _, opField_encodeFields _ _ _⟩

theorem indexStoreTagI (imm : BitVec 9) (rx : BitVec 3) : Statement (.indexStoreTagI imm rx) :=
  ⟨encodeFields_fixed _ _ _, opField_encodeFields _ _ _⟩

theorem indexStoreTagD (imm : BitVec 9) (rx : BitVec 3) : Statement (.indexStoreTagD imm rx) :=
  ⟨encodeFields_fixed _ _ _, opField_encodeFields _ _ _⟩

theorem indexStoreTagT (imm : BitVec 9) (rx : BitVec 3) : Statement (.indexStoreTagT imm rx) :=
  ⟨encodeFields_fixed _ _ _, opField_encodeFields _ _ _⟩

theorem indexStoreTagS (imm : BitVec 9) (rx : BitVec 3) : Statement (.indexStoreTagS imm rx) :=
  ⟨encodeFields_fixed _ _ _, opField_encodeFields _ _ _⟩

theorem implDependentI (imm : BitVec 9) (rx : BitVec 3) : Statement (.implDependentI imm rx) :=
  ⟨encodeFields_fixed _ _ _, opField_encodeFields _ _ _⟩

theorem implDependentD (imm : BitVec 9) (rx : BitVec 3) : Statement (.implDependentD imm rx) :=
  ⟨encodeFields_fixed _ _ _, opField_encodeFields _ _ _⟩

theorem implDependentT (imm : BitVec 9) (rx : BitVec 3) : Statement (.implDependentT imm rx) :=
  ⟨encodeFields_fixed _ _ _, opField_encodeFields _ _ _⟩

theorem implDependentS (imm : BitVec 9) (rx : BitVec 3) : Statement (.implDependentS imm rx) :=
  ⟨encodeFields_fixed _ _ _, opField_encodeFields _ _ _⟩

theorem hitInvalidateI (imm : BitVec 9) (rx : BitVec 3) : Statement (.hitInvalidateI imm rx) :=
  ⟨encodeFields_fixed _ _ _, opField_encodeFields _ _ _⟩

theorem hitInvalidateD (imm : BitVec 9) (rx : BitVec 3) : Statement (.hitInvalidateD imm rx) :=
  ⟨encodeFields_fixed _ _ _, opField_encodeFields _ _ _⟩

theorem hitInvalidateT (imm : BitVec 9) (rx : BitVec 3) : Statement (.hitInvalidateT imm rx) :=
  ⟨encodeFields_fixed _ _ _, opField_encodeFields _ _ _⟩

theorem hitInvalidateS (imm : BitVec 9) (rx : BitVec 3) : Statement (.hitInvalidateS imm rx) :=
  ⟨encodeFields_fixed _ _ _, opField_encodeFields _ _ _⟩

theorem fillI (imm : BitVec 9) (rx : BitVec 3) : Statement (.fillI imm rx) :=
  ⟨encodeFields_fixed _ _ _, opField_encodeFields _ _ _⟩

theorem hitWritebackInvalidateD (imm : BitVec 9) (rx : BitVec 3) : Statement (.hitWritebackInvalidateD imm rx) :=
  ⟨encodeFields_fixed _ _ _, opField_encodeFields _ _ _⟩

theorem hitWritebackInvalidateT (imm : BitVec 9) (rx : BitVec 3) : Statement (.hitWritebackInvalidateT imm rx) :=
  ⟨encodeFields_fixed _ _ _, opField_encodeFields _ _ _⟩

theorem hitWritebackInvalidateS (imm : BitVec 9) (rx : BitVec 3) : Statement (.hitWritebackInvalidateS imm rx) :=
  ⟨encodeFields_fixed _ _ _, opField_encodeFields _ _ _⟩

theorem noRowWritebackI (imm : BitVec 9) (rx : BitVec 3) : Statement (.noRowWritebackI imm rx) :=
  ⟨encodeFields_fixed _ _ _, opField_encodeFields _ _ _⟩

theorem hitWritebackD (imm : BitVec 9) (rx : BitVec 3) : Statement (.hitWritebackD imm rx) :=
  ⟨encodeFields_fixed _ _ _, opField_encodeFields _ _ _⟩

theorem hitWritebackT (imm : BitVec 9) (rx : BitVec 3) : Statement (.hitWritebackT imm rx) :=
  ⟨encodeFields_fixed _ _ _, opField_encodeFields _ _ _⟩

theorem hitWritebackS (imm : BitVec 9) (rx : BitVec 3) : Statement (.hitWritebackS imm rx) :=
  ⟨encodeFields_fixed _ _ _, opField_encodeFields _ _ _⟩

theorem fetchLockI (imm : BitVec 9) (rx : BitVec 3) : Statement (.fetchLockI imm rx) :=
  ⟨encodeFields_fixed _ _ _, opField_encodeFields _ _ _⟩

theorem fetchLockD (imm : BitVec 9) (rx : BitVec 3) : Statement (.fetchLockD imm rx) :=
  ⟨encodeFields_fixed _ _ _, opField_encodeFields _ _ _⟩

theorem noRowFetchLockT (imm : BitVec 9) (rx : BitVec 3) : Statement (.noRowFetchLockT imm rx) :=
  ⟨encodeFields_fixed _ _ _, opField_encodeFields _ _ _⟩

theorem noRowFetchLockS (imm : BitVec 9) (rx : BitVec 3) : Statement (.noRowFetchLockS imm rx) :=
  ⟨encodeFields_fixed _ _ _, opField_encodeFields _ _ _⟩

end Sys2Proof.Laws.EncodingFits
end

