-- ==== Sys2Proof/Tests/Slice0.lean ====
section
/-! SUPPORT. The model's own tests: words written out from the encoding (R46, R51), the spec's vectors
(spec/95_test_vectors.md), and for each obligation with hypotheses a state that meets them. -/

namespace Sys2Proof.Tests

open Sys2Proof Sys2Proof.Machine

/-! ### Helpers -/

/-- `pat(k)` of spec 95: the line k, k+1, ..., k+31. -/
def pat (k : Nat) : List Byte := (List.range 32).map fun j => BitVec.ofNat 8 (k + j)

/-- A line of 64 bytes. -/
def pat64 (k : Nat) : List Byte := pat k ++ pat (k + 32)

/-- The block `{v d l ptag data}` of spec 95. -/
def blk (v d l : Bool) (ptag : Nat) (data : List Byte) : Block := ⟨v, d, l, ptag, data⟩

/-- The start state of spec 95's vectors: REFCFG, pc = 0x80010000, everything else 0, and draws that are
all ok. The way drawn is 0. -/
def ref : State :=
  { State.reset with
    pc := 0x80010000
    draws := { schedule := [], events := [.ok, .ok, .ok, .ok], ways := [0, 0], lines := [], impl := [], used := 0 } }

/-- The state with the base register r4 (`rx` = 4) set. -/
def base (s : State) (v : Word) : State := writeReg s 4 v

/-- The state with draws of line transfers. -/
def events (s : State) (es : List TransferEvent) : State :=
  withDraws s { s.draws with events := es }

/-- REFCFG with a write-back S and a write-through T of 64-byte lines and every optional operation. -/
def fourCfg : Cfg :=
  { refCfg with
    caches := ⟨refCacheCfg true false, refCacheCfg true true,
      { refCacheCfg true false with lineBits := 6, indexUsesPhysical := true },
      { refCacheCfg true true with lineBits := 6, indexUsesPhysical := true }⟩
    optionalOps := [4, 5, 6, 7, 12, 13, 14, 15, 17, 18, 19, 20, 25, 26, 27, 28, 29] }

/-- The start state with four caches. -/
def four : State := { ref with cfg := fourCfg }

/-- The start state of an implementation that operates on the inner caches first. -/
def fourFirst : State := { ref with cfg := { fourCfg with outerOpsInnerFirst := true } }

/-- The start state where the implementation-dependent operation on I takes an address. -/
def fourTakes : State :=
  { ref with cfg := { fourCfg with
      caches := fourCfg.caches.set .i { refCacheCfg true false with implTakesAddress := true } } }

/-- The state with draws of implementation-dependent operations. -/
def impls (s : State) (rs : List ImplResult) : State := withDraws s { s.draws with impl := rs }

/-- The state with a schedule. -/
def waits (s : State) (ns : List Nat) : State := withDraws s { s.draws with schedule := ns }

/-- REFCFG with a physical space of 28 bits: both halves of kseg0 and of kseg1 map to all of it. -/
def smallCfg : Cfg :=
  { refCfg with
    paBits := 28
    regions := [⟨0x80000000, 0x10000000, true, true, .unmapped 0 false false⟩,
      ⟨0x90000000, 0x10000000, true, true, .unmapped 0 false false⟩,
      ⟨0xA0000000, 0x10000000, true, true, .unmapped 0 true false⟩,
      ⟨0xB0000000, 0x10000000, true, true, .unmapped 0 true false⟩] }

/-- A next state, if there is one. -/
def nextOf : Host.Outcome State Fault Refusal → Option State
  | .next s => some s
  | .fault _ => none
  | .refused _ => none

def faultOf : Host.Outcome State Fault Refusal → Option Fault
  | .next _ => none
  | .fault f => some f
  | .refused _ => none

def completes (o : Host.Outcome State Fault Refusal) : Bool := (nextOf o).isSome

theorem next_of_completes {o : Host.Outcome State Fault Refusal} (h : completes o = true) :
    ∃ t, o = .next t := by
  cases o <;> first | exact ⟨_, rfl⟩ | cases h

/-- The block at a place after an instruction, and what is pending. -/
def after (i : Instr) (s : State) (c : CacheName) (set way : Nat) : Option (Block × List Writeback) :=
  (nextOf (exec i s)).map fun t => (block t c set way, t.wbq)

/-- The answer of an operation, if it is one. -/
def okOf {α : Type} : Except Fault α → Option α
  | .ok a => some a
  | .error _ => none

theorem ok_of_okOf {α : Type} {r : Except Fault α} (h : (okOf r).isSome = true) : ∃ a, r = .ok a := by
  cases r <;> first | exact ⟨_, rfl⟩ | cases h

/-- `a` with r4 = v and one block set. -/
def hit (a : State) (v : Word) (c : CacheName) (set way : Nat) (b : Block) : State :=
  setBlock (base a v) c set way b

/-- The op that an instruction stops on as not implemented. -/
def notImplementedOp (o : Host.Outcome State Fault Refusal) : Option (BitVec 5) :=
  match faultOf o with
  | some (.undefinedOpNotImplemented op _) => some op
  | _ => none

/-- The tag registers after an instruction. -/
def tagAfter (i : Instr) (s : State) (c : CacheName) : Option (Word × Word × Word) :=
  (nextOf (exec i s)).map fun t => (tagLo t c, tagHi t c, dataLo t c)

/-! ### Encoding -/

/-- The row CACHE's words belong to its variants: the term is refused, the variant is not. -/
theorem test_wellFormed : Instr.wellFormed (.cache 9 0 4) = false ∧
    Instr.wellFormed (.indexStoreTagD 0 4) = true := by decide

/-- Words of ops 0 to 7, bit by bit from the figure of R46: 11110 00 Imm[8:5] op 11010 rx 101 Imm[4:0]. -/
theorem test_decode_ops_0_to_7 :
    decodeWord 0b11110_00_0000_00000_11010_100_101_00000 = some (.indexInvalidateI 0x000 4) ∧
    decodeWord 0b11110_00_1111_00001_11010_111_101_11111 = some (.indexWritebackInvalidateD 0x1FF 7) ∧
    decodeWord 0b11110_00_1000_00010_11010_010_101_00000 = some (.indexWritebackInvalidateT 0x100 2) ∧
    decodeWord 0b11110_00_0111_00011_11010_101_101_11111 = some (.indexWritebackInvalidateS 0x0FF 5) ∧
    decodeWord 0b11110_00_0000_00100_11010_000_101_00000 = some (.indexLoadTagI 0x000 0) ∧
    decodeWord 0b11110_00_1111_00101_11010_011_101_11111 = some (.indexLoadTagD 0x1FF 3) ∧
    decodeWord 0b11110_00_1000_00110_11010_110_101_00000 = some (.indexLoadTagT 0x100 6) ∧
    decodeWord 0b11110_00_0111_00111_11010_001_101_11111 = some (.indexLoadTagS 0x0FF 1) := by decide

/-- Words of ops 8 to 15, bit by bit from the figure of R46: 11110 00 Imm[8:5] op 11010 rx 101 Imm[4:0]. -/
theorem test_decode_ops_8_to_15 :
    decodeWord 0b11110_00_0000_01000_11010_100_101_00000 = some (.indexStoreTagI 0x000 4) ∧
    decodeWord 0b11110_00_0000_01001_11010_111_101_00000 = some (.indexStoreTagD 0x000 7) ∧
    decodeWord 0b11110_00_1000_01010_11010_010_101_00000 = some (.indexStoreTagT 0x100 2) ∧
    decodeWord 0b11110_00_0111_01011_11010_101_101_11111 = some (.indexStoreTagS 0x0FF 5) ∧
    decodeWord 0b11110_00_0000_01100_11010_000_101_00000 = some (.implDependentI 0x000 0) ∧
    decodeWord 0b11110_00_1111_01101_11010_011_101_11111 = some (.implDependentD 0x1FF 3) ∧
    decodeWord 0b11110_00_1000_01110_11010_110_101_00000 = some (.implDependentT 0x100 6) ∧
    decodeWord 0b11110_00_0111_01111_11010_001_101_11111 = some (.implDependentS 0x0FF 1) := by decide

/-- Words of ops 16 to 23, bit by bit from the figure of R46: 11110 00 Imm[8:5] op 11010 rx 101 Imm[4:0]. -/
theorem test_decode_ops_16_to_23 :
    decodeWord 0b11110_00_0000_10000_11010_100_101_00000 = some (.hitInvalidateI 0x000 4) ∧
    decodeWord 0b11110_00_1111_10001_11010_111_101_11111 = some (.hitInvalidateD 0x1FF 7) ∧
    decodeWord 0b11110_00_1000_10010_11010_010_101_00000 = some (.hitInvalidateT 0x100 2) ∧
    decodeWord 0b11110_00_0111_10011_11010_101_101_11111 = some (.hitInvalidateS 0x0FF 5) ∧
    decodeWord 0b11110_00_0000_10100_11010_000_101_00000 = some (.fillI 0x000 0) ∧
    decodeWord 0b11110_00_1111_10101_11010_011_101_11111 = some (.hitWritebackInvalidateD 0x1FF 3) ∧
    decodeWord 0b11110_00_1000_10110_11010_110_101_00000 = some (.hitWritebackInvalidateT 0x100 6) ∧
    decodeWord 0b11110_00_0111_10111_11010_001_101_11111 = some (.hitWritebackInvalidateS 0x0FF 1) := by decide

/-- Words of ops 24 to 31, bit by bit from the figure of R46: 11110 00 Imm[8:5] op 11010 rx 101 Imm[4:0]. -/
theorem test_decode_ops_24_to_31 :
    decodeWord 0b11110_00_0000_11000_11010_100_101_00000 = some (.noRowWritebackI 0x000 4) ∧
    decodeWord 0b11110_00_1111_11001_11010_111_101_11111 = some (.hitWritebackD 0x1FF 7) ∧
    decodeWord 0b11110_00_1000_11010_11010_010_101_00000 = some (.hitWritebackT 0x100 2) ∧
    decodeWord 0b11110_00_0111_11011_11010_101_101_11111 = some (.hitWritebackS 0x0FF 5) ∧
    decodeWord 0b11110_00_0000_11100_11010_000_101_00000 = some (.fetchLockI 0x000 0) ∧
    decodeWord 0b11110_00_1111_11101_11010_011_101_11111 = some (.fetchLockD 0x1FF 3) ∧
    decodeWord 0b11110_00_1000_11110_11010_110_101_00000 = some (.noRowFetchLockT 0x100 6) ∧
    decodeWord 0b11110_00_0111_11111_11010_001_101_11111 = some (.noRowFetchLockS 0x0FF 1) := by decide

/-- VE1 to VE13: the table's words and operands. -/
theorem test_decode_VE :
    decodeWord 0xF009D4A0 = some (.indexStoreTagD 0x000 4) ∧
    decodeWord 0xF000D4A0 = some (.indexInvalidateI 0x000 4) ∧
    decodeWord 0xF1FFD7BF = some (.noRowFetchLockS 0x1FF 7) ∧
    decodeWord 0xF100D0A0 = some (.indexInvalidateI 0x100 0) ∧
    decodeWord 0xF0F5D1BF = some (.hitWritebackInvalidateD 0x0FF 1) ∧
    decodeWord 0xF031D2A0 = some (.hitInvalidateD 0x020 2) ∧
    decodeWord 0xF1F0D3A0 = some (.hitInvalidateI 0x1E0 3) ∧
    decodeWord 0xF01DD4A0 = some (.fetchLockD 0x000 4) ∧
    decodeWord 0xF004D5A4 = some (.indexLoadTagI 0x004 5) ∧
    decodeWord 0xF019D6A1 = some (.hitWritebackD 0x001 6) ∧
    decodeWord 0xF1E8D4BF = some (.indexStoreTagI 0x1FF 4) ∧
    decodeWord 0xF014D5B0 = some (.fillI 0x010 5) ∧
    decodeWord 0xF1E5D0AF = some (.indexLoadTagD 0x1EF 0) := by decide

/-- VE1 to VE13 the other way. -/
theorem test_encode_VE :
    encodeWord (.indexStoreTagD 0x000 4) = 0xF009D4A0 ∧
    encodeWord (.indexInvalidateI 0x000 4) = 0xF000D4A0 ∧
    encodeWord (.noRowFetchLockS 0x1FF 7) = 0xF1FFD7BF ∧
    encodeWord (.indexInvalidateI 0x100 0) = 0xF100D0A0 ∧
    encodeWord (.hitWritebackInvalidateD 0x0FF 1) = 0xF0F5D1BF ∧
    encodeWord (.hitInvalidateD 0x020 2) = 0xF031D2A0 ∧
    encodeWord (.hitInvalidateI 0x1E0 3) = 0xF1F0D3A0 ∧
    encodeWord (.fetchLockD 0x000 4) = 0xF01DD4A0 ∧
    encodeWord (.indexLoadTagI 0x004 5) = 0xF004D5A4 ∧
    encodeWord (.hitWritebackD 0x001 6) = 0xF019D6A1 ∧
    encodeWord (.indexStoreTagI 0x1FF 4) = 0xF1E8D4BF ∧
    encodeWord (.fillI 0x010 5) = 0xF014D5B0 ∧
    encodeWord (.indexLoadTagD 0x1EF 0) = 0xF1E5D0AF := by decide

/-- The row CACHE has the same words (R51). -/
theorem test_encode_cache : encodeWord (.cache 9 0 4) = 0xF009D4A0 := by decide

/-- VX1 to VX8: words that are not CACHE. -/
theorem test_not_cache :
    decodeWord 0xF009D400 = none ∧ decodeWord 0xF009D4E0 = none ∧ decodeWord 0xF209D4A0 = none ∧
    decodeWord 0xF409D4A0 = none ∧ decodeWord 0x6809D4A0 = none ∧ decodeWord 0xF009D8A0 = none ∧
    decodeWord 0xD4A0F009 = none ∧ decodeWord 0x00000000 = none := by decide

/-- VE3's bytes, in both byte orders, and a byte string that ends too early (R54, R58). -/
theorem test_decode_bytes :
    decode false [0xFF, 0xF1, 0xBF, 0xD7, 0x55] = .ok (.noRowFetchLockS 0x1FF 7, [0x55]) ∧
    decode true [0xF1, 0xFF, 0xD7, 0xBF] = .ok (.noRowFetchLockS 0x1FF 7, []) ∧
    decode false [0xFF, 0xF1, 0xBF] = .error .truncated ∧
    encode false (.indexLoadTagD 0x1EF 0) = [0xE5, 0xF1, 0xAF, 0xD0] ∧
    encode true (.indexLoadTagD 0x1EF 0) = [0xF1, 0xE5, 0xD0, 0xAF] := ⟨rfl, rfl, rfl, rfl, rfl⟩

/-- R55: the ends of the operands' ranges, and one beyond each. -/
theorem test_assemble :
    assemble 31 (-1) 7 = some (.noRowFetchLockS 0x1FF 7) ∧
    assemble 0 (-256) 16 = some (.indexInvalidateI 0x100 0) ∧
    assemble 21 255 17 = some (.hitWritebackInvalidateD 0x0FF 1) ∧
    assemble 32 0 4 = none ∧ assemble 0 256 4 = none ∧ assemble 0 (-257) 4 = none ∧
    assemble 0 0 8 = none ∧ assemble 0 0 0 = none := by decide

/-- The table's numbering of bits: bit 0 is the least significant bit of the word of R46. -/
theorem test_decodeTableWord : decodeTableWord 32 0xF009D4A0 = some (.indexStoreTagD 0 4) ∧
    decodeTableWord 32 0xD4A0F009 = none := by decide

/-! ### The step -/

/-- From reset the placed instruction is the first to run; r4 is 0, a mapped address (VA6's outcome). -/
theorem test_withFetchWord :
    (∃ t, step (State.reset.withFetchWord 32 0xF009D4A0)
      = .fault (.trap (.tlbRefill .tlbl 0x00000000) t)) ∧
    step (State.reset.withFetchWord 32 0xF009D4A0)
      = exec (.indexStoreTagD 0 4) (State.reset.withFetchWord 32 0xF009D4A0) := ⟨⟨_, rfl⟩, rfl⟩

/-- With nothing placed there is no program text (R27). -/
theorem test_reset_no_text : step State.reset = .refused (.noProgramText 0xBFC00000) := rfl

/-- P1: the source's example, run by a step: the dirty line is dropped, nothing is queued. -/
theorem test_P1 :
    (nextOf (step (launch (hit ref 0x80000040 .d 2 0 (blk true true true 0x123 (pat 0x55)))
        0x80010000 [0xF009D4A0] []))).map (fun t => (block t .d 2 0, t.wbq, t.pc))
      = some (blk false false false 0 (pat 0x55), [], 0x80010004) := by decide

/-- P3: at the SyncEvent mark the drain moves, and memory holds the line after it. -/
theorem test_P3_drain :
    (nextOf (step { launch ref 0x80010000 [0xF010D4A0] [0] with wbq := [⟨.mem, 0x5040, pat 0xA0⟩] })).map
        (fun t => (t.wbq, memByte t 0x5040, memByte t 0x505F, memByte t 0x5060, t.pc))
      = some ([], 0xA0, 0xBF, 0, 0x80010000) := by decide

/-! ### Addresses and checks (spec 95, 2.2, 2.3) -/

/-- VA1, VA5: the address wraps; an Index operation is translated too, with TLBL and never TLBS. -/
theorem test_VA1_VA5 :
    (∃ t, exec (.indexLoadTagD 32 4) (base ref 0xFFFFFFF0)
      = .fault (.trap (.tlbRefill .tlbl 0x00000010) t)) ∧
    (∃ t, exec (.indexStoreTagD 0x1FF 4) (base ref 0x80000000)
      = .fault (.trap (.tlbRefill .tlbl 0x7FFFFFFF) t)) := ⟨⟨_, rfl⟩, ⟨_, rfl⟩⟩

/-- VA3: an odd base and an odd offset raise no alignment exception. -/
theorem test_VA3 :
    (nextOf (exec (.hitWritebackInvalidateD 0x0FF 1) (writeReg ref 17 0x80000001))).map
      (fun t => (t.pc, t.wbq)) = some (0x80010004, []) := by decide

/-- VA9: outside kernel mode a kernel address is refused; where the implementation does not, it is not. -/
theorem test_VA9 :
    (∃ t, exec (.indexStoreTagD 0 4) (withCp0 (base ref 0x80000040) { ref.cp0 with kernelMode := false })
      = .fault (.trap (.addressError .adel 0x80000040) t)) ∧
    completes (exec (.indexStoreTagD 0 4)
      { withCp0 (base ref 0x80000040) { ref.cp0 with kernelMode := false } with
        cfg := { refCfg with adELOnKernelAddr := false } }) = true := ⟨⟨_, rfl⟩, by decide⟩

/-- VC1, VC2: Coprocessor 0 comes first, also for an operation that is not implemented. -/
theorem test_VC1_VC2 :
    (∃ t, exec (.indexStoreTagD 0 4) (withCp0 ref { ref.cp0 with cp0Usable := false })
      = .fault (.trap (.coprocessorUnusable 0) t)) ∧
    (∃ t, exec (.implDependentI 0 4) (withCp0 ref { ref.cp0 with cp0Usable := false })
      = .fault (.trap (.coprocessorUnusable 0) t)) := ⟨⟨_, rfl⟩, ⟨_, rfl⟩⟩

/-- VC5, VC6, VC7: operations of caches REFCFG lacks, implementation-dependent ones, and the three without a row. -/
theorem test_VC5_VC6_VC7 :
    (∀ op ∈ [2, 3, 6, 7, 10, 11], notImplementedOp (exec (instrOfOp (BitVec.ofNat 5 op) 0 4)
      (base ref 0x80000040)) = some (BitVec.ofNat 5 op)) ∧
    (∀ op ∈ [18, 19, 22, 23, 26, 27], notImplementedOp (exec (instrOfOp (BitVec.ofNat 5 op) 0 4)
      (base ref 0x80000040)) = some (BitVec.ofNat 5 op)) ∧
    (∀ op ∈ [12, 13, 14, 15], notImplementedOp (exec (instrOfOp (BitVec.ofNat 5 op) 0 4)
      (base ref 0x80000040)) = some (BitVec.ofNat 5 op)) ∧
    (∀ op ∈ [24, 30, 31], notImplementedOp (exec (instrOfOp (BitVec.ofNat 5 op) 0 4)
      (base four 0x80000040)) = some (BitVec.ofNat 5 op)) := ⟨by decide, by decide, by decide, by decide⟩

/-- VC8: an Address operation on an uncached address is UNDEFINED. -/
theorem test_VC8 :
    ∀ op ∈ [16, 17, 20, 21, 25, 28, 29],
      (faultOf (exec (instrOfOp (BitVec.ofNat 5 op) 0 4) (base ref 0xA0000040))
        = some (.undefinedUncacheableAddress (base ref 0xA0000040))) := by decide

/-- VC9: an Index operation ignores it. -/
theorem test_VC9 :
    completes (exec (.indexStoreTagD 0 4) (base ref 0xA0000040)) = true := by decide

/-! ### Operations (spec 95, 2.4 to 2.10) -/

/-- VI1: the tag need not match; valid and lock are cleared, tag and data are not. -/
theorem test_VI1 :
    after (.indexInvalidateI 0 4) (hit ref 0x80001040 .i 2 1 (blk true false true 7 (pat 0x10))) .i 2 1
      = some (blk false false false 7 (pat 0x10), []) := by decide

/-- VI5: the second halfword's line counts as the instruction's own. -/
theorem test_VI5 :
    (∃ t, exec (.indexInvalidateI 0 4)
        { hit ref 0x80000020 .i 1 0 (blk true false false 0x10 (pat 0)) with pc := 0x8001001E }
      = .fault (.unpredictableOwnLine .i t)) := ⟨_, rfl⟩

/-- VI7: a clean block is not written back, and its lock is cleared. -/
theorem test_VI7 :
    after (.indexWritebackInvalidateD 0 4) (hit ref 0x80000040 .d 2 0 (blk true false true 5 (pat 0xA0)))
      .d 2 0 = some (blk false false false 5 (pat 0xA0), []) := by decide

/-- VI8: the writeback's address comes from the tag; the byte index does not matter. -/
theorem test_VI8 :
    after (.indexWritebackInvalidateD 0 4) (hit ref 0x8000105F .d 2 1 (blk true true false 0x1FFFF (pat 1)))
      .d 2 1 = some (blk false false false 0x1FFFF (pat 1), [⟨.mem, 0x1FFFF040, pat 1⟩]) := by decide

/-- R67: S is written back to T; T is write-through and never is. -/
theorem test_indexWritebackInvalidate_outer :
    after (.indexWritebackInvalidateS 0 4) (hit four 0x80005040 .s 65 0 (blk true true true 3 (pat64 0))) .s 65 0
      = some (blk false false false 3 (pat64 0), [⟨.cache .t, 3 * 8192 + 65 * 64, pat64 0⟩]) ∧
    after (.indexWritebackInvalidateT 0 4) (hit four 0x80005040 .t 65 0 (blk true false true 3 (pat64 0))) .t 65 0
      = some (blk false false false 3 (pat64 0), []) := by decide

/-- VL1, VL2: TagLo in REFCFG's layout, DataLo the aligned word around the byte index. -/
theorem test_VL1 :
    tagAfter (.indexLoadTagD 4 4) (hit ref 0x80000040 .d 2 0 (blk true true false 5 (pat 0))) .d
      = some (0x000050C0, 0, 0x07060504) ∧
    tagAfter (.indexLoadTagD 7 4) (hit ref 0x80000040 .d 2 0 (blk true true false 5 (pat 0))) .d
      = some (0x000050C0, 0, 0x07060504) := by decide

/-- VL4: an invalid but locked block of I; D's registers are left alone. -/
theorem test_VL4 :
    tagAfter (.indexLoadTagI 0 4) (hit ref 0x80000040 .i 2 0 (blk false false true 0xABCDE (pat 0x80))) .i
      = some (0xABCDE020, 0, 0x83828180) ∧
    tagAfter (.indexLoadTagI 0 4) (hit ref 0x80000040 .i 2 0 (blk false false true 0xABCDE (pat 0x80))) .d
      = some (0, 0, 0) := by decide

/-- R68 on S and T, with VL1's layout; the second half of a 64-byte line. -/
theorem test_indexLoadTag_outer :
    tagAfter (.indexLoadTagS 0x24 4) (hit four 0x80005040 .s 65 0 (blk true true false 5 (pat64 0))) .s
      = some (0x000050C0, 0, 0x27262524) ∧
    tagAfter (.indexLoadTagT 0x3F 4) (hit four 0x80005040 .t 65 0 (blk true false false 5 (pat64 0))) .t
      = some (0x00005080, 0, 0x3F3E3D3C) := by decide

/-- VS1: the old dirty line is not written back; its data passes for another line. -/
theorem test_VS1 :
    after (.indexStoreTagD 0 4) (setTag (hit ref 0x80000040 .d 2 0 (blk true true false 9 (pat 0x33))) .d
        (0x000050E0, 0)) .d 2 0 = some (blk true true true 5 (pat 0x33), []) := by decide

/-- VS2: the dirty bit is forced to 0 for I. -/
theorem test_VS2 :
    (after (.indexStoreTagI 0 4) (setTag (base ref 0x80000040) .i (0x000050E0, 0)) .i 2 0).map (·.1)
      = some (blk true false true 5 (List.replicate 32 0)) := by decide

/-- VS3: bits 11:8 and 4:0 of TagLo are ignored. -/
theorem test_VS3 :
    (after (.indexStoreTagD 0 4) (setTag (base ref 0x80000040) .d (0xFFFFFF1F, 0)) .d 2 0).map (·.1)
      = some (blk false false false 0xFFFFF (List.replicate 32 0)) := by decide

/-- R69 on S, and on the write-through T, which is never dirty (R4). -/
theorem test_indexStoreTag_outer :
    (after (.indexStoreTagS 0 4) (setTag (base four 0x80005040) .s (0x000050E0, 0)) .s 65 0).map (·.1)
      = some (blk true true true 5 (List.replicate 64 0)) ∧
    (after (.indexStoreTagT 0 4) (setTag (base four 0x80005040) .t (0x000050E0, 0)) .t 65 0).map (·.1)
      = some (blk true false true 5 (List.replicate 64 0)) := by decide

/-- R24 asks nothing of a tag that names no line of the physical space: with PABITS = 30 the layout of D32
still gives its 20 bits back. -/
theorem test_indexStoreTag_large_tag :
    let small : Cfg := { refCfg with paBits := 30 }
    0xFFFFF ≥ ptagLimit small .d ∧
    (after (.indexStoreTagD 0 4) (setTag (base { ref with cfg := small } 0x80000040) .d (0xFFFFF000, 0))
      .d 2 0).map (·.1) = some (blk false false false 0xFFFFF (List.replicate 32 0)) := by decide

/-- The row CACHE with op 9 does what VS1 says. -/
theorem test_cache_row :
    after (.cache 9 0 4) (setTag (hit ref 0x80000040 .d 2 0 (blk true true false 9 (pat 0x33))) .d
        (0x000050E0, 0)) .d 2 0 = some (blk true true true 5 (pat 0x33), []) := by decide

/-- VH1, VH2: any byte of the line hits it; another tag is a miss. -/
theorem test_VH1_VH2 :
    after (.hitInvalidateI 31 4) (hit ref 0x80005040 .i 2 1 (blk true false true 5 (pat 0))) .i 2 1
      = some (blk false false false 5 (pat 0), []) ∧
    after (.hitInvalidateI 0 4) (hit ref 0x80005040 .i 2 1 (blk true false false 6 (pat 0))) .i 2 1
      = some (blk true false false 6 (pat 0), []) := by decide

/-- VH3: the modified data is lost. -/
theorem test_VH3 :
    let s := memWrite (hit ref 0x80005040 .d 2 0 (blk true true false 5 (pat 0xC0))) 0x5040 [0x11]
    view s 0x5040 = 0xC0 ∧
    (nextOf (exec (.hitInvalidateD 0 4) s)).map (fun t => (view t 0x5040, t.wbq)) = some (0x11, []) := by decide

/-- VH4: its own line. -/
theorem test_VH4 :
    (∃ t, exec (.hitInvalidateI 0 4) (hit ref 0x80010000 .i 0 1 (blk true false false 0x10 (pat 0)))
      = .fault (.unpredictableOwnLine .i t)) := ⟨_, rfl⟩

/-- VH5: two blocks with one tag. -/
theorem test_VH5 :
    (∃ t, exec (.hitInvalidateD 0 4) (setBlock (hit ref 0x80005040 .d 2 0 (blk true false false 5 (pat 0)))
        .d 2 1 (blk true false false 5 (pat 0))) = .fault (.undefinedDuplicateTag .d 2 t)) := ⟨_, rfl⟩

/-- R72 on S and T: the block is invalidated, dirty or not, without a writeback. -/
theorem test_hitInvalidate_outer :
    after (.hitInvalidateS 0 4) (hit four 0x80005040 .s 65 1 (blk true true true 2 (pat64 0))) .s 65 1
      = some (blk false false false 2 (pat64 0), []) ∧
    after (.hitInvalidateT 0x3F 4) (hit four 0x80005040 .t 65 1 (blk true false true 2 (pat64 0))) .t 65 1
      = some (blk false false false 2 (pat64 0), []) := by decide

/-- VF1: the line is read from memory. -/
theorem test_VF1 :
    (after (.fillI 5 4) (memWrite (base ref 0x80005040) 0x5040 (pat 0xE0)) .i 2 0).map (·.1)
      = some (blk true false false 5 (pat 0xE0)) := by decide

/-- VF3: the only unlocked way is 1. -/
theorem test_VF3 :
    (after (.fillI 0 4) (setBlock (hit ref 0x80005040 .i 2 0 (blk true false true 1 (pat 0))) .i 2 1
        (blk true false false 2 (pat 0))) .i 2 1).map (·.1) = some (blk true false false 5 (List.replicate 32 0)) := by decide

/-- VW1: a dirty, locked line is queued and invalidated. -/
theorem test_VW1 :
    after (.hitWritebackInvalidateD 0 4) (hit ref 0x80005040 .d 2 1 (blk true true true 5 (pat 0xD0))) .d 2 1
      = some (blk false false false 5 (pat 0xD0), [⟨.mem, 0x5040, pat 0xD0⟩]) := by decide

/-- VW3: a miss changes nothing. -/
theorem test_VW3 :
    after (.hitWritebackInvalidateD 0 4) (hit ref 0x80005040 .d 2 1 (blk true true false 4 (pat 0))) .d 2 1
      = some (blk true true false 4 (pat 0), []) := by decide

/-- R75: S to T; with the inner caches first, D's line goes into S before S goes out (R41). -/
theorem test_hitWritebackInvalidate_outer :
    after (.hitWritebackInvalidateS 0 4) (hit four 0x80005040 .s 65 0 (blk true true true 2 (pat64 0))) .s 65 0
      = some (blk false false false 2 (pat64 0), [⟨.cache .t, 0x5040, pat64 0⟩]) ∧
    after (.hitWritebackInvalidateS 0 4) (setBlock (hit fourFirst 0x80005040 .s 65 0
        (blk true false true 2 (pat64 0))) .d 3 0 (blk true true false 5 (pat 0x80))) .s 65 0
      = some (blk false false false 2 (pat 0 ++ pat 0x80),
          [⟨.cache .t, 0x5040, pat 0 ++ pat 0x80⟩]) := by decide

/-- R75: the write-through T is invalidated without a writeback. -/
theorem test_hitWritebackInvalidateT :
    after (.hitWritebackInvalidateT 0 4) (hit four 0x80005040 .t 65 0 (blk true false true 2 (pat64 0))) .t 65 0
      = some (blk false false false 2 (pat64 0), []) := by decide

/-- VW4: written back, still valid, still locked, clean. -/
theorem test_VW4 :
    after (.hitWritebackD 0 4) (hit ref 0x80005040 .d 2 1 (blk true true true 5 (pat 0xD0))) .d 2 1
      = some (blk true false true 5 (pat 0xD0), [⟨.mem, 0x5040, pat 0xD0⟩]) := by decide

/-- R77 on S, and on the write-through T, where it does nothing. -/
theorem test_hitWriteback_outer :
    after (.hitWritebackS 0 4) (hit four 0x80005040 .s 65 0 (blk true true true 2 (pat64 0))) .s 65 0
      = some (blk true false true 2 (pat64 0), [⟨.cache .t, 0x5040, pat64 0⟩]) ∧
    after (.hitWritebackT 0 4) (hit four 0x80005040 .t 65 0 (blk true false true 2 (pat64 0))) .t 65 0
      = some (blk true false true 2 (pat64 0), []) := by decide

/-- VK2: both ways locked, and a miss. -/
theorem test_VK2 :
    (∃ t, exec (.fetchLockD 0 4) (setBlock (hit ref 0x80006040 .d 2 0 (blk true false true 1 (pat 0))) .d 2 1
        (blk true false true 5 (pat 0))) = .fault (.undefinedAllWaysLocked .d 2 t)) := ⟨_, rfl⟩

/-- VK5: the only unlocked way is the victim, and its dirty line is written back first. -/
theorem test_VK5 :
    after (.fetchLockD 0 4) (memWrite (setBlock (hit ref 0x80005040 .d 2 0
        (blk true true false 3 (pat 0x40))) .d 2 1 (blk true false true 4 (pat 0x60))) 0x5040 (pat 0xE0)) .d 2 0
      = some (blk true false true 5 (pat 0xE0), [⟨.mem, 0x3040, pat 0x40⟩]) := by decide

/-- VK6: Fetch and Lock on I. -/
theorem test_VK6 :
    (after (.fetchLockI 0 4) (memWrite (base ref 0x80005040) 0x5040 (pat 0xE0)) .i 2 0).map (·.1)
      = some (blk true false true 5 (pat 0xE0)) := by decide

/-- VB4: the fill fails after the victim's writeback is queued. -/
theorem test_VB4 :
    (faultOf (exec (.fetchLockD 0 4) (events (setBlock (hit ref 0x80005040 .d 2 0
        (blk true true false 3 (pat 0x40))) .d 2 1 (blk true false true 4 (pat 0x60)))
        [.ok, .busError]))).map (fun f => (match f with
          | .trap .busError t => t.wbq
          | _ => [])) = some [⟨.mem, 0x3040, pat 0x40⟩] := by decide

/-- R70: what ImplOp does is a draw; it may write a block and complete, or stop; where it takes an address,
an uncached one is UNDEFINED (R32). -/
theorem test_implDependent :
    after (.implDependentS 0 4) (impls (base four 0x80005040)
        [⟨[.block .s 65 0 (blk true true true 2 (pat64 0))], none⟩]) .s 65 0
      = some (blk true true true 2 (pat64 0), []) ∧
    (∃ t, exec (.implDependentI 0 4) (impls (base four 0x80005040) [⟨[], some (.implementation 3)⟩])
      = .fault (.trap (.implementation 3) t)) ∧
    (∃ t, exec (.implDependentD 0 4) (impls (base four 0x80005040) [⟨[], some (.ownLine .d)⟩])
      = .fault (.unpredictableOwnLine .d t)) ∧
    (nextOf (exec (.implDependentT 0 4) (impls (base four 0x80005040) [⟨[.watch [⟨0x100, 4⟩]], none⟩]))).map
      (fun t => t.cp0.watch) = some [⟨0x100, 4⟩] ∧
    (∃ t, exec (.implDependentI 0 4) (base fourTakes 0xA0005040)
      = .fault (.undefinedUncacheableAddress t)) ∧
    completes (exec (.implDependentI 0 4) (impls (base four 0xA0005040) [⟨[], none⟩])) = true :=
  ⟨by decide, ⟨_, rfl⟩, ⟨_, rfl⟩, by decide, ⟨_, rfl⟩, by decide⟩

/-- R34: what ImplOp writes back is a whole line of D at the line's address. -/
theorem test_implDependent_writeback :
    (nextOf (exec (.implDependentD 0 4) (impls (base four 0x80005040)
      [⟨[.writeback .d 0x5047 (pat 7 ++ pat 9)], none⟩]))).map (·.wbq)
      = some [⟨.cache .s, 0x5040, pat 7⟩] := by decide

/-- R41 for T: D's dirty half line goes through S into T before T goes out, and S is clean by then. -/
theorem test_hitWritebackT_innerFirst :
    let s : State := { setBlock (setBlock (hit fourFirst 0x80005040 .t 65 0 (blk true true false 2 (pat64 0)))
        .s 65 1 (blk true false false 2 (pat64 0))) .d 3 0 (blk true true false 5 (pat 0x80)) with
      cfg := { fourFirst.cfg with caches := fourFirst.cfg.caches.set .t (fourFirst.cfg.caches.get .s) } }
    after (.hitWritebackT 0 4) s .t 65 0
      = some (blk true false false 2 (pat 0 ++ pat 0x80), [⟨.mem, 0x5040, pat 0 ++ pat 0x80⟩]) ∧
    (after (.hitWritebackT 0 4) s .s 65 1).map (·.1)
      = some (blk true false false 2 (pat 0 ++ pat 0x80)) ∧
    (after (.hitWritebackT 0 4) s .d 3 0).map (·.1) = some (blk true false false 5 (pat 0x80)) := by decide

/-- R4: `WriteBack(I)` must be false. R4, R30: a physical space of 28 bits is allowed, kseg0 being two
regions. -/
theorem test_cfgOk :
    cfgOk { refCfg with caches := refCfg.caches.set .i (refCacheCfg true true) } = false ∧
    cfgOk smallCfg = true ∧ smallCfg.paBits = 28 := by decide

/-- R4: with one set every translation keeps the set index, here of a page at 0x1000 to 0x2010; with 128 sets
that page does not, a run of 16 bytes does within one line, and does not across two. -/
theorem test_cfgOk_sets :
    let page (sets base size phys : Nat) : Cfg := { refCfg with
      caches := refCfg.caches.set .d { refCacheCfg true true with setBits := sets, tagLayout := .other }
                |>.set .i { refCacheCfg true false with indexUsesPhysical := true }
      regions := ⟨base, size, true, true, .page phys false false ⟨false, false, false⟩⟩ :: refRegions }
    cfgOk (page 0 0x1000 0x1000 0x2010) = true ∧
    cfgOk (page 7 0x1000 0x1000 0x2010) = false ∧ cfgOk (page 7 0x1000 16 0x2010) = true ∧
    cfgOk (page 7 0x1000 16 0x2018) = false := by decide

/-- R24: beside valid and lock the 64 bits hold a tag of 62 bits of a write-through cache, and beside valid,
lock and dirty one of 61 bits of a write-back cache, and no longer ones. -/
theorem test_cfgOk_tags :
    let with_ (wb : Bool) (bits : Nat) : Cfg := { refCfg with
      paBits := bits + 12
      caches := refCfg.caches.set .d { refCacheCfg true wb with tagLayout := .other }
                |>.set .i { refCacheCfg true false with tagLayout := .other } }
    cfgOk (with_ false 62) = true ∧ cfgOk (with_ false 63) = false ∧
    cfgOk (with_ true 61) = true ∧ cfgOk (with_ true 62) = false := by decide

/-! ### States that meet the hypotheses of the obligations -/

theorem test_witness_DecodeOfEncode : Instr.wellFormed (.noRowFetchLockS 0x1FF 7) = true := by decide

theorem test_witness_EncodeOfDecode :
    decode false [0xFF, 0xF1, 0xBF, 0xD7, 0x55] = .ok (.noRowFetchLockS 0x1FF 7, [0x55]) ∧
    decode true [0xF1, 0xFF, 0xD7, 0xBF] = .ok (.noRowFetchLockS 0x1FF 7, []) := ⟨rfl, rfl⟩

theorem test_witness_Immediate : decodeWord 0xF100D0A0 = some (.indexInvalidateI 0x100 0) ∧
    decodeWord 0xF0F5D1BF = some (.hitWritebackInvalidateD 0xFF 1) := by decide

/-- Words that meet the premise of the fields' statement and of the operation field's. -/
theorem test_witness_Fields : decodeWord 0xF1FFD7BF = some (.noRowFetchLockS 0x1FF 7) ∧
    decodeWord 0xF015D2A3 = some (.hitWritebackInvalidateD 0x003 2) ∧
    assemble 31 0 7 = some (.noRowFetchLockS 0 7) ∧ assemble 0 0 16 = some (.indexInvalidateI 0 0) := by
  decide

theorem test_witness_Assembler : assemble 31 (-256) 7 = some (.noRowFetchLockS 0x100 7) ∧
    assemble 0 255 16 = some (.indexInvalidateI 0xFF 0) := by decide

/-- Both clauses: nothing pending, and a pending writeback that waits for one move of the processor. -/
theorem test_witness_StepRuns :
    let s := launch ref 0x80010000 [0xF009D4A0] []
    let s' := waits (withWbq s [⟨.mem, 0, []⟩]) [1]
    (cfgOk s.cfg = true ∧ s.pc.toNat % 2 = 0 ∧
      textByte s s.pc = .ok 0x09 ∧ textByte s (s.pc + 1) = .ok 0xF0 ∧
      textByte s (s.pc + 2) = .ok 0xA0 ∧ textByte s (s.pc + 3) = .ok 0xD4 ∧
      decode s.cfg.bigEndian [0x09, 0xF0, 0xA0, 0xD4] = .ok (.indexStoreTagD 0 4, []) ∧ s.wbq = []) ∧
    (cfgOk s'.cfg = true ∧ s'.pc.toNat % 2 = 0 ∧
      textByte s' s'.pc = .ok 0x09 ∧ textByte s' (s'.pc + 1) = .ok 0xF0 ∧
      textByte s' (s'.pc + 2) = .ok 0xA0 ∧ textByte s' (s'.pc + 3) = .ok 0xD4 ∧
      decode s'.cfg.bigEndian [0x09, 0xF0, 0xA0, 0xD4] = .ok (.indexStoreTagD 0 4, []) ∧
      s'.wbq ≠ [] ∧ atSync s' = false ∧ drainWait s' ≠ 0) :=
  ⟨⟨by decide, by decide, rfl, rfl, rfl, rfl, rfl, rfl⟩,
    ⟨by decide, by decide, rfl, rfl, rfl, rfl, rfl, by decide, by decide, by decide⟩⟩

/-- Each refusal: PABITS 0; with nothing pending and with a writeback that waits, an odd pc; the second, third
and fourth byte missing, the first; a word with sel 0. -/
theorem test_witness_StepRefusals :
    cfgOk { refCfg with paBits := 0 } = false ∧
    (cfgOk ref.cfg = true ∧ ref.wbq = [] ∧ (withPc ref 0xFFFFFFFF).pc.toNat % 2 = 1) ∧
    (let q := waits (withWbq ref [⟨.mem, 0, []⟩]) [1]
     atSync q = false ∧ drainWait q ≠ 0 ∧ q.pc.toNat % 2 = 0 ∧ sparseFind q.text q.pc.toNat = none) ∧
    (∀ k ∈ [1, 2, 3],
     let s : State := { ref with text := placeBytes [] ref.pc (List.replicate k 0) }
     (∀ j < k, (sparseFind s.text (s.pc + BitVec.ofNat 32 j).toNat).isSome = true) ∧
      sparseFind s.text (s.pc + BitVec.ofNat 32 k).toNat = none) ∧
    (let s := launch ref 0x80010000 [0xF009D400] []
     cfgOk s.cfg = true ∧ s.wbq = [] ∧ s.pc.toNat % 2 = 0 ∧
      textByte s s.pc = .ok 0x09 ∧ textByte s (s.pc + 1) = .ok 0xF0 ∧
      textByte s (s.pc + 2) = .ok 0x00 ∧ textByte s (s.pc + 3) = .ok 0xD4 ∧
      decodeWord (wordOfBytes s.cfg.bigEndian 0x09 0xF0 0x00 0xD4) = none) :=
  ⟨by decide, by decide, by decide, by decide,
    ⟨by decide, by decide, by decide, rfl, rfl, rfl, rfl, by decide⟩⟩

/-- Each clause: enabled; at a mark; the wait over; and a run of one step of the processor, after which the
drain is next. -/
theorem test_witness_SyncEvent :
    let s : State := { ref with wbq := [⟨.mem, 0, []⟩], syncMarks := [0x80010000] }
    let s' := waits (withWbq ref [⟨.mem, 0, []⟩]) [0]
    let r := waits (withWbq (launch (base ref 0x80000040) 0x80010000 [0xF009D4A0] []) [⟨.mem, 0, []⟩]) [1]
    syncEvent ref = some ref ∧ (cfgOk s.cfg = true ∧ s.wbq ≠ [] ∧ atSync s = true) ∧
    (cfgOk s'.cfg = true ∧ s'.wbq ≠ [] ∧ atSync s' = false ∧ drainWait s' = 0) ∧
    (r.wbq ≠ [] ∧ drainWait r = 1 ∧ ∃ t, step r = .next t ∧ t.wbq ≠ [] ∧ (chooseAgent t).1 = .drain) :=
  ⟨rfl, ⟨by decide, by decide, by decide⟩, ⟨by decide, by decide, by decide, by decide⟩,
    ⟨by decide, by decide, _, rfl, by decide, by decide⟩⟩

theorem test_witness_GeneralRegisters : (31 : Fin 32) ≠ 0 ∧ (1 : Fin 32) ≠ 31 ∧ (0 : Fin 32) ≠ 1 := by decide

theorem test_witness_RegistersKept :
    (∃ t, exec (.indexStoreTagD 0 4) (base ref 0x80000040) = .next t) ∧
    (∃ f, exec (.indexStoreTagD 0 4) ref = .fault f) := ⟨⟨_, rfl⟩, ⟨_, rfl⟩⟩

/-- An operation that may write Coprocessor 0, and one that may not. -/
theorem test_witness_Cp0 :
    (∃ t, exec (.indexLoadTagD 0 4) (base ref 0x80000040) = .next t) ∧
    (∃ t, exec (.indexStoreTagD 0 4) (base ref 0x80000040) = .next t) ∧
    operationCode (Instr.indexStoreTagD 0 4).op ≠ 1 ∧ operationCode (Instr.indexStoreTagD 0 4).op ≠ 3 :=
  ⟨⟨_, rfl⟩, ⟨_, rfl⟩, by decide, by decide⟩

/-- The highest tag of REFCFG, dirty in D and clean in I; a cache with a layout that is not written down. -/
theorem test_witness_TagPack :
    cfgOk refCfg = true ∧ present refCfg .d = true ∧ present refCfg .i = true ∧
    0xFFFFF < ptagLimit refCfg .d ∧ 0xFFFFF < ptagLimit refCfg .i ∧ writeBack refCfg .d = true ∧
    (let o : Cfg := { refCfg with
        caches := refCfg.caches.set .d { refCacheCfg true true with tagLayout := .other } }
     cfgOk o = true ∧ (o.caches.get .d).tagLayout = .other ∧ 0xFFFFF < ptagLimit o .d) := by decide

/-- One way, no way, two ways. -/
theorem test_witness_Lookup :
    let s := hit ref 0 .d 2 1 (blk true false false 5 (pat 0))
    let s2 := setBlock s .d 2 0 (blk true false false 5 (pat 0))
    hitWays s .d 0x80005040 0x5040 = [1] ∧ hitWays s .d 0x80005040 0x6040 = [] ∧
    hitWays s2 .d 0x80005040 0x5040 = [0, 1] := by decide

theorem test_witness_BlockReadAfterWrite :
    CachesWellFormed ref ∧ 1 < wayCount ref.cfg .d ∧ 0 < wayCount ref.cfg .s :=
  ⟨cachesWellFormed_of_empty rfl, by decide, by decide⟩

/-- The last address of kseg0, both ends of the unmapped range; a kernel address outside kernel mode, with
and without Address Error; a cache indexed by the virtual address; a small physical space. -/
theorem test_witness_Translation :
    let n : State := { withCp0 ref { ref.cp0 with kernelMode := false } with
      cfg := { refCfg with
        adELOnKernelAddr := false, regions := refRegions.map fun r => { r with inUser := false } } }
    cfgOk ref.cfg = true ∧ Machine.translate ref 0x9FFFFFFF = .ok 0x1FFFFFFF false false ∧
    0x80000000 ≤ (0x80000000 : Word).toNat ∧ (0x80000000 : Word).toNat < 0xA0000000 ∧
    0x80000000 ≤ (0x9FFFFFFF : Word).toNat ∧ (0x9FFFFFFF : Word).toNat < 0xA0000000 ∧
    Machine.translate (withCp0 ref { ref.cp0 with kernelMode := false }) 0x80000000 = .addressError ∧
    (cfgOk n.cfg = true ∧ Machine.translate n 0x80000040 = .ok 0x40 false false) ∧
    (present ref.cfg .d = true ∧ (ref.cfg.caches.get .d).indexUsesPhysical = false) ∧
    (cfgOk smallCfg = true ∧
      Machine.translate { ref with cfg := smallCfg } 0x9FFFFFFF = .ok 0x0FFFFFFF false false) := by
  decide

theorem test_witness_WritebackQueues :
    nextEvent ref = .ok ∧ nextEvent (events ref [.cacheError]) = .cacheError ∧
    nextEvent (events ref [.busError]) = .busError := by decide

/-- The last line of the physical space. -/
theorem test_witness_DrainDeliversToMemory :
    let s : State := { ref with wbq := [⟨.mem, 0xFFFFFFE0, pat 0⟩] }
    Memory.wf s.mem ∧ s.wbq = { level := .mem, addr := 0xFFFFFFE0, data := pat 0 } :: [] ∧
      0xFFFFFFE0 + (pat 0).length ≤ 2 ^ s.cfg.paBits := by decide

/-- A hit in the write-back S, a hit in the write-through T, a miss. -/
theorem test_witness_DrainDeliversToACache :
    let s : State := { hit four 0 .s 65 0 (blk true false false 2 (pat64 0)) with
      wbq := [⟨.cache .s, 0x5060, pat 9⟩] }
    let t : State := { hit four 0 .t 65 1 (blk true false false 2 (pat64 0)) with
      wbq := [⟨.cache .t, 0x5060, pat 9⟩] }
    let m : State := { four with wbq := [⟨.cache .s, 0x5060, pat 9⟩] }
    (hitWays (withWbq s []) .s 0x5060 0x5060 = [0] ∧ writeBack s.cfg .s = true) ∧
    (hitWays (withWbq t []) .t 0x5060 0x5060 = [1] ∧ writeBack t.cfg .t = false) ∧
    hitWays (withWbq m []) .s 0x5060 0x5060 = [] := by decide

/-- An entry that ends one byte beyond the physical space; two hits in S. -/
theorem test_witness_DrainStops :
    let s : State := { ref with wbq := [⟨.mem, 0xFFFFFFE1, pat 0⟩] }
    let d : State := { setBlock (hit four 0 .s 65 0 (blk true false false 2 (pat64 0))) .s 65 1
      (blk true false false 2 (pat64 0)) with wbq := [⟨.cache .s, 0x5060, pat 9⟩] }
    2 ^ s.cfg.paBits < 0xFFFFFFE1 + (pat 0).length ∧ 2 ≤ (hitWays d .s 0x5060 0x5060).length := by decide

/-- Two hits in T behind a miss in S; the first line beyond a small physical space. -/
theorem test_witness_ReadLineStops :
    let d := setBlock (hit four 0 .t 65 0 (blk true false false 2 (pat64 0))) .t 65 1
      (blk true false false 2 (pat64 0))
    let m : State := { ref with cfg := smallCfg }
    (nextEvent d = .ok ∧ outerCaches d.cfg .d = [.s] ++ CacheName.t :: [] ∧
      hitWays d .s 0x5060 0x5060 = [] ∧ 2 ≤ (hitWays d .t 0x5060 0x5060).length) ∧
    (nextEvent m = .ok ∧ outerCaches m.cfg .d = [] ∧
      2 ^ m.cfg.paBits < lineOf m.cfg .d 0x10000000 + lineBytes m.cfg .d) := by decide

/-- A hit in S, a hit in T behind a miss in S, and the last line of memory with no outer cache holding it. -/
theorem test_witness_ReadLineOrder :
    let s := hit four 0 .s 65 0 (blk true false false 2 (pat64 0))
    let t := hit four 0 .t 65 1 (blk true false false 2 (pat64 0))
    (nextEvent s = .ok ∧ outerCaches s.cfg .d = [] ++ CacheName.s :: [.t] ∧
      hitWays (afterEvent s) .s 0x5060 0x5060 = [0] ∧ lineOf s.cfg .d 0x507F = 0x5060) ∧
    (nextEvent t = .ok ∧ outerCaches t.cfg .d = [.s] ++ CacheName.t :: [] ∧
      hitWays (afterEvent t) .s 0x5060 0x5060 = [] ∧ hitWays (afterEvent t) .t 0x5060 0x5060 = [1]) ∧
    (nextEvent four = .ok ∧ lineOf four.cfg .d 0xFFFFFFFF + lineBytes four.cfg .d ≤ 2 ^ four.cfg.paBits ∧
      hitWays (afterEvent four) .s 0xFFFFFFE0 0xFFFFFFE0 = [] ∧
      hitWays (afterEvent four) .t 0xFFFFFFE0 0xFFFFFFE0 = []) := by decide

/-- The premise of the second clause. -/
theorem test_witness_ReadLineIgnoresPending :
    ∃ d t, readLine { ref with wbq := [⟨.mem, 0x5040, pat 0⟩] } .d 0x5040 = .ok (d, t) := ⟨_, _, rfl⟩

/-- A pending writeback of the range is delivered; after the inner caches of T, D holding half of S's line,
dirty. -/
theorem test_witness_Settle :
    let s : State := { four with wbq := [⟨.cache .s, 0x5060, pat 9⟩] }
    let f := setBlock (setBlock fourFirst .s 65 0 (blk true false true 2 (pat64 0))) .d 3 0
      (blk true true false 5 (pat 0x80))
    (s.wbq.any (pendingFor .s 0x5040 64) = true ∧
      ∃ t, settle .s 0x5040 64 (settleFuel s.wbq) s = .ok t) ∧
    (f.wbq.any (pendingFor .t 0x5040 (lineBytes f.cfg .t)) = false ∧
      ∃ t, innerFirst f .t 0x5040 .writeback = .ok t) :=
  ⟨⟨by decide, ⟨_, rfl⟩⟩, ⟨by decide, ⟨_, rfl⟩⟩⟩

/-- D holds the last line of S's line, dirty, nothing else of it needs a writeback, and nothing is pending; S
holds the line, or not. The same where T, which is write-through, holds S's line. -/
theorem test_witness_InnerFirstLines :
    let d (a : State) := setBlock a .d 3 0 (blk true true false 5 (pat 0x80))
    let h := d (hit fourFirst 0 .s 65 0 (blk true false true 2 (pat64 0)))
    let m := d fourFirst
    let w := setBlock (hit fourFirst 0 .t 65 1 (blk true false false 2 (pat64 0))) .s 65 0
      (blk true true false 2 (pat64 9))
    (Inv h ∧ Inv m ∧ Inv w) ∧
    (h.cfg.outerOpsInnerFirst = true ∧ present h.cfg .s = true ∧ 0x5040 % lineBytes h.cfg .s = 0 ∧
      h.wbq = [] ∧ CacheName.d ∈ innerCaches h.cfg .s ∧ 0x5060 % lineBytes h.cfg .d = 0 ∧
      0x5060 + lineBytes h.cfg .d = 0x5040 + lineBytes h.cfg .s ∧ nextLevel h.cfg .d = .cache .s ∧
      hitWays h .d 0x5060 0x5060 = [0] ∧ needsWriteback h .d (setIdx h.cfg .d 0x5060) 0 = true ∧
      hitWays h .s 0x5060 0x5060 = [0] ∧ hitWays m .s 0x5060 0x5060 = []) ∧
    (∀ cj b' w', cj ∈ innerCaches h.cfg .s → needsWriteback h cj (setIdx h.cfg cj b') w' = true → cj = .d) ∧
    (CacheName.s ∈ innerCaches w.cfg .t ∧ nextLevel w.cfg .s = .cache .t ∧
      hitWays w .s 0x5040 0x5040 = [0] ∧ needsWriteback w .s (setIdx w.cfg .s 0x5040) 0 = true ∧
      hitWays w .t 0x5040 0x5040 = [1] ∧ writeBack w.cfg .t = false) ∧
    (∃ t, innerFirst m .s 0x5040 .writebackInvalidate = .ok t) ∧
    (∃ t, innerFirst w .t 0x5040 .writebackInvalidate = .ok t) := by
  have h0 : CachesWellFormed fourFirst := cachesWellFormed_of_empty rfl
  refine ⟨⟨⟨by decide, ?_, by decide, by decide⟩, ⟨by decide, ?_, by decide, by decide⟩,
      ⟨by decide, ?_, by decide, by decide⟩⟩, by decide, ?_, by decide, ⟨_, rfl⟩, ⟨_, rfl⟩⟩
  · have h1 : CachesWellFormed (hit fourFirst 0 .s 65 0 (blk true false true 2 (pat64 0))) :=
      cachesWellFormed_setBlock (s := base fourFirst 0) (cachesWellFormed_of_empty rfl)
        ⟨by decide, by decide, .inl (by decide), by decide⟩
    exact cachesWellFormed_setBlock (c := .d) (set := 3) (way := 0)
      (b := blk true true false 5 (pat 0x80)) h1 ⟨by decide, by decide, .inl (by decide), by decide⟩
  · exact cachesWellFormed_setBlock h0 ⟨by decide, by decide, .inl (by decide), by decide⟩
  · have h1 : CachesWellFormed (hit fourFirst 0 .t 65 1 (blk true false false 2 (pat64 0))) :=
      cachesWellFormed_setBlock (s := base fourFirst 0) (cachesWellFormed_of_empty rfl)
        ⟨by decide, by decide, .inl (by decide), by decide⟩
    exact cachesWellFormed_setBlock (c := .s) (set := 65) (way := 0)
      (b := blk true true false 2 (pat64 9)) h1 ⟨by decide, by decide, .inl (by decide), by decide⟩
  · intro cj b' w' hm hn
    have : cj = .i ∨ cj = .d := by
      simp only [innerCaches, inside, List.mem_filter, List.mem_cons, List.not_mem_nil, or_false] at hm
      exact hm.1
    obtain rfl | rfl := this
    · simp [needsWriteback, writeBack] at hn
    · rfl

/-- D's last line of S's line and S's block after the inner caches. -/
def afterKind (s : State) (kind : FlushKind) : Option (List Nat × Bool × Bool × List Byte) :=
  (okOf (innerFirst s .s 0x5040 kind)).map fun t =>
    (hitWays t .d 0x5060 0x5060, (block t .d 3 0).dirty, (block t .s 65 0).dirty, (block t .s 65 0).data)

/-- R41, with each kind, where D holds half of S's line dirty: D's line is gone or clean, and S has D's data,
unless the kind only invalidates. -/
theorem test_innerFirst_kinds :
    let f := setBlock (hit fourFirst 0 .s 65 0 (blk true false true 2 (pat64 0))) .d 3 0
      (blk true true false 5 (pat 0x80))
    afterKind f .writebackInvalidate = some ([], false, true, pat 0 ++ pat 0x80) ∧
    afterKind f .writeback = some ([0], false, true, pat 0 ++ pat 0x80) ∧
    afterKind f .invalidate = some ([], false, false, pat64 0) :=
  ⟨by decide, by decide, by decide⟩

theorem test_witness_RequiredOperations :
    present refCfg .s = false ∧ present refCfg .i = true ∧ present refCfg .d = true ∧
    present fourCfg .t = true ∧ present fourCfg .s = true ∧ ref.cp0.cp0Usable = true ∧
    opImplemented refCfg 3 = false := by decide

theorem test_witness_CoprocessorUnusable :
    (withCp0 ref { ref.cp0 with cp0Usable := false }).cp0.cp0Usable = false ∧
    exec (.fillI 0 4) (withCp0 ref { ref.cp0 with cp0Usable := false })
      = .fault (.trap (.coprocessorUnusable 0) (withCp0 ref { ref.cp0 with cp0Usable := false })) :=
  ⟨by decide, rfl⟩

theorem test_witness_NoRow : Instr.noRowFetchLockT 0x1FF 7 ∈ [Instr.noRowWritebackI 0x1FF 7,
    .noRowFetchLockT 0x1FF 7, .noRowFetchLockS 0x1FF 7] := by decide

/-- The last address of a watched range. -/
theorem test_witness_Watch :
    let s : State := { withCp0 (base ref 0x8000005F) { ref.cp0 with watch := [⟨0x80000040, 32⟩] } with
      cfg := { refCfg with watchOnCache := true } }
    s.cp0.cp0Usable = true ∧ opImplemented s.cfg 9 = true ∧ s.cfg.watchOnCache = true ∧
      watchMatch s (effectiveAddress s 0 4) = true := by decide

/-- A refill; an entry marked not valid; both ends of the range that never misses. -/
theorem test_witness_TlbTraps :
    let s : State := { base ref 0x00001000 with
      cfg := { refCfg with regions := ⟨0x1000, 0x1000, true, true, .invalid⟩ :: refRegions } }
    (ref.cp0.cp0Usable = true ∧ opImplemented ref.cfg 9 = true ∧
      (ref.cfg.watchOnCache && watchMatch ref (effectiveAddress ref 0 4)) = false ∧
      Machine.translate ref (effectiveAddress ref 0 4) = .tlbRefill) ∧
    (cfgOk s.cfg = true ∧ s.cp0.cp0Usable = true ∧ opImplemented s.cfg 9 = true ∧
      (s.cfg.watchOnCache && watchMatch s (effectiveAddress s 0 4)) = false ∧
      Machine.translate s (effectiveAddress s 0 4) = .tlbInvalid) ∧
    (cfgOk ref.cfg = true ∧ effectiveAddress (base ref 0x80000000) 0 4 = 0x80000000 ∧
      effectiveAddress (base ref 0x9FFFFFFF) 0 4 = 0x9FFFFFFF) := by decide

/-- The first and the last address of the kernel space of REFCFG. -/
theorem test_witness_AddressError :
    let s := withCp0 (base ref 0x80000000) { ref.cp0 with kernelMode := false }
    let s' := withCp0 (base ref 0xFFFFFFFF) { ref.cp0 with kernelMode := false }
    (s.cp0.cp0Usable = true ∧ opImplemented s.cfg 9 = true ∧ s.cfg.adELOnKernelAddr = true ∧
      kernelAddressRefused s (effectiveAddress s 0 4) = true) ∧
    kernelAddressRefused s' (effectiveAddress s' 0 4) = true := by decide

/-- VA9 for the premise of the last clause. -/
theorem test_witness_NeverRaises : CauseCode.tlbl ≠ .adel ∧
    ∃ t, exec (.indexStoreTagD 0 4) (withCp0 (base ref 0x80000040) { ref.cp0 with kernelMode := false })
      = .fault (.trap (.addressError .adel 0x80000040) t) := ⟨by decide, _, rfl⟩

/-- The last uncached address of REFCFG; an implementation-dependent operation that takes an address. -/
theorem test_witness_UncacheableAddress :
    let s := base ref 0xBFFFFFFF
    let m := base fourTakes 0xA0005040
    (s.cp0.cp0Usable = true ∧ opImplemented s.cfg 16 = true ∧
      (s.cfg.watchOnCache && watchMatch s (effectiveAddress s 0 4)) = false ∧
      Machine.translate s (effectiveAddress s 0 4) = .ok 0x1FFFFFFF true false ∧
      4 ≤ operationCode 16) ∧
    (cfgOk m.cfg = true ∧ m.cp0.cp0Usable = true ∧ opImplemented m.cfg 12 = true ∧
      (m.cfg.watchOnCache && watchMatch m (effectiveAddress m 0 4)) = false ∧
      Machine.translate m (effectiveAddress m 0 4) = .ok 0x5040 true false ∧
      operationCode 12 = 3 ∧ (m.cfg.caches.get (cacheOfOp 12)).implTakesAddress = true) := by decide

theorem test_witness_NoTransfer : (Instr.indexInvalidateI 0 4).op = 0 ∧
    (4 ≤ (Instr.indexLoadTagI 0 4).op.toNat ∧ (Instr.indexStoreTagS 0 4).op.toNat ≤ 11) ∧
    (16 ≤ (Instr.hitInvalidateI 0 4).op.toNat ∧ (Instr.hitInvalidateS 0 4).op.toNat ≤ 19) := by decide

/-- VI1 and VI3. -/
theorem test_witness_IndexInvalidateI :
    let s := hit ref 0x80001040 .i 2 1 (blk true false true 7 (pat 0x10))
    let o := hit ref 0x80000000 .i 0 0 (blk true false false 0x10 (pat 0))
    (Executes 0 0 4 s 0x1040 false false ∧ holdsOwnLine s .i 2 1 = false ∧
      indexedSet s .i (instrIndex .i 0 4 s 0x1040) = 2 ∧ indexedWay s .i (instrIndex .i 0 4 s 0x1040) = 1) ∧
    (Executes 0 0 4 o 0 false false ∧ holdsOwnLine o .i 0 0 = true ∧
      indexedSet o .i (instrIndex .i 0 4 o 0) = 0 ∧ indexedWay o .i (instrIndex .i 0 4 o 0) = 0) := by
  decide

/-- VI6 and VI7. -/
theorem test_witness_IndexWritebackInvalidateD :
    let s := hit ref 0x80000040 .d 2 0 (blk true true false 5 (pat 0xA0))
    let k := hit ref 0x80000040 .d 2 0 (blk true false true 5 (pat 0xA0))
    indexedSet s .d (instrIndex .d 0 4 s 0x40) = 2 ∧ indexedWay s .d (instrIndex .d 0 4 s 0x40) = 0 ∧
    (Executes 1 0 4 s 0x40 false false ∧ holdsOwnLine s .d 2 0 = false ∧ writeBack s.cfg .d = true ∧
      (block s .d 2 0).valid = true ∧ (block s .d 2 0).dirty = true ∧ nextEvent s = .ok) ∧
    (Executes 1 0 4 k 0x40 false false ∧ holdsOwnLine k .d 2 0 = false ∧
      (block k .d 2 0).dirty = false) := by decide

/-- A dirty block of S; a block of the write-through T; a dirty block of S after the inner caches. -/
theorem test_witness_IndexWritebackInvalidateOuter :
    let s := hit four 0x80005040 .s 65 0 (blk true true false 2 (pat64 0))
    let t := hit four 0x80005040 .t 65 0 (blk true false false 2 (pat64 0))
    let f := hit fourFirst 0x80005040 .s 65 0 (blk true true false 2 (pat64 0))
    indexedSet s .s (instrIndex .s 0 4 s 0x5040) = 65 ∧ indexedWay s .s (instrIndex .s 0 4 s 0x5040) = 0 ∧
    (Executes 3 0 4 s 0x5040 false false ∧
      innerFirst s .s (lineAddr s.cfg .s 65 (block s .s 65 0)) .writebackInvalidate = .ok s ∧
      holdsOwnLine s .s 65 0 = false ∧ writeBack s.cfg .s = true ∧ (block s .s 65 0).valid = true ∧
      (block s .s 65 0).dirty = true ∧ nextEvent s = .ok) ∧
    (Executes 2 0 4 t 0x5040 false false ∧
      innerFirst t .t (lineAddr t.cfg .t 65 (block t .t 65 0)) .writebackInvalidate = .ok t ∧
      holdsOwnLine t .t 65 0 = false ∧ writeBack t.cfg .t = false) ∧
    (Executes 3 0 4 f 0x5040 false false ∧
      innerFirst f .s (lineAddr f.cfg .s 65 (block f .s 65 0)) .writebackInvalidate = .ok f ∧
      holdsOwnLine f .s 65 0 = false) :=
  ⟨by decide, by decide, ⟨by decide, rfl, by decide, by decide, by decide, by decide, by decide⟩,
    ⟨by decide, rfl, by decide, by decide⟩, ⟨by decide, rfl, by decide⟩⟩

/-- A block of D, of T and of S with the instruction's own line: for the operations that invalidate it. -/
theorem test_witness_OwnLine :
    let d := hit ref 0x80010000 .d 0 0 (blk true true false 0x10 (pat 0))
    let s := hit four 0x80010000 .s 0 0 (blk true true false 8 (pat64 0))
    let t := hit four 0x80010000 .t 0 0 (blk true false false 8 (pat64 0))
    (Executes 1 0 4 d 0x10000 false false ∧ Executes 17 0 4 d 0x10000 false false ∧
      Executes 21 0 4 d 0x10000 false false ∧ hitWays d .d (instrIndex .d 0 4 d 0x10000) 0x10000 = [0] ∧
      indexedSet d .d (instrIndex .d 0 4 d 0x10000) = 0 ∧
      indexedWay d .d (instrIndex .d 0 4 d 0x10000) = 0 ∧ holdsOwnLine d .d 0 0 = true) ∧
    (Executes 3 0 4 s 0x10000 false false ∧ Executes 19 0 4 s 0x10000 false false ∧
      Executes 23 0 4 s 0x10000 false false ∧ hitWays s .s (instrIndex .s 0 4 s 0x10000) 0x10000 = [0] ∧
      indexedSet s .s (instrIndex .s 0 4 s 0x10000) = 0 ∧
      indexedWay s .s (instrIndex .s 0 4 s 0x10000) = 0 ∧ holdsOwnLine s .s 0 0 = true ∧
      (∀ kind, innerFirst s .s 0x10000 kind = .ok s)) ∧
    (Executes 2 0 4 t 0x10000 false false ∧ Executes 18 0 4 t 0x10000 false false ∧
      Executes 22 0 4 t 0x10000 false false ∧ hitWays t .t (instrIndex .t 0 4 t 0x10000) 0x10000 = [0] ∧
      holdsOwnLine t .t 0 0 = true ∧ (∀ kind, innerFirst t .t 0x10000 kind = .ok t)) :=
  ⟨by decide, ⟨by decide, by decide, by decide, by decide, by decide, by decide, by decide, fun _ => rfl⟩,
    ⟨by decide, by decide, by decide, by decide, by decide, fun _ => rfl⟩⟩

/-- The same operations stop there (R64). -/
theorem test_ownLine :
    let d := hit ref 0x80010000 .d 0 0 (blk true true false 0x10 (pat 0))
    let s := hit four 0x80010000 .s 0 0 (blk true true false 8 (pat64 0))
    let t := hit four 0x80010000 .t 0 0 (blk true false false 8 (pat64 0))
    (∀ op ∈ [1, 17, 21], faultOf (exec (instrOfOp (BitVec.ofNat 5 op) 0 4) d)
      = some (.unpredictableOwnLine .d d)) ∧
    (∀ op ∈ [3, 19, 23], faultOf (exec (instrOfOp (BitVec.ofNat 5 op) 0 4) s)
      = some (.unpredictableOwnLine .s s)) ∧
    (∀ op ∈ [2, 18, 22], faultOf (exec (instrOfOp (BitVec.ofNat 5 op) 0 4) t)
      = some (.unpredictableOwnLine .t t)) := ⟨by decide, by decide, by decide⟩

/-- On each cache; data registers present and absent; registers per cache. -/
theorem test_witness_IndexLoadTag :
    let s := base four 0x80005040
    let n : State := { s with cfg := { fourCfg with hasDataRegs := false } }
    (Executes 4 0 4 s 0x5040 false false ∧ Executes 5 0 4 s 0x5040 false false ∧
      Executes 6 0 4 s 0x5040 false false ∧ Executes 7 0 4 s 0x5040 false false ∧
      s.cfg.hasDataRegs = true ∧ s.cfg.tagRegsPerCache = true) ∧
    (Executes 7 0 4 n 0x5040 false false ∧ n.cfg.hasDataRegs = false) := by decide

theorem test_witness_IndexStoreTag :
    let s := base four 0x80005040
    Executes 8 0 4 s 0x5040 false false ∧ Executes 9 0 4 s 0x5040 false false ∧
      Executes 10 0 4 s 0x5040 false false ∧ Executes 11 0 4 s 0x5040 false false ∧
      Executes (Instr.cache 9 0 4).op 0 4 s 0x5040 false false := by decide

/-- The first and the last index of the start-up program over REFCFG's D, of 128 sets and 2 ways (R23, R106),
with the virtual and with the physical address. -/
theorem test_bootIndex_ends :
    (cfgOk refCfg = true ∧ present refCfg .d = true ∧ (refCfg.caches.get .d).indexLayout = .standard ∧
      setCount refCfg .d * wayCount refCfg .d = 256) ∧
    bootIndex refCfg .d 0 = 0x80000000 ∧ bootIndex refCfg .d 255 = 0x80001FE0 ∧
    indexDecode refCfg .d 0x80000000 = (0, 0, 0) ∧ indexDecode refCfg .d 0x1FE0 = (127, 1, 0) ∧
    0x1FE0 % 2 ^ 29 = (bootIndex refCfg .d 255).toNat % 2 ^ 29 ∧ setCount refCfg .d = 128 ∧
    wayCount refCfg .d = 2 := by decide

/-- Not implemented; implemented, with a draw that completes, and with one of each stop. -/
theorem test_witness_ImplDependent :
    let s := base four 0x80005040
    (ref.cp0.cp0Usable = true ∧ (Instr.implDependentD 0 4).op.toNat ∉ ref.cfg.optionalOps) ∧
    (Executes 12 0 4 s 0x5040 false false ∧ Executes 13 0 4 s 0x5040 false false ∧
      Executes 14 0 4 s 0x5040 false false ∧ Executes 15 0 4 s 0x5040 false false) ∧
    ∀ e : Option ImplStop, (nextImpl (impls s [⟨[], e⟩]) .d 0x80005040 0x5040 false).stop = e :=
  ⟨by decide, by decide, fun _ => rfl⟩

/-- A miss, a hit, a hit on its own line: on I and on D. -/
theorem test_witness_HitInvalidate :
    let i := hit ref 0x80005040 .i 2 1 (blk true false true 5 (pat 0))
    let d := hit ref 0x80005040 .d 2 1 (blk true true true 5 (pat 0))
    let o := hit ref 0x80010000 .i 0 1 (blk true false false 0x10 (pat 0))
    (Executes 16 0 4 i 0x5040 false false ∧ hitWays i .i (instrIndex .i 0 4 i 0x5040) 0x5040 = [1] ∧
      holdsOwnLine i .i 2 1 = false) ∧
    (Executes 17 0 4 d 0x5040 false false ∧ hitWays d .d (instrIndex .d 0 4 d 0x5040) 0x5040 = [1] ∧
      holdsOwnLine d .d 2 1 = false) ∧
    (Executes 17 0 4 i 0x5040 false false ∧ hitWays i .d (instrIndex .d 0 4 i 0x5040) 0x5040 = []) ∧
    (Executes 16 0 4 o 0x10000 false false ∧ hitWays o .i (instrIndex .i 0 4 o 0x10000) 0x10000 = [1] ∧
      holdsOwnLine o .i 0 1 = true) := by decide

theorem test_witness_HitInvalidateOuter :
    let s := hit four 0x80005040 .s 65 1 (blk true true true 2 (pat64 0))
    let t := hit four 0x80005040 .t 65 1 (blk true false true 2 (pat64 0))
    (Executes 19 0 4 s 0x5040 false false ∧ innerFirst s .s (lineOf s.cfg .s 0x5040) .invalidate = .ok s ∧
      hitWays s .s (instrIndex .s 0 4 s 0x5040) 0x5040 = [1] ∧ holdsOwnLine s .s 65 1 = false) ∧
    (Executes 18 0 4 t 0x5040 false false ∧ innerFirst t .t (lineOf t.cfg .t 0x5040) .invalidate = .ok t ∧
      hitWays t .t (instrIndex .t 0 4 t 0x5040) 0x5040 = [1] ∧ holdsOwnLine t .t 65 1 = false) ∧
    (Executes 18 0 4 s 0x5040 false false ∧ innerFirst s .t (lineOf s.cfg .t 0x5040) .invalidate = .ok s ∧
      hitWays s .t (instrIndex .t 0 4 s 0x5040) 0x5040 = []) :=
  ⟨⟨by decide, rfl, by decide, by decide⟩, ⟨by decide, rfl, by decide, by decide⟩,
    ⟨by decide, rfl, by decide⟩⟩

/-- A hit with each policy, a miss with a way to take, a miss with every way locked. -/
theorem test_witness_Fill :
    let s := hit ref 0x80005040 .i 2 0 (blk true false true 5 (pat 0))
    let r : State := { s with cfg := { refCfg with fillOnHit := .refill } }
    let m := hit ref 0x80005040 .i 2 0 (blk true false true 1 (pat 0))
    let f := setBlock m .i 2 1 (blk true false true 2 (pat 0))
    (Executes 20 0 4 s 0x5040 false false ∧ hitWays s .i (instrIndex .i 0 4 s 0x5040) 0x5040 = [0] ∧
      s.cfg.fillOnHit = .noChange) ∧
    (Executes 20 0 4 r 0x5040 false false ∧ hitWays r .i (instrIndex .i 0 4 r 0x5040) 0x5040 = [0] ∧
      r.cfg.fillOnHit = .refill ∧ ∃ d s1, readLine r .i 0x5040 = .ok (d, s1)) ∧
    (Executes 20 0 4 m 0x5040 false false ∧ hitWays m .i (instrIndex .i 0 4 m 0x5040) 0x5040 = [] ∧
      unlockedWays m .i 2 ≠ [] ∧ ∃ d s1, readLine (afterWay m) .i 0x5040 = .ok (d, s1)) ∧
    (Executes 20 0 4 f 0x5040 false false ∧ hitWays f .i (instrIndex .i 0 4 f 0x5040) 0x5040 = [] ∧
      unlockedWays f .i 2 = []) :=
  ⟨⟨by decide, by decide, by decide⟩, ⟨by decide, by decide, by decide, ⟨_, _, rfl⟩⟩,
    ⟨by decide, by decide, by decide, ⟨_, _, rfl⟩⟩, ⟨by decide, by decide, by decide⟩⟩

/-- VW1, VW2, VW3; the same states serve Hit Writeback D. -/
theorem test_witness_HitWritebackInvalidateD :
    let s := hit ref 0x80005040 .d 2 1 (blk true true true 5 (pat 0xD0))
    let k := hit ref 0x80005040 .d 2 1 (blk true false false 5 (pat 0xD0))
    let m := hit ref 0x80005040 .d 2 1 (blk true true false 4 (pat 0xD0))
    (Executes 21 0 4 s 0x5040 false false ∧ Executes 25 0 4 s 0x5040 false false ∧
      hitWays s .d (instrIndex .d 0 4 s 0x5040) 0x5040 = [1] ∧ holdsOwnLine s .d 2 1 = false ∧
      writeBack s.cfg .d = true ∧ (block s .d 2 1).dirty = true ∧ nextEvent s = .ok) ∧
    (Executes 21 0 4 k 0x5040 false false ∧ Executes 25 0 4 k 0x5040 false false ∧
      hitWays k .d (instrIndex .d 0 4 k 0x5040) 0x5040 = [1] ∧ holdsOwnLine k .d 2 1 = false ∧
      (block k .d 2 1).dirty = false) ∧
    (Executes 21 0 4 m 0x5040 false false ∧ Executes 25 0 4 m 0x5040 false false ∧
      hitWays m .d (instrIndex .d 0 4 m 0x5040) 0x5040 = []) := by decide

/-- On S: a dirty hit, a miss. On T: a hit that needs no writeback. The same states serve Hit Writeback. -/
theorem test_witness_HitWritebackOuter :
    let s := hit four 0x80005040 .s 65 0 (blk true true true 2 (pat64 0))
    let t := hit four 0x80005040 .t 65 0 (blk true false true 2 (pat64 0))
    (Executes 23 0 4 s 0x5040 false false ∧ Executes 27 0 4 s 0x5040 false false ∧
      innerFirst s .s (lineOf s.cfg .s 0x5040) .writebackInvalidate = .ok s ∧
      innerFirst s .s (lineOf s.cfg .s 0x5040) .writeback = .ok s ∧
      hitWays s .s (instrIndex .s 0 4 s 0x5040) 0x5040 = [0] ∧ holdsOwnLine s .s 65 0 = false ∧
      writeBack s.cfg .s = true ∧ (block s .s 65 0).dirty = true ∧ nextEvent s = .ok) ∧
    (Executes 22 0 4 t 0x5040 false false ∧ Executes 26 0 4 t 0x5040 false false ∧
      innerFirst t .t (lineOf t.cfg .t 0x5040) .writebackInvalidate = .ok t ∧
      innerFirst t .t (lineOf t.cfg .t 0x5040) .writeback = .ok t ∧
      hitWays t .t (instrIndex .t 0 4 t 0x5040) 0x5040 = [0] ∧ holdsOwnLine t .t 65 0 = false ∧
      writeBack t.cfg .t = false) ∧
    (Executes 23 0 4 t 0x5040 false false ∧ Executes 27 0 4 t 0x5040 false false ∧
      innerFirst t .s (lineOf t.cfg .s 0x5040) .writebackInvalidate = .ok t ∧
      innerFirst t .s (lineOf t.cfg .s 0x5040) .writeback = .ok t ∧
      hitWays t .s (instrIndex .s 0 4 t 0x5040) 0x5040 = []) :=
  ⟨⟨by decide, by decide, rfl, rfl, by decide, by decide, by decide, by decide, by decide⟩,
    ⟨by decide, by decide, rfl, rfl, by decide, by decide, by decide⟩,
    ⟨by decide, by decide, rfl, rfl, by decide⟩⟩

/-- With the inner caches first, where D holds half of the line, dirty: the state after it exists. -/
theorem test_witness_InnerFirst :
    let s := setBlock (hit fourFirst 0x80005040 .s 65 0 (blk true false true 2 (pat64 0))) .d 3 0
      (blk true true false 5 (pat 0x80))
    ∃ s1, innerFirst s .s (lineOf s.cfg .s 0x5040) .writebackInvalidate = .ok s1 ∧
      hitWays s1 .s (instrIndex .s 0 4 s 0x5040) 0x5040 = [0] ∧ holdsOwnLine s1 .s 65 0 = false ∧
      (block s1 .s 65 0).dirty = true ∧ nextEvent s1 = .ok :=
  ⟨_, rfl, by decide, by decide, by decide, by decide⟩

/-- A hit; a miss whose victim is dirty (VK5) and one whose victim is not (VK6); no way to take (VK2); further
lines. -/
theorem test_witness_FetchLock :
    let s := hit ref 0x80005040 .d 2 0 (blk true true false 5 (pat 0x40))
    let v := setBlock (hit ref 0x80005040 .d 2 0 (blk true true false 3 (pat 0x40))) .d 2 1
      (blk true false true 4 (pat 0x60))
    let f := setBlock (hit ref 0x80006040 .d 2 0 (blk true false true 1 (pat 0))) .d 2 1
      (blk true false true 5 (pat 0))
    let x : State := { base ref 0x80005040 with
      cfg := { refCfg with fetchLockExtraLines := true }, draws := { ref.draws with lines := [[0x5060]] } }
    (Executes 29 0 4 s 0x5040 false false ∧ s.cfg.fetchLockExtraLines = false ∧
      hitWays s .d (instrIndex .d 0 4 s 0x5040) 0x5040 = [0]) ∧
    (Executes 29 0 4 v 0x5040 false false ∧ hitWays v .d (instrIndex .d 0 4 v 0x5040) 0x5040 = [] ∧
      unlockedWays v .d 2 ≠ [] ∧ victimWay v .d 2 = 0 ∧ ∃ s1 d s2,
        writeBackBlock (afterWay v) .d 2 0 = .ok s1 ∧ readLine s1 .d 0x5040 = .ok (d, s2)) ∧
    (Executes 28 0 4 s 0x5040 false false ∧ hitWays s .i (instrIndex .i 0 4 s 0x5040) 0x5040 = [] ∧
      unlockedWays s .i 2 ≠ [] ∧ (block s .i 2 (victimWay s .i 2)).valid = false ∧
      ∃ d s2, readLine (afterWay s) .i 0x5040 = .ok (d, s2)) ∧
    (Executes 29 0 4 f 0x6040 false false ∧ hitWays f .d (instrIndex .d 0 4 f 0x6040) 0x6040 = [] ∧
      unlockedWays f .d 2 = []) ∧
    (Executes 28 0 4 x 0x5040 false false ∧ x.cfg.fetchLockExtraLines = true ∧ ∃ s1 s2,
      fetchLockAt x .i (instrIndex .i 0 4 x 0x5040) 0x5040 = .ok s1 ∧
      (nextLines s1).foldlM (fun t a => fetchLockAt t .i a a) (afterLines s1) = .ok s2) :=
  ⟨⟨by decide, by decide, by decide⟩, ⟨by decide, by decide, by decide, by decide, ⟨_, _, _, rfl, rfl⟩⟩,
    ⟨by decide, by decide, by decide, by decide, ⟨_, _, rfl⟩⟩, ⟨by decide, by decide, by decide⟩,
    ⟨by decide, by decide, ⟨_, _, rfl, rfl⟩⟩⟩

/-- Two valid blocks with one tag in I, in D, and, after the inner caches, in S and in T. -/
theorem test_witness_DuplicateTag :
    let i := setBlock (hit ref 0x80005040 .i 2 0 (blk true false false 5 (pat 0))) .i 2 1
      (blk true false false 5 (pat 0))
    let d := setBlock (hit ref 0x80005040 .d 2 0 (blk true false false 5 (pat 0))) .d 2 1
      (blk true false false 5 (pat 0))
    let s := setBlock (hit fourFirst 0x80005040 .s 65 0 (blk true false false 2 (pat64 0))) .s 65 1
      (blk true false false 2 (pat64 0))
    let t := setBlock (hit four 0x80005040 .t 65 0 (blk true false false 2 (pat64 0))) .t 65 1
      (blk true false false 2 (pat64 0))
    (∀ op ∈ [16, 20, 28], Executes (BitVec.ofNat 5 op) 0 4 i 0x5040 false false ∧
      2 ≤ (hitWays i .i (instrIndex .i 0 4 i 0x5040) 0x5040).length) ∧
    (∀ op ∈ [17, 21, 25, 29], Executes (BitVec.ofNat 5 op) 0 4 d 0x5040 false false ∧
      2 ≤ (hitWays d .d (instrIndex .d 0 4 d 0x5040) 0x5040).length) ∧
    (∀ op ∈ [19, 23, 27], Executes (BitVec.ofNat 5 op) 0 4 s 0x5040 false false ∧
      (okOf (afterInner (BitVec.ofNat 5 op) s (instrIndex .s 0 4 s 0x5040) 0x5040)).map
        (fun s1 => (hitWays s1 .s (instrIndex .s 0 4 s 0x5040) 0x5040).length) = some 2) ∧
    (∀ op ∈ [18, 22, 26], Executes (BitVec.ofNat 5 op) 0 4 t 0x5040 false false ∧
      (okOf (afterInner (BitVec.ofNat 5 op) t (instrIndex .t 0 4 t 0x5040) 0x5040)).map
        (fun s1 => (hitWays s1 .t (instrIndex .t 0 4 t 0x5040) 0x5040).length) = some 2) :=
  ⟨by decide, by decide, by decide, by decide⟩

/-- The first clause on D (VB1, VB2) and on S; the second with a dirty victim; the third with the victim
queued (VB4) and with none; the fourth with the policy that reads the line again. -/
theorem test_witness_FailingTransfer :
    let d := hit ref 0x80005040 .d 2 1 (blk true true false 5 (pat 0xD0))
    let c := events d [.cacheError]
    let s := events (hit four 0x80005040 .s 65 0 (blk true true true 2 (pat64 0))) [.busError]
    let v := setBlock (hit ref 0x80005040 .d 2 0 (blk true true false 3 (pat 0x40))) .d 2 1
      (blk true false true 4 (pat 0x60))
    let i : State := { hit ref 0x80005040 .i 2 0 (blk true false false 5 (pat 0)) with
      cfg := { refCfg with fillOnHit := .refill } }
    (indexedSet c .d (instrIndex .d 0 4 c 0x5040) = 2 ∧ indexedWay c .d (instrIndex .d 0 4 c 0x5040) = 1 ∧
      setIdx c.cfg .d (instrIndex .d 0 4 c 0x5040) = 2 ∧
      hitWays c .d (instrIndex .d 0 4 c 0x5040) 0x5040 = [1] ∧
      Executes 1 0 4 c 0x5040 false false ∧ Executes 21 0 4 c 0x5040 false false ∧
      Executes 25 0 4 c 0x5040 false false ∧ holdsOwnLine c .d 2 1 = false ∧
      afterInner 1 c (instrIndex .d 0 4 c 0x5040) 0x5040 = .ok c ∧
      writeBack c.cfg .d = true ∧ (block c .d 2 1).valid = true ∧ (block c .d 2 1).dirty = true ∧
      nextEvent c = .cacheError) ∧
    (Executes 3 0 4 s 0x5040 false false ∧ Executes 23 0 4 s 0x5040 false false ∧
      Executes 27 0 4 s 0x5040 false false ∧ afterInner 27 s (instrIndex .s 0 4 s 0x5040) 0x5040 = .ok s ∧
      hitWays s .s (instrIndex .s 0 4 s 0x5040) 0x5040 = [0] ∧ holdsOwnLine s .s 65 0 = false ∧
      writeBack s.cfg .s = true ∧ (block s .s 65 0).dirty = true ∧ nextEvent s = .busError) ∧
    (Executes 29 0 4 (events v [.busError]) 0x5040 false false ∧
      hitWays v .d (instrIndex .d 0 4 v 0x5040) 0x5040 = [] ∧ unlockedWays v .d 2 ≠ [] ∧
      victimWay v .d 2 = 0 ∧ (block v .d 2 0).valid = true ∧ (block v .d 2 0).dirty = true ∧
      nextEvent (afterWay (events v [.busError])) = .busError) ∧
    (∃ s1, writeBackBlock (afterWay (events v [.ok, .cacheError])) .d 2 0 = .ok s1 ∧
      nextEvent s1 = .cacheError) ∧
    (Executes 20 0 4 (events (base ref 0x80005040) [.busError]) 0x5040 false false ∧
      nextEvent (afterWay (events (base ref 0x80005040) [.busError])) = .busError) ∧
    (Executes 20 0 4 (events i [.cacheError]) 0x5040 false false ∧
      hitWays i .i (instrIndex .i 0 4 i 0x5040) 0x5040 = [0] ∧ i.cfg.fillOnHit = .refill) := by
  refine ⟨⟨by decide, by decide, by decide, by decide, by decide, by decide, by decide, by decide, rfl,
      by decide, by decide, by decide, by decide⟩,
    ⟨by decide, by decide, by decide, rfl, by decide, by decide, by decide, by decide, by decide⟩,
    by decide, ⟨_, rfl, by decide⟩, by decide, by decide⟩

/-- The fifth clause: the writeback of D's dirty line that Hit Writeback Invalidate (S) does first, and the
read of a further line of Fetch and Lock, each the last transfer made and then failing. -/
theorem test_witness_FailingTransferOfAny :
    let f := setBlock (hit fourFirst 0x80005040 .s 65 0 (blk true false true 2 (pat64 0))) .d 3 0
      (blk true true false 5 (pat 0x80))
    let x : State := { base ref 0x80005040 with
      cfg := { refCfg with fetchLockExtraLines := true }, draws := { ref.draws with lines := [[0x5060]] } }
    (∃ t, exec (.hitWritebackInvalidateS 0 4) (events f ([.ok] ++ .ok :: [])) = .next t ∧
      t.draws.events.length ≤ ([] : List TransferEvent).length) ∧
    (∃ t, exec (.hitWritebackInvalidateS 0 4) (events f ([] ++ .busError :: [.ok]))
      = .fault (.trap .busError t) ∧ t.draws.events = [.ok]) ∧
    (∃ t, exec (.fetchLockI 0 4) (events x ([.ok] ++ .ok :: [])) = .next t ∧
      t.draws.events.length ≤ ([] : List TransferEvent).length) ∧
    ∃ t, exec (.fetchLockI 0 4) (events x ([.ok] ++ .cacheError :: [])) = .fault (.trap .cacheError t) :=
  ⟨⟨_, rfl, by decide⟩, ⟨_, rfl, rfl⟩, ⟨_, rfl, by decide⟩, ⟨_, rfl⟩⟩

theorem test_witness_MemoryUnchanged :
    let s := hit ref 0x80005040 .d 2 1 (blk true true true 5 (pat 0xD0))
    actsInnerFirst s.cfg 21 = false ∧ ∃ t, exec (.hitWritebackInvalidateD 0 4) s = .next t :=
  ⟨by decide, ⟨_, rfl⟩⟩

/-- D holds half of S's line, dirty; an earlier writeback is pending; the bytes just outside the line. -/
theorem test_witness_InnerFirstStores :
    let s : State := { setBlock (hit fourFirst 0x80005040 .s 65 0 (blk true false true 2 (pat64 0))) .d 3 0
      (blk true true false 5 (pat 0x80)) with wbq := [⟨.mem, 0x9000, pat 1⟩] }
    Inv s ∧ actsInnerFirst s.cfg 23 = true ∧ Executes 23 0 4 s 0x5040 false false ∧
      (∃ t, exec (.hitWritebackInvalidateS 0 4) s = .next t) ∧
      (∀ e ∈ s.wbq, 0x503F < e.addr ∨ e.addr + e.data.length ≤ 0x503F) ∧
      (∀ e ∈ s.wbq, 0x5080 < e.addr ∨ e.addr + e.data.length ≤ 0x5080) ∧
      0x503F < lineOf s.cfg .s 0x5040 ∧ lineOf s.cfg .s 0x5040 + lineBytes s.cfg .s ≤ 0x5080 := by
  refine ⟨⟨by decide, ?_, by decide, by decide⟩, by decide, by decide, ⟨_, rfl⟩, by decide, by decide,
    by decide, by decide⟩
  have h0 : CachesWellFormed (base fourFirst 0x80005040) := cachesWellFormed_of_empty rfl
  have h1 : CachesWellFormed (hit fourFirst 0x80005040 .s 65 0 (blk true false true 2 (pat64 0))) :=
    cachesWellFormed_setBlock h0 ⟨by decide, by decide, .inl (by decide), by decide⟩
  have h2 := cachesWellFormed_setBlock (c := .d) (set := 3) (way := 0)
    (b := blk true true false 5 (pat 0x80)) h1 ⟨by decide, by decide, .inl (by decide), by decide⟩
  exact h2

/-- A write of one set; the block of another set and of another cache. -/
theorem test_witness_OtherBlocks :
    let s := hit ref 0x80005040 .d 2 1 (blk true true true 5 (pat 0xD0))
    actsInnerFirst s.cfg 21 = false ∧ operationCode 21 ≠ 3 ∧ s.cfg.fetchLockExtraLines = false ∧
      Executes 21 0 4 s 0x5040 false false ∧
      (∃ t, exec (.hitWritebackInvalidateD 0 4) s = .next t) ∧
      1 < wayCount s.cfg .d ∧ setIdx s.cfg .d (instrIndex .d 0 4 s 0x5040) = 2 :=
  ⟨by decide, by decide, by decide, by decide, ⟨_, rfl⟩, by decide, by decide⟩

/-- The set holds a locked block (way 0), and the fill takes the other way. -/
theorem test_witness_FillsNeverDisplace :
    let s := hit ref 0x80005040 .d 2 0 (blk true false true 1 (pat 0))
    (29 : Nat) ∈ [20, 28, 29] ∧ s.cfg.fetchLockExtraLines = false ∧ s.cfg.fillOnHit = .noChange ∧
      CachesWellFormed s ∧ Executes 29 0 4 s 0x5040 false false ∧
      (∃ t, exec (.fetchLockD 0 4) s = .next t) ∧ 0 < wayCount s.cfg .d ∧
      (block s .d 2 0).lock = true := by
  refine ⟨by decide, by decide, by decide, ?_, by decide, ⟨_, rfl⟩, by decide, by decide⟩
  exact cachesWellFormed_setBlock (cachesWellFormed_of_empty rfl)
    ⟨by decide, by decide, .inl (by decide), by decide⟩

/-- One that appends, and one that does not. -/
theorem test_witness_WritebacksOnlyAppended :
    let s := hit ref 0x80005040 .d 2 1 (blk true true true 5 (pat 0xD0))
    (actsInnerFirst s.cfg 25 = false ∧ ∃ t, exec (.hitWritebackD 0 4) s = .next t) ∧
    (actsInnerFirst s.cfg 17 = false ∧ (∃ t, exec (.hitInvalidateD 0 4) s = .next t) ∧
      (Instr.hitInvalidateD 0 4).op.toNat ∈ [0, 4, 5, 6, 7, 8, 9, 10, 11, 16, 17, 18, 19, 20]) :=
  ⟨⟨by decide, ⟨_, rfl⟩⟩, ⟨by decide, ⟨_, rfl⟩, by decide⟩⟩

theorem test_witness_OwnLineOnly :
    (4 ≤ (Instr.indexLoadTagI 0 4).op.toNat ∧ (Instr.indexStoreTagS 0 4).op.toNat ≤ 11) ∧
    (12 ≤ (Instr.implDependentI 0 4).op.toNat ∧ (Instr.implDependentS 0 4).op.toNat ≤ 15 ∧
      ∀ p u, (nextImpl (impls ref [⟨[], some (.ownLine .d)⟩]) (cacheOfOp (Instr.implDependentI 0 4).op)
        (effectiveAddress ref 0 4) p u).stop ≠ some (.ownLine .i)) ∧
    (Instr.hitWritebackD 0 4).op.toNat ∈ [20, 25, 28, 29] ∧
    ((Instr.hitWritebackT 0 4).op.toNat ∈ [26, 27] ∧
      actsInnerFirst fourCfg (Instr.hitWritebackT 0 4).op = false) :=
  ⟨by decide, ⟨by decide, by decide, fun _ _ h => by cases h⟩, by decide, by decide⟩

/-- A step of the processor and a step of the drain, from a state of the invariant. -/
theorem test_witness_StepKeeps :
    let s := launch (base ref 0x80000040) 0x80010000 [0xF009D4A0] []
    let d : State := { ref with
      wbq := [⟨.mem, 0x5040, pat 0xA0⟩], draws := { ref.draws with schedule := [0] } }
    (Inv s ∧ ∃ t, step s = .next t) ∧ (Inv d ∧ ∃ t, step d = .next t) :=
  ⟨⟨⟨by decide, cachesWellFormed_of_empty rfl, by decide, by decide⟩, ⟨_, rfl⟩⟩,
    ⟨⟨by decide, cachesWellFormed_of_empty rfl, by decide, by decide⟩, ⟨_, rfl⟩⟩⟩

end Sys2Proof.Tests
end

/-! SUPPORT. The proofs of what every step keeps, what it fetches and refuses, and how the general
registers read. -/

namespace Sys2Proof.Machine

/-! ### What every step keeps -/

theorem Move.inv {s t : State} (hm : Move s t) (h : Inv s) : Inv t := by
  obtain ⟨hmem, hcaches, hcfg, hpc⟩ := h
  exact ⟨hm.memory_wf hmem, hm.caches_wf hcaches, hm.cfg ▸ hcfg, hm.pc ▸ hpc⟩

theorem Moves.inv {s t : State} (hm : Moves s t) (h : Inv s) : Inv t :=
  hm.keeps (fun _ _ => Move.inv) h

/-- The invariant does not speak of the environment's draws. -/
theorem inv_withDraws {s : State} (h : Inv s) (d : Draws) : Inv (withDraws s d) := h

theorem inv_withPc {s : State} (h : Inv s) {v : Word} (hv : v.toNat % 2 = 0) : Inv (withPc s v) := by
  obtain ⟨hmem, hcaches, hcfg, -⟩ := h
  exact ⟨hmem, hcaches, hcfg, hv⟩

/-- An even pc stays even where `pc + 4` wraps, the modulus 2^32 being even (D4). -/
theorem even_add_four {v : Word} (h : v.toNat % 2 = 0) : (v + 4).toNat % 2 = 0 := by
  bv_omega

theorem step_keeps_inv {s t : State} (h : Inv s) (hs : step s = .next t) : Inv t := by
  obtain ⟨d, s1, hm, ht⟩ := step_moves hs
  have h1 : Inv s1 := hm.inv (inv_withDraws h d)
  obtain ⟨-, -, -, hpc⟩ := h
  rcases ht with rfl | rfl
  · exact h1
  · exact inv_withPc h1 (even_add_four hpc)

/-- Settles O58: a step is a turn of the schedule, a chain of moves, each of which keeps the invariant,
and pc + 4 where the processor moved. -/
theorem stepKeepsTheInvariant : Obligations.StepKeepsTheInvariant :=
  fun _ _ => step_keeps_inv

/-- Settles O60: neither the schedule, nor a move, nor pc + 4 writes a register or a parameter. -/
theorem stepKeepsRegistersAndParameters : Obligations.StepKeepsRegistersAndParameters := by
  intro s t hs
  obtain ⟨d, s1, hm, rfl | rfl⟩ := step_moves hs
  · exact ⟨hm.regs, hm.cfg, hm.text, hm.syncMarks⟩
  · exact ⟨hm.regs, hm.cfg, hm.text, hm.syncMarks⟩

/-! ### Fetching the instruction at pc (R27) -/

theorem textByte_of_isSome {s : State} {a : Word} (h : (sparseFind s.text a.toNat).isSome = true) :
    ∃ b, textByte s a = .ok b := by
  obtain ⟨b, hb⟩ := Option.isSome_iff_exists.1 h
  exact ⟨b, by rw [textByte, hb]⟩

theorem textBytes_cons {s : State} {a : Word} {n : Nat} {b : Byte} {bs : List Byte}
    (h : textByte s a = .ok b) (hs : textBytes s (a + 1) n = .ok bs) :
    textBytes s a (n + 1) = .ok (b :: bs) := by
  simp only [textBytes, h, hs]

/-- The first missing byte is the one that is named. -/
theorem textBytes_missing {s : State} {n k : Nat} {a : Word} (hk : k < n)
    (hsome : ∀ j < k, (sparseFind s.text (a + BitVec.ofNat 32 j).toNat).isSome = true)
    (hnone : sparseFind s.text (a + BitVec.ofNat 32 k).toNat = none) :
    textBytes s a n = .error (.noProgramText (a + BitVec.ofNat 32 k)) := by
  induction n generalizing k a with
  | zero => omega
  | succ n ih =>
    cases k with
    | zero =>
      have hb : textByte s a = .error (.noProgramText a) := by
        simp only [BitVec.add_zero] at hnone
        rw [textByte, hnone]
      simp [textBytes, hb]
    | succ k =>
      have hshift (j : Nat) : a + BitVec.ofNat 32 (j + 1) = a + 1 + BitVec.ofNat 32 j := by
        rw [Nat.add_comm, BitVec.ofNat_add, ← BitVec.add_assoc]; rfl
      obtain ⟨b, hb⟩ := textByte_of_isSome (by simpa using hsome 0 (by omega))
      have hrest := ih (a := a + 1) (k := k) (by omega)
        (fun j hj => hshift j ▸ hsome (j + 1) (by omega)) (hshift k ▸ hnone)
      rw [hshift, textBytes]
      simp only [hb, hrest]

theorem textBytes_four {s : State} {a : Word} {b0 b1 b2 b3 : Byte} (h0 : textByte s a = .ok b0)
    (h1 : textByte s (a + 1) = .ok b1) (h2 : textByte s (a + 2) = .ok b2)
    (h3 : textByte s (a + 3) = .ok b3) : textBytes s a 4 = .ok [b0, b1, b2, b3] := by
  have h2' : textByte s (a + 1 + 1) = .ok b2 := by rw [BitVec.add_assoc]; exact h2
  have h3' : textByte s (a + 1 + 1 + 1) = .ok b3 := by
    rw [BitVec.add_assoc, BitVec.add_assoc]; exact h3
  exact textBytes_cons h0 (textBytes_cons h1 (textBytes_cons h2' (textBytes_cons h3' rfl)))

theorem fetch_oddPc {s : State} (h : s.pc.toNat % 2 = 1) : fetch s = .error (.oddPc s.pc) := by
  rw [fetch, if_pos h]

theorem fetch_of_textBytes_error {s : State} {r : Refusal} (hpc : s.pc.toNat % 2 = 0)
    (h : textBytes s s.pc 4 = .error r) : fetch s = .error r := by
  rw [fetch, if_neg (by omega), h]

theorem fetch_decode {s : State} {bs rest : List Byte} {i : Instr} (hpc : s.pc.toNat % 2 = 0)
    (h : textBytes s s.pc 4 = .ok bs) (hd : decode s.cfg.bigEndian bs = .ok (i, rest)) :
    fetch s = .ok i := by
  rw [fetch, if_neg (by omega), h]
  simp only [hd]

theorem fetch_notCache {s : State} {bs : List Byte} {w : Word} (hpc : s.pc.toNat % 2 = 0)
    (h : textBytes s s.pc 4 = .ok bs) (hd : decode s.cfg.bigEndian bs = .error (.notCache w)) :
    fetch s = .error (.notCache w) := by
  rw [fetch, if_neg (by omega), h]
  simp only [hd]

theorem decode_notCache {be : Bool} {b0 b1 b2 b3 : Byte} {rest : List Byte}
    (h : decodeWord (wordOfBytes be b0 b1 b2 b3) = none) :
    decode be (b0 :: b1 :: b2 :: b3 :: rest) = .error (.notCache (wordOfBytes be b0 b1 b2 b3)) := by
  simp only [decode, h]

/-- The fetch does not look at the environment's draws. -/
@[simp] theorem fetch_withDraws (s : State) (d : Draws) : fetch (withDraws s d) = fetch s := rfl

@[simp] theorem fetch_afterProcessorTurn (s : State) : fetch (afterProcessorTurn s) = fetch s := by
  obtain ⟨d, hd⟩ := withWait_eq s [drainWait s - 1]
  rw [afterProcessorTurn, hd, fetch_withDraws]

/-! ### A move of the processor -/

/-- A configuration that is not well-formed is refused (R4, D34). -/
theorem step_badConfig {s : State} (hc : cfgOk s.cfg = false) : step s = .refused .badConfig := by
  simp [step, hc]

/-- With nothing to drain the processor moves (R36). -/
theorem step_idle {s : State} (hc : cfgOk s.cfg = true) (hq : s.wbq = []) :
    step s = processorStep s := by
  simp [step, chooseAgent, hc, hq]

/-- While the drain waits the processor moves, and the wait is one shorter (R36). -/
theorem step_drainWaits {s : State} (hc : cfgOk s.cfg = true) (hq : s.wbq ≠ [])
    (ha : atSync s = false) (hw : drainWait s ≠ 0) :
    step s = processorStep (afterProcessorTurn s) := by
  simp [step, chooseAgent, hc, hq, ha, hw]

theorem processorStep_of_fetch {s : State} {i : Instr} (h : fetch s = .ok i) :
    processorStep s = exec i s := by
  simp only [processorStep, h]

theorem processorStep_refused {s : State} {r : Refusal} (h : fetch s = .error r) :
    processorStep s = .refused r := by
  simp only [processorStep, h]

/-- Where it is the processor's move, a fetch that is refused refuses the step. -/
theorem step_refused_of_fetch {s : State} {r : Refusal} (hc : cfgOk s.cfg = true)
    (hm : s.wbq = [] ∨ (atSync s = false ∧ drainWait s ≠ 0)) (hf : fetch s = .error r) :
    step s = .refused r := by
  by_cases hq : s.wbq = []
  · rw [step_idle hc hq, processorStep_refused hf]
  · obtain ⟨ha, hw⟩ := hm.resolve_left hq
    rw [step_drainWaits hc hq ha hw, processorStep_refused ((fetch_afterProcessorTurn s).trans hf)]

/-- Settles O7: the fetch gives the decoded instruction, in the state and in that of the shorter wait. -/
theorem stepRunsTheDecodedInstruction : Obligations.StepRunsTheDecodedInstruction := by
  intro s b0 b1 b2 b3 i rest hc hpc h0 h1 h2 h3 hd
  have hf : fetch s = .ok i := fetch_decode hpc (textBytes_four h0 h1 h2 h3) hd
  refine ⟨fun hq => ?_, fun hq ha hw => ?_⟩
  · rw [step_idle hc hq, processorStep_of_fetch hf]
  · rw [step_drainWaits hc hq ha hw, processorStep_of_fetch ((fetch_afterProcessorTurn s).trans hf)]

/-- Settles O8: each refusal of the fetch is the step's. -/
theorem stepRefusals : Obligations.StepRefusals := by
  intro s
  refine ⟨step_badConfig, fun hc hm => ⟨fun hpc => ?_, ?_, ?_⟩⟩
  · exact step_refused_of_fetch hc hm (fetch_oddPc hpc)
  · intro k hk hpc hsome hnone
    exact step_refused_of_fetch hc hm (fetch_of_textBytes_error hpc (textBytes_missing hk hsome hnone))
  · intro b0 b1 b2 b3 hpc h0 h1 h2 h3 hd
    exact step_refused_of_fetch hc hm
      (fetch_notCache hpc (textBytes_four h0 h1 h2 h3) (decode_notCache hd))

/-! ### The general registers -/

@[simp] theorem readReg_zero (s : State) : readReg s 0 = 0 := rfl

@[simp] theorem writeReg_zero (s : State) (v : Word) : writeReg s 0 v = s := rfl

theorem readReg_writeReg_same (s : State) {r : Fin 32} (v : Word) (h : r ≠ 0) :
    readReg (writeReg s r v) r = v := by
  simp [readReg, writeReg, h]

theorem readReg_writeReg_other (s : State) {r q : Fin 32} (v : Word) (h : q ≠ r) :
    readReg (writeReg s r v) q = readReg s q := by
  have hne : r.val ≠ q.val := fun he => h (Fin.ext he.symm)
  by_cases hr : r = 0
  · simp [hr]
  · simp [readReg, writeReg, hr, Vector.getElem_set_ne _ _ hne]

/-- Settles O11: a register is read after a write to it, to another, and to x[0]. -/
theorem generalRegisters : Obligations.GeneralRegisters := fun s _ _ v =>
  ⟨readReg_zero s, writeReg_zero s v, readReg_writeReg_same s v, readReg_writeReg_other s v⟩

end Sys2Proof.Machine

/-! SUPPORT. The proofs of what the instructions keep of registers, memory, blocks and Coprocessor 0, of the
law of the tag layouts, of the lookup, and of the fault that two blocks with one tag are. -/

namespace Sys2Proof.Machine

/-! ### Registers and pc (R10, R12) -/

/-- Settles O12: an instruction is a chain of moves, none of which writes a register, pc or a parameter, and
then pc + 4. -/
theorem registersKeptAndPcAdvances : Obligations.RegistersKeptAndPcAdvances := by
  refine fun i s => ⟨fun t h => ?_, fun f h => ?_, exec_not_refused i s⟩
  · obtain ⟨s1, hm, rfl⟩ := exec_next h
    exact ⟨hm.regs, rfl, hm.cfg, hm.text, hm.syncMarks⟩
  · have hm := exec_fault h
    exact ⟨hm.pc, hm.regs, hm.cfg⟩

/-! ### The tag layouts (R24) -/

theorem bool_toNat_mod_two (b : Bool) : b.toNat % 2 = b.toNat := Nat.mod_eq_of_lt b.toNat_lt

theorem bool_toNat_add_div_two (b : Bool) (x : Nat) : (b.toNat + 2 * x) / 2 = x := by
  have := b.toNat_lt; omega

theorem testBit_of_div_mod {n p : Nat} {b : Bool} (h : n / 2 ^ p % 2 = b.toNat) : n.testBit p = b := by
  rw [Nat.testBit_eq_decide_div_mod_eq, h]
  cases b <;> rfl

/-- Adding a bit at a position that is clear changes no other position. -/
theorem testBit_bitOf_add {x q : Nat} (b : Bool) (hx : x.testBit q = false) (p : Nat) :
    (bitOf b q + x).testBit p = if p = q then b else x.testBit p := by
  cases b with
  | false => by_cases hp : p = q <;> simp [bitOf, hp, hx]
  | true =>
    have hy : x / 2 ^ q % 2 = 0 := by
      rw [Nat.testBit_eq_decide_div_mod_eq] at hx
      have := of_decide_eq_false hx
      omega
    simp only [bitOf, if_true]
    rcases Nat.lt_trichotomy p q with h | rfl | h
    · rw [Nat.testBit_two_pow_add_gt h, if_neg (by omega)]
    · rw [Nat.testBit_two_pow_add_eq, hx]; simp
    · obtain ⟨j, rfl⟩ := Nat.exists_eq_add_of_lt h
      have hdiv : (2 ^ q + x) / 2 ^ (q + 1) = x / 2 ^ (q + 1) := by
        rw [Nat.pow_succ, ← Nat.div_div_eq_div_mul, ← Nat.div_div_eq_div_mul,
          Nat.add_div_left _ (Nat.two_pow_pos q)]
        omega
      rw [if_neg (by omega), show q + j + 1 = j + (q + 1) by omega, Nat.testBit_add, Nat.testBit_add, hdiv]

theorem scatterBits_cons (p : Nat) (ps : List Nat) (v : Nat) :
    scatterBits (p :: ps) v = bitOf (v.testBit 0) p + scatterBits ps (v / 2) := by
  rcases Nat.mod_two_eq_zero_or_one v with h | h <;> simp [scatterBits, bitOf, h]

/-- Bits are laid out at the listed positions only. -/
theorem testBit_scatterBits_of_notMem {ps : List Nat} (hn : ps.Nodup) {q : Nat} (hq : q ∉ ps) (v : Nat) :
    (scatterBits ps v).testBit q = false := by
  induction ps generalizing v q with
  | nil => simp [scatterBits]
  | cons p ps ih =>
    obtain ⟨hp, hn⟩ := List.nodup_cons.1 hn
    obtain ⟨hqp, hq⟩ := not_or.1 (mt List.mem_cons.2 hq)
    rw [scatterBits_cons, testBit_bitOf_add _ (ih hn hp _), if_neg hqp, ih hn hq]

theorem scatterBits_lt {ps : List Nat} {n : Nat} (hn : ps.Nodup) (hlt : ∀ p ∈ ps, p < n) (v : Nat) :
    scatterBits ps v < 2 ^ n :=
  Nat.lt_pow_two_of_testBit _ fun i hi =>
    testBit_scatterBits_of_notMem hn (fun hm => absurd (hlt i hm) (by omega)) v

/-- What is gathered depends on the listed positions only. -/
theorem gatherBits_congr {ps : List Nat} {m n : Nat} (h : ∀ p ∈ ps, m.testBit p = n.testBit p) :
    gatherBits ps m = gatherBits ps n := by
  induction ps with
  | nil => rfl
  | cons p ps ih =>
    obtain ⟨hp, h⟩ := List.forall_mem_cons.1 h
    rw [gatherBits, gatherBits, ih h, ← Nat.toNat_testBit, ← Nat.toNat_testBit, hp]

/-- At distinct positions, what was laid out is gathered again. -/
theorem gatherBits_scatterBits {ps : List Nat} (hn : ps.Nodup) (v : Nat) :
    gatherBits ps (scatterBits ps v) = v % 2 ^ ps.length := by
  induction ps generalizing v with
  | nil => simp [gatherBits, Nat.mod_one]
  | cons p ps ih =>
    obtain ⟨hp, hn⟩ := List.nodup_cons.1 hn
    have hbit := testBit_bitOf_add (v.testBit 0) (testBit_scatterBits_of_notMem hn hp (v / 2))
    have hrest : gatherBits ps (scatterBits (p :: ps) v) = gatherBits ps (scatterBits ps (v / 2)) :=
      gatherBits_congr fun q hq => by
        rw [scatterBits_cons, hbit, if_neg (ne_of_mem_of_not_mem hq hp)]
    rw [gatherBits, hrest, ih hn, ← Nat.toNat_testBit, scatterBits_cons, hbit, if_pos rfl,
      Nat.toNat_testBit, List.length_cons, Nat.pow_succ', Nat.mod_mul]
    simp

/-- A number below 2^64 is that of its two words. -/
theorem toNat_halves {n : Nat} (h : n < 2 ^ 64) :
    (BitVec.ofNat 32 (n / 2 ^ 32)).toNat * 2 ^ 32 + (BitVec.ofNat 32 n).toNat = n := by
  simp only [BitVec.toNat_ofNat]; omega

/-- The number whose bits a described layout lays out: valid, dirty in a write-back cache, lock, tag. -/
def tagBits (cfg : Cfg) (c : CacheName) (b : Block) : Nat :=
  if writeBack cfg c then b.valid.toNat + 2 * (b.dirty.toNat + 2 * (b.lock.toNat + 2 * b.ptag))
  else b.valid.toNat + 2 * (b.lock.toNat + 2 * b.ptag)

theorem bitOf_eq (b : Bool) (p : Nat) : bitOf b p = b.toNat * 2 ^ p := by cases b <;> simp [bitOf]

/-- `TagPack` of a described layout lays out the block's bits at the positions in use. -/
theorem tagPack_bits {cfg : Cfg} {c : CacheName} {v d l : Nat} {ps : List Nat}
    (hl : (cfg.caches.get c).tagLayout = .bits v d l ps) (b : Block) :
    tagPack cfg c b =
      (BitVec.ofNat 32 (scatterBits (usedPositions cfg c v d l ps) (tagBits cfg c b)),
        BitVec.ofNat 32 (scatterBits (usedPositions cfg c v d l ps) (tagBits cfg c b) / 2 ^ 32)) := by
  have hn : bitOf b.valid v + bitOf (b.dirty && writeBack cfg c) d + bitOf b.lock l
      + scatterBits ps b.ptag = scatterBits (usedPositions cfg c v d l ps) (tagBits cfg c b) := by
    cases hw : writeBack cfg c <;>
      simp [usedPositions, tagBits, hw, scatterBits, bitOf_eq, bool_toNat_mod_two, bool_toNat_add_div_two,
        Nat.add_assoc]
  simp only [tagPack, hl, hn]

/-- The bits gathered from the positions in use are the fields that `TagUnpack` gives. -/
theorem tagUnpack_of_gatherBits {cfg : Cfg} {c : CacheName} {v d l : Nat} {ps : List Nat} {lo hi : Word}
    (hl : (cfg.caches.get c).tagLayout = .bits v d l ps) {b : Block}
    (hd : b.dirty = true → writeBack cfg c = true)
    (hg : gatherBits (usedPositions cfg c v d l ps) (hi.toNat * 2 ^ 32 + lo.toNat) = tagBits cfg c b) :
    tagUnpack cfg c lo hi = (b.valid, b.dirty, b.lock, b.ptag) := by
  have hv := b.valid.toNat_lt
  have hk := b.lock.toNat_lt
  have hdt := b.dirty.toNat_lt
  simp only [tagUnpack, tagFields, hl]
  generalize hi.toNat * 2 ^ 32 + lo.toNat = n at hg
  cases hw : writeBack cfg c with
  | true =>
    simp only [usedPositions, tagBits, hw, if_true, gatherBits] at hg
    have hvalid : n.testBit v = b.valid := testBit_of_div_mod (by omega)
    have hdirty : n.testBit d = b.dirty := testBit_of_div_mod (by omega)
    have hlock : n.testBit l = b.lock := testBit_of_div_mod (by omega)
    rw [hvalid, hdirty, hlock, show gatherBits ps n = b.ptag by omega, Bool.and_true]
  | false =>
    have hclean : b.dirty = false := by simpa [hw] using hd
    simp only [usedPositions, tagBits, hw, Bool.false_eq_true, if_false, gatherBits] at hg
    have hvalid : n.testBit v = b.valid := testBit_of_div_mod (by omega)
    have hlock : n.testBit l = b.lock := testBit_of_div_mod (by omega)
    rw [hvalid, hlock, show gatherBits ps n = b.ptag by omega, Bool.and_false, hclean]

/-- A tag that R24 speaks of fits the tag positions of a layout that has enough of them. -/
theorem ptag_lt_of_positions {cfg : Cfg} {c : CacheName} {t n : Nat} (ht : t < ptagLimit cfg c)
    (hn : cfg.paBits ≤ n + (cfg.caches.get c).lineBits + (cfg.caches.get c).setBits) : t < 2 ^ n := by
  refine ht.trans_le (Nat.div_le_of_le_mul ?_)
  rw [waySize, lineBytes, setCount, ← Nat.pow_add, ← Nat.pow_add]
  exact Nat.pow_le_pow_right (by omega) (by omega)

theorem tagBits_lt {cfg : Cfg} {c : CacheName} {b : Block} (v d l : Nat) {ps : List Nat}
    (h : b.ptag < 2 ^ ps.length) :
    tagBits cfg c b < 2 ^ (usedPositions cfg c v d l ps).length := by
  have hv := b.valid.toNat_lt
  have hk := b.lock.toNat_lt
  have hd := b.dirty.toNat_lt
  cases hw : writeBack cfg c <;>
    simp only [tagBits, usedPositions, hw, if_true, Bool.false_eq_true, if_false, List.length_cons,
      Nat.pow_succ] <;> omega

/-- A layout that can give every tag back does (R24). -/
theorem tagUnpack_tagPack {cfg : Cfg} {c : CacheName} {b : Block} (hok : tagLayoutOk cfg c = true)
    (ht : b.ptag < ptagLimit cfg c) (hd : b.dirty = true → writeBack cfg c = true) :
    tagUnpack cfg c (tagPack cfg c b).1 (tagPack cfg c b).2 = (b.valid, b.dirty, b.lock, b.ptag) := by
  unfold tagLayoutOk at hok
  split at hok
  case h_1 v d l ps hl =>
    simp only [Bool.and_eq_true, decide_eq_true_eq, List.all_eq_true] at hok
    obtain ⟨⟨hnodup, hlt⟩, hbits⟩ := hok
    rw [tagPack_bits hl]
    refine tagUnpack_of_gatherBits hl hd ?_
    rw [toNat_halves (scatterBits_lt hnodup hlt _), gatherBits_scatterBits hnodup,
      Nat.mod_eq_of_lt (tagBits_lt v d l (ptag_lt_of_positions ht hbits))]
  case h_2 hl =>
    have hlaw := (tagCodec cfg c).law (of_decide_eq_true hok) b ht hd
    have hdirty : (b.dirty && writeBack cfg c) = b.dirty := by
      cases hb : b.dirty
      · rfl
      · simp [hd hb]
    simp only [tagUnpack, tagFields, tagPack, hl, hlaw, hdirty]

theorem cacheOk_of_cfgOk {cfg : Cfg} (h : cfgOk cfg = true) (c : CacheName) : cacheOk cfg c = true := by
  simp only [cfgOk, Bool.and_eq_true, List.all_eq_true] at h
  obtain ⟨⟨⟨-, hcaches⟩, -⟩, -⟩ := h
  exact hcaches c (by cases c <;> simp)

/-- In a well-formed configuration the layout of a cache that is present can give every tag back. -/
theorem tagLayoutOk_of_cfgOk {cfg : Cfg} (h : cfgOk cfg = true) {c : CacheName}
    (hp : present cfg c = true) : tagLayoutOk cfg c = true := by
  have hc := cacheOk_of_cfgOk h c
  simp only [cacheOk, hp, Bool.not_true, Bool.false_or, Bool.and_eq_true] at hc
  exact hc.1.2

/-- Settles O14: a well-formed configuration has a layout that can give every tag back. -/
theorem tagPackThenUnpack : Obligations.TagPackThenUnpack :=
  fun _ _ _ hok hp ht hd => tagUnpack_tagPack (tagLayoutOk_of_cfgOk hok hp) ht hd

/-! ### The lookup (R24) and the lines it finds (R22, R29) -/

theorem mem_hitWays_iff {s : State} {c : CacheName} {ia p w : Nat} :
    w ∈ hitWays s c ia p ↔ w < wayCount s.cfg c ∧ (block s c (setIdx s.cfg c ia) w).valid = true ∧
      (block s c (setIdx s.cfg c ia) w).ptag = p / waySize s.cfg c := by
  rw [← ptagOf]
  simp [hitWays]

theorem hitWays_nodup (s : State) (c : CacheName) (ia p : Nat) : (hitWays s c ia p).Nodup :=
  List.nodup_range.filter _

theorem findHit_ok_iff {s : State} {c : CacheName} {ia p : Nat} {o : Option Nat} :
    findHit s c ia p = .ok o ↔ hitWays s c ia p = o.toList := by
  refine ⟨findHit_some_iff, fun h => ?_⟩
  cases o with
  | none => exact findHit_of_nil h
  | some w => exact findHit_of_single h

theorem findHit_duplicate_iff {s : State} {c : CacheName} {ia p : Nat} :
    findHit s c ia p = .error (.undefinedDuplicateTag c (setIdx s.cfg c ia) s) ↔
      2 ≤ (hitWays s c ia p).length := by
  refine ⟨fun h => ?_, findHit_of_two⟩
  unfold findHit at h
  split at h
  · cases h
  · cases h
  · next hnil hone =>
    match hl : hitWays s c ia p with
    | [] => exact absurd hl hnil
    | [w] => exact absurd hl (hone w)
    | _ :: _ :: _ => simp

/-- A list without repetition is a singleton where it has one member only. -/
theorem eq_singleton_iff_of_nodup {l : List Nat} (hl : l.Nodup) {w : Nat} :
    l = [w] ↔ w ∈ l ∧ ∀ w' ∈ l, w' = w := by
  refine ⟨by rintro rfl; simp, fun ⟨hm, hu⟩ => ?_⟩
  exact List.perm_singleton.1 ((List.perm_ext_iff_of_nodup hl (List.nodup_singleton w)).2 fun a =>
    ⟨fun ha => List.mem_singleton.2 (hu a ha), fun ha => List.mem_singleton.1 ha ▸ hm⟩)

/-- A list without repetition has two members or more where it has two that differ. -/
theorem two_le_length_iff_of_nodup {l : List Nat} (hl : l.Nodup) :
    2 ≤ l.length ↔ ∃ w w', w ∈ l ∧ w' ∈ l ∧ w ≠ w' := by
  match l, hl with
  | [], _ => simp
  | [w], _ => simp
  | w :: w' :: l, hl =>
    have hne : w ≠ w' := fun h => (List.nodup_cons.1 hl).1 (h ▸ List.mem_cons_self)
    exact iff_of_true (by simp) ⟨w, w', by simp, by simp, hne⟩

/-- Settles O15: the ways that hit are listed once each, and the lookup counts them. -/
theorem lookupFindsTheOneMatchingWay : Obligations.LookupFindsTheOneMatchingWay := by
  intro s c ia p
  simp only [← mem_hitWays_iff]
  have hn := hitWays_nodup s c ia p
  refine ⟨fun w => ?_, ?_, ?_⟩
  · rw [findHit_ok_iff, Option.toList_some, eq_singleton_iff_of_nodup hn]
  · rw [findHit_ok_iff, Option.toList_none, List.eq_nil_iff_forall_not_mem]
  · rw [findHit_duplicate_iff, two_le_length_iff_of_nodup hn]

theorem lineOf_eq (cfg : Cfg) (c : CacheName) (a : Nat) :
    lineOf cfg c a = lineBytes cfg c * (a / lineBytes cfg c) := by
  have := Nat.div_add_mod a (lineBytes cfg c)
  unfold lineOf; omega

theorem lineOf_mod (cfg : Cfg) (c : CacheName) (a : Nat) : lineOf cfg c a % lineBytes cfg c = 0 := by
  rw [lineOf_eq, Nat.mul_mod_right]

theorem lineOf_le (cfg : Cfg) (c : CacheName) (a : Nat) : lineOf cfg c a ≤ a := Nat.sub_le _ _

theorem lt_lineOf_add (cfg : Cfg) (c : CacheName) (a : Nat) :
    a < lineOf cfg c a + lineBytes cfg c := by
  have := Nat.mod_lt a (lineBytes_pos cfg c)
  unfold lineOf; omega

theorem lineOf_div (cfg : Cfg) (c : CacheName) (a : Nat) :
    lineOf cfg c a / lineBytes cfg c = a / lineBytes cfg c := by
  rw [lineOf_eq, Nat.mul_div_cancel_left _ (lineBytes_pos cfg c)]

/-- A line has one set. -/
theorem setIdx_lineOf (cfg : Cfg) (c : CacheName) (a : Nat) :
    setIdx cfg c (lineOf cfg c a) = setIdx cfg c a := by
  rw [setIdx, setIdx, lineOf_div]

/-- A line has one tag. -/
theorem ptagOf_lineOf (cfg : Cfg) (c : CacheName) (a : Nat) :
    ptagOf cfg c (lineOf cfg c a) = ptagOf cfg c a := by
  rw [ptagOf, ptagOf, waySize, ← Nat.div_div_eq_div_mul, ← Nat.div_div_eq_div_mul, lineOf_div]

/-- The lookup depends on the lines of its two addresses only. -/
theorem findHit_lineOf (s : State) (c : CacheName) (ia p : Nat) :
    findHit s c (lineOf s.cfg c ia) (lineOf s.cfg c p) = findHit s c ia p := by
  have hways : hitWays s c (lineOf s.cfg c ia) (lineOf s.cfg c p) = hitWays s c ia p := by
    simp only [hitWays, setIdx_lineOf, ptagOf_lineOf]
  simp only [findHit, hways, setIdx_lineOf]

/-- Settles O19: a line has one set and one tag, which are all the lookup uses of its addresses. -/
theorem anyByteOfALineSelectsIt : Obligations.AnyByteOfALineSelectsIt := fun s c ia p =>
  ⟨(findHit_lineOf s c ia p).symm, lineOf_mod s.cfg c p, lineOf_le s.cfg c p, lt_lineOf_add s.cfg c p⟩

/-! ### Reading a block after a write (R21) -/

/-- Settles O16: the place written, another place of the cache, another cache. -/
theorem blockReadAfterWrite : Obligations.BlockReadAfterWrite := by
  intro s c c' set way set' way' b hwf hway hway'
  split
  · next h =>
    obtain ⟨rfl, rfl, rfl⟩ := h
    exact block_setBlock_same (hwf c').1.1 set' way' b
  · next h =>
    by_cases hc : c' = c
    · subst hc
      exact block_setBlock_other s b hway hway' fun hp => h ⟨rfl, hp⟩
    · exact block_setBlock_cache s set way set' way' b hc

/-! ### The operations left out of the frame of `opBody_framed`: codes 0b001 and 0b011 -/

/-- The four ops of an operation code: one per cache (R48, R49). -/
theorem op_of_operationCode {op : BitVec 5} {k : Nat} (h : operationCode op = k) :
    op = BitVec.ofNat 5 (4 * k) ∨ op = BitVec.ofNat 5 (4 * k + 1) ∨
      op = BitVec.ofNat 5 (4 * k + 2) ∨ op = BitVec.ofNat 5 (4 * k + 3) := by
  subst h
  unfold operationCode
  bv_omega

theorem opBody_indexLoadTag {op : BitVec 5} (h : operationCode op = 1) :
    opBody op = indexLoadTag (cacheOfOp op) := by
  rcases op_of_operationCode h with rfl | rfl | rfl | rfl <;> rfl

theorem opBody_implOp {op : BitVec 5} (h : operationCode op = 3) :
    opBody op = implOp (cacheOfOp op) := by
  rcases op_of_operationCode h with rfl | rfl | rfl | rfl <;> rfl

@[simp] theorem setTag_mem (s : State) (c : CacheName) (v : Word × Word) :
    (setTag s c v).mem = s.mem := rfl
@[simp] theorem setTag_caches (s : State) (c : CacheName) (v : Word × Word) :
    (setTag s c v).caches = s.caches := rfl
@[simp] theorem setTag_cfg (s : State) (c : CacheName) (v : Word × Word) :
    (setTag s c v).cfg = s.cfg := rfl
@[simp] theorem setTag_watch (s : State) (c : CacheName) (v : Word × Word) :
    (setTag s c v).cp0.watch = s.cp0.watch := rfl

@[simp] theorem setData_mem (s : State) (c : CacheName) (v : Word × Word) :
    (setData s c v).mem = s.mem := by unfold setData; split <;> rfl
@[simp] theorem setData_caches (s : State) (c : CacheName) (v : Word × Word) :
    (setData s c v).caches = s.caches := by unfold setData; split <;> rfl
@[simp] theorem setData_watch (s : State) (c : CacheName) (v : Word × Word) :
    (setData s c v).cp0.watch = s.cp0.watch := by unfold setData; split <;> rfl
theorem setData_modes (s : State) (c : CacheName) (v : Word × Word) :
    (setData s c v).cp0.cp0Usable = s.cp0.cp0Usable ∧
      (setData s c v).cp0.kernelMode = s.cp0.kernelMode := by
  unfold setData; split <;> exact ⟨rfl, rfl⟩

/-- Index Load Tag writes tag and data registers only (R68). -/
theorem indexLoadTag_ok {c : CacheName} {acc : Access} {s t : State} (h : indexLoadTag c acc s = .ok t) :
    t.mem = s.mem ∧ t.caches = s.caches ∧ t.cfg = s.cfg ∧ t.cp0.watch = s.cp0.watch := by
  cases h
  simp

theorem implWrite_mem (s : State) (w : ImplWrite) : (implWrite s w).mem = s.mem := by
  cases w with
  | data c lo hi => exact setData_mem s c _
  | _ => rfl

theorem implWrites_mem (ws : List ImplWrite) (s : State) : (implWrites s ws).mem = s.mem := by
  induction ws generalizing s with
  | nil => rfl
  | cons w ws ih => exact (ih (implWrite s w)).trans (implWrite_mem s w)

theorem implEnd_ok {s t : State} {e : Option ImplStop} (h : implEnd s e = .ok t) : t = s := by
  unfold implEnd at h
  split at h <;> cases h
  rfl

/-- An implementation-dependent operation writes no memory (log 25). -/
theorem implOp_mem {c : CacheName} {acc : Access} {s t : State} (h : implOp c acc s = .ok t) :
    t.mem = s.mem := by
  obtain ⟨d, hd⟩ := afterImpl_eq s
  rw [implEnd_ok h, implWrites_mem, hd, withDraws_mem]

/-! ### Memory and blocks that an instruction leaves alone -/

/-- The body of an operation that does not operate on inner caches first writes no memory. -/
theorem opBody_mem {op : BitVec 5} {acc : Access} {s t : State} (hi : actsInnerFirst s.cfg op = false)
    (h : opBody op acc s = .ok t) : t.mem = s.mem := by
  by_cases h1 : operationCode op = 1
  · rw [opBody_indexLoadTag h1] at h
    exact (indexLoadTag_ok h).1
  by_cases h3 : operationCode op = 3
  · rw [opBody_implOp h3] at h
    exact implOp_mem h
  exact (opBody_framed op acc s hi h1 h3 t h).mem

/-- Settles O52: memory is left alone by the body of every operation, and by pc + 4. -/
theorem memoryUnchangedByInstructions : Obligations.MemoryUnchangedByInstructions := by
  intro i s t hi h a
  rw [exec_eq] at h
  obtain ⟨acc, s1, -, hb, rfl⟩ := cacheInstr_next h
  exact memByte_congr (opBody_mem hi hb) a

/-- An operation with a row, on one line and not on inner caches first, writes blocks of its own set only. -/
theorem opBody_blocks {op : BitVec 5} {acc : Access} {s t : State} (hi : actsInnerFirst s.cfg op = false)
    (h3 : operationCode op ≠ 3) (hx : s.cfg.fetchLockExtraLines = false) (h : opBody op acc s = .ok t)
    {c : CacheName} {set way : Nat} (hw : way < wayCount s.cfg c)
    (he : elsewhere (cacheOfOp op) (opSet op s acc.ia) c set) : block t c set way = block s c set way := by
  by_cases h1 : operationCode op = 1
  · rw [opBody_indexLoadTag h1] at h
    obtain ⟨-, hcaches, hcfg, -⟩ := indexLoadTag_ok h
    exact block_congr hcfg hcaches c set way
  · exact (opBody_framed op acc s hi h1 h3 t h).blocks c set way (he.imp id fun h => ⟨fun _ => hx, h⟩) hw

/-- Settles O54: the body of the operation writes its own set only, and pc + 4 is no write to a block. -/
theorem otherBlocksUnchanged : Obligations.OtherBlocksUnchanged := by
  intro i s t p u h hi h3 hx he hn c ia set c' set' way' hw hne
  obtain ⟨s1, hb, rfl⟩ := exec_next_body he hn
  exact opBody_blocks hi h3 hx hb hw hne

/-! ### The inner caches first (R41) -/

/-- What an operation on T or S does to its own cache, once the inner caches are done (R67, R72, R75, R77). -/
def outerBody (op : BitVec 5) (acc : Access) (s : State) : Except Fault State :=
  match operationCode op with
  | 4 => hitInvalidate (cacheOfOp op) acc s
  | 5 => hitWritebackInvalidate (cacheOfOp op) acc s
  | 6 => hitWriteback (cacheOfOp op) acc s
  | _ => indexWritebackInvalidate (cacheOfOp op) acc s

theorem hitInvalidateOuter_eq (c : CacheName) (acc : Access) (s : State) :
    hitInvalidateOuter c acc s =
      (innerFirst s c (lineOf s.cfg c acc.pAddr) .invalidate).bind (hitInvalidate c acc) := by
  unfold hitInvalidateOuter
  cases innerFirst s c (lineOf s.cfg c acc.pAddr) .invalidate <;> rfl

theorem hitWritebackInvalidateOuter_eq (c : CacheName) (acc : Access) (s : State) :
    hitWritebackInvalidateOuter c acc s =
      (innerFirst s c (lineOf s.cfg c acc.pAddr) .writebackInvalidate).bind
        (hitWritebackInvalidate c acc) := by
  unfold hitWritebackInvalidateOuter
  cases innerFirst s c (lineOf s.cfg c acc.pAddr) .writebackInvalidate <;> rfl

theorem hitWritebackOuter_eq (c : CacheName) (acc : Access) (s : State) :
    hitWritebackOuter c acc s =
      (innerFirst s c (lineOf s.cfg c acc.pAddr) .writeback).bind (hitWriteback c acc) := by
  unfold hitWritebackOuter
  cases innerFirst s c (lineOf s.cfg c acc.pAddr) .writeback <;> rfl

theorem indexWritebackInvalidateOuter_eq (c : CacheName) (acc : Access) (s : State) :
    indexWritebackInvalidateOuter c acc s =
      (indexInnerFirst c acc s).bind (indexWritebackInvalidate c acc) := by
  unfold indexWritebackInvalidateOuter
  cases indexInnerFirst c acc s <;> rfl

/-- The operations on T and S that R41 names. -/
theorem outer_op_cases {op : BitVec 5} (ho : outerOp op = true)
    (hk : [0, 4, 5, 6].contains (operationCode op) = true) :
    op = 2 ∨ op = 3 ∨ op = 18 ∨ op = 19 ∨ op = 22 ∨ op = 23 ∨ op = 26 ∨ op = 27 := by
  revert op
  decide

/-- An operation on T or S that R41 names is the inner caches first, then its own. -/
theorem opBody_outer {op : BitVec 5} (ho : outerOp op = true)
    (hk : [0, 4, 5, 6].contains (operationCode op) = true) (acc : Access) (s : State) :
    opBody op acc s = (afterInner op s acc.ia acc.pAddr).bind (outerBody op acc) := by
  rcases outer_op_cases ho hk with rfl | rfl | rfl | rfl | rfl | rfl | rfl | rfl
  · exact indexWritebackInvalidateOuter_eq .t acc s
  · exact indexWritebackInvalidateOuter_eq .s acc s
  · exact hitInvalidateOuter_eq .t acc s
  · exact hitInvalidateOuter_eq .s acc s
  · exact hitWritebackInvalidateOuter_eq .t acc s
  · exact hitWritebackInvalidateOuter_eq .s acc s
  · exact hitWritebackOuter_eq .t acc s
  · exact hitWritebackOuter_eq .s acc s

theorem afterInner_reached (op : BitVec 5) (s : State) (ia p : Nat) :
    Reached s (afterInner op s ia p) := by
  unfold afterInner
  dsimp only
  split
  · exact innerFirst_reached s _ _ _
  · split
    · exact innerFirst_reached s _ _ _
    · exact moves_refl s

/-! ### Coprocessor 0 (R14 to R18) -/

/-- An operation that completes leaves Coprocessor 0 as it was. -/
def KeepsCp0 (s : State) (r : Except Fault State) : Prop := ∀ t, r = .ok t → t.cp0 = s.cp0

theorem Framed.keepsCp0 {keep : CacheName → Nat → Prop} {s : State} {r : Except Fault State}
    (h : Framed keep s r) : KeepsCp0 s r := fun t ht => (h t ht).cp0

theorem keepsCp0_ok {s t : State} (h : t.cp0 = s.cp0) : KeepsCp0 s (.ok t) := by
  rintro u ⟨⟩; exact h

theorem keepsCp0_error (s : State) (f : Fault) : KeepsCp0 s (.error f) := by
  rintro u ⟨⟩

/-- What keeps Coprocessor 0 from a state with the same. -/
theorem KeepsCp0.of_eq {s s1 : State} {r : Except Fault State} (h1 : s1.cp0 = s.cp0)
    (h : KeepsCp0 s1 r) : KeepsCp0 s r := fun t ht => (h t ht).trans h1

theorem deliver_cp0 (s : State) (e : Writeback) : KeepsCp0 s (deliver s e) := by
  unfold deliver
  split
  · split
    · exact keepsCp0_ok rfl
    · exact keepsCp0_error s _
  · split
    · exact keepsCp0_error s _
    · exact keepsCp0_ok rfl
    · dsimp only
      split <;> exact keepsCp0_ok rfl

theorem drainOne_cp0 (s : State) : KeepsCp0 s (drainOne s) := by
  unfold drainOne
  split
  · exact keepsCp0_ok rfl
  · exact (deliver_cp0 _ _).of_eq rfl

theorem settle_cp0 (c : CacheName) (a n fuel : Nat) (s : State) : KeepsCp0 s (settle c a n fuel s) := by
  induction fuel generalizing s with
  | zero => exact keepsCp0_ok rfl
  | succ fuel ih =>
    unfold settle
    split
    · split
      · exact keepsCp0_error s _
      · next s1 hs1 => exact (ih s1).of_eq (drainOne_cp0 s s1 hs1)
    · exact keepsCp0_ok rfl

theorem deliverQueued_cp0 (queued : Bool) (c : CacheName) (a n : Nat) (s : State) :
    KeepsCp0 s (deliverQueued queued c a n s) := by
  unfold deliverQueued
  split
  · exact settle_cp0 c a n _ s
  · exact keepsCp0_ok rfl

theorem innerHit_cp0 (kind : FlushKind) (c : CacheName) (s : State) (a : Nat) :
    KeepsCp0 s (innerHit kind c s a) := by
  unfold innerHit
  split
  · exact (hitInvalidateAt_framed s c a a).keepsCp0
  · cases kind
    · exact (hitWritebackInvalidateAt_framed s c a a).keepsCp0
    · exact (hitInvalidateAt_framed s c a a).keepsCp0
    · exact (hitWritebackAt_framed s c a a).keepsCp0

theorem innerHits_cp0 (kind : FlushKind) (ci : CacheName) (ls : List Nat) (s : State) :
    KeepsCp0 s (innerHits kind ci ls s) := by
  induction ls generalizing s with
  | nil => exact keepsCp0_ok rfl
  | cons a ls ih =>
    simp only [innerHits]
    split
    · exact keepsCp0_error s _
    · next s1 hs1 => exact (ih s1).of_eq (innerHit_cp0 kind ci s a s1 hs1)

theorem innerCachesHit_cp0 (kind : FlushKind) (c : CacheName) (a n : Nat) (cs : List CacheName)
    (queued : Bool) (s : State) : KeepsCp0 s (innerCachesHit kind c a n cs queued s) := by
  induction cs generalizing queued s with
  | nil => exact deliverQueued_cp0 queued c a n s
  | cons ci cs ih =>
    simp only [innerCachesHit]
    split
    · exact keepsCp0_error s _
    · next s1 hs1 =>
      refine KeepsCp0.of_eq (deliverQueued_cp0 queued ci a n s s1 hs1) ?_
      split
      · exact keepsCp0_error s1 _
      · next s2 hs2 => exact (ih _ s2).of_eq (innerHits_cp0 kind ci _ s1 s2 hs2)

/-- The inner caches and their drain leave Coprocessor 0 alone. -/
theorem innerFirst_cp0 (s : State) (c : CacheName) (a : Nat) (kind : FlushKind) :
    KeepsCp0 s (innerFirst s c a kind) := by
  unfold innerFirst
  split
  · exact innerCachesHit_cp0 kind c a _ _ false s
  · exact keepsCp0_ok rfl

theorem afterInner_cp0 (op : BitVec 5) (s : State) (ia p : Nat) : KeepsCp0 s (afterInner op s ia p) := by
  unfold afterInner
  dsimp only
  split
  · exact innerFirst_cp0 s _ _ _
  · split
    · exact innerFirst_cp0 s _ _ _
    · exact keepsCp0_ok rfl

theorem outerBody_cp0 (op : BitVec 5) (acc : Access) (s : State) : KeepsCp0 s (outerBody op acc s) := by
  unfold outerBody
  split
  · rw [hitInvalidate, thenGlobalize_eq]
    exact (hitInvalidateAt_framed s _ _ _).keepsCp0
  · rw [hitWritebackInvalidate, thenGlobalize_eq]
    exact (hitWritebackInvalidateAt_framed s _ _ _).keepsCp0
  · rw [hitWriteback, thenGlobalize_eq]
    exact (hitWritebackAt_framed s _ _ _).keepsCp0
  · exact (flushBlock_framed s _ (indexed_lt s _ _).2).keepsCp0

/-- The operations but Index Load Tag and the implementation-dependent ones, on inner caches first or not,
leave Coprocessor 0 alone (R16, R17). -/
theorem opBody_cp0 {op : BitVec 5} (h1 : operationCode op ≠ 1) (h3 : operationCode op ≠ 3) (acc : Access)
    (s : State) : KeepsCp0 s (opBody op acc s) := by
  cases hi : actsInnerFirst s.cfg op with
  | false => exact (opBody_framed op acc s hi h1 h3).keepsCp0
  | true =>
    simp only [actsInnerFirst, Bool.and_eq_true] at hi
    obtain ⟨⟨-, ho⟩, hk⟩ := hi
    rw [opBody_outer ho hk]
    cases hs : afterInner op s acc.ia acc.pAddr with
    | error f => exact keepsCp0_error s f
    | ok s1 => exact (outerBody_cp0 op acc s1).of_eq (afterInner_cp0 op s _ _ s1 hs)

theorem Reached.moves {s t : State} {r : Except Fault State} (hr : Reached s r) (h : r = .ok t) :
    Moves s t := by
  subst h; exact hr

/-- No move writes the two mode bits (R14, R15). -/
theorem Move.modes {s t : State} (h : Move s t) :
    t.cp0.cp0Usable = s.cp0.cp0Usable ∧ t.cp0.kernelMode = s.cp0.kernelMode := by
  cases h with
  | data c v => exact setData_modes s c v
  | _ => exact ⟨rfl, rfl⟩

theorem Moves.modes {s t : State} (h : Moves s t) :
    t.cp0.cp0Usable = s.cp0.cp0Usable ∧ t.cp0.kernelMode = s.cp0.kernelMode :=
  h.keeps (P := fun u => u.cp0.cp0Usable = s.cp0.cp0Usable ∧ u.cp0.kernelMode = s.cp0.kernelMode)
    (fun _ _ hm hs => ⟨hm.modes.1.trans hs.1, hm.modes.2.trans hs.2⟩) ⟨rfl, rfl⟩

/-- Only an implementation-dependent operation writes the Watch registers (R18, R70). -/
theorem opBody_watch {op : BitVec 5} {acc : Access} {s t : State} (h3 : operationCode op ≠ 3)
    (h : opBody op acc s = .ok t) : t.cp0.watch = s.cp0.watch := by
  by_cases h1 : operationCode op = 1
  · rw [opBody_indexLoadTag h1] at h
    obtain ⟨-, -, -, hwatch⟩ := indexLoadTag_ok h
    exact hwatch
  · rw [opBody_cp0 h1 h3 acc s t h]

/-- Settles O13: no move writes a mode bit; the watched addresses and the registers follow the body of the
operation. -/
theorem cp0WrittenByLoadTagOnly : Obligations.Cp0WrittenByLoadTagOnly := by
  intro i s t h
  rw [exec_eq] at h
  obtain ⟨acc, s1, -, hb, rfl⟩ := cacheInstr_next h
  have hm : Moves s s1 := (opBody_reached i.op acc s).moves hb
  exact ⟨(hm.modes :), fun h3 => (opBody_watch h3 hb :), fun h1 h3 => opBody_cp0 h1 h3 acc s s1 hb⟩

/-! ### Two blocks with one tag (R24) -/

section
variable {c : CacheName} {acc : Access} {s : State} (h : 2 ≤ (hitWays s c acc.ia acc.pAddr).length)
include h

theorem hitInvalidate_of_two :
    hitInvalidate c acc s = .error (.undefinedDuplicateTag c (setIdx s.cfg c acc.ia) s) := by
  rw [hitInvalidate, thenGlobalize_eq, hitInvalidateAt, findHit_of_two h]

theorem hitWritebackInvalidate_of_two :
    hitWritebackInvalidate c acc s = .error (.undefinedDuplicateTag c (setIdx s.cfg c acc.ia) s) := by
  rw [hitWritebackInvalidate, thenGlobalize_eq, hitWritebackInvalidateAt, findHit_of_two h]

theorem hitWriteback_of_two :
    hitWriteback c acc s = .error (.undefinedDuplicateTag c (setIdx s.cfg c acc.ia) s) := by
  rw [hitWriteback, thenGlobalize_eq, hitWritebackAt, findHit_of_two h]

theorem fill_of_two : fill c acc s = .error (.undefinedDuplicateTag c (setIdx s.cfg c acc.ia) s) := by
  rw [fill, findHit_of_two h]

theorem fetchLock_of_two :
    fetchLock c acc s = .error (.undefinedDuplicateTag c (setIdx s.cfg c acc.ia) s) := by
  rw [fetchLock, fetchLockAt, findHit_of_two h]

end

/-- The operations on T and S that look an address up stop where two ways hit. -/
theorem outerBody_of_two {op : BitVec 5} {acc : Access} {s : State}
    (hop : op ∈ [18, 19, 22, 23, 26, 27])
    (h : 2 ≤ (hitWays s (cacheOfOp op) acc.ia acc.pAddr).length) :
    outerBody op acc s =
      .error (.undefinedDuplicateTag (cacheOfOp op) (setIdx s.cfg (cacheOfOp op) acc.ia) s) := by
  simp only [List.mem_cons, List.not_mem_nil, or_false] at hop
  rcases hop with rfl | rfl | rfl | rfl | rfl | rfl
  · exact hitInvalidate_of_two h
  · exact hitInvalidate_of_two h
  · exact hitWritebackInvalidate_of_two h
  · exact hitWritebackInvalidate_of_two h
  · exact hitWriteback_of_two h
  · exact hitWriteback_of_two h

/-- The operations on I and D that look an address up stop where two ways hit. -/
theorem opBody_primary_of_two {op : BitVec 5} {acc : Access} {s : State}
    (hop : op ∈ [16, 17, 20, 21, 25, 28, 29])
    (h : 2 ≤ (hitWays s (cacheOfOp op) acc.ia acc.pAddr).length) :
    opBody op acc s =
      .error (.undefinedDuplicateTag (cacheOfOp op) (setIdx s.cfg (cacheOfOp op) acc.ia) s) := by
  simp only [List.mem_cons, List.not_mem_nil, or_false] at hop
  rcases hop with rfl | rfl | rfl | rfl | rfl | rfl | rfl
  · exact hitInvalidate_of_two h
  · exact hitInvalidate_of_two h
  · exact fill_of_two h
  · exact hitWritebackInvalidate_of_two h
  · exact hitWriteback_of_two h
  · exact fetchLock_of_two h
  · exact fetchLock_of_two h

/-- An operation on I or D looks at its cache in the state it starts in. -/
theorem afterInner_of_not_outer {op : BitVec 5} (h : outerOp op = false) (s : State) (ia p : Nat) :
    afterInner op s ia p = .ok s := by
  simp [afterInner, h]

/-- The ops that look an address up, on I and D, or on T and S after the inner caches. -/
theorem lookup_op_cases {op : BitVec 5}
    (h : op.toNat ∈ [16, 17, 18, 19, 20, 21, 22, 23, 25, 26, 27, 28, 29]) :
    outerOp op = false ∧ op ∈ [16, 17, 20, 21, 25, 28, 29] ∨
      outerOp op = true ∧ [0, 4, 5, 6].contains (operationCode op) = true ∧
        op ∈ [18, 19, 22, 23, 26, 27] := by
  revert op
  decide

/-- An operation that looks an address up stops where two ways hit it. -/
theorem opBody_of_two {op : BitVec 5} {acc : Access} {s s1 : State}
    (hop : op.toNat ∈ [16, 17, 18, 19, 20, 21, 22, 23, 25, 26, 27, 28, 29])
    (hs : afterInner op s acc.ia acc.pAddr = .ok s1)
    (h : 2 ≤ (hitWays s1 (cacheOfOp op) acc.ia acc.pAddr).length) :
    opBody op acc s =
      .error (.undefinedDuplicateTag (cacheOfOp op) (setIdx s1.cfg (cacheOfOp op) acc.ia) s1) := by
  rcases lookup_op_cases hop with ⟨ho, hop⟩ | ⟨ho, hk, hop⟩
  · rw [afterInner_of_not_outer ho] at hs
    cases hs
    exact opBody_primary_of_two hop h
  · rw [opBody_outer ho hk, hs]
    exact outerBody_of_two hop h

/-- Settles O50: the lookup, after the inner caches, meets two ways that hit. -/
theorem duplicateTagIsUndefined : Obligations.DuplicateTagIsUndefined := by
  intro i s s1 p u h hop he c ia hs htwo
  rw [← cfg_of_ok (afterInner_reached i.op s ia p) hs]
  exact exec_of_error (cacheAccess_executes he) (opBody_of_two hop hs htwo)

end Sys2Proof.Machine

/-! SUPPORT. The proofs about memory, translation, the drain, the line transfers and the inner-first policy
(20_memory.md), and about what an uncacheable address and a failing transfer stop. -/

namespace Sys2Proof.Machine

/-! ### Who moves (R36, R38) -/

theorem syncEvent_eq_some {s t : State} : syncEvent s = some t ↔ s.wbq = [] ∧ t = s := by
  rw [eq_comm (a := t)]
  simp [syncEvent]

/-- At a mark that is not enabled the drain is next. -/
theorem chooseAgent_atSync {s : State} (hq : s.wbq ≠ []) (ha : atSync s = true) :
    chooseAgent s = (.drain, s) := by
  simp [chooseAgent, hq, ha]

/-- Away from a mark the drain is next once its wait is over. -/
theorem chooseAgent_waitOver {s : State} (hq : s.wbq ≠ []) (ha : atSync s = false)
    (hw : drainWait s = 0) : chooseAgent s = (.drain, afterDrainTurn s) := by
  simp [chooseAgent, hq, ha, hw]

theorem step_of_drain {s s1 : State} (hc : cfgOk s.cfg = true) (h : chooseAgent s = (.drain, s1)) :
    step s = drainStep s1 := by
  simp [step, hc, h]

/-- WBQ is empty or the drain is next. -/
abbrev DrainEnabled (s : State) : Prop := s.wbq = [] ∨ (chooseAgent s).1 = .drain

theorem drainEnabled_of_noWait {s : State} (hw : drainWait s = 0) : DrainEnabled s := by
  by_cases hq : s.wbq = []
  · exact .inl hq
  · cases ha : atSync s
    · exact .inr (by rw [chooseAgent_waitOver hq ha hw])
    · exact .inr (by rw [chooseAgent_atSync hq ha])

/-- Where the drain is not next, a step makes its wait one shorter. -/
theorem step_shortens_wait_of_not_drainEnabled {s t : State} (h : step s = .next t)
    (hn : ¬DrainEnabled s) : drainWait t = drainWait s - 1 := by
  have hq : s.wbq ≠ [] := fun hq => hn (.inl hq)
  have ha : atSync s = false := by
    cases ha : atSync s
    · rfl
    · exact absurd (.inr (by rw [chooseAgent_atSync hq ha])) hn
  exact step_shortens_wait h hq ha fun hw => hn (drainEnabled_of_noWait hw)

/-- Weak fairness (R36, R115): by induction on the wait, a run of as many steps as the drain waits comes to
a state in which the drain is next or WBQ is empty. -/
theorem drainEnabled_within_wait (n : Nat) (run : Nat → State) (hw : drainWait (run 0) = n)
    (hs : ∀ k < n, step (run k) = .next (run (k + 1))) : ∃ m ≤ n, DrainEnabled (run m) := by
  induction n generalizing run with
  | zero => exact ⟨0, le_rfl, drainEnabled_of_noWait hw⟩
  | succ n ih =>
    by_cases h0 : DrainEnabled (run 0)
    · exact ⟨0, Nat.zero_le _, h0⟩
    · have hw1 : drainWait (run 1) = n := by
        rw [step_shortens_wait_of_not_drainEnabled (hs 0 (Nat.succ_pos n)) h0, hw, Nat.add_sub_cancel]
      obtain ⟨m, hm, hd⟩ := ih (fun k => run (k + 1)) hw1 fun k hk => hs (k + 1) (Nat.succ_lt_succ hk)
      exact ⟨m + 1, Nat.succ_le_succ hm, hd⟩

/-- Settles O9: who moves in each case, and the induction on the wait of the drain. -/
theorem syncEventWaitsForTheDrain : Obligations.SyncEventWaitsForTheDrain :=
  ⟨fun _ _ => syncEvent_eq_some, fun _ hc hq ha => step_of_drain hc (chooseAgent_atSync hq ha),
    fun _ hc hq ha hw => step_of_drain hc (chooseAgent_waitOver hq ha hw),
    fun run _ hs => drainEnabled_within_wait _ run rfl hs⟩

/-! ### Translation (R30, R31) -/

/-- An address lies in the kernel address space. -/
theorem kernelSpace_any {cfg : Cfg} {v : Nat} :
    (cfg.kernelSpace.any fun r => r.contains v) = true ↔
      ∃ r ∈ cfg.kernelSpace, r.base ≤ v ∧ v < r.base + r.size := by
  simp [AddrRange.contains]

theorem kernelAddressRefused_iff {s : State} {v : Word} :
    kernelAddressRefused s v = true ↔ s.cfg.adELOnKernelAddr = true ∧ s.cp0.kernelMode = false ∧
      ∃ r ∈ s.cfg.kernelSpace, r.base ≤ v.toNat ∧ v.toNat < r.base + r.size := by
  rw [← kernelSpace_any]
  simp [kernelAddressRefused, and_assoc]

/-- What a region answers for an address that it is the first to hold. -/
def regionAnswer (r : Region) (v : Word) : Translation :=
  match r.target with
  | .unmapped p u h => .ok (p + (v.toNat - r.base)) u h
  | .page p u h _ => .ok (p + (v.toNat - r.base)) u h
  | .invalid => .tlbInvalid

/-- The region that translates an address (R30). -/
def regionOf (s : State) (v : Word) : Option Region :=
  s.cfg.regions.find? fun r => r.covers (translatesAsKernel s v) v.toNat

theorem translate_eq (s : State) (v : Word) : translate s v =
    if kernelAddressRefused s v then .addressError else
      ((regionOf s v).map (regionAnswer · v)).getD .tlbRefill := by
  unfold translate regionOf
  cases s.cfg.regions.find? fun r => r.covers (translatesAsKernel s v) v.toNat <;> rfl


theorem translate_eq_addressError_iff {s : State} {v : Word} :
    translate s v = .addressError ↔ kernelAddressRefused s v = true := by
  have hans (r : Region) : regionAnswer r v ≠ .addressError := by
    unfold regionAnswer; split <;> simp
  rw [translate_eq]
  cases kernelAddressRefused s v
  · cases regionOf s v <;> simp [hans]
  · simp

/-- An address that translates has a region with a physical base, from which its offset counts. -/
theorem translate_ok {s : State} {v : Word} {p : Nat} {u h : Bool} (ht : translate s v = .ok p u h) :
    ∃ r q, regionOf s v = some r ∧ r.phys? = some q ∧ p = q + (v.toNat - r.base) := by
  rw [translate_eq] at ht
  split at ht
  · cases ht
  · cases hr : regionOf s v with
    | none => rw [hr] at ht; cases ht
    | some r =>
      refine ⟨r, ?_⟩
      rw [hr] at ht
      simp only [Option.map_some, Option.getD_some, regionAnswer] at ht
      split at ht <;> cases ht <;> exact ⟨_, rfl, by simp [Region.phys?, *], rfl⟩

/-- An address that is not translated as in kernel mode is no kernel address (R30 item 4). -/
theorem kernelSpace_of_not_translatesAsKernel {s : State} {v : Word} (h : translatesAsKernel s v = false) :
    (s.cfg.kernelSpace.any fun r => r.contains v.toNat) = false := by
  rw [translatesAsKernel, Bool.or_eq_false_iff] at h
  exact h.2

/-- Every access is one that a well-formed configuration speaks of. -/
theorem addressesIn_translatesAsKernel (s : State) (v : Word) :
    ∃ iv ∈ addressesIn s.cfg (translatesAsKernel s v), inInterval v.toNat iv :=
  mem_addressesIn.2 ⟨v.isLt, kernelSpace_of_not_translatesAsKernel⟩

theorem translationsOk_of_cfgOk {cfg : Cfg} (h : cfgOk cfg = true) (kernel : Bool) :
    translationsOk cfg kernel = true := by
  simp only [cfgOk, Bool.and_eq_true] at h
  obtain ⟨⟨-, hkernel⟩, huser⟩ := h
  cases kernel
  · exact huser
  · exact hkernel

/-- What a translation that is performed says of its physical address (R4, R30). -/
theorem translate_constraints {s : State} {v : Word} (hc : cfgOk s.cfg = true) {p : Nat} {u h : Bool}
    (ht : translate s v = .ok p u h) :
    p < 2 ^ s.cfg.paBits ∧ ∀ c, present s.cfg c = true → (s.cfg.caches.get c).indexUsesPhysical = false →
      setIdx s.cfg c v.toNat = setIdx s.cfg c p := by
  obtain ⟨r, q, hr, hq, rfl⟩ := translate_ok ht
  exact translation_ok (translationsOk_of_cfgOk hc _) (addressesIn_translatesAsKernel s v) hr hq

/-- A kseg0 address has an unmapped region (R30 item 3). -/
theorem translate_kseg0 {s : State} {v : Word} (hc : cfgOk s.cfg = true) (h1 : 0x80000000 ≤ v.toNat)
    (h2 : v.toNat < 0xA0000000) : translate s v ≠ .tlbRefill ∧ translate s v ≠ .tlbInvalid := by
  have hok := translationsOk_of_cfgOk hc (translatesAsKernel s v)
  rw [translationsOk, Bool.and_eq_true] at hok
  obtain ⟨r, hr, hu⟩ := unmapped_of_kseg0Ok hok.2 h1 h2 kernelSpace_of_not_translatesAsKernel
  have hr' : regionOf s v = some r := hr
  rw [translate_eq, hr']
  cases htarget : r.target <;> simp only [Region.isUnmapped, htarget, reduceCtorEq] at hu
  cases kernelAddressRefused s v <;> simp [regionAnswer, htarget]

/-- A kernel address that is not refused is translated as in kernel mode (R30 item 4; log 11). -/
theorem translate_kernelAddress {s : State} {v : Word} (ha : s.cfg.adELOnKernelAddr = false)
    (hk : (s.cfg.kernelSpace.any fun r => r.contains v.toNat) = true) :
    translate s v = translate (withCp0 s { s.cp0 with kernelMode := true }) v := by
  simp [translate, kernelAddressRefused, translatesAsKernel, ha, hk]

/-- Settles O17: each clause from the region that translates the address. -/
theorem translationConstraints : Obligations.TranslationConstraints := by
  intro s v hc
  refine ⟨fun p u h ht => (translate_constraints hc ht).1, translate_kseg0 hc, ?_, ?_, ?_⟩
  · exact translate_eq_addressError_iff.trans kernelAddressRefused_iff
  · exact fun ha hk => translate_kernelAddress ha (kernelSpace_any.2 hk)
  · exact fun c p u h hp hi ht => (translate_constraints hc ht).2 c hp hi

/-- A change of the regions that keeps what each covers and answers changes no translation. -/
theorem translate_map_regions {s : State} {v : Word} {g : Region → Region}
    (hcovers : ∀ r k a, (g r).covers k a = r.covers k a)
    (hanswer : ∀ r, regionAnswer (g r) v = regionAnswer r v) :
    translate { s with cfg := { s.cfg with regions := s.cfg.regions.map g } } v = translate s v := by
  have hr : regionOf { s with cfg := { s.cfg with regions := s.cfg.regions.map g } } v
      = (regionOf s v).map g := by
    rw [regionOf, List.find?_map]
    congr 2
    funext r
    exact hcovers r _ _
  rw [translate_eq, translate_eq, hr]
  cases regionOf s v
  · rfl
  · simp only [Option.map_some, hanswer]
    rfl

/-- Settles O18: a page with other protections covers and answers the same. -/
theorem protectionsDoNotMatter : Obligations.ProtectionsDoNotMatter := by
  intro s v f protect
  have hprotect (r : Region) : (protect r).base = r.base ∧ (protect r).size = r.size ∧
      (protect r).inKernel = r.inKernel ∧ (protect r).inUser = r.inUser ∧
      regionAnswer (protect r) v = regionAnswer r v := by
    cases ht : r.target <;> simp [protect, regionAnswer, ht]
  refine translate_map_regions (fun r k a => ?_) fun r => ?_ <;>
    obtain ⟨hb, hs, hk, hu, hanswer⟩ := hprotect r
  · simp only [Region.covers, Region.contains, Region.range, hb, hs, hk, hu]
  · exact hanswer

/-! ### What a draw leaves unchanged -/

@[simp] theorem afterEvent_wbq (s : State) : (afterEvent s).wbq = s.wbq := by
  obtain ⟨d, hd⟩ := afterEvent_eq s; rw [hd, withDraws_wbq]

@[simp] theorem afterEvent_caches (s : State) : (afterEvent s).caches = s.caches := by
  obtain ⟨d, hd⟩ := afterEvent_eq s; rw [hd, withDraws_caches]

@[simp] theorem afterEvent_mem (s : State) : (afterEvent s).mem = s.mem := by
  obtain ⟨d, hd⟩ := afterEvent_eq s; rw [hd, withDraws_mem]

@[simp] theorem afterWay_wbq (s : State) : (afterWay s).wbq = s.wbq := by
  obtain ⟨d, hd⟩ := afterWay_eq s; rw [hd, withDraws_wbq]

@[simp] theorem afterWay_caches (s : State) : (afterWay s).caches = s.caches := by
  obtain ⟨d, hd⟩ := afterWay_eq s; rw [hd, withDraws_caches]

@[simp] theorem afterWay_mem (s : State) : (afterWay s).mem = s.mem := by
  obtain ⟨d, hd⟩ := afterWay_eq s; rw [hd, withDraws_mem]

/-! ### The writeback of a block (R35) -/

/-- Settles O20: the draw decides, and only an ok draw queues the line. -/
theorem writebackQueuesTheLine : Obligations.WritebackQueuesTheLine := by
  intro s c set way
  obtain ⟨d, hd⟩ := afterEvent_eq s
  refine ⟨fun h => ⟨_, writeBackBlock_of_ok h, ?_⟩, fun h => ⟨_, writeBackBlock_of_cacheError h, ?_⟩,
    fun h => ⟨_, writeBackBlock_of_busError h, ?_⟩⟩
  all_goals simp [hd, enqueue, writebackEntry, lineAddr]

/-! ### The drain (R36) -/

theorem drainOne_cons {s : State} {e : Writeback} {rest : List Writeback} (hq : s.wbq = e :: rest) :
    drainOne s = deliver (withWbq s rest) e := by
  simp [drainOne, hq]

/-- An entry for memory within the physical space is written there. -/
theorem deliver_mem {s : State} {a : Nat} {d : List Byte} (h : a + d.length ≤ 2 ^ s.cfg.paBits) :
    deliver s ⟨.mem, a, d⟩ = .ok (memWrite s a d) := by
  simp [deliver, inPhysicalSpace, h]

theorem deliver_outside {s : State} {a : Nat} {d : List Byte} (h : 2 ^ s.cfg.paBits < a + d.length) :
    deliver s ⟨.mem, a, d⟩ = .error (.outsidePhysicalSpace a s) := by
  simp [deliver, inPhysicalSpace, h]

section
variable {s : State} {l : CacheName} {a : Nat} {d : List Byte}

/-- A miss passes the entry on. -/
theorem deliver_miss (h : findHit s l a a = .ok none) :
    deliver s ⟨.cache l, a, d⟩ = .ok (enqueue s ⟨nextLevel s.cfg l, a, d⟩) := by
  simp [deliver, h]

theorem deliver_duplicate (h : 2 ≤ (hitWays s l a a).length) :
    deliver s ⟨.cache l, a, d⟩ = .error (.undefinedDuplicateTag l (setIdx s.cfg l a) s) := by
  simp [deliver, findHit_of_two h]

/-- A hit in a write-back cache keeps the entry there, dirty. -/
theorem deliver_hit_writeBack {w : Nat} (h : findHit s l a a = .ok (some w)) (hb : writeBack s.cfg l = true) :
    deliver s ⟨.cache l, a, d⟩ = .ok (setBlock s l (setIdx s.cfg l a) w
      { block s l (setIdx s.cfg l a) w with
        data := lineSplice (block s l (setIdx s.cfg l a) w).data (a - lineOf s.cfg l a) d,
        dirty := true }) := by
  simp [deliver, h, hb]

/-- A hit in a write-through cache lays the bytes over the block and passes the entry on. -/
theorem deliver_hit_writeThrough {w : Nat} (h : findHit s l a a = .ok (some w))
    (hb : writeBack s.cfg l = false) :
    deliver s ⟨.cache l, a, d⟩ = .ok (enqueue (setBlock s l (setIdx s.cfg l a) w
      { block s l (setIdx s.cfg l a) w with
        data := lineSplice (block s l (setIdx s.cfg l a) w).data (a - lineOf s.cfg l a) d })
      ⟨nextLevel s.cfg l, a, d⟩) := by
  simp [deliver, h, hb]

end

theorem drainStep_of_ok {s t : State} (h : drainOne s = .ok t) : drainStep s = .next t := by
  simp [drainStep, h]

theorem drainStep_of_error {s : State} {f : Fault} (h : drainOne s = .error f) :
    drainStep s = .fault f := by
  simp [drainStep, h]

/-- Settles O21: the delivery of the head entry, to memory or to an outer cache, in each of its cases. -/
theorem drainDelivers : Obligations.DrainDelivers := by
  refine ⟨fun s a d rest hm hq hin => ?_, fun s a d rest hq hout => ?_,
    fun s => ⟨fun t => drainStep_of_ok, fun f => drainStep_of_error⟩, fun s l a d rest hq => ?_⟩
  · exact ⟨memWrite (withWbq s rest) a d, (drainOne_cons hq).trans (deliver_mem hin), rfl,
      fun k hk => memByte_memWrite_inside (s := withWbq s rest) hm a d hk,
      fun b hb => memByte_memWrite_outside _ a d hb, rfl, rfl, rfl, rfl, rfl⟩
  · exact (drainOne_cons hq).trans (deliver_outside hout)
  · rw [drainOne_cons hq]
    refine ⟨fun h => deliver_duplicate h, fun w hf hb => deliver_hit_writeBack hf hb, fun w hf hb => ?_,
      fun hf => deliver_miss hf⟩
    exact ⟨_, deliver_hit_writeThrough hf hb, rfl, rfl, rfl⟩

/-! ### The line a fill reads (R37) -/

section
variable {s : State} {a n : Nat}

/-- The caches that miss are passed over. -/
theorem lineFrom_append {before rest : List CacheName} (h : ∀ l ∈ before, hitWays s l a a = []) :
    lineFrom s a n (before ++ rest) = lineFrom s a n rest := by
  induction before with
  | nil => rfl
  | cons l before ih =>
    rw [List.forall_mem_cons] at h
    rw [List.cons_append, lineFrom, findHit_of_nil h.1]
    exact ih h.2

theorem lineFrom_misses {ls : List CacheName} (h : ∀ l ∈ ls, hitWays s l a a = []) :
    lineFrom s a n ls = memoryLine s a n := by
  simpa [lineFrom] using lineFrom_append (n := n) (rest := []) h

theorem lineFrom_hit {before after : List CacheName} {l : CacheName} {w : Nat}
    (h : ∀ l ∈ before, hitWays s l a a = []) (hl : findHit s l a a = .ok (some w)) :
    lineFrom s a n (before ++ l :: after) = .ok
      (lineSlice (block s l (setIdx s.cfg l a) w).data (a - lineOf s.cfg l a) n) := by
  rw [lineFrom_append h, lineFrom, hl]

theorem lineFrom_duplicate {before after : List CacheName} {l : CacheName}
    (h : ∀ l ∈ before, hitWays s l a a = []) (hl : 2 ≤ (hitWays s l a a).length) :
    lineFrom s a n (before ++ l :: after) = .error (.undefinedDuplicateTag l (setIdx s.cfg l a) s) := by
  rw [lineFrom_append h, lineFrom, findHit_of_two hl]

end

theorem hitWays_afterEvent (s : State) (c : CacheName) (ia p : Nat) :
    hitWays (afterEvent s) c ia p = hitWays s c ia p := by
  exact hitWays_of_get (afterEvent_cfg s) (by rw [afterEvent_caches]) ia p

/-- With an ok draw a line is read in the state after the draw. -/
theorem readLine_of_ok {s : State} {c : CacheName} {p : Nat} (h : nextEvent s = .ok) :
    readLine s c p = (lineFrom (afterEvent s) (lineOf s.cfg c p) (lineBytes s.cfg c)
      (outerCaches s.cfg c)).map (·, afterEvent s) := by
  unfold readLine
  rw [transfer_of_ok h]
  dsimp only
  cases lineFrom (afterEvent s) (lineOf s.cfg c p) (lineBytes s.cfg c) (outerCaches s.cfg c) <;> rfl

theorem memoryLine_inside {s : State} {a n : Nat} (h : a + n ≤ 2 ^ s.cfg.paBits) :
    memoryLine s a n = .ok (memRead s a n) := by
  simp [memoryLine, inPhysicalSpace, h]

theorem memoryLine_outside {s : State} {a n : Nat} (h : 2 ^ s.cfg.paBits < a + n) :
    memoryLine s a n = .error (.outsidePhysicalSpace a s) := by
  simp [memoryLine, inPhysicalSpace, h]

/-- What is pending is not looked at (R39). -/
theorem lineFrom_withWbq {s : State} {a n : Nat} {ls : List CacheName} {d : List Byte}
    (q : List Writeback) (h : lineFrom s a n ls = .ok d) : lineFrom (withWbq s q) a n ls = .ok d := by
  induction ls with
  | nil =>
    simp only [lineFrom, memoryLine] at h ⊢
    split at h <;> cases h
    next hin => exact if_pos hin
  | cons l ls ih =>
    rw [lineFrom] at h ⊢
    cases hf : findHit s l a a with
    | error f => rw [hf] at h; cases h
    | ok o =>
      have hf' : findHit (withWbq s q) l a a = .ok o := 
        findHit_ok_iff.2 ((hitWays_of_get (s := s) (t := withWbq s q) rfl rfl a a).trans (findHit_ok_iff.1 hf))
      rw [hf] at h
      rw [hf']
      cases o with
      | none => exact ih h
      | some w => exact h

theorem nextEvent_withWbq (s : State) (q : List Writeback) : nextEvent (withWbq s q) = nextEvent s := rfl

theorem afterEvent_withWbq (s : State) (q : List Writeback) :
    afterEvent (withWbq s q) = withWbq (afterEvent s) q := by
  unfold afterEvent withWbq
  cases he : s.draws.events <;> simp [he, withDraws]

/-- A line that is read was read with an ok draw. -/
theorem nextEvent_of_readLine_ok {s t : State} {c : CacheName} {p : Nat} {d : List Byte}
    (h : readLine s c p = .ok (d, t)) : nextEvent s = .ok := by
  cases he : nextEvent s with
  | ok => rfl
  | cacheError => simp [readLine, transfer, he, raise] at h
  | busError => simp [readLine, transfer, he, raise] at h

theorem readLine_withWbq {s t : State} {c : CacheName} {p : Nat} {d : List Byte} (q : List Writeback)
    (h : readLine s c p = .ok (d, t)) : readLine (withWbq s q) c p = .ok (d, withWbq t q) := by
  have he := nextEvent_of_readLine_ok h
  rw [readLine_of_ok he] at h
  rw [readLine_of_ok ((nextEvent_withWbq s q).trans he), afterEvent_withWbq]
  cases hl : lineFrom (afterEvent s) (lineOf s.cfg c p) (lineBytes s.cfg c) (outerCaches s.cfg c) with
  | error f => rw [hl] at h; cases h
  | ok d' =>
    rw [hl] at h
    cases h
    exact congrArg (Except.map _) (lineFrom_withWbq q hl)

/-- Settles O23: the loop of R37 after the draw, in each of its ends, and its independence of WBQ. -/
theorem readLineOrder : Obligations.ReadLineOrder := by
  refine ⟨fun s c p he => ?_, fun s t c p q d => readLine_withWbq q⟩
  rw [readLine_of_ok he]
  have hcfg := afterEvent_cfg s
  refine ⟨fun before after l w ho hmiss hhit => ?_, fun before after l ho hmiss htwo => ?_,
    fun hmiss hout => ?_, fun hmiss hin => ?_⟩
  · rw [ho, lineFrom_hit (fun l' hl' => findHit_none (hmiss l' hl')) hhit, block_afterEvent, hcfg]
    rfl
  · rw [ho, lineFrom_duplicate, hcfg]
    · rfl
    · exact fun l' hl' => (hitWays_afterEvent s _ _ _).trans (hmiss l' hl')
    · rwa [hitWays_afterEvent]
  · rw [lineFrom_misses, memoryLine_outside (by rwa [hcfg])]
    · rfl
    · exact fun l hl => (hitWays_afterEvent s _ _ _).trans (hmiss l hl)
  · rw [lineFrom_misses fun l hl => findHit_none (hmiss l hl), memoryLine_inside (by rwa [hcfg]),
      memRead_congr (afterEvent_mem s)]
    rfl

/-! ### Uncacheable addresses (R32) -/

theorem requiresAddress_iff {cfg : Cfg} {op : BitVec 5} : requiresAddress cfg op = true ↔
    4 ≤ operationCode op ∨ operationCode op = 3 ∧ (cfg.caches.get (cacheOfOp op)).implTakesAddress = true := by
  simp [requiresAddress]

/-- The checks of R61 stop on an uncacheable address exactly where the earlier ones pass, the address
translates to an uncacheable one and the operation requires an address. -/
theorem cacheAccess_uncacheable_iff {op : BitVec 5} {imm : BitVec 9} {rx : BitVec 3} {s t : State} :
    cacheAccess op imm rx s = .error (.undefinedUncacheableAddress t) ↔
      s.cp0.cp0Usable = true ∧ opImplemented s.cfg op = true ∧
        (s.cfg.watchOnCache && watchMatch s (effectiveAddress s imm rx)) = false ∧
        (∃ p h, translate s (effectiveAddress s imm rx) = .ok p true h) ∧
        requiresAddress s.cfg op = true ∧ t = s := by
  rw [cacheAccess_eq]
  cases s.cp0.cp0Usable
  · simp
  cases opImplemented s.cfg op
  · simp
  cases s.cfg.watchOnCache && watchMatch s (effectiveAddress s imm rx)
  · cases translate s (effectiveAddress s imm rx) with
    | ok p u h =>
      cases hu : u <;> cases requiresAddress s.cfg op <;> simp [eq_comm]
    | addressError => simp
    | tlbRefill => simp
    | tlbInvalid => simp
  · simp

/-- Settles O33: the stop is one of the checks, and comes after the others. -/
theorem uncacheableAddressExactly : Obligations.UncacheableAddressExactly := by
  intro i s t
  rw [exec_check rfl, cacheAccess_uncacheable_iff, requiresAddress_iff]

/-! ### What instructions append to WBQ (R39, R40) -/

/-- WBQ is what it was, with entries appended. -/
def Appends (s t : State) : Prop := ∃ q, t.wbq = s.wbq ++ q

theorem appends_of_eq {s t : State} (h : t.wbq = s.wbq) : Appends s t := ⟨[], by simp [h]⟩

theorem Appends.trans {s t u : State} (h : Appends s t) (h' : Appends t u) : Appends s u := by
  obtain ⟨q, hq⟩ := h
  obtain ⟨q', hq'⟩ := h'
  exact ⟨q ++ q', by rw [hq', hq, List.append_assoc]⟩

@[simp] theorem setTag_wbq (s : State) (c : CacheName) (v : Word × Word) :
    (setTag s c v).wbq = s.wbq := rfl

@[simp] theorem setData_wbq (s : State) (c : CacheName) (v : Word × Word) :
    (setData s c v).wbq = s.wbq := by
  obtain ⟨p, hp⟩ := setData_eq_withCp0 s c v; rw [hp, withCp0_wbq]

theorem indexLoadTag_wbq {c : CacheName} {acc : Access} {s t : State} (h : indexLoadTag c acc s = .ok t) :
    t.wbq = s.wbq := by
  cases h; rw [setData_wbq, setTag_wbq]

theorem implWrite_appends (s : State) (w : ImplWrite) : Appends s (implWrite s w) := by
  cases w with
  | writeback c a d => exact ⟨_, rfl⟩
  | data c lo hi => exact appends_of_eq (setData_wbq s c (lo, hi))
  | block c set way b => exact appends_of_eq rfl
  | tag c lo hi => exact appends_of_eq rfl
  | watch rs => exact appends_of_eq rfl

theorem implWrites_appends (ws : List ImplWrite) (s : State) : Appends s (implWrites s ws) := by
  induction ws generalizing s with
  | nil => exact appends_of_eq rfl
  | cons w ws ih => exact (implWrite_appends s w).trans (ih _)

/-- An implementation-dependent operation only appends (log 25). -/
theorem implOp_appends {c : CacheName} {acc : Access} {s t : State} (h : implOp c acc s = .ok t) :
    Appends s t := by
  obtain ⟨d, hd⟩ := afterImpl_eq s
  rw [implEnd_ok h]
  exact Appends.trans (appends_of_eq (by rw [hd, withDraws_wbq])) (implWrites_appends _ _)

/-- The body of an operation that does not operate on inner caches first only appends. -/
theorem opBody_appends {op : BitVec 5} {acc : Access} {s t : State} (hi : actsInnerFirst s.cfg op = false)
    (h : opBody op acc s = .ok t) : Appends s t := by
  by_cases h1 : operationCode op = 1
  · rw [opBody_indexLoadTag h1] at h
    exact appends_of_eq (indexLoadTag_wbq h)
  by_cases h3 : operationCode op = 3
  · rw [opBody_implOp h3] at h
    exact implOp_appends h
  exact (opBody_framed op acc s hi h1 h3 t h).wbq

/-! ### Operations that write nothing back (R40) -/

theorem indexInvalidate_wbq {c : CacheName} {acc : Access} {s t : State}
    (h : indexInvalidate c acc s = .ok t) : t.wbq = s.wbq := by
  unfold indexInvalidate at h
  split at h
  · cases h
  · next s1 hs => cases h; rw [ownLineCheck_ok hs, invalidate, setBlock_wbq]

theorem hitInvalidate_wbq {c : CacheName} {acc : Access} {s t : State}
    (h : hitInvalidate c acc s = .ok t) : t.wbq = s.wbq := by
  rw [hitInvalidate, thenGlobalize_eq] at h
  obtain ⟨hwbq, -⟩ := hitInvalidateAt_frame h
  exact hwbq

/-- No block of the instruction cache needs a writeback (R4). -/
theorem needsWriteback_i (s : State) (set way : Nat) : needsWriteback s .i set way = false := by
  simp [needsWriteback, writeBack]

theorem fillBlock_i_wbq {s t : State} {ia p : Nat} {lk : Bool} (h : fillBlock s .i ia p lk = .ok t) :
    t.wbq = s.wbq := by
  unfold fillBlock at h
  rw [writeBackIfDirty, needsWriteback_i] at h
  split at h
  · cases h
  · simp only [Bool.false_eq_true, if_false] at h
    split at h
    · cases h
    · next line s2 hline =>
      cases h
      rw [setBlock_wbq, (readLine_ok hline).1, afterEvent_wbq, afterWay_wbq]

theorem fill_i_wbq {acc : Access} {s t : State} (h : fill .i acc s = .ok t) : t.wbq = s.wbq := by
  unfold fill at h
  split at h
  · cases h
  · exact fillBlock_i_wbq h
  · split at h
    · cases h; rfl
    · split at h
      · cases h
      · next line s1 hline =>
        cases h
        rw [setBlock_wbq, (readLine_ok hline).1, afterEvent_wbq]

/-- Hit Invalidate on T or S without the inner-first policy is that of its cache alone. -/
theorem hitInvalidateOuter_off {c : CacheName} {acc : Access} {s : State}
    (h : s.cfg.outerOpsInnerFirst = false) : hitInvalidateOuter c acc s = hitInvalidate c acc s := by
  simp only [hitInvalidateOuter, innerFirst_off h]

theorem noWriteback_op_cases {op : BitVec 5}
    (h : op.toNat ∈ [0, 4, 5, 6, 7, 8, 9, 10, 11, 16, 17, 18, 19, 20]) :
    op = 0 ∨ operationCode op = 1 ∨ op ∈ [8, 9, 10, 11] ∨ op = 16 ∨ op = 17 ∨ op = 18 ∨ op = 19 ∨
      op = 20 := by
  revert op
  decide

/-- The body of an operation without a writeback of its own leaves WBQ as it is (R40). -/
theorem opBody_wbq {op : BitVec 5} {acc : Access} {s t : State} (hi : actsInnerFirst s.cfg op = false)
    (hop : op.toNat ∈ [0, 4, 5, 6, 7, 8, 9, 10, 11, 16, 17, 18, 19, 20])
    (h : opBody op acc s = .ok t) : t.wbq = s.wbq := by
  have hstore {c : CacheName} (h : indexStoreTag c acc s = .ok t) : t.wbq = s.wbq := by
    cases h; rw [setBlock_wbq]
  have houter {c : CacheName} (hoff : s.cfg.outerOpsInnerFirst = false)
      (h : hitInvalidateOuter c acc s = .ok t) : t.wbq = s.wbq :=
    hitInvalidate_wbq (hitInvalidateOuter_off hoff ▸ h)
  rcases noWriteback_op_cases hop with rfl | h1 | hst | rfl | rfl | rfl | rfl | rfl
  · exact indexInvalidate_wbq (c := .i) h
  · rw [opBody_indexLoadTag h1] at h
    exact indexLoadTag_wbq h
  · simp only [List.mem_cons, List.not_mem_nil, or_false] at hst
    rcases hst with rfl | rfl | rfl | rfl
    · exact hstore (c := .i) h
    · exact hstore (c := .d) h
    · exact hstore (c := .t) h
    · exact hstore (c := .s) h
  · exact hitInvalidate_wbq (c := .i) h
  · exact hitInvalidate_wbq (c := .d) h
  · exact houter (c := .t) (by simpa [actsInnerFirst, outerOp, cacheOfOp, operationCode] using hi) h
  · exact houter (c := .s) (by simpa [actsInnerFirst, outerOp, cacheOfOp, operationCode] using hi) h
  · exact fill_i_wbq h

/-- Settles O56: the body of the operation appends or leaves WBQ alone, and pc + 4 does not touch it. -/
theorem writebacksOnlyAppended : Obligations.WritebacksOnlyAppended := by
  intro i s t hi h
  rw [exec_eq] at h
  obtain ⟨acc, s1, -, hb, rfl⟩ := cacheInstr_next h
  exact ⟨show Appends s s1 from opBody_appends hi hb,
    fun hop => show s1.wbq = s.wbq from opBody_wbq hi hop hb⟩

/-! ### A failing draw (R35, R37, R84, R85) -/

section
variable {rest : List TransferEvent} {e : TransferEvent} {x : Exception}

/-- Where the first run makes the draw that fails in the second, the second takes its exception. -/
theorem TwinOutcome.trapsAt {r r' : Except Fault State} (h : TwinOutcome rest e x r r')
    (hm : DrawMade rest r) : TrapsAt rest x r' := by
  have undrawn {t t' : State} (h : Twin rest e t t') : ¬ t.draws.events.length ≤ rest.length := by
    obtain ⟨oks, he, -⟩ := h
    simp [he]
    omega
  obtain ⟨t, t', rfl, -, ht⟩ | ⟨f, f', rfl, -, hf⟩ | ⟨-, htraps⟩ := h
  · exact absurd hm (undrawn ht)
  · exact absurd hm (undrawn hf)
  · exact htraps

/-- Of two runs of an operation's body that differ in one draw, ok in the one, the other takes the exception
if the first makes that draw. -/
theorem opBody_trapsAt (hx : FailingDraw e x) {s s' : State} (h : Twin rest e s s') {op : BitVec 5}
    {acc : Access} (hm : DrawMade rest (opBody op acc s)) : TrapsAt rest x (opBody op acc s') := by
  by_cases h3 : operationCode op = 3
  · obtain ⟨oks, he, -⟩ := h
    rw [DrawMade, opBody_implOp h3, implOp_events, he, List.length_append, List.length_cons] at hm
    omega
  · exact (opBody_twin hx h op acc h3).trapsAt hm

/-- The draws still listed after an instruction that passes the checks are those after its body. -/
theorem exec_outcome_draws {i : Instr} {s t : State} {acc : Access}
    (ha : cacheAccess i.op i.imm i.rx s = .ok acc)
    (h : exec i s = .next t ∨ ∃ f, exec i s = .fault f ∧ f.reported = t) :
    t.draws = (outcomeState (opBody i.op acc s)).draws := by
  cases hb : opBody i.op acc s with
  | ok s1 =>
    rw [exec_of ha hb] at h
    obtain h | ⟨f, h, -⟩ := h <;> cases h
    rfl
  | error f =>
    rw [exec_of_error ha hb] at h
    obtain h | ⟨f', h, rfl⟩ := h <;> cases h
    rfl

/-- An instruction that the checks stop makes no draw. -/
theorem exec_outcome_of_check {i : Instr} {s t : State} {f : Fault}
    (ha : cacheAccess i.op i.imm i.rx s = .error f)
    (h : exec i s = .next t ∨ ∃ f, exec i s = .fault f ∧ f.reported = t) : t = s := by
  have hf : exec i s = .fault f := by rw [exec_eq]; simp [cacheInstr, ha]
  rw [hf] at h
  obtain h | ⟨f', h, rfl⟩ := h <;> cases h
  exact cacheAccess_error ha

/-- Of two runs of an instruction that differ in one draw, ok in the one, the other takes the exception if
the first makes that draw. -/
theorem exec_traps_of_twin (hx : FailingDraw e x) {i : Instr} {s s' t : State} (h : Twin rest e s s')
    (ht : exec i s = .next t ∨ ∃ f, exec i s = .fault f ∧ f.reported = t)
    (hm : t.draws.events.length ≤ rest.length) :
    ∃ t', exec i s' = .fault (.trap x t') ∧ t'.draws.events = rest := by
  cases ha : cacheAccess i.op i.imm i.rx s with
  | error f =>
    obtain ⟨oks, he, -⟩ := h
    rw [exec_outcome_of_check ha ht, he, List.length_append, List.length_cons] at hm
    omega
  | ok acc =>
    rw [exec_outcome_draws ha ht] at hm
    obtain ⟨t', hb, ht'⟩ := opBody_trapsAt hx h hm
    have ha' : cacheAccess i.op i.imm i.rx s' = .ok acc := by
      obtain ⟨oks, -, rfl⟩ := h
      exact cacheAccess_withEvents ha _
    exact ⟨t', exec_of_error ha' hb, ht'⟩

/-- The outcome is the exception, with WBQ, caches and memory as in a state. -/
def TrapsFrom {α : Type} (x : Exception) (s : State) (r : Except Fault α) : Prop :=
  ∃ t, r = .error (.trap x t) ∧ t.wbq = s.wbq ∧ t.caches = s.caches ∧ t.mem = s.mem

/-- The outcome depends on where it comes from by WBQ, caches and memory only. -/
theorem TrapsFrom.of_eq {α : Type} {s s1 : State} {r : Except Fault α} (h : TrapsFrom x s1 r)
    (hq : s1.wbq = s.wbq) (hc : s1.caches = s.caches) (hm : s1.mem = s.mem) : TrapsFrom x s r := by
  obtain ⟨t, hr, htq, htc, htm⟩ := h
  exact ⟨t, hr, htq.trans hq, htc.trans hc, htm.trans hm⟩

/-- The exception of a part is that of a whole which ends where the part does. -/
theorem TrapsFrom.mono {α β : Type} {s : State} {r : Except Fault α} {r' : Except Fault β}
    (h : TrapsFrom x s r) (hr : ∀ f, r = .error f → r' = .error f) : TrapsFrom x s r' := by
  obtain ⟨t, ht, hrest⟩ := h
  exact ⟨t, hr _ ht, hrest⟩

theorem transfer_traps (hx : FailingDraw e x) {s : State} (h : nextEvent s = e) :
    TrapsFrom x s (transfer s) := by
  have ht : transfer s = .error (.trap x (afterEvent s)) := by
    simp only [FailingDraw, List.mem_cons, Prod.mk.injEq, List.not_mem_nil, or_false] at hx
    obtain ⟨rfl, rfl⟩ | ⟨rfl, rfl⟩ := hx <;> simp [transfer, h, raise]
  exact ⟨_, ht, afterEvent_wbq s, afterEvent_caches s, afterEvent_mem s⟩

theorem writeBackBlock_traps (hx : FailingDraw e x) {s : State} (h : nextEvent s = e) (c : CacheName)
    (set way : Nat) : TrapsFrom x s (writeBackBlock s c set way) :=
  (transfer_traps hx h).mono fun f hf => by simp [writeBackBlock, hf]

theorem readLine_traps (hx : FailingDraw e x) {s : State} (h : nextEvent s = e) (c : CacheName) (p : Nat) :
    TrapsFrom x s (readLine s c p) :=
  (transfer_traps hx h).mono fun f hf => by simp [readLine, hf]

/-- The exception of an operation's body is the instruction's. -/
theorem exec_traps {i : Instr} {s s1 : State} {acc : Access} (ha : cacheAccess i.op i.imm i.rx s = .ok acc)
    (h : TrapsFrom x s1 (opBody i.op acc s)) :
    ∃ t, exec i s = .fault (.trap x t) ∧ t.wbq = s1.wbq ∧ t.caches = s1.caches ∧ t.mem = s1.mem := by
  obtain ⟨t, hb, hrest⟩ := h
  exact ⟨t, exec_of_error ha hb, hrest⟩

end

/-! ### The transfers of the operations (R66, R67, R73 to R78) -/

/-- The operations that write back the block they work on. -/
theorem writeback_op_cases {op : BitVec 5} (h : op.toNat ∈ [1, 2, 3, 21, 22, 23, 25, 26, 27]) :
    op = 1 ∨ op = 21 ∨ op = 25 ∨
      outerOp op = true ∧ [0, 4, 5, 6].contains (operationCode op) = true := by
  revert op
  decide

theorem operationCode_of_indexed {op : BitVec 5} (h : op.toNat ∈ [1, 2, 3]) : operationCode op = 0 := by
  revert op
  decide

theorem operationCode_of_hit {op : BitVec 5} (h : op.toNat ∈ [21, 22, 23, 25, 26, 27]) :
    operationCode op = 5 ∨ operationCode op = 6 := by
  revert op
  decide

theorem fill_op_cases {op : BitVec 5} (h : op.toNat ∈ [20, 28, 29]) : op = 20 ∨ op = 28 ∨ op = 29 := by
  revert op
  decide

/-- They are the inner caches first on T and S, then their own cache. -/
theorem opBody_writeback {op : BitVec 5} (h : op.toNat ∈ [1, 2, 3, 21, 22, 23, 25, 26, 27]) (acc : Access)
    (s : State) : opBody op acc s = (afterInner op s acc.ia acc.pAddr).bind (outerBody op acc) := by
  rcases writeback_op_cases h with rfl | rfl | rfl | ⟨ho, hk⟩
  · rfl
  · rfl
  · rfl
  · exact opBody_outer ho hk acc s

section
variable {e : TransferEvent} {x : Exception} {s : State} {c : CacheName} {set way : Nat}

theorem flushBlock_traps (hx : FailingDraw e x) (hn : nextEvent s = e)
    (ho : holdsOwnLine s c set way = false) (hd : needsWriteback s c set way = true) :
    TrapsFrom x s (flushBlock s c set way) :=
  (writeBackBlock_traps hx hn c set way).mono fun _ => flushBlock_error ho hd

theorem cleanAt_traps (hx : FailingDraw e x) (hn : nextEvent s = e)
    (hd : needsWriteback s c set way = true) : TrapsFrom x s (cleanAt s c set way) :=
  (writeBackBlock_traps hx hn c set way).mono fun _ => cleanAt_error hd

end

theorem outerBody_flushes {op : BitVec 5} {acc : Access} {s : State} {way : Nat} (hk : operationCode op = 5)
    (hh : hitWays s (cacheOfOp op) acc.ia acc.pAddr = [way]) :
    outerBody op acc s = flushBlock s (cacheOfOp op) (setIdx s.cfg (cacheOfOp op) acc.ia) way := by
  simp only [outerBody, hk, hitWritebackInvalidate, thenGlobalize_eq, hitWritebackInvalidateAt,
    findHit_of_single hh]

theorem outerBody_cleans {op : BitVec 5} {acc : Access} {s : State} {way : Nat} (hk : operationCode op = 6)
    (hh : hitWays s (cacheOfOp op) acc.ia acc.pAddr = [way]) :
    outerBody op acc s = cleanAt s (cacheOfOp op) (setIdx s.cfg (cacheOfOp op) acc.ia) way := by
  simp only [outerBody, hk, hitWriteback, thenGlobalize_eq, hitWritebackAt, findHit_of_single hh]

theorem outerBody_indexed {op : BitVec 5} {acc : Access} {s : State} (hk : operationCode op = 0) :
    outerBody op acc s = flushBlock s (cacheOfOp op) (indexedSet s (cacheOfOp op) acc.ia)
      (indexedWay s (cacheOfOp op) acc.ia) := by
  simp only [outerBody, hk, indexWritebackInvalidate]

/-- The block that an operation works on: the indexed one, or the one that hits after the inner caches. -/
def WorksOn (op : BitVec 5) (s s1 : State) (ia p set way : Nat) : Prop :=
  op.toNat ∈ [1, 2, 3] ∧ set = indexedSet s (cacheOfOp op) ia ∧ way = indexedWay s (cacheOfOp op) ia ∨
    op.toNat ∈ [21, 22, 23, 25, 26, 27] ∧ set = setIdx s.cfg (cacheOfOp op) ia ∧
      hitWays s1 (cacheOfOp op) ia p = [way]

/-- The operation's own step on a valid, dirty block takes the exception of a failing writeback. -/
theorem outerBody_traps {e : TransferEvent} {x : Exception} (hx : FailingDraw e x) {op : BitVec 5}
    {acc : Access} {s s1 : State} {set way : Nat} (hon : WorksOn op s s1 acc.ia acc.pAddr set way)
    (hc : s1.cfg = s.cfg)
    (ho : operationCode op = 6 ∨ holdsOwnLine s1 (cacheOfOp op) set way = false)
    (hd : needsWriteback s1 (cacheOfOp op) set way = true) (hn : nextEvent s1 = e) :
    TrapsFrom x s1 (outerBody op acc s1) := by
  obtain ⟨hop, rfl, rfl⟩ | ⟨hop, rfl, hh⟩ := hon
  · have hk := operationCode_of_indexed hop
    have hs : indexedSet s1 (cacheOfOp op) = indexedSet s (cacheOfOp op) := by
      funext ia; rw [indexedSet, indexedSet, hc]
    have hw : indexedWay s1 (cacheOfOp op) = indexedWay s (cacheOfOp op) := by
      funext ia; rw [indexedWay, indexedWay, hc]
    rw [outerBody_indexed hk, hs, hw]
    exact flushBlock_traps hx hn (ho.resolve_left (by omega)) hd
  · obtain hk | hk := operationCode_of_hit hop
    · rw [outerBody_flushes hk hh, hc]
      exact flushBlock_traps hx hn (ho.resolve_left (by omega)) hd
    · rw [outerBody_cleans hk hh, hc]
      exact cleanAt_traps hx hn hd

theorem opBody_traps_own {e : TransferEvent} {x : Exception} (hx : FailingDraw e x) {op : BitVec 5}
    {acc : Access} {s s1 : State} {set way : Nat} (hon : WorksOn op s s1 acc.ia acc.pAddr set way)
    (hs : afterInner op s acc.ia acc.pAddr = .ok s1)
    (ho : operationCode op = 6 ∨ holdsOwnLine s1 (cacheOfOp op) set way = false)
    (hd : needsWriteback s1 (cacheOfOp op) set way = true) (hn : nextEvent s1 = e) :
    TrapsFrom x s1 (opBody op acc s) := by
  have hop : op.toNat ∈ [1, 2, 3, 21, 22, 23, 25, 26, 27] := by
    obtain ⟨hop, -⟩ | ⟨hop, -⟩ := hon <;> simp at hop ⊢ <;> omega
  rw [opBody_writeback hop, hs]
  exact outerBody_traps hx hon (cfg_of_ok (afterInner_reached _ _ _ _) hs) ho hd hn

/-- On a miss Fill and Fetch and Lock end as the fill of the block does, where it fails. -/
theorem opBody_of_fillBlock_error {op : BitVec 5} (hop : op.toNat ∈ [20, 28, 29]) {acc : Access} {s : State}
    {f : Fault} (hh : hitWays s (cacheOfOp op) acc.ia acc.pAddr = [])
    (hf : ∀ lk, fillBlock s (cacheOfOp op) acc.ia acc.pAddr lk = .error f) :
    opBody op acc s = .error f := by
  have hfill (c : CacheName) (hh : hitWays s c acc.ia acc.pAddr = [])
      (hf : fillBlock s c acc.ia acc.pAddr false = .error f) : fill c acc s = .error f := by
    simp only [fill, findHit_of_nil hh, hf]
  have hlock (c : CacheName) (hh : hitWays s c acc.ia acc.pAddr = [])
      (hf : fillBlock s c acc.ia acc.pAddr true = .error f) : fetchLock c acc s = .error f := by
    simp only [fetchLock, fetchLockAt, findHit_of_nil hh, hf]
  rcases fill_op_cases hop with rfl | rfl | rfl
  · exact hfill .i hh (hf false)
  · exact hlock .i hh (hf true)
  · exact hlock .d hh (hf true)

theorem needsWriteback_afterWay (s : State) (c : CacheName) (set way : Nat) :
    needsWriteback (afterWay s) c set way = needsWriteback s c set way := by
  simp only [needsWriteback, afterWay_cfg, block_afterWay]

section
variable {s : State} {c : CacheName} {ia p : Nat} {lk : Bool}

/-- A fill whose victim is not written back ends as the writeback does. -/
theorem fillBlock_of_victim_error {f : Fault} (hu : unlockedWays s c (setIdx s.cfg c ia) ≠ [])
    (h : writeBackIfDirty (afterWay s) c (setIdx s.cfg c ia) (victimWay s c (setIdx s.cfg c ia)) = .error f) :
    fillBlock s c ia p lk = .error f := by
  simp only [fillBlock, List.isEmpty_iff, hu, if_false, h]

/-- A fill that reads no line ends as the reading does. -/
theorem fillBlock_of_readLine_error {s1 : State} {f : Fault}
    (hu : unlockedWays s c (setIdx s.cfg c ia) ≠ [])
    (h : writeBackIfDirty (afterWay s) c (setIdx s.cfg c ia) (victimWay s c (setIdx s.cfg c ia)) = .ok s1)
    (hr : readLine s1 c p = .error f) : fillBlock s c ia p lk = .error f := by
  simp only [fillBlock, List.isEmpty_iff, hu, if_false, h, hr]

end

/-- The victim's writeback changes draws and WBQ only. -/
theorem writeBackIfDirty_ok {s s1 : State} {c : CacheName} {set way : Nat}
    (h : writeBackIfDirty s c set way = .ok s1) : s1.caches = s.caches ∧ s1.mem = s.mem := by
  unfold writeBackIfDirty at h
  split at h
  · rw [writeBackBlock_ok h]
    exact ⟨afterEvent_caches s, afterEvent_mem s⟩
  · cases h; exact ⟨rfl, rfl⟩

/-- A Fill that reads the line again on a hit ends as the reading does, where it fails. -/
theorem opBody_refill_of_error {op : BitVec 5} (hop : op = 20) {acc : Access} {s : State} {w : Nat} {f : Fault}
    (hh : hitWays s (cacheOfOp op) acc.ia acc.pAddr = [w]) (hr : s.cfg.fillOnHit = .refill)
    (h : readLine s (cacheOfOp op) acc.pAddr = .error f) : opBody op acc s = .error f := by
  subst hop
  show fill (cacheOfOp 20) acc s = .error f
  simp only [fill, findHit_of_single hh, hr, h]

/-- Settles O51: of any transfer by comparing the two runs, which differ in its draw only; then the block
an operation works on, the victim of a fill, and the line read on a miss and on a hit. -/
theorem failingTransferTraps : Obligations.FailingTransferTraps := by
  refine ⟨fun i s oks rest e x hx => ?_, fun i s s1 p u h e x hx he => ?_⟩
  · intro replaced t
    exact exec_traps_of_twin (s := replaced .ok) (s' := replaced e) hx ⟨oks, rfl, rfl⟩
  intro c ia victim dirtyVictim
  have ha := cacheAccess_executes he
  have hvictim : writeBackIfDirty (afterWay s) c (setIdx s.cfg c ia) victim =
      if dirtyVictim then writeBackBlock (afterWay s) c (setIdx s.cfg c ia) victim else .ok (afterWay s) := by
    rw [writeBackIfDirty, needsWriteback_afterWay]; rfl
  refine ⟨fun set way hon hs ho hwb hv hdirty hn => ?_, fun hop hh hu hdv hn => ?_,
    fun hop hh hu hs1 hn => ?_, fun w hop hh hr hn => ?_⟩
  · have hc : s1.cfg = s.cfg := cfg_of_ok (afterInner_reached _ _ _ _) hs
    exact exec_traps ha
      (opBody_traps_own hx hon hs ho (needsWriteback_true ⟨hc ▸ hwb, hv, hdirty⟩) hn)
  · exact exec_traps ha (((writeBackBlock_traps hx hn c (setIdx s.cfg c ia) victim).of_eq
      (afterWay_wbq s) (afterWay_caches s) (afterWay_mem s)).mono
      fun f hf => opBody_of_fillBlock_error (List.mem_cons_of_mem _ hop) hh fun lk =>
        fillBlock_of_victim_error hu (hvictim.trans (by rw [hdv, if_pos rfl, hf])))
  · rw [← hvictim] at hs1
    obtain ⟨hcaches, hmem⟩ := writeBackIfDirty_ok hs1
    obtain ⟨t, ht, htq, htc, htm⟩ := exec_traps ha ((readLine_traps hx hn c p).mono
      fun f hf => opBody_of_fillBlock_error hop hh fun lk => fillBlock_of_readLine_error hu hs1 hf)
    exact ⟨t, ht, htq, htc.trans (hcaches.trans (afterWay_caches s)),
      htm.trans (hmem.trans (afterWay_mem s))⟩
  · exact exec_traps ha ((readLine_traps hx hn c p).mono fun f hf => opBody_refill_of_error hop hh hr hf)

/-! ### Memory under the inner-first policy (R41) -/

/-- A writeback that does not reach a byte. -/
abbrev Writeback.misses (x : Nat) (e : Writeback) : Prop := x < e.addr ∨ e.addr + e.data.length ≤ x

/-- A byte of memory has a value, and no pending writeback reaches it. -/
structure KeepsByte (x : Nat) (v : Byte) (s : State) : Prop where
  caches : CachesWellFormed s
  pending : ∀ e ∈ s.wbq, Writeback.misses x e
  byte : memByte s x = v

section
variable {x : Nat} {v : Byte}

/-- What keeps memory and appends writebacks that do not reach the byte. -/
theorem KeepsByte.of_appended {s t : State} (h : KeepsByte x v s) (hw : CachesWellFormed t)
    (hm : t.mem = s.mem) {q : List Writeback} (hq : t.wbq = s.wbq ++ q)
    (hmiss : ∀ e ∈ q, Writeback.misses x e) :
    KeepsByte x v t := by
  refine ⟨hw, fun e he => ?_, (memByte_congr hm x).trans h.byte⟩
  rw [hq, List.mem_append] at he
  exact he.elim (h.pending e) (hmiss e)

/-- What keeps memory and WBQ. -/
theorem KeepsByte.of_eq {s t : State} (h : KeepsByte x v s) (hw : CachesWellFormed t)
    (hm : t.mem = s.mem) (hq : t.wbq = s.wbq) : KeepsByte x v t :=
  h.of_appended hw hm (q := []) (by rw [hq, List.append_nil]) (by simp)

/-- A delivery writes the bytes of its entry, or passes them on. -/
theorem KeepsByte.deliver {s t : State} {e : Writeback} (h : KeepsByte x v s) (he : Writeback.misses x e)
    (ht : deliver s e = .ok t) : KeepsByte x v t := by
  have hw := wellFormed_of_ok h.caches (deliver_reached s e) ht
  unfold Machine.deliver at ht
  split at ht
  · split at ht <;> cases ht
    exact ⟨hw, h.pending, (memByte_memWrite_outside s _ _ he).trans h.byte⟩
  · split at ht
    · cases ht
    · cases ht
      exact h.of_appended hw rfl rfl fun e' he' => List.mem_singleton.1 he' ▸ he
    · dsimp only at ht
      split at ht <;> cases ht
      · exact h.of_eq hw rfl rfl
      · exact h.of_appended hw rfl rfl fun e' he' => List.mem_singleton.1 he' ▸ he

theorem KeepsByte.drainOne {s t : State} (h : KeepsByte x v s) (ht : drainOne s = .ok t) :
    KeepsByte x v t := by
  unfold Machine.drainOne at ht
  split at ht
  · cases ht; exact h
  · next e rest hq =>
    have hpending := h.pending
    rw [hq, List.forall_mem_cons] at hpending
    exact KeepsByte.deliver (s := withWbq s rest)
      ⟨cachesWellFormed_congr (s := s) rfl rfl h.caches, hpending.2, h.byte⟩ hpending.1 ht

theorem KeepsByte.settle {c : CacheName} {a n fuel : Nat} {s t : State} (h : KeepsByte x v s)
    (ht : settle c a n fuel s = .ok t) : KeepsByte x v t := by
  induction fuel generalizing s with
  | zero => cases ht; exact h
  | succ fuel ih =>
    unfold Machine.settle at ht
    split at ht
    · split at ht
      · cases ht
      · next s1 h1 => exact ih (h.drainOne h1) ht
    · cases ht; exact h

theorem KeepsByte.deliverQueued {queued : Bool} {c : CacheName} {a n : Nat} {s t : State}
    (h : KeepsByte x v s) (ht : deliverQueued queued c a n s = .ok t) : KeepsByte x v t := by
  unfold Machine.deliverQueued at ht
  split at ht
  · exact h.settle ht
  · cases ht; exact h

theorem innerHit_mem {kind : FlushKind} {ci : CacheName} {s t : State} {b : Nat}
    (h : innerHit kind ci s b = .ok t) : t.mem = s.mem := by
  unfold innerHit at h
  split at h
  · exact (hitInvalidateAt_framed s ci b b t h).mem
  · cases kind
    · exact (hitWritebackInvalidateAt_framed s ci b b t h).mem
    · exact (hitInvalidateAt_framed s ci b b t h).mem
    · exact (hitWritebackAt_framed s ci b b t h).mem

/-- What an operation on a line of an inner cache queues is that line. -/
theorem innerHit_queues_line {kind : FlushKind} {ci : CacheName} {s t : State} {b : Nat}
    (hw : CachesWellFormed s) (hb : b % lineBytes s.cfg ci = 0) (h : innerHit kind ci s b = .ok t) :
    ∃ q, t.wbq = s.wbq ++ q ∧ ∀ e ∈ q, e.addr = b ∧ e.data.length = lineBytes s.cfg ci := by
  obtain rfl | ⟨w, u, blk, hh, rfl, -, -, -, -, rfl | ⟨-, hq⟩⟩ := innerHit_block h
  · exact ⟨[], by simp⟩
  · exact ⟨[], by simp⟩
  · refine ⟨_, hq, fun e he => ?_⟩
    have hmem : w ∈ hitWays s ci b b := by rw [hh]; exact List.mem_singleton_self w
    have hlen := ((hw ci).2 _ w (setIdx_lt s.cfg ci b) (mem_hitWays hmem).1).1
    obtain rfl := List.mem_singleton.1 he
    exact ⟨lineAddr_of_hit hmem hb, hlen⟩

theorem KeepsByte.innerHits {kind : FlushKind} {ci : CacheName} {ls : List Nat} {s t : State}
    (h : KeepsByte x v s)
    (hls : ∀ b ∈ ls, b % lineBytes s.cfg ci = 0 ∧ (x < b ∨ b + lineBytes s.cfg ci ≤ x))
    (ht : innerHits kind ci ls s = .ok t) : KeepsByte x v t := by
  induction ls generalizing s with
  | nil => cases ht; exact h
  | cons b ls ih =>
    rw [List.forall_mem_cons] at hls
    simp only [Machine.innerHits] at ht
    split at ht
    · cases ht
    · next s1 h1 =>
      have hr := innerHit_reached kind ci s b
      obtain ⟨q, hq, hline⟩ := innerHit_queues_line h.caches hls.1.1 h1
      refine ih (h.of_appended (wellFormed_of_ok h.caches hr h1) (innerHit_mem h1) hq fun e he => ?_)
        (by rw [cfg_of_ok hr h1]; exact hls.2) ht
      obtain ⟨haddr, hlen⟩ := hline e he
      rw [Writeback.misses, haddr, hlen]
      exact hls.1.2

/-- The lines of the inner caches lie in the outer line (R20), so what they queue and what is delivered
reaches no byte outside it. -/
theorem KeepsByte.innerCachesHit {kind : FlushKind} {c : CacheName} {a n : Nat} {cs : List CacheName}
    {queued : Bool} {s t : State} (h : KeepsByte x v s) (hok : cfgOk s.cfg = true)
    (hp : present s.cfg c = true) (ha : a % lineBytes s.cfg c = 0)
    (hx : x < a ∨ a + lineBytes s.cfg c ≤ x) (hcs : ∀ ci ∈ cs, ci ∈ innerCaches s.cfg c)
    (ht : innerCachesHit kind c a n cs queued s = .ok t) : KeepsByte x v t := by
  induction cs generalizing queued s with
  | nil => exact h.deliverQueued ht
  | cons ci cs ih =>
    rw [List.forall_mem_cons] at hcs
    obtain ⟨s1, s2, h1, h2, h3⟩ := innerCachesHit_cons ht
    have hc1 : s1.cfg = s.cfg := cfg_of_ok (deliverQueued_reached _ _ _ _ _) h1
    have hc2 : s2.cfg = s.cfg := (cfg_of_ok (innerHits_reached _ _ _ _) h2).trans hc1
    have hk2 : KeepsByte x v s2 := by
      refine (h.deliverQueued h1).innerHits (fun b hb => ?_) h2
      obtain ⟨hmod, hlo, hhi⟩ := innerLines_range_ok hok hp hcs.1 ha hb
      rw [hc1]
      exact ⟨hmod, by omega⟩
    rw [← hc2] at hok hp ha hx hcs
    exact ih hk2 hok hp ha hx hcs.2 h3

theorem KeepsByte.innerFirst {kind : FlushKind} {c : CacheName} {a : Nat} {s t : State}
    (h : KeepsByte x v s) (hok : cfgOk s.cfg = true) (hp : present s.cfg c = true)
    (ha : a % lineBytes s.cfg c = 0) (hx : x < a ∨ a + lineBytes s.cfg c ≤ x)
    (ht : innerFirst s c a kind = .ok t) : KeepsByte x v t := by
  unfold Machine.innerFirst at ht
  split at ht
  · exact h.innerCachesHit hok hp ha hx (fun _ hci => hci) ht
  · cases ht; exact h

end

theorem lineAddr_mod (cfg : Cfg) (c : CacheName) (set : Nat) (b : Block) :
    lineAddr cfg c set b % lineBytes cfg c = 0 := by
  have : lineAddr cfg c set b = lineBytes cfg c * (b.ptag * setCount cfg c + set) := by
    rw [lineAddr, waySize]; ring
  rw [this, Nat.mul_mod_right]

/-- The line of an operation on T or S: that of the indexed block, or of the physical address (R67, R72,
R75, R77). -/
def outerLine (op : BitVec 5) (s : State) (ia p : Nat) : Nat :=
  if operationCode op = 0 then
    lineAddr s.cfg (cacheOfOp op) (indexedSet s (cacheOfOp op) ia) (indexedBlock s (cacheOfOp op) ia)
  else lineOf s.cfg (cacheOfOp op) p

/-- Before its own cache an operation on T or S does nothing, or the inner caches first for its line. -/
theorem afterInner_ok {op : BitVec 5} {s s1 : State} {ia p : Nat} (h : afterInner op s ia p = .ok s1) :
    s1 = s ∨ ∃ kind, innerFirst s (cacheOfOp op) (outerLine op s ia p) kind = .ok s1 := by
  unfold afterInner at h
  dsimp only at h
  split at h
  · next hk =>
    have hne : operationCode op ≠ 0 := by
      intro h0; simp [h0] at hk
    rw [outerLine, if_neg hne]
    exact .inr ⟨_, h⟩
  · split at h
    · next hk =>
      simp only [Bool.and_eq_true, decide_eq_true_eq] at hk
      rw [outerLine, if_pos hk.1.2]
      exact .inr ⟨_, h⟩
    · cases h; exact .inl rfl

theorem outerLine_mod (op : BitVec 5) (s : State) (ia p : Nat) :
    outerLine op s ia p % lineBytes s.cfg (cacheOfOp op) = 0 := by
  unfold outerLine
  split
  · exact lineAddr_mod _ _ _ _
  · exact lineOf_mod _ _ _

/-- What an operation on T or S does to its own cache writes no memory. -/
theorem outerBody_mem {op : BitVec 5} {acc : Access} {s t : State} (h : outerBody op acc s = .ok t) :
    t.mem = s.mem := by
  unfold outerBody at h
  split at h
  · rw [hitInvalidate, thenGlobalize_eq] at h
    exact (hitInvalidateAt_framed _ _ _ _ t h).mem
  · rw [hitWritebackInvalidate, thenGlobalize_eq] at h
    exact (hitWritebackInvalidateAt_framed _ _ _ _ t h).mem
  · rw [hitWriteback, thenGlobalize_eq] at h
    exact (hitWritebackAt_framed _ _ _ _ t h).mem
  · exact (flushBlock_framed s _ (indexed_lt s _ _).2 t h).mem

/-- Settles O53: no writeback that is delivered reaches a byte outside the lines pending before and the outer
line, and nothing but a delivery writes memory. -/
theorem innerFirstStoresWithinTheLine : Obligations.InnerFirstStoresWithinTheLine := by
  intro i s t p u h hinv hact he hn c ia line x hpending hline
  obtain ⟨-, hcaches, hok, -⟩ := hinv
  simp only [actsInnerFirst, Bool.and_eq_true] at hact
  obtain ⟨⟨-, ho⟩, hk⟩ := hact
  have hp : present s.cfg c = true := by
    have himpl := he.2.1
    simp only [opImplemented, Bool.and_eq_true] at himpl
    exact himpl.1.2
  obtain ⟨s2, hb, rfl⟩ := exec_next_body he hn
  rw [opBody_outer ho hk] at hb
  cases hs : afterInner i.op s ia p with
  | error f => rw [hs] at hb; cases hb
  | ok s1 =>
    rw [hs] at hb
    have hkeep : KeepsByte x (memByte s x) s := ⟨hcaches, hpending, rfl⟩
    have hkeep1 : KeepsByte x (memByte s x) s1 := by
      obtain rfl | ⟨kind, hinner⟩ := afterInner_ok hs
      · exact hkeep
      · exact hkeep.innerFirst hok hp (outerLine_mod i.op s ia p) hline hinner
    exact (memByte_congr (outerBody_mem hb) x).trans hkeep1.byte

/-! ### Settling a range (R41) -/

@[simp] theorem settleFuel_append (q r : List Writeback) :
    settleFuel (q ++ r) = settleFuel q + settleFuel r := by
  simp [settleFuel]

/-- An entry that is passed on has fewer levels left. -/
theorem levelsLeft_nextLevel (cfg : Cfg) (l : CacheName) :
    levelsLeft (nextLevel cfg l) + 1 ≤ levelsLeft (.cache l) := by
  cases hn : nextLevel cfg l with
  | mem => cases l <;> decide
  | cache m =>
    have hm := nextLevel_mem hn
    revert hm
    cases l <;> cases m <;> decide

/-- A delivery uses up one of the deliveries that its entry can still need. -/
theorem deliver_settleFuel {s t : State} {e : Writeback} (h : deliver s e = .ok t) :
    settleFuel t.wbq + 1 ≤ settleFuel s.wbq + levelsLeft e.level := by
  have hpass (l : CacheName) (hl : e.level = .cache l) :
      settleFuel (s.wbq ++ [{ e with level := nextLevel s.cfg l }]) + 1
        ≤ settleFuel s.wbq + levelsLeft e.level := by
    have hlevels := levelsLeft_nextLevel s.cfg l
    have hone : settleFuel [{ e with level := nextLevel s.cfg l }] = levelsLeft (nextLevel s.cfg l) := by
      simp [settleFuel]
    rw [settleFuel_append, hone, hl]
    omega
  have hkept : settleFuel s.wbq + 1 ≤ settleFuel s.wbq + levelsLeft e.level :=
    Nat.add_le_add_left (levelsLeft_pos e.level) _
  unfold deliver at h
  split at h
  · split at h <;> cases h
    exact hkept
  · next l hl =>
    split at h
    · cases h
    · cases h
      exact hpass l hl
    · dsimp only at h
      split at h <;> cases h
      · exact hkept
      · exact hpass l hl

theorem drainOne_settleFuel {s t : State} (hq : s.wbq ≠ []) (h : drainOne s = .ok t) :
    settleFuel t.wbq < settleFuel s.wbq := by
  obtain ⟨e, rest, hcons⟩ := List.exists_cons_of_ne_nil hq
  rw [drainOne_cons hcons] at h
  have hfuel := deliver_settleFuel h
  have hsum : settleFuel s.wbq = levelsLeft e.level + settleFuel rest := by
    rw [hcons]; simp [settleFuel]
  rw [withWbq_wbq] at hfuel
  omega

/-- Enough drain steps leave nothing of the range pending. -/
theorem settle_nonePending {c : CacheName} {a n fuel : Nat} {s t : State} (hf : settleFuel s.wbq ≤ fuel)
    (h : settle c a n fuel s = .ok t) : NonePending c a n t := by
  induction fuel generalizing s with
  | zero =>
    cases h
    have hlen := length_le_settleFuel t.wbq
    have hnil : t.wbq = [] := List.eq_nil_of_length_eq_zero (by omega)
    rw [NonePending, hnil]
    rfl
  | succ fuel ih =>
    unfold settle at h
    split at h
    · next hany =>
      have hq : s.wbq ≠ [] := by
        intro hq; simp [hq] at hany
      split at h
      · cases h
      · next s1 h1 =>
        have hless := drainOne_settleFuel hq h1
        exact ih (by omega) h
    · next hnone => cases h; exact Bool.eq_false_iff.2 hnone

theorem deliverQueued_nonePending {queued : Bool} {c : CacheName} {a n : Nat} {s t : State}
    (hn : queued = false → NonePending c a n s) (h : deliverQueued queued c a n s = .ok t) :
    NonePending c a n t := by
  cases queued with
  | true => exact settle_nonePending le_rfl h
  | false => cases h; exact hn rfl

/-- With nothing queued so far nothing is delivered. -/
theorem deliverQueued_false {c : CacheName} {a n : Nat} {s t : State}
    (h : deliverQueued false c a n s = .ok t) : t = s := by
  cases h; rfl

/-- Operations that leave as many writebacks pending leave the same ones. -/
theorem innerHits_wbq_of_length {kind : FlushKind} {ci : CacheName} {ls : List Nat} {s t : State}
    (h : innerHits kind ci ls s = .ok t) (hl : t.wbq.length = s.wbq.length) : t.wbq = s.wbq := by
  obtain ⟨q, hq⟩ := innerHits_wbq h
  rw [hq, List.length_append] at hl
  rw [hq, List.eq_nil_of_length_eq_zero (by omega : q.length = 0), List.append_nil]

/-- Either nothing has been queued and nothing was pending, or what was queued is delivered at the end. -/
theorem innerCachesHit_nonePending {kind : FlushKind} {c : CacheName} {a n : Nat} {cs : List CacheName}
    {queued : Bool} {s t : State} (hn : queued = false → NonePending c a n s)
    (h : innerCachesHit kind c a n cs queued s = .ok t) : NonePending c a n t := by
  induction cs generalizing queued s with
  | nil => exact deliverQueued_nonePending hn h
  | cons ci cs ih =>
    obtain ⟨s1, s2, h1, h2, h3⟩ := innerCachesHit_cons h
    refine ih (fun hq => ?_) h3
    rw [Bool.or_eq_false_iff, decide_eq_false_iff_not, not_not] at hq
    obtain ⟨rfl, hl⟩ := hq
    rw [NonePending, innerHits_wbq_of_length h2 hl, deliverQueued_false h1]
    exact hn rfl

theorem innerFirst_nonePending {kind : FlushKind} {c : CacheName} {a : Nat} {s t : State}
    (hn : NonePending c a (lineBytes s.cfg c) s) (h : innerFirst s c a kind = .ok t) :
    NonePending c a (lineBytes s.cfg c) t := by
  unfold innerFirst at h
  split at h
  · exact innerCachesHit_nonePending (fun _ => hn) h
  · cases h; exact hn

/-! ### What Hit Invalidate on the inner caches leaves alone (R41, R71) -/

theorem innerFirst_invalidate_frame {c : CacheName} {a : Nat} {s t : State}
    (h : innerFirst s c a .invalidate = .ok t) :
    t.wbq = s.wbq ∧ t.mem = s.mem ∧ t.draws = s.draws ∧
      ∀ c' ∉ innerCaches s.cfg c, t.caches.get c' = s.caches.get c' := by
  unfold innerFirst at h
  split at h
  · exact innerCachesHit_invalidate c a _ _ h
  · cases h; exact ⟨rfl, rfl, rfl, fun _ _ => rfl⟩

/-! ### The lines of the inner caches in the outer line (R41) -/

/-- A line `b` of an inner cache `ci` that lies in the line of the outer cache `c` at `a`. -/
structure InnerLine (cfg : Cfg) (c : CacheName) (a : Nat) (ci : CacheName) (b : Nat) : Prop where
  inner : ci ∈ innerCaches cfg c
  aligned : b % lineBytes cfg ci = 0
  lo : a ≤ b
  hi : b < a + lineBytes cfg c

/-- What is inside a cache inside another is inside the other (R20). -/
theorem inside_trans {l ci c : CacheName} (hl : l = ci ∨ l ∈ inside ci) (hci : ci ∈ inside c) :
    l ∈ inside c := by
  revert hl hci
  cases l <;> cases ci <;> cases c <;> decide

/-- What is pending for a cache inside is pending for one inside or for the cache itself. -/
theorem pendingFor_of_inner {cfg : Cfg} {ci c : CacheName} (hci : ci ∈ innerCaches cfg c) {a n : Nat}
    {e : Writeback} (h : pendingFor ci a n e = true) : pendingFor c a n e = true := by
  simp only [pendingFor, Bool.and_eq_true] at h ⊢
  obtain ⟨⟨hlevel, hlo⟩, hhi⟩ := h
  refine ⟨⟨?_, hlo⟩, hhi⟩
  cases hl : e.level with
  | mem => rw [hl] at hlevel; cases hlevel
  | cache l =>
    rw [hl] at hlevel
    simp only [Bool.or_eq_true, decide_eq_true_eq, List.contains_iff_mem] at hlevel ⊢
    exact .inr (inside_trans hlevel (List.mem_of_mem_filter hci))

theorem nonePending_of_inner {cfg : Cfg} {ci c : CacheName} (hci : ci ∈ innerCaches cfg c) {a n : Nat}
    {s : State} (h : NonePending c a n s) : NonePending ci a n s := by
  rw [NonePending, List.any_eq_false] at h ⊢
  exact fun e he hp => h e he (pendingFor_of_inner hci hp)

/-- No cache is inside itself (R20). -/
theorem not_mem_innerCaches (cfg : Cfg) (c : CacheName) : c ∉ innerCaches cfg c := by
  intro h
  have hmem : c ∈ inside c := List.mem_of_mem_filter h
  revert hmem
  cases c <;> decide

section
variable {cfg : Cfg} {c ci : CacheName} {a b : Nat} (hok : cfgOk cfg = true) (hp : present cfg c = true)
  (ha : a % lineBytes cfg c = 0)
include hok hp ha

/-- The inner caches operate on every such line. -/
theorem InnerLine.mem (hl : InnerLine cfg c a ci b) : b ∈ innerLines cfg ci c a :=
  mem_innerLines (lineBits_le_outer hok hp hl.inner) ha hl.aligned hl.lo hl.hi

/-- Every such line ends in the outer line. -/
theorem InnerLine.end_le (hl : InnerLine cfg c a ci b) : b + lineBytes cfg ci ≤ a + lineBytes cfg c :=
  (innerLines_range_ok hok hp hl.inner ha (hl.mem hok hp ha)).2.2

/-- The inner caches operate on such lines only. -/
theorem innerLine_of_mem (hci : ci ∈ innerCaches cfg c) (hb : b ∈ innerLines cfg ci c a) :
    InnerLine cfg c a ci b := by
  obtain ⟨hmod, hlo, hend⟩ := innerLines_range_ok hok hp hci ha hb
  have hpos := lineBytes_pos cfg ci
  exact ⟨hci, hmod, hlo, by omega⟩

end

section
variable {c ci : CacheName} {a b : Nat} {kind : FlushKind} {s t : State}
variable (hw : CachesWellFormed s) (hok : cfgOk s.cfg = true) (hp : present s.cfg c = true)
  (ha : a % lineBytes s.cfg c = 0)
include hw hok hp ha

/-- A line that is invalidated is held no longer. -/
theorem innerFirst_gone (hon : s.cfg.outerOpsInnerFirst = true) (h : innerFirst s c a kind = .ok t)
    (hl : InnerLine s.cfg c a ci b) (hk : ci = .i ∨ kind ≠ .writeback) : hitWays t ci b b = [] := by
  rw [innerFirst_on hon] at h
  exact innerCachesHit_gone hw h hk hl.inner (hl.mem hok hp ha)

/-- Under Hit Writeback D and S hold what they held, and hold it clean if nothing was pending. -/
theorem innerFirst_writeback (hon : s.cfg.outerOpsInnerFirst = true)
    (h : innerFirst s c a .writeback = .ok t) (hl : InnerLine s.cfg c a ci b) (hi : ci ≠ .i) :
    hitWays t ci b b = hitWays s ci b b ∧
      (NonePending c a (lineBytes s.cfg c) s → LineClean ci b t) := by
  refine ⟨(innerFirst_narrows hw h).hitWays_eq ⟨rfl, hi⟩ b b, fun hn => ?_⟩
  rw [innerFirst_on hon] at h
  exact innerCachesHit_cleans hw (fun _ _ => settle_nonePending le_rfl) h hi hl.inner
    (innerCaches_outward s.cfg c) hl.lo hl.aligned (hl.end_le hok hp ha) (hl.mem hok hp ha)
    fun _ => nonePending_of_inner hl.inner hn

/-- The turn of the last inner cache, with nothing pending: its operations queue the dirty line, and the
settling at the end brings it to the outer cache. -/
theorem lastInner_arrives {w : Nat} (hl : InnerLine s.cfg c a ci b) (hnext : nextLevel s.cfg ci = .cache c)
    (hk : kind ≠ .invalidate) (hi : ci ≠ .i) (hq : s.wbq = []) (hh : hitWays s ci b b = [w])
    (hn : needsWriteback s ci (setIdx s.cfg ci b) w = true)
    (h : innerCachesHit kind c a (lineBytes s.cfg c) [ci] false s = .ok t) :
    t.cfg = s.cfg ∧ hitWays t c b b = hitWays s c b b ∧
      Arrived ci c a b (block s ci (setIdx s.cfg ci b) w).data t := by
  obtain ⟨s0, s1, h0, h1, h2⟩ := innerCachesHit_cons h
  obtain rfl := deliverQueued_false h0
  have hne : c ≠ ci := by
    rintro rfl; exact not_mem_innerCaches _ _ hl.inner
  have hc1 : s1.cfg = s0.cfg := cfg_of_ok (innerHits_reached _ _ _ _) h1
  have hw1 := wellFormed_of_ok hw (innerHits_reached _ _ _ _) h1
  have hwlt : w < wayCount s0.cfg ci := (mem_hitWays (by rw [hh]; exact List.mem_singleton_self w)).1
  obtain ⟨hfrom, hget, hqueued⟩ := innerHits_queue (a := a) hk hi hne hwlt hnext
    (fun x hx => innerLines_range_ok hok hp hl.inner ha hx) hl.aligned hw rfl
    (fun v hv => by rw [hh] at hv; exact List.mem_singleton.1 hv) (by simp [hq]) h1
  have hentry := hqueued (.inl ⟨hl.mem hok hp ha, hh, hn⟩)
  have hlen : s1.wbq.length ≠ s0.wbq.length := by
    rw [hq]; exact (List.length_pos_of_mem hentry).ne'
  have hsettle : settle c a (lineBytes s0.cfg c) (settleFuel s1.wbq) s1 = .ok t := by
    simpa [hlen, innerCachesHit, deliverQueued] using h2
  refine ⟨(cfg_of_ok (settle_reached _ _ _ _ _) hsettle).trans hc1, ?_, ?_⟩
  · rw [(settle_narrows (keep := fun _ => True) hw1 hsettle).hitWays_eq trivial]
    exact hitWays_of_get hc1 hget b b
  · have hal := hl.aligned
    have hend := hl.end_le hok hp ha
    generalize (block s0 ci (setIdx s0.cfg ci b) w).data = line at hfrom hentry ⊢
    rw [← hc1] at ha hal hend hfrom hsettle
    exact settle_arrives (Q := []) (fun m => nextLevel_notIn) hw1 ha hal hl.lo hend hfrom rfl
      (List.append_nil _).symm (length_le_settleFuel _) (.inl ⟨_, hentry, rfl⟩) hsettle

/-- With nothing pending, and blocks to write back in one inner cache only, the last before the outer one:
the others change nothing of the two caches, and the line comes to the outer one. -/
theorem innerFirst_arrives (hon : s.cfg.outerOpsInnerFirst = true) (h : innerFirst s c a kind = .ok t)
    {w : Nat} (hl : InnerLine s.cfg c a ci b) (hnext : nextLevel s.cfg ci = .cache c)
    (hk : kind ≠ .invalidate) (hq : s.wbq = []) (hh : hitWays s ci b b = [w])
    (hn : needsWriteback s ci (setIdx s.cfg ci b) w = true)
    (honly : ∀ cj b' w', InnerLine s.cfg c a cj b' → w' ∈ hitWays s cj b' b' →
      needsWriteback s cj (setIdx s.cfg cj b') w' = true → cj = ci) :
    t.cfg = s.cfg ∧ hitWays t c b b = hitWays s c b b ∧
      Arrived ci c a b (block s ci (setIdx s.cfg ci b) w).data t := by
  have hi : ci ≠ .i := by
    rintro rfl; rw [needsWriteback_i] at hn; cases hn
  obtain ⟨hlast, hbefore⟩ := inner_last hl.inner hnext hi
  have hquiet : ∀ cj ∈ (innerCaches s.cfg c).dropLast, cj ≠ ci ∧ cj ≠ c ∧
      ∀ x ∈ innerLines s.cfg cj c a, ∀ w' ∈ hitWays s cj x x,
        needsWriteback s cj (setIdx s.cfg cj x) w' = false := by
    intro cj hcj
    obtain ⟨hne, hne'⟩ := hbefore cj hcj
    refine ⟨hne, hne', fun x hx w' hw' => Bool.eq_false_iff.2 fun hd => hne ?_⟩
    exact honly cj x w' (innerLine_of_mem hok hp ha (List.mem_of_mem_dropLast hcj) hx) hw' hd
  rw [innerFirst_on hon, hlast] at h
  obtain ⟨s1, h1, hq1, hc1, hw1, hgetci, hgetc⟩ :=
    innerCachesHit_quiet hquiet hw rfl (fun _ _ _ _ hv => ⟨hv, id⟩) hq h
  have hblock := block_of_get hc1 hgetci (setIdx s.cfg ci b) w
  rw [← hitWays_of_get hc1 hgetci] at hh
  rw [needsWriteback, ← hblock] at hn
  rw [← hblock, ← hitWays_of_get hc1 hgetc]
  rw [← hc1] at hok hp ha hl hnext h1 hn ⊢
  exact lastInner_arrives hw1 hok hp ha hl hnext hk hi hq1 hh hn h1

end

/-- Settles O25: settling, the frame of Hit Invalidate, and the three things that become of a line of an
inner cache. -/
theorem settleDeliversTheRange : Obligations.SettleDeliversTheRange := by
  intro c a n kind s t
  refine ⟨settle_nonePending le_rfl, innerFirst_nonePending, fun hoff => innerFirst_off hoff c a kind,
    innerFirst_invalidate_frame, fun hinv hon hp ha h => ?_⟩
  obtain ⟨-, hw, hok, -⟩ := hinv
  intro inLine
  have line {ci b} (hl : inLine ci b) : InnerLine s.cfg c a ci b := by
    obtain ⟨hin, hal, hlo, hhi⟩ := hl
    exact ⟨hin, hal, hlo, hhi⟩
  refine ⟨fun ci b hl hk => innerFirst_gone hw hok hp ha hon h (line hl) hk,
    fun ci b hl hi hk => ?_, fun ci b w hl hnext hk hq hh hn honly => ?_⟩
  · subst hk
    obtain ⟨hhits, hclean⟩ := innerFirst_writeback hw hok hp ha hon h (line hl) hi
    refine ⟨hhits, fun hnone w hv => ?_⟩
    have hdirty := hclean hnone w hv
    rwa [innerFirst_cfg h] at hdirty
  · obtain ⟨hc, hhits, harrived⟩ := innerFirst_arrives hw hok hp ha hon h (line hl) hnext hk hq hh hn
      fun cj b' w' hl' => honly cj b' w' ⟨hl'.inner, hl'.aligned, hl'.lo, hl'.hi⟩
    rw [Arrived, hc, hhits] at harrived
    exact harrived

end Sys2Proof.Machine

/-! SUPPORT. The proofs about the encoding (30_encoding.md): the fields of the format, the word and the
bytes of an instruction, the assembler's operands, and the row CACHE as a second name of its variants. -/

namespace Sys2Proof.Machine

/-! ### The variant of an op value (R51) -/

/-- The variant has the fields it is made of, and it is never the row CACHE. -/
theorem instrOfOp_fields (op : BitVec 5) (imm : BitVec 9) (rx : BitVec 3) :
    (instrOfOp op imm rx).op = op ∧ (instrOfOp op imm rx).imm = imm ∧ (instrOfOp op imm rx).rx = rx ∧
      (instrOfOp op imm rx).wellFormed = true := by
  revert op
  refine bitVec5_cases fun n => ?_
  fin_cases n <;> exact ⟨rfl, rfl, rfl, rfl⟩

@[simp] theorem instrOfOp_op (op : BitVec 5) (imm : BitVec 9) (rx : BitVec 3) :
    (instrOfOp op imm rx).op = op :=
  have ⟨hop, _⟩ := instrOfOp_fields op imm rx; hop

@[simp] theorem instrOfOp_imm (op : BitVec 5) (imm : BitVec 9) (rx : BitVec 3) :
    (instrOfOp op imm rx).imm = imm :=
  have ⟨_, himm, _⟩ := instrOfOp_fields op imm rx; himm

@[simp] theorem instrOfOp_rx (op : BitVec 5) (imm : BitVec 9) (rx : BitVec 3) :
    (instrOfOp op imm rx).rx = rx :=
  have ⟨_, _, hrx, _⟩ := instrOfOp_fields op imm rx; hrx

@[simp] theorem instrOfOp_wellFormed (op : BitVec 5) (imm : BitVec 9) (rx : BitVec 3) :
    (instrOfOp op imm rx).wellFormed = true :=
  have ⟨_, _, _, hwf⟩ := instrOfOp_fields op imm rx; hwf

/-- Only the row CACHE has a variant other than itself. -/
theorem canonicalInstr_of_wellFormed {i : Instr} (h : i.wellFormed = true) : canonicalInstr i = i := by
  cases i
  case cache => cases h
  all_goals rfl

/-- What an instruction does depends on its three fields alone. -/
theorem exec_canonicalInstr (i : Instr) (s : State) : exec (canonicalInstr i) s = exec i s := by
  simp [exec_eq, canonicalInstr]

/-- Settles O35: the variant has the fields of the row. -/
theorem cacheRowIsItsVariant : Obligations.CacheRowIsItsVariant :=
  fun op imm rx s => (exec_canonicalInstr (.cache op imm rx) s).symm

/-! ### The bits of a word (R5) -/

theorem extract_extract {w : Nat} (x : BitVec w) {a b m n : Nat} (h : b + m ≤ n) :
    (x.extractLsb' a n).extractLsb' b m = x.extractLsb' (a + b) m := by
  ext k hk
  have hkn : b + k < n := by omega
  simp [BitVec.getElem_extractLsb', hkn, Nat.add_assoc]

theorem extract_append_extract {w : Nat} (x : BitVec w) (a m n : Nat) :
    x.extractLsb' (a + m) n ++ x.extractLsb' a m = x.extractLsb' a (n + m) :=
  BitVec.extractLsb'_append_extractLsb'_eq_extractLsb' rfl

/-- A mask keeps a field whose bits it has all. -/
theorem extract_and_of_allOnes (w : Word) {m : Word} {lo n : Nat} (h : m.extractLsb' lo n = .allOnes n) :
    (w &&& m).extractLsb' lo n = w.extractLsb' lo n := by
  rw [BitVec.extractLsb'_and, h, BitVec.and_allOnes]

/-- A mask clears a field of whose bits it has none. -/
theorem extract_and_of_zero (w : Word) {m : Word} {lo n : Nat} (h : m.extractLsb' lo n = 0) :
    (w &&& m).extractLsb' lo n = 0 := by
  rw [BitVec.extractLsb'_and, h]
  exact BitVec.and_zero

/-- The first halfword is its four fields. -/
theorem firstHalf_eq_fields (w : Word) : w.extractLsb' 16 16 =
    w.extractLsb' 27 5 ++ w.extractLsb' 25 2 ++ w.extractLsb' 21 4 ++ w.extractLsb' 16 5 := by
  rw [extract_append_extract w 25 2, extract_append_extract w 21 4, extract_append_extract w 16 5]

/-- The second halfword is its four fields. -/
theorem secondHalf_eq_fields (w : Word) : w.extractLsb' 0 16 =
    w.extractLsb' 11 5 ++ w.extractLsb' 8 3 ++ w.extractLsb' 5 3 ++ w.extractLsb' 0 5 := by
  rw [extract_append_extract w 8 3, extract_append_extract w 5 3, extract_append_extract w 0 5]

/-- A word is its eight fields. -/
theorem fields_append (w : Word) :
    w.extractLsb' 27 5 ++ w.extractLsb' 25 2 ++ w.extractLsb' 21 4 ++ w.extractLsb' 16 5 ++
      w.extractLsb' 11 5 ++ w.extractLsb' 8 3 ++ w.extractLsb' 5 3 ++ w.extractLsb' 0 5 = w := by
  rw [extract_append_extract w 25 2, extract_append_extract w 21 4, extract_append_extract w 16 5,
    extract_append_extract w 11 5, extract_append_extract w 8 3, extract_append_extract w 5 3,
    extract_append_extract w 0 5, BitVec.extractLsb'_eq_self]

/-! ### The fields of the format (R46, R51) -/

/-- The fixed fields of the format have their values. -/
def FixedFields (w : Word) : Prop :=
  w.extractLsb' 27 5 = 0b11110#5 ∧ w.extractLsb' 25 2 = 0b00#2 ∧
    w.extractLsb' 11 5 = 0b11010#5 ∧ w.extractLsb' 5 3 = 0b101#3

theorem immField_hi (w : Word) : (immField w).extractLsb' 5 4 = w.extractLsb' 21 4 :=
  BitVec.extractLsb'_append_eq_left

theorem immField_lo (w : Word) : (immField w).extractLsb' 0 5 = w.extractLsb' 0 5 :=
  BitVec.extractLsb'_append_eq_right

theorem immField_msb (w : Word) : (immField w).msb = w.getLsbD 24 := by
  have hhi : (immField w).msb = (w.extractLsb' 21 4).msb := BitVec.msb_append.trans (if_neg (by decide))
  simp [hhi, BitVec.msb_extractLsb', BitVec.getMsbD]

theorem opField_hi (w : Word) : (opField w).extractLsb' 2 3 = w.extractLsb' 18 3 :=
  extract_extract w (by decide)

theorem opField_lo (w : Word) : (opField w).extractLsb' 0 2 = w.extractLsb' 16 2 :=
  extract_extract w (by decide)

theorem immField_encodeFields (op : BitVec 5) (imm : BitVec 9) (rx : BitVec 3) :
    immField (encodeFields op imm rx) = imm := by
  apply BitVec.eq_of_getLsbD_eq
  intro k hk
  unfold immField wordField encodeFields
  simp only [BitVec.getLsbD_extractLsb', BitVec.getLsbD_append]
  interval_cases k <;> simp

theorem rxField_encodeFields (op : BitVec 5) (imm : BitVec 9) (rx : BitVec 3) :
    rxField (encodeFields op imm rx) = rx := by
  apply BitVec.eq_of_getLsbD_eq
  intro k hk
  unfold rxField wordField encodeFields
  simp only [BitVec.getLsbD_extractLsb', BitVec.getLsbD_append]
  interval_cases k <;> simp

theorem encodeFields_of_fixedFields {w : Word} (h : FixedFields w) :
    encodeFields (opField w) (immField w) (rxField w) = w := by
  obtain ⟨hext, hzero, hmajor, hsel⟩ := h
  rw [encodeFields, immField_hi, immField_lo, ← hext, ← hzero, ← hmajor, ← hsel]
  exact fields_append w

/-- The mask and match of CACHE check the fixed fields and nothing else. -/
theorem and_fixedMask_iff {w : Word} : w &&& fixedMask = fixedMatch ↔ FixedFields w := by
  constructor
  · intro h
    have field {lo n : Nat} (ho : fixedMask.extractLsb' lo n = .allOnes n) :
        w.extractLsb' lo n = fixedMatch.extractLsb' lo n := by
      rw [← extract_and_of_allOnes w ho, h]
    exact ⟨field rfl, field rfl, field rfl, field rfl⟩
  · intro h
    rw [← encodeFields_of_fixedFields h, encodeFields_fixed]

/-- A word is that of given operands exactly when its fixed fields have their values and its free ones are
the operands. -/
theorem encodeFields_eq_iff {op : BitVec 5} {imm : BitVec 9} {rx : BitVec 3} {w : Word} :
    encodeFields op imm rx = w ↔
      w &&& fixedMask = fixedMatch ∧ opField w = op ∧ immField w = imm ∧ rxField w = rx := by
  constructor
  · rintro rfl
    exact ⟨encodeFields_fixed _ _ _, opField_encodeFields _ _ _, immField_encodeFields _ _ _,
      rxField_encodeFields _ _ _⟩
  · rintro ⟨hfixed, rfl, rfl, rfl⟩
    exact encodeFields_of_fixedFields (and_fixedMask_iff.1 hfixed)

/-! ### The words that decode (R51, R52) -/

theorem decodeWord_isSome_iff {w : Word} :
    (decodeWord w).isSome = true ↔ w &&& fixedMask = fixedMatch := by
  unfold decodeWord
  split <;> simp [*]

theorem decodeWord_of_fixed {w : Word} (h : w &&& fixedMask = fixedMatch) :
    decodeWord w = some (instrOfOp (opField w) (immField w) (rxField w)) := by
  rw [decodeWord, if_pos h]

theorem decodeWord_encodeWord (i : Instr) : decodeWord (encodeWord i) = some (canonicalInstr i) := by
  obtain ⟨hfixed, hop, himm, hrx⟩ := encodeFields_eq_iff.1 (rfl : _ = encodeWord i)
  rw [decodeWord_of_fixed hfixed, hop, himm, hrx, canonicalInstr]

/-- The decoder answers exactly the well-formed instructions, each for its own word. -/
theorem decodeWord_eq_some_iff {w : Word} {i : Instr} :
    decodeWord w = some i ↔ i.wellFormed = true ∧ encodeWord i = w := by
  constructor
  · intro h
    have hfixed := decodeWord_isSome_iff.1 (Option.isSome_iff_exists.2 ⟨i, h⟩)
    obtain rfl := Option.some.inj ((decodeWord_of_fixed hfixed).symm.trans h)
    exact ⟨instrOfOp_wellFormed _ _ _, encodeFields_eq_iff.2 (by simp [hfixed])⟩
  · rintro ⟨hwf, rfl⟩
    rw [decodeWord_encodeWord, canonicalInstr_of_wellFormed hwf]

/-- The fields of a word that decodes are those of its instruction. -/
theorem fields_of_decodeWord {w : Word} {i : Instr} (h : decodeWord w = some i) :
    w &&& fixedMask = fixedMatch ∧ opField w = i.op ∧ immField w = i.imm ∧ rxField w = i.rx :=
  encodeFields_eq_iff.1 (decodeWord_eq_some_iff.1 h).2

/-- Settles O1: the words are closed, and the decoder runs on them. -/
theorem decodesWordsOfTheFigure : Obligations.DecodesWordsOfTheFigure := by
  unfold Obligations.DecodesWordsOfTheFigure
  decide

/-- Settles O22: the mask checks the fixed fields, the operands are the free ones, and a halfword is its
four fields. -/
theorem fieldsOfTheFormat : Obligations.FieldsOfTheFormat := by
  intro w
  refine ⟨decodeWord_isSome_iff.trans and_fixedMask_iff, fun i hi => ?_⟩
  obtain ⟨hfixed, hop, himm, hrx⟩ := fields_of_decodeWord hi
  obtain ⟨hext, hzero, hmajor, hsel⟩ := and_fixedMask_iff.1 hfixed
  rw [← hop, ← himm, ← hrx, immField_hi, immField_lo]
  refine ⟨rfl, rfl, ?_, rfl, opField_hi w, opField_lo w, rfl, ?_, ?_⟩
  · rw [← immField_msb, BitVec.msb_eq_toInt, decide_eq_true_iff]
  · rw [firstHalf_eq_fields, hext, hzero]; rfl
  · rw [secondHalf_eq_fields, hmajor, hsel]; rfl

/-! ### Masks and matches (R51) -/

/-- The mask of an op: the fixed bits and the op field. -/
def opMask : Word := 0xFE1FF8E0

/-- The match of an op. -/
def opMatch (op : BitVec 5) : Word := fixedMatch ||| (op.setWidth 32 <<< 16)

theorem encodeFields_eq_or (op : BitVec 5) (imm : BitVec 9) (rx : BitVec 3) :
    encodeFields op imm rx =
      0xF000D0A0 ||| ((imm.extractLsb' 5 4).setWidth 32 <<< 21) ||| (op.setWidth 32 <<< 16)
        ||| (rx.setWidth 32 <<< 8) ||| (imm.extractLsb' 0 5).setWidth 32 := by
  apply BitVec.eq_of_getLsbD_eq
  intro k hk
  unfold encodeFields
  simp only [BitVec.getLsbD_or, BitVec.getLsbD_shiftLeft, BitVec.getLsbD_setWidth, BitVec.getLsbD_append]
  interval_cases k <;> simp

/-- The match of an op is its word with the other operands 0. -/
theorem opMatch_eq_encodeFields (op : BitVec 5) : opMatch op = encodeFields op 0 0 := by
  simp [encodeFields_eq_or, opMatch, fixedMatch]

/-- The mask and match of an op check the fixed fields and the op field. -/
theorem and_opMask_iff {w : Word} {op : BitVec 5} :
    w &&& opMask = opMatch op ↔ w &&& fixedMask = fixedMatch ∧ opField w = op := by
  have hmask : w &&& opMask &&& fixedMask = w &&& fixedMask := BitVec.and_assoc _ _ _
  have hop : opField (w &&& opMask) = opField w := extract_and_of_allOnes w rfl
  have hrx : rxField (w &&& opMask) = 0 := extract_and_of_zero w rfl
  have himm : immField (w &&& opMask) = 0 :=
    congrArg₂ (· ++ ·) (extract_and_of_zero w rfl) (extract_and_of_zero w rfl)
  rw [opMatch_eq_encodeFields, eq_comm, encodeFields_eq_iff, hmask, hop, himm, hrx]
  simp

theorem decodeWord_with_op_iff {w : Word} {op : BitVec 5} :
    (∃ i, decodeWord w = some i ∧ i.op = op) ↔ w &&& opMask = opMatch op := by
  rw [and_opMask_iff]
  constructor
  · rintro ⟨i, hi, rfl⟩
    obtain ⟨hfixed, hop, -, -⟩ := fields_of_decodeWord hi
    exact ⟨hfixed, hop⟩
  · rintro ⟨hfixed, rfl⟩
    exact ⟨_, decodeWord_of_fixed hfixed, instrOfOp_op _ _ _⟩

/-- Settles O4: the decoder's own mask and match, the word as a disjunction of its shifted fields, and the
mask that has the op's bits too. -/
theorem maskAndMatchOfCache : Obligations.MaskAndMatchOfCache :=
  ⟨fun _ => decodeWord_isSome_iff, encodeFields_eq_or, fun _ _ => decodeWord_with_op_iff⟩

/-! ### The immediate and the op field (R47, R48, R49) -/

/-- Settles O5: a number of 9 bits lies in the range, and sign extension is the word of that number. -/
theorem immediateIsSignExtendedAndAdded : Obligations.ImmediateIsSignExtendedAndAdded := by
  intro w i s hi
  obtain ⟨-, -, himm, hrx⟩ := fields_of_decodeWord hi
  refine ⟨himm.symm, i.imm.le_toInt, Int.lt_add_one_iff.1 i.imm.toInt_lt, ?_⟩
  rw [effectiveAddress, ← hrx]
  rfl

/-- The code of a cache (R49). -/
def cacheCode : CacheName → BitVec 2
  | .i => 0b00
  | .d => 0b01
  | .t => 0b10
  | .s => 0b11

theorem cacheOfOp_eq_iff (op : BitVec 5) (c : CacheName) :
    cacheOfOp op = c ↔ op.extractLsb' 0 2 = cacheCode c := by
  cases c <;> revert op <;> decide

theorem operationCode_eq_extract (op : BitVec 5) : operationCode op = (op.extractLsb' 2 3).toNat := by
  revert op
  decide

theorem toNat_eq_codes (op : BitVec 5) :
    op.toNat = 4 * (op.extractLsb' 2 3).toNat + (op.extractLsb' 0 2).toNat := by
  revert op
  decide

/-! ### The assembler's operands (R55) -/

/-- The registers that can be encoded are those that `XLat` gives, each by its own selector. -/
theorem rxOf_eq_some_iff {reg : Nat} {rx : BitVec 3} : rxOf reg = some rx ↔ (xlat rx).val = reg := by
  constructor
  · intro h
    unfold rxOf at h
    split at h <;> cases h <;> rfl
  · rintro rfl
    revert rx
    decide

theorem rxOf_isSome_iff {reg : Nat} :
    (rxOf reg).isSome = true ↔ reg ∈ [16, 17, 2, 3, 4, 5, 6, 7] := by
  unfold rxOf
  split <;> simp_all

theorem assemble_eq_some_iff {op : Nat} {offset : Int} {reg : Nat} {i : Instr} :
    assemble op offset reg = some i ↔ (op < 32 ∧ -256 ≤ offset ∧ offset ≤ 255) ∧
      ∃ rx, rxOf reg = some rx ∧ instrOfOp (BitVec.ofNat 5 op) (BitVec.ofInt 9 offset) rx = i := by
  unfold assemble
  cases rxOf reg <;> simp

theorem fields_of_assemble {op : Nat} {offset : Int} {reg : Nat} {i : Instr}
    (h : assemble op offset reg = some i) :
    i.op.toNat = op ∧ i.imm.toInt = offset ∧ (xlat i.rx).val = reg := by
  obtain ⟨⟨hop, hlo, hhi⟩, rx, hrx, rfl⟩ := assemble_eq_some_iff.1 h
  rw [instrOfOp_op, instrOfOp_imm, instrOfOp_rx]
  exact ⟨BitVec.toNat_ofNat .. ▸ Nat.mod_eq_of_lt hop,
    BitVec.toInt_ofInt_eq_self (by decide) hlo (Int.lt_add_one_iff.2 hhi), rxOf_eq_some_iff.1 hrx⟩

/-- Settles O6: the two tests of the assembler, and the fields of what it then makes. -/
theorem assemblerOperands : Obligations.AssemblerOperands := by
  refine fun op offset reg => ⟨?_, fun i => fields_of_assemble⟩
  rw [← rxOf_isSome_iff]
  simp only [Option.isSome_iff_exists, assemble_eq_some_iff]
  tauto

/-- Settles O24: the op field is its two codes, and the assembler's op is that of the instruction. -/
theorem operationFieldNamesOperationAndCache : Obligations.OperationFieldNamesOperationAndCache := by
  refine ⟨fun w i hi => ?_, fun op offset reg i hi => ?_⟩
  · obtain ⟨-, hop, -, -⟩ := fields_of_decodeWord hi
    rw [← opField_hi, ← opField_lo, hop]
    exact ⟨hop.symm, operationCode_eq_extract _, toNat_eq_codes _, cacheOfOp_eq_iff _ .i,
      cacheOfOp_eq_iff _ .d, cacheOfOp_eq_iff _ .t, cacheOfOp_eq_iff _ .s⟩
  · obtain ⟨⟨hop, -, -⟩, -⟩ := assemble_eq_some_iff.1 hi
    obtain ⟨htoNat, -, -⟩ := fields_of_assemble hi
    exact ⟨Nat.le_of_lt_succ hop, htoNat⟩

/-! ### The bytes of an instruction (R27, R58) -/

theorem halves_append (w : Word) : w.extractLsb' 16 16 ++ w.extractLsb' 0 16 = w :=
  BitVec.extractLsb'_append_extractLsb' (w := 16) (len := 16)

theorem bytes_append (h : Half) : h.extractLsb' 8 8 ++ h.extractLsb' 0 8 = h :=
  BitVec.extractLsb'_append_extractLsb' (w := 8) (len := 8)

theorem bytesOfHalf_halfOfBytes (be : Bool) (b0 b1 : Byte) :
    bytesOfHalf be (halfOfBytes be b0 b1) = [b0, b1] := by
  have hhi (x y : Byte) : (x ++ y : Half).extractLsb' 8 8 = x := BitVec.extractLsb'_append_eq_left
  have hlo (x y : Byte) : (x ++ y : Half).extractLsb' 0 8 = y := BitVec.extractLsb'_append_eq_right
  cases be <;> simp [bytesOfHalf, halfOfBytes, hhi, hlo]

theorem exists_halfOfBytes (be : Bool) (h : Half) : ∃ b0 b1, halfOfBytes be b0 b1 = h := by
  cases be <;> exact ⟨_, _, bytes_append h⟩

theorem bytesOfWord_wordOfBytes (be : Bool) (b0 b1 b2 b3 : Byte) :
    bytesOfWord be (wordOfBytes be b0 b1 b2 b3) = [b0, b1, b2, b3] := by
  have hfirst : (wordOfBytes be b0 b1 b2 b3).extractLsb' 16 16 = halfOfBytes be b0 b1 :=
    BitVec.extractLsb'_append_eq_left
  have hsecond : (wordOfBytes be b0 b1 b2 b3).extractLsb' 0 16 = halfOfBytes be b2 b3 :=
    BitVec.extractLsb'_append_eq_right
  rw [bytesOfWord, hfirst, hsecond, bytesOfHalf_halfOfBytes, bytesOfHalf_halfOfBytes]
  rfl

theorem exists_wordOfBytes (be : Bool) (w : Word) : ∃ b0 b1 b2 b3, wordOfBytes be b0 b1 b2 b3 = w := by
  obtain ⟨b0, b1, hfirst⟩ := exists_halfOfBytes be (w.extractLsb' 16 16)
  obtain ⟨b2, b3, hsecond⟩ := exists_halfOfBytes be (w.extractLsb' 0 16)
  exact ⟨b0, b1, b2, b3, by rw [wordOfBytes, hfirst, hsecond, halves_append]⟩

/-- The decoder reads the bytes of a word that decodes, and leaves those after them. -/
theorem decode_eq_ok_iff {be : Bool} {bytes rest : List Byte} {i : Instr} :
    decode be bytes = .ok (i, rest) ↔
      ∃ w, decodeWord w = some i ∧ bytes = bytesOfWord be w ++ rest := by
  constructor
  · intro h
    unfold decode at h
    split at h
    · next b0 b1 b2 b3 tail =>
      cases hw : decodeWord (wordOfBytes be b0 b1 b2 b3) with
      | none => simp [hw] at h
      | some j =>
        simp only [hw] at h
        cases h
        exact ⟨_, hw, by rw [bytesOfWord_wordOfBytes]; rfl⟩
    · cases h
  · rintro ⟨w, hw, rfl⟩
    obtain ⟨b0, b1, b2, b3, rfl⟩ := exists_wordOfBytes be w
    simp [bytesOfWord_wordOfBytes, decode, hw]

/-- Settles O2: the word of an instruction decodes to its variant, and a well-formed instruction is its
own variant. -/
theorem decodeOfEncodeIsTheInstruction : Obligations.DecodeOfEncodeIsTheInstruction :=
  fun _ i _ => ⟨decode_eq_ok_iff.2 ⟨_, decodeWord_encodeWord i, rfl⟩, canonicalInstr_of_wellFormed⟩

/-- Settles O3: a word that decodes is the word of its instruction. -/
theorem encodeOfDecodeIsTheBytes : Obligations.EncodeOfDecodeIsTheBytes := by
  intro be i bytes rest h
  obtain ⟨w, hw, rfl⟩ := decode_eq_ok_iff.1 h
  obtain ⟨hwf, rfl⟩ := decodeWord_eq_some_iff.1 hw
  exact ⟨rfl, hwf⟩

end Sys2Proof.Machine

/-! SUPPORT. The proofs of what each operation of 40_cache.md answers and which operations exist: one equation
for a whole instruction, one rule per end of an operation on its block, and the results built from them. -/

namespace Sys2Proof.Machine

/-! ### The end of an instruction (R61) -/

/-- What an instruction answers where its body ends so: pc + 4 after a state, the stop after a fault. -/
def endOf (s : State) : Except Fault State → Host.Outcome State Fault Refusal
  | .error f => .fault f
  | .ok t => .next (withPc t (s.pc + 4))

@[simp] theorem endOf_ok (s t : State) : endOf s (.ok t) = .next (withPc t (s.pc + 4)) := rfl

@[simp] theorem endOf_error (s : State) (f : Fault) : endOf s (.error f) = .fault f := rfl

/-- What lines 3 to 7 of R61 compute for an instruction on a cache. -/
abbrev instrAccess (c : CacheName) (imm : BitVec 9) (rx : BitVec 3) (s : State) (p : Nat) (u h : Bool) :
    Access :=
  ⟨c, effectiveAddress s imm rx, p, instrIndex c imm rx s p, u, h⟩

/-- An instruction that passes the checks of R61 ends as the body of its op. -/
theorem exec_executes {i : Instr} {op : BitVec 5} {c : CacheName} {s : State} {p : Nat} {u h : Bool}
    {body : Access → State → Except Fault State} (he : Executes op i.imm i.rx s p u h)
    (hop : i.op = op) (hb : opBody op = body) (hc : cacheOfOp op = c) :
    exec i s = endOf s (body (instrAccess c i.imm i.rx s p u h) s) := by
  subst hop hb hc
  have ha := cacheAccess_executes he
  cases hb : opBody i.op (instrAccess (cacheOfOp i.op) i.imm i.rx s p u h) s with
  | error f => exact exec_of_error ha hb
  | ok t => exact exec_of ha hb

/-! ### Operations that are not implemented (R60, R79) -/

theorem exec_cp0Unusable (i : Instr) {s : State} (h : s.cp0.cp0Usable = false) :
    exec i s = .fault (.trap (.coprocessorUnusable 0) s) := by
  rw [exec_check rfl, cacheAccess_eq, if_pos h]

/-- The stop comes before Watch and translation (D15). -/
theorem exec_notImplemented {i : Instr} {s : State} (hu : s.cp0.cp0Usable = true)
    (h : opImplemented s.cfg i.op = false) : exec i s = .fault (.undefinedOpNotImplemented i.op s) := by
  rw [exec_eq, cacheInstr, cacheAccess_eq, if_neg (by simp [hu]), if_pos h]

theorem opImplemented_of_absent {cfg : Cfg} {op : BitVec 5} (h : present cfg (cacheOfOp op) = false) :
    opImplemented cfg op = false := by
  simp [opImplemented, h]

theorem opImplemented_of_noRow {cfg : Cfg} {op : BitVec 5} (h : op = 24 ∨ op = 30 ∨ op = 31) :
    opImplemented cfg op = false := by
  have hr : opHasRow op = false := by rcases h with rfl | rfl | rfl <;> rfl
  simp [opImplemented, hr]

/-- Every Required operation has a row. -/
theorem opHasRow_of_required {op : BitVec 5} (h : opRequired op = true) : opHasRow op = true := by
  revert op; decide

theorem opImplemented_of_required {cfg : Cfg} {op : BitVec 5} (hp : present cfg (cacheOfOp op) = true)
    (h : opRequired op = true) : opImplemented cfg op = true := by
  simp [opImplemented, opHasRow_of_required h, hp, h]

/-- An operation that is not Required is implemented only where the implementation provides it. -/
theorem opImplemented_of_notProvided {cfg : Cfg} {op : BitVec 5} (hr : opRequired op = false)
    (h : op.toNat ∉ cfg.optionalOps) : opImplemented cfg op = false := by
  simp [opImplemented, hr, h]

/-- Settles O26: a Required operation of a cache that exists has a row; the stop is the second check. -/
theorem requiredOperationsExist : Obligations.RequiredOperationsExist := by
  intro cfg op
  refine ⟨opImplemented_of_absent, opImplemented_of_noRow, ?_, ?_, ?_, ?_, ?_⟩
  · rintro hp (rfl | rfl | rfl) <;> exact opImplemented_of_required hp rfl
  · rintro hp (rfl | rfl | rfl) <;> exact opImplemented_of_required hp rfl
  · rintro hp (rfl | rfl | rfl) <;> exact opImplemented_of_required hp rfl
  · rintro hp (rfl | rfl | rfl) <;> exact opImplemented_of_required hp rfl
  · rintro i s rfl rfl hu h
    exact exec_notImplemented hu h

/-- Settles O28: the second check stops an operation without a row, where the first lets it pass. -/
theorem noRowOperationsStop : Obligations.NoRowOperationsStop := by
  intro i imm rx s hi
  have hop : i.op = 24 ∨ i.op = 30 ∨ i.op = 31 := by
    simp only [List.mem_cons, List.not_mem_nil, or_false] at hi
    rcases hi with rfl | rfl | rfl <;> simp [Instr.op]
  cases hu : s.cp0.cp0Usable with
  | false => exact exec_cp0Unusable i hu
  | true => exact exec_notImplemented hu (opImplemented_of_noRow hop)

/-! ### Invalidating, flushing and cleaning a block (R64, R66, R71, R74, R76) -/

section
variable {c : CacheName} {acc : Access} {i : Instr} {s s1 : State} {set way w : Nat} {P : Prop}

theorem flushBlock_ownLine (h : holdsOwnLine s c set way = true) :
    flushBlock s c set way = .error (.unpredictableOwnLine c s) := by
  simp only [flushBlock, ownLineCheck_of_true h]

theorem hitInvalidate_miss (h : hitWays s c acc.ia acc.pAddr = []) : hitInvalidate c acc s = .ok s := by
  simp only [hitInvalidate, thenGlobalize_eq, hitInvalidateAt, findHit_of_nil h]

theorem hitInvalidate_ownLine (h : hitWays s c acc.ia acc.pAddr = [w])
    (ho : holdsOwnLine s c (setIdx s.cfg c acc.ia) w = true) :
    hitInvalidate c acc s = .error (.unpredictableOwnLine c s) := by
  simp only [hitInvalidate, thenGlobalize_eq, hitInvalidateAt, findHit_of_single h,
    ownLineCheck_of_true ho]

theorem hitInvalidate_hit (h : hitWays s c acc.ia acc.pAddr = [w])
    (ho : holdsOwnLine s c (setIdx s.cfg c acc.ia) w = false) :
    hitInvalidate c acc s = .ok (invalidate s c (setIdx s.cfg c acc.ia) w) := by
  simp only [hitInvalidate, thenGlobalize_eq, hitInvalidateAt, findHit_of_single h,
    ownLineCheck_of_false ho]

theorem hitWritebackInvalidate_miss (h : hitWays s c acc.ia acc.pAddr = []) :
    hitWritebackInvalidate c acc s = .ok s := by
  simp only [hitWritebackInvalidate, thenGlobalize_eq, hitWritebackInvalidateAt, findHit_of_nil h]

theorem hitWritebackInvalidate_hit (h : hitWays s c acc.ia acc.pAddr = [w]) :
    hitWritebackInvalidate c acc s = flushBlock s c (setIdx s.cfg c acc.ia) w := by
  simp only [hitWritebackInvalidate, thenGlobalize_eq, hitWritebackInvalidateAt, findHit_of_single h]

theorem hitWriteback_miss (h : hitWays s c acc.ia acc.pAddr = []) : hitWriteback c acc s = .ok s := by
  simp only [hitWriteback, thenGlobalize_eq, hitWritebackAt, findHit_of_nil h]

theorem hitWriteback_hit (h : hitWays s c acc.ia acc.pAddr = [w]) :
    hitWriteback c acc s = cleanAt s c (setIdx s.cfg c acc.ia) w := by
  simp only [hitWriteback, thenGlobalize_eq, hitWritebackAt, findHit_of_single h]

theorem needsWriteback_iff : needsWriteback s c set way = true ↔
    writeBack s.cfg c = true ∧ (block s c set way).valid = true ∧ (block s c set way).dirty = true :=
  ⟨fun h => by simpa [needsWriteback, and_assoc] using h, needsWriteback_true⟩

/-- A block that hits is valid, so only its dirty bit matters (R76). -/
theorem needsWriteback_iff_of_hit {ia p : Nat} (h : hitWays s c ia p = [w]) :
    needsWriteback s c (setIdx s.cfg c ia) w = true ↔
      writeBack s.cfg c = true ∧ (block s c (setIdx s.cfg c ia) w).dirty = true := by
  simp [needsWriteback_iff, valid_of_hit h]

/-- An instruction that ends as Index Invalidate (R65). -/
theorem exec_of_indexInvalidate (hx : exec i s = endOf s (indexInvalidate c acc s)) :
    let set := indexedSet s c acc.ia
    let way := indexedWay s c acc.ia
    (holdsOwnLine s c set way = false → exec i s = .next (withPc (setBlock s c set way
      (invalidBlock (block s c set way))) (s.pc + 4))) ∧
    (holdsOwnLine s c set way = true → exec i s = .fault (.unpredictableOwnLine c s)) := by
  refine ⟨fun ho => ?_, fun ho => ?_⟩
  · rw [hx, indexInvalidate, ownLineCheck_of_false ho]; rfl
  · rw [hx, indexInvalidate, ownLineCheck_of_true ho]; rfl

/-- An instruction that ends as Hit Invalidate on one cache, in the state `s1` (R71, R72). -/
theorem exec_of_hitInvalidate (hx : exec i s = endOf s (hitInvalidate c acc s1)) :
    (hitWays s1 c acc.ia acc.pAddr = [] → exec i s = .next (withPc s1 (s.pc + 4))) ∧
    (∀ w, hitWays s1 c acc.ia acc.pAddr = [w] → holdsOwnLine s1 c (setIdx s1.cfg c acc.ia) w = false →
      exec i s = .next (withPc (setBlock s1 c (setIdx s1.cfg c acc.ia) w
        (invalidBlock (block s1 c (setIdx s1.cfg c acc.ia) w))) (s.pc + 4))) ∧
    (∀ w, hitWays s1 c acc.ia acc.pAddr = [w] → holdsOwnLine s1 c (setIdx s1.cfg c acc.ia) w = true →
      exec i s = .fault (.unpredictableOwnLine c s1)) := by
  refine ⟨fun hm => ?_, fun w hh ho => ?_, fun w hh ho => ?_⟩
  · rw [hx, hitInvalidate_miss hm, endOf_ok]
  · rw [hx, hitInvalidate_hit hh ho, endOf_ok, invalidate]
  · rw [hx, hitInvalidate_ownLine hh ho, endOf_error]

/-- An instruction that ends as the flush of a block, in the state `s1`; `P` says when it is written back. -/
theorem exec_of_flushBlock (hx : exec i s = endOf s (flushBlock s1 c set way))
    (hP : needsWriteback s1 c set way = true ↔ P) :
    (holdsOwnLine s1 c set way = true → exec i s = .fault (.unpredictableOwnLine c s1)) ∧
    (holdsOwnLine s1 c set way = false →
      (P → nextEvent s1 = .ok →
        exec i s = .next (withPc (setBlock (enqueue (afterEvent s1) (writebackEntry s1 c set way))
          c set way (invalidBlock (block s1 c set way))) (s.pc + 4))) ∧
      (¬P → exec i s = .next (withPc (setBlock s1 c set way (invalidBlock (block s1 c set way)))
        (s.pc + 4)))) := by
  refine ⟨fun ho => ?_, fun ho => ⟨fun hd hn => ?_, fun hd => ?_⟩⟩
  · rw [hx, flushBlock_ownLine ho, endOf_error]
  · rw [hx, flushBlock_dirty ho (hP.2 hd) hn, endOf_ok]
  · rw [hx, flushBlock_clean ho (Bool.eq_false_iff.2 (mt hP.1 hd)), endOf_ok]

/-- An instruction that ends as Hit Writeback Invalidate on one cache, in the state `s1` (R74, R75). -/
theorem exec_of_hitWritebackInvalidate (hx : exec i s = endOf s (hitWritebackInvalidate c acc s1)) :
    let set := setIdx s1.cfg c acc.ia
    (hitWays s1 c acc.ia acc.pAddr = [] → exec i s = .next (withPc s1 (s.pc + 4))) ∧
    (∀ w, hitWays s1 c acc.ia acc.pAddr = [w] → holdsOwnLine s1 c set w = false →
      (writeBack s1.cfg c = true ∧ (block s1 c set w).dirty = true → nextEvent s1 = .ok →
        exec i s = .next (withPc (setBlock (enqueue (afterEvent s1) (writebackEntry s1 c set w))
          c set w (invalidBlock (block s1 c set w))) (s.pc + 4))) ∧
      (¬(writeBack s1.cfg c = true ∧ (block s1 c set w).dirty = true) →
        exec i s = .next (withPc (setBlock s1 c set w (invalidBlock (block s1 c set w)))
          (s.pc + 4)))) ∧
    (∀ w, hitWays s1 c acc.ia acc.pAddr = [w] → holdsOwnLine s1 c set w = true →
      exec i s = .fault (.unpredictableOwnLine c s1)) := by
  have hflush {w} (hh : hitWays s1 c acc.ia acc.pAddr = [w]) :=
    exec_of_flushBlock (hx.trans (by rw [hitWritebackInvalidate_hit hh])) (needsWriteback_iff_of_hit hh)
  refine ⟨fun hm => ?_, fun w hh => (hflush hh).2, fun w hh => (hflush hh).1⟩
  rw [hx, hitWritebackInvalidate_miss hm, endOf_ok]

/-- An instruction that ends as Hit Writeback on one cache, in the state `s1` (R76, R77). -/
theorem exec_of_hitWriteback (hx : exec i s = endOf s (hitWriteback c acc s1)) :
    let set := setIdx s1.cfg c acc.ia
    (hitWays s1 c acc.ia acc.pAddr = [] → exec i s = .next (withPc s1 (s.pc + 4))) ∧
    (∀ w, hitWays s1 c acc.ia acc.pAddr = [w] →
      (writeBack s1.cfg c = true ∧ (block s1 c set w).dirty = true → nextEvent s1 = .ok →
        exec i s = .next (withPc (setBlock (enqueue (afterEvent s1) (writebackEntry s1 c set w))
          c set w (cleanBlock (block s1 c set w))) (s.pc + 4))) ∧
      (¬(writeBack s1.cfg c = true ∧ (block s1 c set w).dirty = true) →
        exec i s = .next (withPc s1 (s.pc + 4)))) := by
  refine ⟨fun hm => ?_, fun w hh => ⟨fun hd hn => ?_, fun hd => ?_⟩⟩
  · rw [hx, hitWriteback_miss hm, endOf_ok]
  · rw [hx, hitWriteback_hit hh, cleanAt_dirty ((needsWriteback_iff_of_hit hh).2 hd) hn, endOf_ok]
  · rw [hx, hitWriteback_hit hh,
      cleanAt_clean (Bool.eq_false_iff.2 (mt (needsWriteback_iff_of_hit hh).1 hd)), endOf_ok]

end

/-- Settles O36: the own-line check decides. -/
theorem indexInvalidateIResult : Obligations.IndexInvalidateIResult :=
  fun imm rx _ _ _ _ he =>
    (exec_of_indexInvalidate
      (exec_executes (i := .indexInvalidateI imm rx) (op := 0) he rfl rfl rfl) :)

/-- Settles O37: the operation is a flush of the indexed block. -/
theorem indexWritebackInvalidateDResult : Obligations.IndexWritebackInvalidateDResult := by
  intro imm rx s p u h he
  have hx : exec (.indexWritebackInvalidateD imm rx) s
      = endOf s (indexWritebackInvalidate .d (instrAccess .d imm rx s p u h) s) :=
    exec_executes (op := 1) he rfl rfl rfl
  exact (exec_of_flushBlock hx needsWriteback_iff :)

/-- Settles O38: after the inner caches the operation is a flush of the indexed block. -/
theorem indexWritebackInvalidateOuterResult : Obligations.IndexWritebackInvalidateOuterResult := by
  intro c i imm rx s s1 p u h hi he set way hs
  have hx : exec i s = endOf s (indexWritebackInvalidateOuter c (instrAccess c imm rx s p u h) s) := by
    simp only [List.mem_pair, Prod.mk.injEq] at hi
    rcases hi with ⟨rfl, rfl⟩ | ⟨rfl, rfl⟩
    · exact exec_executes (op := 2) he rfl rfl rfl
    · exact exec_executes (op := 3) he rfl rfl rfl
  have hc : s1.cfg = s.cfg := by
    split at hs
    · exact innerFirst_cfg hs
    · cases hs; rfl
  have hfirst : indexInnerFirst c (instrAccess c imm rx s p u h) s = .ok s1 := hs
  rw [indexWritebackInvalidateOuter_eq, hfirst] at hx
  have hset : indexedSet s1 c (instrIndex c imm rx s p) = set := by rw [indexedSet, hc]; rfl
  have hway : indexedWay s1 c (instrIndex c imm rx s p) = way := by rw [indexedWay, hc]; rfl
  rw [← hset, ← hway, ← hc]
  exact (exec_of_flushBlock hx needsWriteback_iff :)

/-- Settles O42: the lookup, then the own-line check of the block that hits. -/
theorem hitInvalidateResult : Obligations.HitInvalidateResult := by
  intro c i imm rx s p u h hi he
  have hx : exec i s = endOf s (hitInvalidate c (instrAccess c imm rx s p u h) s) := by
    simp only [List.mem_pair, Prod.mk.injEq] at hi
    rcases hi with ⟨rfl, rfl⟩ | ⟨rfl, rfl⟩
    · exact exec_executes (op := 16) he rfl rfl rfl
    · exact exec_executes (op := 17) he rfl rfl rfl
  exact (exec_of_hitInvalidate hx :)

/-- Settles O43: as on I and D, in the state after the inner caches. -/
theorem hitInvalidateOuterResult : Obligations.HitInvalidateOuterResult := by
  intro c i imm rx s s1 p u h hi he hs
  have hx : exec i s = endOf s (hitInvalidateOuter c (instrAccess c imm rx s p u h) s) := by
    simp only [List.mem_pair, Prod.mk.injEq] at hi
    rcases hi with ⟨rfl, rfl⟩ | ⟨rfl, rfl⟩
    · exact exec_executes (op := 18) he rfl rfl rfl
    · exact exec_executes (op := 19) he rfl rfl rfl
  rw [hitInvalidateOuter_eq, hs] at hx
  have hr := exec_of_hitInvalidate hx
  rw [innerFirst_cfg hs] at hr
  exact hr

/-- Settles O45: the lookup, then the flush of the block that hits. -/
theorem hitWritebackInvalidateDResult : Obligations.HitWritebackInvalidateDResult :=
  fun imm rx _ _ _ _ he =>
    (exec_of_hitWritebackInvalidate
      (exec_executes (i := .hitWritebackInvalidateD imm rx) (op := 21) he rfl rfl rfl) :)

/-- Settles O46: as on D, in the state after the inner caches. -/
theorem hitWritebackInvalidateOuterResult : Obligations.HitWritebackInvalidateOuterResult := by
  intro c i imm rx s s1 p u h hi he hs
  have hx : exec i s = endOf s (hitWritebackInvalidateOuter c (instrAccess c imm rx s p u h) s) := by
    simp only [List.mem_pair, Prod.mk.injEq] at hi
    rcases hi with ⟨rfl, rfl⟩ | ⟨rfl, rfl⟩
    · exact exec_executes (op := 22) he rfl rfl rfl
    · exact exec_executes (op := 23) he rfl rfl rfl
  rw [hitWritebackInvalidateOuter_eq, hs] at hx
  rw [← innerFirst_cfg hs]
  exact (exec_of_hitWritebackInvalidate hx :)

/-- Settles O47: the lookup, then the cleaning of the block that hits. -/
theorem hitWritebackDResult : Obligations.HitWritebackDResult :=
  fun imm rx _ _ _ _ he =>
    (exec_of_hitWriteback (exec_executes (i := .hitWritebackD imm rx) (op := 25) he rfl rfl rfl) :)

/-- Settles O48: as on D, in the state after the inner caches. -/
theorem hitWritebackOuterResult : Obligations.HitWritebackOuterResult := by
  intro c i imm rx s s1 p u h hi he hs
  have hx : exec i s = endOf s (hitWritebackOuter c (instrAccess c imm rx s p u h) s) := by
    simp only [List.mem_pair, Prod.mk.injEq] at hi
    rcases hi with ⟨rfl, rfl⟩ | ⟨rfl, rfl⟩
    · exact exec_executes (op := 26) he rfl rfl rfl
    · exact exec_executes (op := 27) he rfl rfl rfl
  rw [hitWritebackOuter_eq, hs] at hx
  rw [← innerFirst_cfg hs]
  exact (exec_of_hitWriteback hx :)

end Sys2Proof.Machine

/-! SUPPORT. The proofs of what Index Load Tag, Index Store Tag, the implementation-dependent operations, Fill
and Fetch and Lock answer, which blocks a fill leaves alone, and where the own-line fault cannot come from. -/

namespace Sys2Proof.Machine

/-! ### The tag and data registers after a write (R16, R17) -/

section
variable (s : State) {c c' : CacheName} (v : Word × Word)

@[simp] theorem setData_tagLo : (setData s c v).cp0.tagLo = s.cp0.tagLo := by
  unfold setData; split <;> rfl

@[simp] theorem setData_tagHi : (setData s c v).cp0.tagHi = s.cp0.tagHi := by
  unfold setData; split <;> rfl

@[simp] theorem tagLo_setData : tagLo (setData s c v) c' = tagLo s c' := by simp [tagLo]

@[simp] theorem tagHi_setData : tagHi (setData s c v) c' = tagHi s c' := by simp [tagHi]

@[simp] theorem dataLo_setTag : dataLo (setTag s c v) c' = dataLo s c' := rfl

@[simp] theorem dataHi_setTag : dataHi (setTag s c v) c' = dataHi s c' := rfl

/-- Without data registers there is nothing to write (R17). -/
theorem setData_of_noDataRegs (h : s.cfg.hasDataRegs = false) : setData s c v = s := by
  simp [setData, h]

theorem data_setData (h : s.cfg.hasDataRegs = true) :
    dataLo (setData s c v) c = v.1 ∧ dataHi (setData s c v) c = v.2 := by
  simp [setData, h, dataLo, dataHi]

theorem tagHi_setTag_other (hp : s.cfg.tagRegsPerCache = true) (h : c' ≠ c) :
    tagHi (setTag s c v) c' = tagHi s c' := by
  simp [tagHi, setTag, tagHome, hp, PerCache.get_set_other _ _ h]

theorem data_setData_other (hp : s.cfg.tagRegsPerCache = true) (h : c' ≠ c) :
    dataLo (setData s c v) c' = dataLo s c' ∧ dataHi (setData s c v) c' = dataHi s c' := by
  unfold setData
  split
  · simp [dataLo, dataHi, tagHome, hp, PerCache.get_set_other _ _ h]
  · exact ⟨rfl, rfl⟩

end

/-- Settles O39: the tag registers are written, then the data registers, if there are any. -/
theorem indexLoadTagResult : Obligations.IndexLoadTagResult := by
  intro c i imm rx s p u h hi he ia b
  have hx : exec i s = endOf s (indexLoadTag c (instrAccess c imm rx s p u h) s) := by
    simp only [List.mem_cons, Prod.mk.injEq, List.not_mem_nil, or_false] at hi
    rcases hi with ⟨rfl, rfl⟩ | ⟨rfl, rfl⟩ | ⟨rfl, rfl⟩ | ⟨rfl, rfl⟩
    · exact exec_executes (op := 4) he rfl rfl rfl
    · exact exec_executes (op := 5) he rfl rfl rfl
    · exact exec_executes (op := 6) he rfl rfl rfl
    · exact exec_executes (op := 7) he rfl rfl rfl
  let tagged := setTag s c (tagPack s.cfg c b)
  let loaded := setData tagged c (dataRead s.cfg c b (indexedByte s c ia))
  have hmoves : Moves s loaded := indexLoadTag_reached c (instrAccess c imm rx s p u h) s
  obtain ⟨husable, hkernel⟩ := hmoves.modes
  refine ⟨withPc loaded (s.pc + 4), hx, ?_, fun hd => ?_, fun hd => ?_, fun hp c' hc => ?_, husable,
    hkernel, ?_, ?_, ?_, ?_, hmoves.regs, rfl⟩
  · exact Prod.ext ((tagLo_setData tagged _).trans (tagLo_setTag s c _))
      ((tagHi_setData tagged _).trans (tagHi_setTag s c _))
  · obtain ⟨hlo, hhi⟩ := data_setData tagged (c := c) (dataRead s.cfg c b (indexedByte s c ia)) hd
    exact Prod.ext hlo hhi
  · have hsame : loaded = tagged := setData_of_noDataRegs tagged _ hd
    rw [hsame]
    exact ⟨rfl, rfl⟩
  · obtain ⟨hlo, hhi⟩ := data_setData_other tagged (dataRead s.cfg c b (indexedByte s c ia)) hp hc
    exact ⟨(tagLo_setData tagged _).trans (tagLo_setTag_other s _ hp hc),
      (tagHi_setData tagged _).trans (tagHi_setTag_other s _ hp hc),
      hlo.trans (dataLo_setTag s _), hhi.trans (dataHi_setTag s _)⟩
  · exact setData_watch tagged c _
  · exact setData_caches tagged c _
  · exact setData_wbq tagged c _
  · exact setData_mem tagged c _

/-! ### The block that an index address selects (R22, R23) -/

section
variable {cfg : Cfg} {c : CacheName}

/-- The blocks of a cache of a well-formed configuration take up at most 29 bits of address (R4). -/
theorem cacheSize_dvd (hok : cfgOk cfg = true) (hp : present cfg c = true) :
    waySize cfg c * wayCount cfg c ∣ 2 ^ 29 := by
  have h := cacheOk_of_cfgOk hok c
  simp only [cacheOk, hp, Bool.not_true, Bool.false_or, Bool.and_eq_true, decide_eq_true_eq] at h
  obtain ⟨⟨hbits, -⟩, -⟩ := h
  simp only [waySize, lineBytes, setCount, wayCount, ← pow_add]
  exact pow_dvd_pow 2 hbits

/-- The offset of a line of a cache is below the cache's size. -/
theorem lineOffset_lt {k : Nat} (hk : k < setCount cfg c * wayCount cfg c) :
    k * lineBytes cfg c < waySize cfg c * wayCount cfg c :=
  calc k * lineBytes cfg c < setCount cfg c * wayCount cfg c * lineBytes cfg c :=
        Nat.mul_lt_mul_of_pos_right hk (lineBytes_pos cfg c)
    _ = waySize cfg c * wayCount cfg c := by rw [waySize]; ring

/-- In the standard layout set, way and byte are the address's own bits (R23). -/
theorem indexDecode_eq (hs : (cfg.caches.get c).indexLayout = .standard) (ia : Nat) :
    indexDecode cfg c ia = (setIdx cfg c ia, wayIdx cfg c ia, byteIdx cfg c ia) := by
  simp only [indexDecode, hs]

/-- An address that is `k` lines, modulo a multiple of the cache's size, has as its set and its way the
two digits of `k`. -/
theorem indexDecode_of_lineNumber (hs : (cfg.caches.get c).indexLayout = .standard) {k n ia : Nat}
    (hn : waySize cfg c * wayCount cfg c ∣ n) (hk : k < setCount cfg c * wayCount cfg c)
    (hia : ia % n = k * lineBytes cfg c) :
    indexDecode cfg c ia = (k % setCount cfg c, k / setCount cfg c, 0) := by
  have hmod : ia % (waySize cfg c * wayCount cfg c) = k * lineBytes cfg c := by
    rw [← Nat.mod_mod_of_dvd ia hn, hia, Nat.mod_eq_of_lt (lineOffset_lt hk)]
  have hway : ia % waySize cfg c = k % setCount cfg c * lineBytes cfg c := by
    rw [← Nat.mod_mul_right_mod ia (waySize cfg c) (wayCount cfg c), hmod, waySize,
      Nat.mul_comm (lineBytes cfg c), Nat.mul_mod_mul_right]
  have hset : setIdx cfg c ia = k % setCount cfg c := by
    rw [setIdx, ← Nat.mod_mul_right_div_self, ← waySize, hway, Nat.mul_div_cancel _ (lineBytes_pos cfg c)]
  have hwayIdx : wayIdx cfg c ia = k / setCount cfg c := by
    rw [wayIdx, ← Nat.mod_mul_right_div_self, hmod, waySize, ← Nat.div_div_eq_div_mul,
      Nat.mul_div_cancel _ (lineBytes_pos cfg c)]
  have hbyte : byteIdx cfg c ia = 0 := by
    rw [byteIdx, ← Nat.mod_mul_right_mod ia (lineBytes cfg c) (setCount cfg c), ← waySize, hway,
      Nat.mul_mod_left]
  rw [indexDecode_eq hs, hset, hwayIdx, hbyte]

/-- The segment bit of an index address in kseg0 is above the offset of the block. -/
theorem bootIndex_mod {k : Nat} (h : k * lineBytes cfg c < 2 ^ 29) :
    (bootIndex cfg c k).toNat % 2 ^ 29 = k * lineBytes cfg c := by
  rw [bootIndex, BitVec.toNat_or, Nat.or_mod_two_pow, BitVec.toNat_ofNat,
    Nat.mod_eq_of_lt (show k * lineBytes cfg c < 2 ^ 32 by omega), Nat.mod_eq_of_lt h]
  exact Nat.zero_or _

/-- Block `k` of those that the start-up program steps through (R106), and every address with its low bits. -/
theorem indexDecode_bootIndex (hs : (cfg.caches.get c).indexLayout = .standard) (hok : cfgOk cfg = true)
    (hp : present cfg c = true) {k : Nat} (hk : k < setCount cfg c * wayCount cfg c) {ia : Nat}
    (hia : ia % 2 ^ 29 = (bootIndex cfg c k).toNat % 2 ^ 29) :
    indexDecode cfg c ia = (k % setCount cfg c, k / setCount cfg c, 0) := by
  have hdvd := cacheSize_dvd hok hp
  have hlt : k * lineBytes cfg c < 2 ^ 29 := (lineOffset_lt hk).trans_le (Nat.le_of_dvd (by decide) hdvd)
  exact indexDecode_of_lineNumber hs hdvd hk (hia.trans (bootIndex_mod hlt))

end

theorem opBody_indexStoreTag {op : BitVec 5} (h : operationCode op = 2) :
    opBody op = indexStoreTag (cacheOfOp op) := by
  rcases op_of_operationCode h with rfl | rfl | rfl | rfl <;> rfl

/-- Settles O40: the number of a block is its set and its way as the digits of one number; the instruction
writes the tag of the block that is selected. -/
theorem indexStoreTagResult : Obligations.IndexStoreTagResult := by
  refine ⟨fun cfg c hs => ⟨indexDecode_eq hs, fun hok hp =>
    ⟨fun k hk ia hia => indexDecode_bootIndex hs hok hp hk hia, fun set hset way hway => ?_⟩⟩, ?_⟩
  · have hk : set + setCount cfg c * way < setCount cfg c * wayCount cfg c :=
      calc set + setCount cfg c * way < setCount cfg c * (way + 1) := by rw [Nat.mul_succ]; omega
        _ ≤ setCount cfg c * wayCount cfg c := Nat.mul_le_mul_left _ hway
    refine ⟨set + setCount cfg c * way, hk, fun k' hk' => ?_⟩
    rw [indexDecode_bootIndex hs hok hp hk' rfl]
    constructor
    · rintro ⟨rfl, rfl⟩
      exact (Nat.mod_add_div k' _).symm
    · rintro rfl
      exact ⟨by rw [Nat.add_mul_mod_self_left, Nat.mod_eq_of_lt hset],
        by rw [Nat.add_mul_div_left _ _ (setCount_pos cfg c), Nat.div_eq_of_lt hset, Nat.zero_add]⟩
  · intro c i imm rx s p u h hi he ia b f
    obtain ⟨hk, hc, him, hrx⟩ :
        operationCode i.op = 2 ∧ cacheOfOp i.op = c ∧ i.imm = imm ∧ i.rx = rx := by
      simp only [List.mem_cons, Prod.mk.injEq, List.not_mem_nil, or_false] at hi
      rcases hi with h | h | h | h | h | h | h | h <;> obtain ⟨rfl, rfl⟩ := h <;>
        simp [Instr.op, Instr.imm, Instr.rx, operationCode, cacheOfOp]
    subst hc him hrx
    exact ⟨rfl, exec_executes he rfl (opBody_indexStoreTag hk) rfl⟩

/-! ### Operation code 0b011 (R70) -/

/-- Settles O41: the operation is not Required; where it executes it makes its writes and ends as drawn. -/
theorem implDependentCompletes : Obligations.ImplDependentCompletes := by
  intro i imm rx s hi
  obtain ⟨hk, hr, him, hrx⟩ :
      operationCode i.op = 3 ∧ opRequired i.op = false ∧ i.imm = imm ∧ i.rx = rx := by
    simp only [List.mem_cons, List.not_mem_nil, or_false] at hi
    rcases hi with rfl | rfl | rfl | rfl <;>
      simp [Instr.op, Instr.imm, Instr.rx, operationCode, opRequired]
  subst him hrx
  refine ⟨fun hu hn => exec_notImplemented hu (opImplemented_of_notProvided hr hn), ?_⟩
  intro p u h he c r t
  have hend {e : Option ImplStop} (hs : r.stop = e) : exec i s = endOf s (implEnd t e) := by
    rw [← hs]
    exact exec_executes he rfl (opBody_implOp hk) rfl
  have hmoves : Moves s t :=
    .trans (moves_withDraws (afterImpl_eq s) (afterImpl_schedule s) (by simp)) (implWrites_moves _ _)
  have hmem : t.mem = s.mem := by
    obtain ⟨d, hd⟩ := afterImpl_eq s
    rw [implWrites_mem, hd, withDraws_mem]
  exact ⟨hend, hend, hend, fun _ => hend, fun _ _ => hend, fun _ _ => hend, fun _ => hend, fun _ => hend,
    fun _ => hend, hmoves.regs, hmem, hmoves.cfg, hmoves.modes.1, hmoves.modes.2⟩

/-! ### Filling a block (R63, R73, R78) -/

section
variable {c : CacheName} {s s1 s2 : State} {ia p w : Nat} {lk : Bool} {d : List Byte}

theorem fillBlock_allLocked (h : unlockedWays s c (setIdx s.cfg c ia) = []) :
    fillBlock s c ia p lk = .error (.undefinedAllWaysLocked c (setIdx s.cfg c ia) s) := by
  simp only [fillBlock, h, List.isEmpty_nil, if_true]

theorem victimWay_mem_of_ne_nil {set : Nat} (h : unlockedWays s c set ≠ []) :
    victimWay s c set ∈ unlockedWays s c set :=
  victimWay_mem (by simpa using h)

/-- The victim is written back, the line is read, and the victim's place is filled. -/
theorem fillBlock_of_readLine (hu : unlockedWays s c (setIdx s.cfg c ia) ≠ [])
    (hw : writeBackIfDirty (afterWay s) c (setIdx s.cfg c ia) (victimWay s c (setIdx s.cfg c ia)) = .ok s1)
    (hr : readLine s1 c p = .ok (d, s2)) :
    fillBlock s c ia p lk = .ok (setBlock s2 c (setIdx s.cfg c ia) (victimWay s c (setIdx s.cfg c ia))
      (filledBlock s.cfg c p lk d)) := by
  simp only [fillBlock, List.isEmpty_iff, hu, if_false, hw, hr]

theorem writeBackIfDirty_i (s : State) (set way : Nat) : writeBackIfDirty s .i set way = .ok s := by
  simp [writeBackIfDirty, needsWriteback_i]

/-- The victim of a fill needs a writeback if it is valid and dirty in a write-back cache. -/
theorem writeBackIfDirty_afterWay (s : State) (c : CacheName) (set way : Nat) :
    writeBackIfDirty (afterWay s) c set way =
      if writeBack s.cfg c ∧ (block s c set way).valid ∧ (block s c set way).dirty then
        writeBackBlock (afterWay s) c set way
      else .ok (afterWay s) := by
  rw [writeBackIfDirty, needsWriteback_afterWay]
  exact if_congr needsWriteback_iff rfl rfl

theorem fill_miss (acc : Access) (h : hitWays s c acc.ia acc.pAddr = []) :
    fill c acc s = fillBlock s c acc.ia acc.pAddr false := by
  simp only [fill, findHit_of_nil h]

theorem fill_hit_noChange (acc : Access) (h : hitWays s c acc.ia acc.pAddr = [w])
    (hf : s.cfg.fillOnHit = .noChange) :
    fill c acc s = .ok s := by
  simp only [fill, findHit_of_single h, hf]

theorem fill_hit_refill (acc : Access) (h : hitWays s c acc.ia acc.pAddr = [w])
    (hf : s.cfg.fillOnHit = .refill)
    (hr : readLine s c acc.pAddr = .ok (d, s1)) :
    fill c acc s = .ok (setBlock s1 c (setIdx s.cfg c acc.ia) w
      { block s c (setIdx s.cfg c acc.ia) w with data := d }) := by
  simp only [fill, findHit_of_single h, hf, hr]

theorem fetchLockAt_miss (h : hitWays s c ia p = []) : fetchLockAt s c ia p = fillBlock s c ia p true := by
  simp only [fetchLockAt, findHit_of_nil h]

theorem fetchLockAt_hit (h : hitWays s c ia p = [w]) : fetchLockAt s c ia p =
    .ok (setBlock s c (setIdx s.cfg c ia) w (lockedBlock (block s c (setIdx s.cfg c ia) w))) := by
  simp only [fetchLockAt, findHit_of_single h]

theorem fetchLock_of_error (acc : Access) {f : Fault} (h : fetchLockAt s c acc.ia acc.pAddr = .error f) :
    fetchLock c acc s = .error f := by
  simp only [fetchLock, h]

theorem fetchLockAt_cfg (h : fetchLockAt s c ia p = .ok s1) : s1.cfg = s.cfg :=
  cfg_of_ok (fetchLockAt_reached s c ia p) h

/-- Without further lines the referenced line is all. -/
theorem fetchLock_oneLine (acc : Access) (hx : s.cfg.fetchLockExtraLines = false) :
    fetchLock c acc s = fetchLockAt s c acc.ia acc.pAddr := by
  cases h : fetchLockAt s c acc.ia acc.pAddr with
  | error f => exact fetchLock_of_error acc h
  | ok s1 => simp [fetchLock, h, fetchLockAt_cfg h, hx]

/-- With further lines they follow the referenced line (log 24). -/
theorem fetchLock_furtherLines (acc : Access) (hx : s.cfg.fetchLockExtraLines = true)
    (h : fetchLockAt s c acc.ia acc.pAddr = .ok s1) :
    fetchLock c acc s = fetchLockLines c (nextLines s1) (afterLines s1) := by
  simp [fetchLock, h, fetchLockAt_cfg h, hx]

theorem fetchLockLines_eq_foldlM (c : CacheName) (ls : List Nat) (s : State) :
    fetchLockLines c ls s = ls.foldlM (fun t a => fetchLockAt t c a a) s := by
  induction ls generalizing s with
  | nil => rfl
  | cons a ls ih =>
    rw [fetchLockLines, List.foldlM_cons]
    cases fetchLockAt s c a a with
    | error f => rfl
    | ok t => exact ih t

end

/-- Settles O44: the lookup, then the policy on a hit, or the fill of the way drawn. -/
theorem fillResult : Obligations.FillResult := by
  intro imm rx s p u h he ia set
  let acc := instrAccess .i imm rx s p u h
  have hx : exec (.fillI imm rx) s = endOf s (fill .i acc s) :=
    exec_executes (op := 20) he rfl rfl rfl
  refine ⟨fun w hh hf => ?_, fun w d s1 hh hf hr => ?_, fun d s1 hh hu hr =>
    ⟨victimWay_mem_of_ne_nil hu, ?_⟩, fun hh hu => ?_⟩
  · rw [hx, fill_hit_noChange acc hh hf, endOf_ok]
  · rw [hx, fill_hit_refill acc hh hf hr, endOf_ok]
  · rw [hx, fill_miss acc hh, fillBlock_of_readLine hu (writeBackIfDirty_i _ _ _) hr]
    rfl
  · rw [hx, fill_miss acc hh, fillBlock_allLocked hu, endOf_error]

/-- Settles O49: the lookup, then the lock on a hit, or the fill of the way drawn; then the further lines. -/
theorem fetchLockResult : Obligations.FetchLockResult := by
  intro c i imm rx s p u h hi he ia set way
  let acc := instrAccess c imm rx s p u h
  have hx : exec i s = endOf s (fetchLock c acc s) := by
    simp only [List.mem_pair, Prod.mk.injEq] at hi
    rcases hi with ⟨rfl, rfl⟩ | ⟨rfl, rfl⟩
    · exact exec_executes (op := 28) he rfl rfl rfl
    · exact exec_executes (op := 29) he rfl rfl rfl
  refine ⟨fun hone => ⟨fun w hh => ?_, fun d s1 s2 hh hu hw hr => ⟨victimWay_mem_of_ne_nil hu, ?_⟩⟩,
    fun hh hu => ?_, fun s1 s2 hmore hs1 hs2 => ?_⟩
  · rw [hx, fetchLock_oneLine acc hone, fetchLockAt_hit hh]
    rfl
  · rw [← writeBackIfDirty_afterWay] at hw
    rw [hx, fetchLock_oneLine acc hone, fetchLockAt_miss hh, fillBlock_of_readLine hu hw hr]
    rfl
  · rw [hx, fetchLock_of_error acc ((fetchLockAt_miss hh).trans (fillBlock_allLocked hu)), endOf_error]
  · rw [hx, fetchLock_furtherLines acc hmore hs1, fetchLockLines_eq_foldlM, hs2, endOf_ok]

/-! ### Locked blocks (R63) -/

section
variable {c : CacheName} {s t : State} {ia p set way : Nat} {lk : Bool}

/-- A fill that completes writes one block, that of the victim, which is not locked. -/
theorem fillBlock_ok (h : fillBlock s c ia p lk = .ok t) : ∃ s2 b,
    t = setBlock s2 c (setIdx s.cfg c ia) (victimWay s c (setIdx s.cfg c ia)) b ∧
      victimWay s c (setIdx s.cfg c ia) ∈ unlockedWays s c (setIdx s.cfg c ia) ∧
      s2.cfg = s.cfg ∧ s2.caches = s.caches := by
  unfold fillBlock at h
  split at h
  · cases h
  · next hu =>
    split at h
    · cases h
    · next s1 hs1 =>
      split at h
      · cases h
      · next d s2 hr =>
        cases h
        obtain ⟨rfl, -⟩ := readLine_ok hr
        refine ⟨_, _, rfl, victimWay_mem (by simpa using hu), ?_, ?_⟩
        · rw [afterEvent_cfg, cfg_of_ok (writeBackIfDirty_reached _ _ _ _) hs1, afterWay_cfg]
        · rw [afterEvent_caches, (writeBackIfDirty_ok hs1).1, afterWay_caches]

theorem fillBlock_keeps_locked (h : fillBlock s c ia p lk = .ok t) (hway : way < wayCount s.cfg c)
    (hl : (block s c set way).lock = true) : block t c set way = block s c set way := by
  obtain ⟨s2, b, rfl, hv, hcfg, hcaches⟩ := fillBlock_ok h
  obtain ⟨hvlt, hvlock⟩ := mem_unlockedWays hv
  have hne : ¬(set = setIdx s.cfg c ia ∧ way = victimWay s c (setIdx s.cfg c ia)) := by
    rintro ⟨rfl, rfl⟩
    rw [hvlock] at hl
    cases hl
  rw [block_setBlock_other s2 b (by rwa [hcfg]) (by rwa [hcfg]) hne, block_congr hcfg hcaches]

/-- Setting the lock of a block changes no locked block. -/
theorem lockedBlock_keeps_locked {set' way' : Nat} (hm : KeysRise (s.caches.get c))
    (hway' : way' < wayCount s.cfg c) (hway : way < wayCount s.cfg c)
    (hl : (block s c set way).lock = true) :
    block (setBlock s c set' way' (lockedBlock (block s c set' way'))) c set way = block s c set way := by
  by_cases heq : set = set' ∧ way = way'
  · obtain ⟨rfl, rfl⟩ := heq
    rw [block_setBlock_same hm, lockedBlock, ← hl]
  · exact block_setBlock_other s _ hway' hway heq

theorem fill_keeps_locked {acc : Access} (hf : s.cfg.fillOnHit = .noChange) (h : fill c acc s = .ok t)
    (hway : way < wayCount s.cfg c) (hl : (block s c set way).lock = true) :
    block t c set way = block s c set way := by
  unfold fill at h
  split at h
  · cases h
  · exact fillBlock_keeps_locked h hway hl
  · rw [hf] at h
    cases h
    rfl

theorem fetchLockAt_keeps_locked (hm : KeysRise (s.caches.get c)) (h : fetchLockAt s c ia p = .ok t)
    (hway : way < wayCount s.cfg c) (hl : (block s c set way).lock = true) :
    block t c set way = block s c set way := by
  unfold fetchLockAt at h
  split at h
  · cases h
  · exact fillBlock_keeps_locked h hway hl
  · next w hw =>
    cases h
    exact lockedBlock_keeps_locked hm (findHit_way_lt hw) hway hl

end

/-- Settles O55: the way that is filled is not locked, and the block that hits only gets its lock. -/
theorem fillsNeverDisplaceALockedBlock : Obligations.FillsNeverDisplaceALockedBlock := by
  intro i s t p u h set way hop hone hf hwf he hn hway hl
  obtain ⟨s1, hb, rfl⟩ := exec_next_body he hn
  have hm := (hwf (cacheOfOp i.op)).1.1
  show block s1 (cacheOfOp i.op) set way = block s (cacheOfOp i.op) set way
  generalize i.op = op at *
  rcases fill_op_cases hop with rfl | rfl | rfl
  · exact fill_keeps_locked hf hb hway hl
  · exact fetchLockAt_keeps_locked hm ((fetchLock_oneLine _ hone).symm.trans hb) hway hl
  · exact fetchLockAt_keeps_locked hm ((fetchLock_oneLine _ hone).symm.trans hb) hway hl

/-! ### The own-line fault (R64) -/

theorem cacheAccess_vAddr {op : BitVec 5} {imm : BitVec 9} {rx : BitVec 3} {s : State} {acc : Access}
    (h : cacheAccess op imm rx s = .ok acc) : acc.vAddr = effectiveAddress s imm rx := by
  rw [cacheAccess_eq] at h
  repeat' split at h
  all_goals cases h
  rfl

/-- A fault that no check gives is one of the body, which runs on the effective address. -/
theorem exec_fault_of_body {i : Instr} {s : State} {f : Fault} (hk : f.kind ≠ .check)
    (hn : f.kind ≠ .noRow) (h : exec i s = .fault f) :
    ∃ acc, acc.vAddr = effectiveAddress s i.imm i.rx ∧ opBody i.op acc s = .error f := by
  rw [exec_eq] at h
  rcases cacheInstr_fault h with ha | ⟨acc, ha, hb⟩
  · rcases cacheAccess_kind ha with h' | rfl
    · exact absurd h' hk
    · exact absurd rfl hn
  · exact ⟨acc, cacheAccess_vAddr ha, hb⟩

/-- The kinds of fault of the operations that make no own-line check leave the own-line fault out. -/
theorem ownLine_not_mem_bodyFaults {op : BitVec 5}
    (h : (4 ≤ op.toNat ∧ op.toNat ≤ 11) ∨ op.toNat ∈ [20, 25, 28, 29]) :
    FaultKind.ownLine ∉ bodyFaults op := by
  revert op
  decide

/-- Hit Writeback on T or S without the inner-first policy is that of its cache alone. -/
theorem hitWritebackOuter_off {c : CacheName} {acc : Access} {s : State}
    (h : s.cfg.outerOpsInnerFirst = false) : hitWritebackOuter c acc s = hitWriteback c acc s := by
  simp only [hitWritebackOuter, innerFirst_off h]

/-- On T and S without the inner-first policy a Hit Writeback makes no own-line check either (log 33). -/
theorem hitWriteback_op_faults {op : BitVec 5} {acc : Access} {s : State} (hop : op.toNat ∈ [26, 27])
    (hi : actsInnerFirst s.cfg op = false) : FaultsIn [.duplicate, .transfer] (opBody op acc s) := by
  have houter (c : CacheName) (hoff : s.cfg.outerOpsInnerFirst = false) :
      FaultsIn [.duplicate, .transfer] (hitWritebackOuter c acc s) :=
    hitWritebackOuter_off hoff ▸ hitWriteback_faults c acc s
  have hops : op = 26 ∨ op = 27 := by clear hi; revert op; decide
  rcases hops with rfl | rfl
  · exact houter .t (by simpa [actsInnerFirst, outerOp, cacheOfOp, operationCode] using hi)
  · exact houter .s (by simpa [actsInnerFirst, outerOp, cacheOfOp, operationCode] using hi)

/-- Settles O57: the fault is one of the body; no part of the body that is run gives it. -/
theorem ownLineOnlyByInvalidates : Obligations.OwnLineOnlyByInvalidates := by
  intro i s t c hcases hx
  obtain ⟨acc, hv, hb⟩ := exec_fault_of_body (by simp [Fault.kind]) (by simp [Fault.kind]) hx
  generalize i.op = op at *
  rcases hcases with hop | hop | ⟨hop, hoff⟩ | ⟨h12, h15, hstop⟩
  · exact ownLine_not_mem_bodyFaults (.inl hop) (opBody_faults op acc s _ hb)
  · exact ownLine_not_mem_bodyFaults (.inr hop) (opBody_faults op acc s _ hb)
  · simpa [Fault.kind] using hitWriteback_op_faults hop hoff _ hb
  · rw [opBody_implOp (by unfold operationCode; omega)] at hb
    have h := implOp_ownLine hb
    rw [hv] at h
    exact hstop _ _ h

end Sys2Proof.Machine

/-! SUPPORT. The proofs about the exceptions (60_exceptions.md): which trap the checks of R61 take, said once
for every instruction, and which operations can take the error of a line transfer. -/

namespace Sys2Proof.Machine

/-! ### The traps of the checks (R61, R80 to R83, R86, R91) -/

/-- The trap that line 5 of R61 takes for what the translation answers (R81 to R83). -/
def translationTrap (v : Word) : Translation → Option Exception
  | .addressError => some (.addressError .adel v)
  | .tlbRefill => some (.tlbRefill .tlbl v)
  | .tlbInvalid => some (.tlbInvalid .tlbl v)
  | .ok _ _ _ => none

theorem translationTrap_eq_some_iff {v : Word} {a : Translation} {e : Exception} :
    translationTrap v a = some e ↔ a = .addressError ∧ e = .addressError .adel v ∨
      a = .tlbRefill ∧ e = .tlbRefill .tlbl v ∨ a = .tlbInvalid ∧ e = .tlbInvalid .tlbl v := by
  cases a <;> simp [translationTrap, eq_comm]

/-- The traps of R61's checks in their order (D15, R91), with the state before the instruction (R92). -/
theorem exec_trap_iff {i : Instr} {s t : State} {e : Exception} (hk : (Fault.trap e t).kind = .check) :
    exec i s = .fault (.trap e t) ↔
      (s.cp0.cp0Usable = false ∧ e = .coprocessorUnusable 0 ∨
        s.cp0.cp0Usable = true ∧ opImplemented s.cfg i.op = true ∧
          ((s.cfg.watchOnCache && watchMatch s (effectiveAddress s i.imm i.rx)) = true ∧
              e = .watch (effectiveAddress s i.imm i.rx) ∨
            (s.cfg.watchOnCache && watchMatch s (effectiveAddress s i.imm i.rx)) = false ∧
              translationTrap (effectiveAddress s i.imm i.rx) (translate s (effectiveAddress s i.imm i.rx))
                = some e)) ∧ t = s := by
  rw [exec_check hk, cacheAccess_eq]
  cases s.cp0.cp0Usable
  · simp [@eq_comm _ e, @eq_comm _ t]
  cases opImplemented s.cfg i.op
  · simp
  cases s.cfg.watchOnCache && watchMatch s (effectiveAddress s i.imm i.rx)
  · cases translate s (effectiveAddress s i.imm i.rx) with
    | ok p u h => cases u <;> cases requiresAddress s.cfg i.op <;> simp [translationTrap]
    | addressError => simp [translationTrap, @eq_comm _ t]
    | tlbRefill => simp [translationTrap, @eq_comm _ t]
    | tlbInvalid => simp [translationTrap, @eq_comm _ t]
  · simp [@eq_comm _ e, @eq_comm _ t]

/-- Settles O27: of the traps of the checks, only that of line 1 is Coprocessor Unusable. -/
theorem coprocessorUnusableExactly : Obligations.CoprocessorUnusableExactly := by
  intro i s t cop
  simp [exec_trap_iff (e := .coprocessorUnusable cop) rfl, translationTrap_eq_some_iff, and_assoc]

/-- Settles O29: of the traps of the checks, only that of line 4 is Watch. -/
theorem watchExactly : Obligations.WatchExactly := by
  intro i s t v
  simp [exec_trap_iff (e := .watch v) rfl, translationTrap_eq_some_iff, and_assoc]

/-- Settles O31: of the traps of the checks, only that of a refused kernel address is Address Error. -/
theorem addressErrorExactly : Obligations.AddressErrorExactly := by
  intro i s t code v
  rw [← kernelAddressRefused_iff, ← translate_eq_addressError_iff]
  simp [exec_trap_iff (e := .addressError code v) rfl, translationTrap_eq_some_iff, and_assoc]

theorem exec_tlbRefill_iff {i : Instr} {s t : State} {code : CauseCode} {v : Word} :
    exec i s = .fault (.trap (.tlbRefill code v) t) ↔
      s.cp0.cp0Usable = true ∧ opImplemented s.cfg i.op = true ∧
        (s.cfg.watchOnCache && watchMatch s (effectiveAddress s i.imm i.rx)) = false ∧
        translate s (effectiveAddress s i.imm i.rx) = .tlbRefill ∧
        code = .tlbl ∧ v = effectiveAddress s i.imm i.rx ∧ t = s := by
  simp [exec_trap_iff (e := .tlbRefill code v) rfl, translationTrap_eq_some_iff, and_assoc]

theorem exec_tlbInvalid_iff {i : Instr} {s t : State} {code : CauseCode} {v : Word} :
    exec i s = .fault (.trap (.tlbInvalid code v) t) ↔
      s.cp0.cp0Usable = true ∧ opImplemented s.cfg i.op = true ∧
        (s.cfg.watchOnCache && watchMatch s (effectiveAddress s i.imm i.rx)) = false ∧
        translate s (effectiveAddress s i.imm i.rx) = .tlbInvalid ∧
        code = .tlbl ∧ v = effectiveAddress s i.imm i.rx ∧ t = s := by
  simp [exec_trap_iff (e := .tlbInvalid code v) rfl, translationTrap_eq_some_iff, and_assoc]

/-- Settles O30: the TLB traps are those of the translation's answers, and a kseg0 address always has a
region (R30 item 3). -/
theorem tlbTrapsExactly : Obligations.TlbTrapsExactly := by
  refine ⟨fun _ _ _ _ _ => exec_tlbRefill_iff, fun _ _ _ _ _ => exec_tlbInvalid_iff, ?_⟩
  intro i s t code v hc h1 h2 hx
  obtain ⟨-, -, -, ht, -⟩ := exec_tlbRefill_iff.1 hx
  exact (translate_kseg0 hc h1 h2).1 ht

/-- The checks take none of the three exceptions that CACHE never raises (R87). -/
theorem exec_ne_modified_or_inhibit {i : Instr} {s t : State} {v : Word} {e : Exception}
    (he : e ∈ [.tlbModified v, .executeInhibit v, .readInhibit v]) : exec i s ≠ .fault (.trap e t) := by
  simp only [List.mem_cons, List.not_mem_nil, or_false] at he
  rcases he with rfl | rfl | rfl <;>
    rw [ne_eq, exec_trap_iff rfl, translationTrap_eq_some_iff] <;> simp

/-- Settles O32: three exceptions are no trap of any check; the others have the code and the condition of their
one check. -/
theorem neverRaises : Obligations.NeverRaises := by
  intro i s t v code
  have haddress := addressErrorExactly i s t code v
  have hnever {e : Exception} := exec_ne_modified_or_inhibit (i := i) (s := s) (t := t) (v := v) (e := e)
  refine ⟨hnever (by simp), hnever (by simp), hnever (by simp), ?_, ?_, ?_, ?_⟩
  · simp [exec_tlbRefill_iff]
  · simp [exec_tlbInvalid_iff]
  · intro hcode hx
    obtain ⟨-, -, -, -, hadel, -, -⟩ := haddress.1 hx
    exact hcode hadel
  · intro hx
    obtain ⟨-, -, -, ⟨-, hmode, hspace⟩, -, rfl, -⟩ := haddress.1 hx
    exact ⟨hmode, hspace⟩

/-! ### The error of a line transfer (R84, R85) -/

/-- The operations that move no line, their inner-first part included, end in no fault of a transfer. -/
theorem transfer_not_mem_bodyFaults {op : BitVec 5}
    (h : op = 0 ∨ (4 ≤ op.toNat ∧ op.toNat ≤ 11) ∨ (16 ≤ op.toNat ∧ op.toNat ≤ 19)) :
    FaultKind.transfer ∉ bodyFaults op := by
  revert op
  decide

/-- Settles O34: both errors are faults of a transfer, which the body of these operations never makes. -/
theorem noTransferNoTransferError : Obligations.NoTransferNoTransferError := by
  intro i s t hop
  have hbody (f : Fault) (hf : f.kind = .transfer) : exec i s ≠ .fault f := fun hx =>
    transfer_not_mem_bodyFaults hop
      (hf ▸ exec_body_fault (by simp [hf]) (by simp [hf]) hx)
  exact ⟨hbody _ rfl, hbody _ rfl⟩

end Sys2Proof.Machine

/-! SUPPORT. The proofs of what reset leaves (R105): the registers, the blocks and the machine's invariant. -/

namespace Sys2Proof.Machine

/-- A cache in which nothing is listed has blank blocks only (log 5). -/
theorem block_of_empty {s : State} (h : s.caches = .all []) (c : CacheName) (set way : Nat) :
    block s c set way = .blank (lineBytes s.cfg c) := by
  simp [block, h, sparseGet, sparseFind]

/-- Caches in which nothing is listed meet the premise `CachesInitialised` of R105. -/
theorem cachesInitialised_of_empty {s : State} (h : s.caches = .all []) : CachesInitialised s := by
  intro c set way _ _ _
  rw [block_of_empty h]
  exact ⟨rfl, rfl, rfl⟩

@[simp] theorem readReg_reset (r : Fin 32) : readReg State.reset r = 0 := by
  simp [readReg, State.reset]

/-- Whichever registers a cache uses as its own (R16, R17), they are 0 at reset (log 3). -/
theorem tagDataRegs_reset (c : CacheName) :
    tagLo State.reset c = 0 ∧ tagHi State.reset c = 0 ∧ dataLo State.reset c = 0 ∧
      dataHi State.reset c = 0 :=
  ⟨PerCache.get_all .., PerCache.get_all .., PerCache.get_all .., PerCache.get_all ..⟩

/-- Settles O10: WBQ, pc and the mode bits are fields of the reset state; every register is 0 there, and the
blocks are blank because no cache lists any. -/
theorem stateAfterReset : Obligations.StateAfterReset :=
  ⟨rfl, readReg_zero _, rfl, rfl, rfl, readReg_reset, tagDataRegs_reset, cachesInitialised_of_empty rfl⟩

/-- REFCFG meets the conditions on a configuration (R4, D34; logs 2, 31). -/
theorem refCfg_ok : cfgOk refCfg = true := by decide

/-- Settles O59: memory and the caches list nothing, the configuration is REFCFG, and the reset pc is even. -/
theorem resetHasTheInvariant : Obligations.ResetHasTheInvariant :=
  ⟨reset_mem_wf, cachesWellFormed_of_empty rfl, refCfg_ok, by decide⟩

end Sys2Proof.Machine
